-- ==== Sys2Proof/Word.lean ====
section
/-! DEFINITION. The word types of PHF-CORE: the 32-bit command word (30_encoding.md R70), the byte of a space
(20_memory.md R50), the 8-bit fields of a word (R71), and the limb vectors (00_scope.md R15). -/

namespace Sys2Proof

/-- One command word, 32 bits (R70). -/
abbrev Word := BitVec 32

/-- One byte of a byte space (R50). -/
abbrev Byte := BitVec 8

/-- The 8-bit field of a command word that names a register (R71, R73). -/
abbrev RegNo := BitVec 8

/-- The 8-bit field of a command word that holds an unsigned immediate (R71, R73). -/
abbrev Imm8 := BitVec 8

/-- A vector of limbs, limb 0 first. Limbs are exact natural numbers (R13, R16): no limb ever wraps, a
result that does not fit its storage faults, so a limb is a `Nat` and not a bit vector. -/
abbrev Limbs := List Nat

end Sys2Proof
end

