-- ==== Sys2Proof/Config.lean ====
section
/-! DEFINITION. The configuration record of 00_scope.md R6: what a build of PHF-CORE fixes. Every open
parameter of the spec that some rule reads is a field. The quantities derived from a record, its
well-formedness (R9) and the two named instances stand in Machine/Geometry.lean. -/

namespace Sys2Proof

/-- A byte-transform hook (R12): the identity, which is the default, or some other map. The other maps are
"opaque byte-to-byte maps of fixed input/output width", so `other id` stands for `Config.hookMap id`. -/
inductive Hook where
  | identity
  | other (id : Nat)
  deriving DecidableEq, Repr

/-- The map of hook `id` on buffers of `n` bytes, seen as one little-endian number of `8*n` bits
(DESIGN CHOICE, log entry 5): a free value, no proof can see what it is. The width is kept by the type. -/
opaque Config.hookMap (id n : Nat) : BitVec (8 * n) → BitVec (8 * n)

/-- Whether a faulting VERIFY leaves OUT as it was, as 60_exceptions.md R226 says ("HASH only"), or leaves its bytes
unspecified, as the row U12 of 93_implementation_defined.md says of R226: a free value, no proof can see which
(DESIGN CHOICE, log entry 22). -/
opaque Config.verifyFaultKeepsOut : Bool

/-- The clamping scheme (R10, 42_key.md R151): `CLASSIC`, `NONE`, or another scheme whose mask the spec leaves
as the open parameter `CLAMP_MASK`. -/
inductive Clamp where
  | classic
  | unclamped
  | other (mask : Nat)
  deriving DecidableEq, Repr

/-- The strategy (R11, 43_hash_engine.md R184 to R188). -/
inductive Strategy where
  | chain
  | branch (B : Nat)
  | delay (D : Nat)
  | tree (H : Nat)
  | nested (L : Nat)
  deriving DecidableEq, Repr

/-- The configuration record of R6, field by field under the spec's own names. `MSGMAX = none` is the
unbounded message space R224 allows. `p`, `e`, `b[i]`, `FOLD` and `CLAMP_MASK` are derived
(Machine/Geometry.lean). `HOST_BINDING` is read by no rule and is left out. -/
structure Config where
  PBITS : Nat
  DELTA : Nat
  r : Nat
  N : Nat
  W : Nat
  BLOCKSIZE : Nat
  SUBKEYSIZE : Nat
  NTAGS : Nat
  KEYSIZE : Nat
  SUBTAGSIZE : Nat
  OUTPUTSIZE : Nat
  CLAMP : Clamp
  STRATEGY : Strategy
  TK : Hook
  TM : Hook
  TF : Hook
  NF : Nat
  NW : Nat
  NP : Nat
  MSGMAX : Option Nat
  HAS_VERIFY : Bool
  deriving DecidableEq, Repr

end Sys2Proof
end

