-- ==== Sys2Proof/Syntax.lean ====
section
/-! DEFINITION. The commands of PHF-CORE: one constructor per row of spec/opcode_table.json
(30_encoding.md R74), with the operands in the order of its assembler text (R79). -/

namespace Sys2Proof

/-- The 20 commands (R74). Operand names follow the formats of R72: `fd fa fb` narrow, `wd wa wb` wide, `pd pb`
precomputed-factor registers, `idx` a slot, `n` a count. -/
inductive Instr where
  | add (fd fa fb : RegNo)
  | addw (wd wa wb : RegNo)
  | mul (wd fa fb : RegNo)
  | sqr (wd fa : RegNo)
  | precomp (pd fa : RegNo)
  | mulp (wd fa pb : RegNo)
  | carry (fd wa : RegNo)
  | reduce (fd fa : RegNo)
  | zero (fd : RegNo)
  | zerow (wd : RegNo)
  | unpack (fd : RegNo) (idx : Imm8)
  | encb (fd : RegNo)
  | encl (fd : RegNo)
  | pack (fa : RegNo) (idx : Imm8)
  | mrst
  | dkey (fd : RegNo) (idx : Imm8)
  | dpow (fd fa : RegNo) (n : Imm8)
  | dpow2 (fd fa : RegNo) (n : Imm8)
  | hash
  | verify
  deriving DecidableEq, Repr

end Sys2Proof
end

