-- ==== Sys2Proof/WellFormed.lean ====
section
/-! DEFINITION. When a command is legal for a configuration: the operand ranges of 30_encoding.md R73 and the
presence of VERIFY (R76). Every reason a word can be illegal (R78) has a name. -/

namespace Sys2Proof

/-- Why a word is illegal (R78). The first two are found by the decoder, the others by `Instr.check`. -/
inductive Illegal where
  /-- The opcode is not in the map of R74. -/
  | unknownOpcode
  /-- A field the format does not use is not 0 (R72). -/
  | unusedField
  /-- A register number is at or above NF, NW or NP (R73). -/
  | registerRange
  /-- A slot immediate is at or above NTAGS (R73). -/
  | slotRange
  /-- A DPOW or DPOW2 count is 0, or its range of registers passes NF (R73). -/
  | countRange
  /-- Opcode 0x21 while HAS_VERIFY is false (R76). -/
  | verifyAbsent
  deriving DecidableEq, Repr

/-- A register number below the size of its file (R73). -/
def RegNo.inFile (i : RegNo) (size : Nat) : Bool := decide (i.toNat < size)

/-- The verdict on register numbers that must all be in range, before a further verdict. -/
def registersThen (ok : Bool) (rest : Option Illegal) : Option Illegal :=
  if ok then rest else some .registerRange

/-- The slot immediate of formats FI and SI (R73). -/
def slotCheck (c : Config) (idx : Imm8) : Option Illegal :=
  if idx.toNat < c.NTAGS then none else some .slotRange

/-- The count of format FFI: `1 <= n` and registers `a .. a+n-1` below NF (R73). -/
def countCheck (c : Config) (a : RegNo) (n : Imm8) : Option Illegal :=
  if 1 ≤ n.toNat ∧ a.toNat + n.toNat ≤ c.NF then none else some .countRange

/-- What makes a command illegal under a configuration, if anything (R73, R76, R78). -/
def Instr.check (c : Config) : Instr → Option Illegal
  | .add fd fa fb => registersThen (fd.inFile c.NF && fa.inFile c.NF && fb.inFile c.NF) none
  | .addw wd wa wb => registersThen (wd.inFile c.NW && wa.inFile c.NW && wb.inFile c.NW) none
  | .mul wd fa fb => registersThen (wd.inFile c.NW && fa.inFile c.NF && fb.inFile c.NF) none
  | .sqr wd fa => registersThen (wd.inFile c.NW && fa.inFile c.NF) none
  | .precomp pd fa => registersThen (pd.inFile c.NP && fa.inFile c.NF) none
  | .mulp wd fa pb => registersThen (wd.inFile c.NW && fa.inFile c.NF && pb.inFile c.NP) none
  | .carry fd wa => registersThen (fd.inFile c.NF && wa.inFile c.NW) none
  | .reduce fd fa => registersThen (fd.inFile c.NF && fa.inFile c.NF) none
  | .zero fd => registersThen (fd.inFile c.NF) none
  | .zerow wd => registersThen (wd.inFile c.NW) none
  | .unpack fd idx => registersThen (fd.inFile c.NF) (slotCheck c idx)
  | .encb fd => registersThen (fd.inFile c.NF) none
  | .encl fd => registersThen (fd.inFile c.NF) none
  | .pack fa idx => registersThen (fa.inFile c.NF) (slotCheck c idx)
  | .mrst => none
  | .dkey fd idx => registersThen (fd.inFile c.NF) (slotCheck c idx)
  | .dpow fd fa n => registersThen (fd.inFile c.NF && fa.inFile c.NF) (countCheck c fd n)
  | .dpow2 fd fa n => registersThen (fd.inFile c.NF && fa.inFile c.NF) (countCheck c fd n)
  | .hash => none
  | .verify => if c.HAS_VERIFY then none else some .verifyAbsent

/-- The command is legal under the configuration. -/
def Instr.wf (c : Config) (i : Instr) : Bool := (i.check c).isNone

end Sys2Proof
end

