-- ==== Sys2Proof/Decode.lean ====
section
/-! DEFINITION. Command words: fields (30_encoding.md R71), the opcode map (R74), the decoder (R75) and the
encoder. `decode` finds the row and checks its unused fields; `decodeFor` adds the range checks of a
configuration, and is the total decoder of R75. -/

namespace Sys2Proof

/-- `op = word[31:24]` (R71). -/
def fieldOp (w : Word) : BitVec 8 := w.extractLsb' 24 8
/-- `a = word[23:16]` (R71). -/
def fieldA (w : Word) : BitVec 8 := w.extractLsb' 16 8
/-- `b = word[15:8]` (R71). -/
def fieldB (w : Word) : BitVec 8 := w.extractLsb' 8 8
/-- `c = word[7:0]` (R71). -/
def fieldC (w : Word) : BitVec 8 := w.extractLsb' 0 8

/-- The word `op*2^24 + a*2^16 + b*2^8 + c` (R71). -/
def assemble (op a b c : BitVec 8) : Word := op ++ a ++ b ++ c

/-- The opcode of each command (R74). -/
def Instr.opcode : Instr → BitVec 8
  | .add .. => 0x01
  | .addw .. => 0x02
  | .mul .. => 0x03
  | .sqr .. => 0x04
  | .precomp .. => 0x05
  | .mulp .. => 0x06
  | .carry .. => 0x07
  | .reduce .. => 0x08
  | .zero .. => 0x09
  | .zerow .. => 0x0A
  | .unpack .. => 0x10
  | .encb .. => 0x11
  | .encl .. => 0x12
  | .pack .. => 0x13
  | .mrst => 0x14
  | .dkey .. => 0x18
  | .dpow .. => 0x19
  | .dpow2 .. => 0x1A
  | .hash => 0x20
  | .verify => 0x21

/-- The fields `a`, `b`, `c` of each command by its format (R72); an unused field is 0. -/
def Instr.fields : Instr → BitVec 8 × BitVec 8 × BitVec 8
  | .add fd fa fb => (fd, fa, fb)
  | .addw wd wa wb => (wd, wa, wb)
  | .mul wd fa fb => (wd, fa, fb)
  | .sqr wd fa => (wd, fa, 0)
  | .precomp pd fa => (pd, fa, 0)
  | .mulp wd fa pb => (wd, fa, pb)
  | .carry fd wa => (fd, wa, 0)
  | .reduce fd fa => (fd, fa, 0)
  | .zero fd => (fd, 0, 0)
  | .zerow wd => (wd, 0, 0)
  | .unpack fd idx => (fd, 0, idx)
  | .encb fd => (fd, 0, 0)
  | .encl fd => (fd, 0, 0)
  | .pack fa idx => (fa, 0, idx)
  | .mrst => (0, 0, 0)
  | .dkey fd idx => (fd, 0, idx)
  | .dpow fd fa n => (fd, fa, n)
  | .dpow2 fd fa n => (fd, fa, n)
  | .hash => (0, 0, 0)
  | .verify => (0, 0, 0)

/-- The word of a command (R71 to R74). -/
def encode (i : Instr) : Word := assemble i.opcode i.fields.1 i.fields.2.1 i.fields.2.2

/-- Accept a command when every field its format does not use is 0 (R72). -/
def whenUnused (zeroFields : Bool) (i : Instr) : Except Illegal Instr :=
  if zeroFields then .ok i else .error .unusedField

/-- The row of an opcode (R74) with the fields `a`, `b`, `c`, once its unused fields are 0 (R72). -/
def decodeRow (op a b c : BitVec 8) : Except Illegal Instr :=
  if op = 0x01 then .ok (.add a b c)
  else if op = 0x02 then .ok (.addw a b c)
  else if op = 0x03 then .ok (.mul a b c)
  else if op = 0x04 then whenUnused (c == 0) (.sqr a b)
  else if op = 0x05 then whenUnused (c == 0) (.precomp a b)
  else if op = 0x06 then .ok (.mulp a b c)
  else if op = 0x07 then whenUnused (c == 0) (.carry a b)
  else if op = 0x08 then whenUnused (c == 0) (.reduce a b)
  else if op = 0x09 then whenUnused (b == 0 && c == 0) (.zero a)
  else if op = 0x0A then whenUnused (b == 0 && c == 0) (.zerow a)
  else if op = 0x10 then whenUnused (b == 0) (.unpack a c)
  else if op = 0x11 then whenUnused (b == 0 && c == 0) (.encb a)
  else if op = 0x12 then whenUnused (b == 0 && c == 0) (.encl a)
  else if op = 0x13 then whenUnused (b == 0) (.pack a c)
  else if op = 0x14 then whenUnused (a == 0 && b == 0 && c == 0) .mrst
  else if op = 0x18 then whenUnused (b == 0) (.dkey a c)
  else if op = 0x19 then .ok (.dpow a b c)
  else if op = 0x1A then .ok (.dpow2 a b c)
  else if op = 0x20 then whenUnused (a == 0 && b == 0 && c == 0) .hash
  else if op = 0x21 then whenUnused (a == 0 && b == 0 && c == 0) .verify
  else .error .unknownOpcode

/-- The decoder of R75 but for the ranges: the row of the opcode and its unused fields. -/
def decode (w : Word) : Except Illegal Instr := decodeRow (fieldOp w) (fieldA w) (fieldB w) (fieldC w)

/-- The total decoder of R75: a legal command, or the reason the word is illegal (R78). It depends on the
configuration through NF, NW, NP, NTAGS and HAS_VERIFY alone. -/
def decodeFor (c : Config) (w : Word) : Except Illegal Instr :=
  match decode w with
  | .error e => .error e
  | .ok i => match i.check c with
    | none => .ok i
    | some e => .error e

/-- Which of the fields `a`, `b`, `c` a command's format uses (R72). -/
def Instr.usedFields : Instr → Bool × Bool × Bool
  | .add .. => (true, true, true)
  | .addw .. => (true, true, true)
  | .mul .. => (true, true, true)
  | .sqr .. => (true, true, false)
  | .precomp .. => (true, true, false)
  | .mulp .. => (true, true, true)
  | .carry .. => (true, true, false)
  | .reduce .. => (true, true, false)
  | .zero .. => (true, false, false)
  | .zerow .. => (true, false, false)
  | .unpack .. => (true, false, true)
  | .encb .. => (true, false, false)
  | .encl .. => (true, false, false)
  | .pack .. => (true, false, true)
  | .mrst => (false, false, false)
  | .dkey .. => (true, false, true)
  | .dpow .. => (true, true, true)
  | .dpow2 .. => (true, true, true)
  | .hash => (false, false, false)
  | .verify => (false, false, false)

/-- A field of a mask: all ones where the bits are fixed, zero where the field is an operand. -/
def fixedBits (used : Bool) : BitVec 8 := if used then 0x00 else 0xFF

/-- The row's `mask` (R75): 1 bits at `op` and at every unused field. -/
def Instr.mask (i : Instr) : Word :=
  assemble 0xFF (fixedBits i.usedFields.1) (fixedBits i.usedFields.2.1) (fixedBits i.usedFields.2.2)

/-- The row's `match` (R75): the opcode, and 0 in the unused fields. -/
def Instr.matchBits (i : Instr) : Word := assemble i.opcode 0 0 0

/-- What the decoder reads from a word numbered as spec/opcode_table.json numbers it. The command word is a
number, not a byte string (20_memory.md R52), so it is the word itself. -/
def decodeTableWord (nbits w : Nat) : Option Instr :=
  (decode (BitVec.ofNat 32 (w % 2 ^ nbits))).toOption

end Sys2Proof
end

