-- ==== Sys2Proof/Machine/Geometry.lean ====
section
/-! DEFINITION. What the configuration record determines: limb geometry (00_scope.md R8), masks (R10), hooks
(R12), the value and the predicates of limb vectors (R15), well-formedness (R9) and the two named instances
`R26` and `R44` (R6). -/

namespace Sys2Proof

/-! ## Quantities derived from the record -/

/-- The modulus `p = 2^PBITS - DELTA` (R6). -/
def Config.p (c : Config) : Nat := 2 ^ c.PBITS - c.DELTA

/-- The excess `e = N*r - PBITS` (R8). -/
def Config.e (c : Config) : Nat := c.N * c.r - c.PBITS

/-- The widths `b[0..N-1]`: `r` for every limb but the top one, `r - e` for the top one (R8). -/
def Config.widths (c : Config) : List Nat := List.replicate (c.N - 1) c.r ++ [c.r - c.e]

/-- The width `b[i]` of limb `i` (R8). -/
def Config.b (c : Config) (i : Nat) : Nat := c.widths.getD i 0

/-- The product folding constant `FOLD = DELTA * 2^e` (R8). -/
def Config.fold (c : Config) : Nat := c.DELTA * 2 ^ c.e

/-- The mask of the clamping scheme, `CLAMP_MASK` (R10). -/
def Config.clampMask (c : Config) : Nat :=
  match c.CLAMP with
  | .classic => 0x0ffffffc0ffffffc0ffffffc0fffffff
  | .unclamped => 2 ^ (8 * c.SUBKEYSIZE) - 1
  | .other mask => mask

/-- A narrow or wide vector of zeros: N limbs (40_field_arith.md R109, R110). -/
def Config.zeros (c : Config) : Limbs := List.replicate c.N 0

/-! ## Values and predicates of limb vectors (R15) -/

/-- `val(x) = sum of x[i] * 2^(r*i)` (R15). -/
def Config.val (c : Config) : Limbs → Nat
  | [] => 0
  | x :: xs => x + 2 ^ c.r * c.val xs

/-- Every limb is below `2^width`: `stored` with `W`, `wstored` with `2W` (R15); the storage check
`must fit` of R16. -/
def fits (width : Nat) (x : Limbs) : Bool := x.all (fun l => decide (l < 2 ^ width))

/-- Each limb is below the power of two of its width, limb by limb. -/
def below : List Nat → Limbs → Bool
  | b :: bs, x :: xs => decide (x < 2 ^ b) && below bs xs
  | [], [] => true
  | _, _ => false

/-- `tight`: N limbs, every `x[i] < 2^b[i]` (R15). -/
def Config.tight (c : Config) (x : Limbs) : Bool := below c.widths x

/-- `reduced`: tight and `val(x) < p` (R15). -/
def Config.reduced (c : Config) (x : Limbs) : Bool := c.tight x && decide (c.val x < c.p)

/-- A stored narrow vector: N limbs below `2^W` (R15, 10_state.md R21). -/
def Config.narrow (c : Config) (x : Limbs) : Bool := decide (x.length = c.N) && fits c.W x

/-- A stored wide vector: N limbs below `2^(2W)` (R15, 10_state.md R22). -/
def Config.wide (c : Config) (x : Limbs) : Bool := decide (x.length = c.N) && fits (2 * c.W) x

/-! ## Little-endian bytes (R13) -/

/-- `LE(bytes) = sum of bytes[i] * 2^(8*i)` (R13, 20_memory.md R52). -/
def leNat : List Byte → Nat
  | [] => 0
  | b :: bs => b.toNat + 256 * leNat bs

/-- `LEbytes(x, n)`: the n-byte string with `LE(LEbytes(x, n)) = x` (R13). -/
def leBytes (x : Nat) : Nat → List Byte
  | 0 => []
  | n + 1 => BitVec.ofNat 8 x :: leBytes (x / 256) n

/-- A hook on a buffer: same length out as in (R12). -/
def Hook.apply (h : Hook) (bytes : List Byte) : List Byte :=
  match h with
  | .identity => bytes
  | .other id => leBytes (Config.hookMap id bytes.length (BitVec.ofNat _ (leNat bytes))).toNat bytes.length

/-! ## The carry pass (40_field_arith.md R100), which R9(f) already needs -/

/-- What the carry pass yields: the limbs `y`, the intermediate sums `t` and the carry out (R100). -/
structure CarryOut where
  y : Limbs
  t : Limbs
  carry : Nat
  deriving DecidableEq, Repr

/-- The pass over the widths, least significant limb first (R100). -/
def carryPass : List Nat → Limbs → Nat → CarryOut
  | b :: bs, x :: xs, cin =>
    let rest := carryPass bs xs ((x + cin) / 2 ^ b)
    ⟨(x + cin) % 2 ^ b :: rest.y, (x + cin) :: rest.t, rest.carry⟩
  | _, _, cin => ⟨[], [], cin⟩

/-- `pass(x)` (R100). -/
def Config.pass (c : Config) (x : Limbs) : CarryOut := carryPass c.widths x 0

/-- `C1MAX`: the carry out of the pass on N limbs `2^W - 1` (R9(f)). -/
def Config.c1max (c : Config) : Nat := (c.pass (List.replicate c.N (2 ^ c.W - 1))).carry

/-! ## Well-formedness (R9) -/

/-- The two limb geometries whose budgets 43_hash_engine.md R200 and R201 prove (DEDUCED, log entry 10). -/
def Config.budgetedGeometry (c : Config) : Bool :=
  (c.PBITS, c.DELTA, c.r, c.N, c.W) == (130, 5, 26, 5, 32) ||
  (c.PBITS, c.DELTA, c.r, c.N, c.W) == (130, 5, 44, 3, 64)

/-- The strategy is in the range R200 accepts. -/
def Strategy.supported : Strategy → Bool
  | .chain => true
  | .branch B => decide (2 ≤ B ∧ B ≤ 16)
  | .delay D => decide (2 ≤ D ∧ D ≤ 16)
  | .tree H => decide (1 ≤ H ∧ H ≤ 4)
  | .nested L => decide (2 ≤ L ∧ L ≤ 16)

/-- A register file size of R9(i). -/
def fileSizeOk (n : Nat) : Bool := decide (1 ≤ n ∧ n ≤ 256)

/-- R9(a): the field and its limbs. -/
def Config.wfField (c : Config) : Bool :=
  decide (1 ≤ c.DELTA ∧ c.DELTA < 2 ^ c.PBITS ∧ 2 ≤ c.N ∧ c.PBITS ≤ c.N * c.r ∧ c.e < c.r)

/-- R9(b), R9(e), R9(f): the storage words. -/
def Config.wfStorage (c : Config) : Bool :=
  decide (c.r < c.W ∧ c.fold * (2 ^ c.r - 1) < 2 ^ c.W ∧ c.DELTA * (c.c1max + 1) < 2 ^ c.b 0)

/-- R9(c), R9(d), R9(g), R9(h): block, key and output sizes; a block holds at least one byte (DEDUCED, log entry 11). -/
def Config.wfSizes (c : Config) : Bool :=
  decide (1 ≤ c.BLOCKSIZE ∧ 8 * c.BLOCKSIZE + 1 < c.PBITS ∧ 8 * c.BLOCKSIZE + 1 ≤ c.W + c.r * (c.N - 1) ∧
    8 * c.SUBKEYSIZE < c.PBITS ∧ c.KEYSIZE = c.NTAGS * c.SUBKEYSIZE ∧
    c.OUTPUTSIZE = c.NTAGS * c.SUBTAGSIZE ∧ 1 ≤ c.NTAGS ∧ c.clampMask < 2 ^ (8 * c.SUBKEYSIZE))

/-- R9(i): the strategy's budget and the register file sizes. -/
def Config.wfEngine (c : Config) : Bool :=
  c.budgetedGeometry && c.STRATEGY.supported && fileSizeOk c.NF && fileSizeOk c.NW && fileSizeOk c.NP

/-- A configuration is well formed when all of R9(a) to R9(i) hold. -/
def Config.wf (c : Config) : Bool := c.wfField && c.wfStorage && c.wfSizes && c.wfEngine

/-! ## The instances of R6 -/

/-- The reference instance `R26` (R6, column "reference"). `MSGMAX` is open there and taken unbounded (R224). -/
def Config.r26 : Config where
  PBITS := 130
  DELTA := 5
  r := 26
  N := 5
  W := 32
  BLOCKSIZE := 16
  SUBKEYSIZE := 16
  NTAGS := 1
  KEYSIZE := 16
  SUBTAGSIZE := 16
  OUTPUTSIZE := 16
  CLAMP := .classic
  STRATEGY := .chain
  TK := .identity
  TM := .identity
  TF := .identity
  NF := 64
  NW := 4
  NP := 4
  MSGMAX := none
  HAS_VERIFY := false

/-- The second instance `R44` (R6, column "alt"). -/
def Config.r44 : Config := { Config.r26 with r := 44, N := 3, W := 64 }

end Sys2Proof
end

