-- ==== Sys2Proof/Machine/State.lean ====
section
/-! DEFINITION. The state of PHF-CORE, exactly what 10_state.md R20 lists, with the configuration and the host's
pending actions beside it; the reasons a step can stop; the state after reset (R37, 70_reset_and_hazards.md
R250). -/

namespace Sys2Proof.Machine

/-! ## Byte spaces (20_memory.md R50) -/

/-- A byte space as the bytes that hold a value, addresses strictly rising. An address that is not listed holds
no value: "A model gives unwritten bytes no value" (10_state.md R38). -/
abbrev Memory := List Host.Cell

/-- The canonical form: addresses strictly rising. No entry can equal what an unlisted address reads as, since
an unlisted address holds no value. -/
def Memory.wf : Memory → Bool
  | (a, _) :: (b, x) :: rest => decide (a < b) && Memory.wf ((b, x) :: rest)
  | _ => true

/-- The names of the byte spaces (R50). -/
inductive Space where
  | key
  | msg
  | out
  deriving DecidableEq, Repr

/-! ## Registers -/

/-- A narrow (R21) or wide (R22) register: its limbs and its `written` mark. -/
structure LimbReg where
  limbs : Limbs
  written : Bool
  deriving DecidableEq, Repr

/-- A precomputed-factor register (R23): `k[0..N-1]`, `s[1..N-1]` (so `s` has N-1 entries, the first of them
`s[1]`) and its `written` mark. -/
structure FactorReg where
  k : Limbs
  s : Limbs
  written : Bool
  deriving DecidableEq, Repr

/-- The values of `PHASE` (R30). Value 6 is not used. -/
inductive Phase where
  | idle
  | init
  | absorb
  | absorbLast
  | combine
  | done
  | faulted
  deriving DecidableEq, Repr

/-- The fault codes 1 to 6 of 60_exceptions.md R220. There are no others. -/
inductive FaultCode where
  /-- `E_ILLEGAL` (R221). -/
  | illegal
  /-- `E_KEYLEN` (R222). -/
  | keylen
  /-- `E_RANGE` (R223). -/
  | range
  /-- `E_UNINIT` (R227), model-level. -/
  | uninit
  /-- `E_OVERFLOW` (R228), model-level. -/
  | overflow
  /-- `E_NOTTIGHT` (R229), model-level. -/
  | notTight
  deriving DecidableEq, Repr

/-! ## The host (20_memory.md R59) -/

/-- What the host can read (R59). -/
inductive HostReg where
  | out (addr : Nat)
  | outvalid
  | mptr
  | phase
  | fault
  | finfo
  | vok
  deriving DecidableEq, Repr

/-- What the host can do, one action at a time and only between commands (R59). -/
inductive HostAction where
  | writeKey (addr : Nat) (b : Byte)
  | writeKeylen (v : BitVec 32)
  | writeMsg (addr : Nat) (b : Byte)
  | writeInlen (v : BitVec 64)
  | writeOut (addr : Nat) (b : Byte)
  | read (reg : HostReg)
  | command (w : Word)
  | reset
  deriving DecidableEq, Repr

/-! ## Why a step can stop -/

/-- A host move that R59 does not offer. No command raises one of these: the faults of R220 are next states
(R226). Raised by `hostStep` of Machine/Port.lean alone; all safe: the model stops where the spec describes
no behaviour (DESIGN CHOICE, log entry 9). -/
inductive Fault where
  /-- A host access to an address outside the space (R50). Safe. -/
  | hostAddress (sp : Space) (addr : Nat)
  /-- A host write to OUT while HAS_VERIFY is false (R28, R59). Safe. -/
  | outNotWritable
  /-- A host read of VOK, which exists only when HAS_VERIFY is true (R32). Safe. -/
  | vokAbsent
  deriving DecidableEq, Repr

/-- Why a step has no meaning. -/
inductive Refusal where
  /-- An instruction that has no meaning in the model. Raised by no arm of `exec`. Safe. -/
  | notModelled (mnemonic : String)
  /-- The configuration is not well formed: "PHF-CORE does not exist for it and a model refuses it"
  (00_scope.md R9). Raised by `step` alone. Safe. -/
  | illFormedConfig
  deriving DecidableEq, Repr

/-! ## The state (R20) -/

/-- Everything the spec gives the machine (R20), under its own names, and two fields of the model's own: `cfg`,
the configuration a model takes as an argument (00_scope.md R6, DESIGN CHOICE, log entry 1), and `port`, the host's actions
not yet taken (DESIGN CHOICE, log entry 4). `FAULT = none` is code 0. -/
structure State where
  cfg : Config
  F : List LimbReg
  Wd : List LimbReg
  P : List FactorReg
  KEY : Memory
  KEYLEN : BitVec 32
  MSG : Memory
  INLEN : BitVec 64
  OUT : Memory
  OUTVALID : Bool
  MPTR : BitVec 64
  PHASE : Phase
  FAULT : Option FaultCode
  FINFO : BitVec 32
  VOK : Bool
  port : List HostAction
  deriving DecidableEq, Repr

/-- The reset state of a core built with configuration `c` (R37, R250). The limbs are zero and unwritten
(DESIGN CHOICE, log entry 2); no byte of a space holds a value (DEDUCED, log entry 3). -/
def State.resetOf (c : Config) : State where
  cfg := c
  F := List.replicate c.NF ⟨List.replicate c.N 0, false⟩
  Wd := List.replicate c.NW ⟨List.replicate c.N 0, false⟩
  P := List.replicate c.NP ⟨List.replicate c.N 0, List.replicate (c.N - 1) 0, false⟩
  KEY := []
  KEYLEN := 0
  MSG := []
  INLEN := 0
  OUT := []
  OUTVALID := false
  MPTR := 0
  PHASE := .idle
  FAULT := none
  FINFO := 0
  VOK := false
  port := []

/-- The machine right after reset: the reference instance `R26` (R6, R37). -/
def State.reset : State := State.resetOf Config.r26

end Sys2Proof.Machine
end

