-- ==== Sys2Proof/Machine/Ops.lean ====
section
/-! DEFINITION. The named operations: byte spaces (20_memory.md), the three register files (10_state.md R21 to
R23, R38), fault entry (60_exceptions.md R226) and the frame every command runs in (R226, R230). PHF-CORE has
no return from a fault: only reset leaves `Faulted` (R226, R233). -/

namespace Sys2Proof.Machine

/-! ## Byte spaces -/

/-- The byte at an address, if it holds a value (R38). -/
def Memory.read : Memory → Nat → Option Byte
  | [], _ => none
  | (k, v) :: rest, a => if k = a then some v else Memory.read rest a

/-- Write one byte, keeping the addresses strictly rising. -/
def Memory.write : Memory → Nat → Byte → Memory
  | [], a, b => [(a, b)]
  | (k, v) :: rest, a, b =>
    if a < k then (a, b) :: (k, v) :: rest
    else if a = k then (a, b) :: rest
    else (k, v) :: Memory.write rest a b

/-- `MemWrite(space, addr, n, v)` (00_scope.md R14): the bytes at `addr`, `addr+1`, and so on. -/
def Memory.writeRun : Memory → Nat → List Byte → Memory
  | m, _, [] => m
  | m, a, b :: bs => Memory.writeRun (Memory.write m a b) (a + 1) bs

/-- `MemRead(space, addr, n)` (R14): the n bytes at `addr .. addr+n-1`, if every one holds a value. -/
def Memory.readRun (m : Memory) (a : Nat) : Nat → Option (List Byte)
  | 0 => some []
  | n + 1 =>
    match Memory.read m a, Memory.readRun m (a + 1) n with
    | some b, some bs => some (b :: bs)
    | _, _ => none

/-- A run a command reads: `E_UNINIT` if one of its bytes was never written (R38, R227). -/
def readBytes (m : Memory) (a n : Nat) : Except FaultCode (List Byte) :=
  match Memory.readRun m a n with
  | some bs => .ok bs
  | none => .error .uninit

/-! ## Registers -/

/-- Read a narrow or wide register: `E_UNINIT` if it is not marked written (R38). -/
def readLimbs (file : List LimbReg) (i : RegNo) : Except FaultCode Limbs :=
  match file[i.toNat]? with
  | some reg => if reg.written then .ok reg.limbs else .error .uninit
  | none => .error .uninit

/-- `F[i]` as a source. -/
def readF (s : State) (i : RegNo) : Except FaultCode Limbs := readLimbs s.F i

/-- `Wd[i]` as a source. -/
def readW (s : State) (i : RegNo) : Except FaultCode Limbs := readLimbs s.Wd i

/-- `P[i]` as a source: `E_UNINIT` if it is not marked written (R38). -/
def readP (s : State) (i : RegNo) : Except FaultCode FactorReg :=
  match s.P[i.toNat]? with
  | some reg => if reg.written then .ok reg else .error .uninit
  | none => .error .uninit

/-- `F[i] <- v`: writes all N limbs and marks the register written (R14). -/
def writeF (s : State) (i : RegNo) (v : Limbs) : State := { s with F := s.F.set i.toNat ⟨v, true⟩ }

/-- `Wd[i] <- v`. -/
def writeW (s : State) (i : RegNo) (v : Limbs) : State := { s with Wd := s.Wd.set i.toNat ⟨v, true⟩ }

/-- `P[i].k <- k; P[i].s <- s`. -/
def writeP (st : State) (i : RegNo) (k s : Limbs) : State := { st with P := st.P.set i.toNat ⟨k, s, true⟩ }

/-- `F[first], F[first+1], .. <- vs` (42_key.md R153, R154). -/
def setConsecutive (file : List LimbReg) (first : Nat) : List Limbs → List LimbReg
  | [] => file
  | v :: vs => setConsecutive (file.set first ⟨v, true⟩) (first + 1) vs

/-- Write consecutive narrow registers. -/
def writeFs (s : State) (first : RegNo) (vs : List Limbs) : State :=
  { s with F := setConsecutive s.F first.toNat vs }

/-- A register with its `written` mark cleared. -/
def unmark (reg : LimbReg) : LimbReg := { reg with written := false }

/-- A factor register with its `written` mark cleared. -/
def unmarkFactor (reg : FactorReg) : FactorReg := { reg with written := false }

/-- Every `F`, `Wd` and `P` register becomes not written (R36). -/
def clearMarks (s : State) : State :=
  { s with F := s.F.map unmark, Wd := s.Wd.map unmark, P := s.P.map unmarkFactor }

/-! ## Fault entry (60_exceptions.md R226) -/

/-- The three kinds of command R226 tells apart. -/
inductive CommandKind where
  | single
  | hash
  | verify
  deriving DecidableEq, Repr

/-- The kind of a command. -/
def commandKind : Instr → CommandKind
  | .hash => .hash
  | .verify => .verify
  | _ => .single

/-- OUT after a faulting VERIFY: kept (R226 "HASH only") or unspecified (the row U12 of 93_implementation_defined.md);
which of the two is a free value (DESIGN CHOICE, log entry 22). -/
def verifyFaultOut (out : Memory) : Memory := if Config.verifyFaultKeepsOut then out else []

/-- What fault entry does besides the fault registers (R226). For HASH and VERIFY: every mark 0, `MPTR` 0; for HASH the
bytes of OUT unspecified, which is no byte of OUT holding a value (DESIGN CHOICE, log entry 6), for VERIFY
`verifyFaultOut`; and `VOK` 0, which their start did (R32, DEDUCED, log entry 8). -/
def faultEffects (kind : CommandKind) (s : State) : State :=
  match kind with
  | .single => s
  | .hash => { clearMarks s with OUT := [], MPTR := 0, VOK := false }
  | .verify => { clearMarks s with OUT := verifyFaultOut s.OUT, MPTR := 0, VOK := false }

/-- `raise Fault(code, info)`: the one fault entry (R226). -/
def raiseFault (kind : CommandKind) (code : FaultCode) (info : Word) (s : State) : State :=
  if s.FAULT.isSome then s
  else { faultEffects kind s with FAULT := some code, FINFO := info, PHASE := .faulted, OUTVALID := false }

/-! ## The frame of every command -/

/-- The outcomes of a command. -/
abbrev Out := Host.Outcome State Fault Refusal

/-- Run a command: refused with no effect while `FAULT` is not 0 (R226), illegal when its operands are out of
range (R78, R221), else its own effect or the fault its own checks raise. This is the order of R230. The word
that goes to `FINFO` is the command's own word, `encode i` (R31). -/
def issue (i : Instr) (s : State) (body : Except FaultCode State) : Out :=
  if s.FAULT.isSome then .next s
  else match i.check s.cfg with
    | some _ => .next (raiseFault .single .illegal (encode i) s)
    | none => match body with
      | .ok t => .next t
      | .error e => .next (raiseFault (commandKind i) e (encode i) s)

/-- A word that decodes to no command: refused while `FAULT` is not 0, else `E_ILLEGAL` with the word (R78,
R221). -/
def illegalWord (w : Word) (s : State) : Out := .next (raiseFault .single .illegal w s)

end Sys2Proof.Machine
end

