-- ==== Sys2Proof/Machine/Flags.lean ====
section
/-! DEFINITION. PHF-CORE has no status flags and no condition codes (10_state.md R33). This file holds the checks
and the one-bit results that commands compute: the storage checks of 00_scope.md R16, the preconditions on
`KEYLEN` and the message (60_exceptions.md R222, R223), and the comparison of VERIFY (43_hash_engine.md R205). -/

namespace Sys2Proof.Machine

/-- A check that raises its fault when it fails. -/
def require (ok : Bool) (code : FaultCode) : Except FaultCode Unit := if ok then .ok () else .error code

/-- `must fit width` on every limb (R16): the vector, or `E_OVERFLOW`. -/
def mustFit (width : Nat) (x : Limbs) : Except FaultCode Limbs := if fits width x then .ok x else .error .overflow

/-- `KEYLEN = KEYSIZE`, checked before any byte of KEY is read (R222). -/
def requireKeylen (s : State) : Except FaultCode Unit :=
  require (decide (s.KEYLEN.toNat = s.cfg.KEYSIZE)) .keylen

/-- `INLEN - MPTR`, the bytes of the message not yet consumed (10_state.md R29). -/
def remaining (s : State) : Nat := s.INLEN.toNat - s.MPTR.toNat

/-- `diff <- diff OR (cand[i] XOR tag[i])` over all bytes, whatever the outcome (R205). -/
def byteDiff : List Byte → List Byte → Byte
  | a :: as, b :: bs => (a ^^^ b) ||| byteDiff as bs
  | _, _ => 0

/-- `VOK`: 1 when no byte differs (R205). -/
def sameBytes (cand tag : List Byte) : Bool := byteDiff cand tag == 0

end Sys2Proof.Machine
end

