-- ==== Sys2Proof/Machine/Operands.lean ====
section
/-! DEFINITION. The operand forms of PHF-CORE. Registers are read and written by Machine/Ops.lean. The other
operands are implicit runs of bytes at a fixed offset (20_memory.md R55, R56): a key slot, an OUT slot, a message
block; and the way bytes become limbs and limbs become bytes (41_data_format.md R130, R132, R137). -/

namespace Sys2Proof.Machine

/-- `split(x)` (R130): limb `i < N-1` is `(x >> (r*i)) mod 2^r`, the top limb takes whatever bits remain. -/
def splitInt (c : Config) (x : Nat) : Limbs :=
  (List.range c.N).map (fun i => if i + 1 < c.N then x / 2 ^ (c.r * i) % 2 ^ c.r else x / 2 ^ (c.r * i))

/-- `packbytes(a, S) = LEbytes(val(a) mod 2^(8*S), S)` (R137). -/
def packBytes (c : Config) (a : Limbs) (S : Nat) : List Byte := leBytes (c.val a % 2 ^ (8 * S)) S

/-- The bytes of key slot `idx` (R55, R56): `KEY[idx*SUBKEYSIZE ..]`, after the KEYLEN check (R222). -/
def readKeySlot (s : State) (idx : Nat) : Except FaultCode (List Byte) := do
  requireKeylen s
  readBytes s.KEY (idx * s.cfg.SUBKEYSIZE) s.cfg.SUBKEYSIZE

/-- Write slot `idx` of OUT (R55, R138, R139). -/
def writeOutSlot (s : State) (idx : Nat) (bytes : List Byte) : State :=
  { s with OUT := Memory.writeRun s.OUT (idx * s.cfg.SUBTAGSIZE) bytes }

/-- The integer of a full block: `LE(TM(data)) + 2^(8*BLOCKSIZE)` (R132, R133). -/
def fullBlockInt (c : Config) (data : List Byte) : Nat := leNat (c.TM.apply data) + 2 ^ (8 * c.BLOCKSIZE)

/-- The integer of a last block of `data.length` bytes: zero padding to BLOCKSIZE, the hook, then the marker by
`OR` at bit `8*len` (R132, R135). -/
def lastBlockInt (c : Config) (data : List Byte) : Nat :=
  leNat (c.TM.apply (data ++ List.replicate (c.BLOCKSIZE - data.length) 0)) ||| 2 ^ (8 * data.length)

/-- The full block at byte offset `at_` of the message, encoded (R133). -/
def encodeFullAt (s : State) (at_ : Nat) : Except FaultCode Limbs := do
  let data ← readBytes s.MSG at_ s.cfg.BLOCKSIZE
  return splitInt s.cfg (fullBlockInt s.cfg data)

/-- The last block, the bytes from offset `at_` to `INLEN`, encoded (R135). -/
def encodeLastAt (s : State) (at_ : Nat) : Except FaultCode Limbs := do
  let data ← readBytes s.MSG at_ (s.INLEN.toNat - at_)
  return splitInt s.cfg (lastBlockInt s.cfg data)

/-- The evaluation point of sub-key `idx`: hook, little-endian integer, mask, split (42_key.md R150). -/
def evalPoint (c : Config) (raw : List Byte) : Limbs := splitInt c (leNat (c.TK.apply raw) &&& c.clampMask)

end Sys2Proof.Machine
end

