-- ==== Sys2Proof/Machine/DataFormat.lean ====
section
/-! DEFINITION. The data-format commands (41_data_format.md): UNPACK, ENCB, ENCL, PACK, MRST. -/

namespace Sys2Proof.Machine

/-- `UNPACK Fd, idx` (R131): no marker, no mask, no hook. -/
def execUnpack (fd : RegNo) (idx : Imm8) (s : State) : Out :=
  issue (.unpack fd idx) s do
    let bytes ← readKeySlot s idx.toNat
    return writeF s fd (splitInt s.cfg (leNat bytes))

/-- `ENCB Fd` (R133): `E_RANGE` when no full block is left; `MPTR` advances by BLOCKSIZE. -/
def execEncb (fd : RegNo) (s : State) : Out :=
  issue (.encb fd) s do
    require (decide (s.cfg.BLOCKSIZE ≤ remaining s)) .range
    let m ← encodeFullAt s s.MPTR.toNat
    return { writeF s fd m with MPTR := BitVec.ofNat 64 (s.MPTR.toNat + s.cfg.BLOCKSIZE) }

/-- `ENCL Fd` (R135): `E_RANGE` when more than one block is left; `MPTR <- INLEN`. -/
def execEncl (fd : RegNo) (s : State) : Out :=
  issue (.encl fd) s do
    require (decide (remaining s ≤ s.cfg.BLOCKSIZE)) .range
    let m ← encodeLastAt s s.MPTR.toNat
    return { writeF s fd m with MPTR := s.INLEN }

/-- `PACK Fa, idx` (R138): `E_NOTTIGHT` when the source is not tight; `OUTVALID` is not changed. -/
def execPack (fa : RegNo) (idx : Imm8) (s : State) : Out :=
  issue (.pack fa idx) s do
    let a ← readF s fa
    require (s.cfg.tight a) .notTight
    return writeOutSlot s idx.toNat (s.cfg.TF.apply (packBytes s.cfg a s.cfg.SUBTAGSIZE))

/-- `MRST` (R140). -/
def execMrst (s : State) : Out :=
  issue .mrst s (.ok { s with MPTR := 0 })

end Sys2Proof.Machine
end

