-- ==== Sys2Proof/Machine/LimbArith.lean ====
section
/-! DEFINITION. The functional units on limb vectors: the adder, the multiplier and the reducer
(40_field_arith.md R92 to R106). The commands of Machine/FieldArith.lean and the evaluator of
Machine/Engine.lean run these same functions (43_hash_engine.md, opening). -/

namespace Sys2Proof.Machine

/-! ## The adder -/

/-- `c[i] <- a[i] + b[i]`, exact (R92, R93). -/
def sumLimbs (a b : Limbs) : Limbs := List.zipWith (· + ·) a b

/-- The function of `ADD` (R92): every limb sum must fit W. -/
def addLimbs (c : Config) (a b : Limbs) : Except FaultCode Limbs := mustFit c.W (sumLimbs a b)

/-- The function of `ADDW` (R93): every limb sum must fit 2W. -/
def addwLimbs (c : Config) (a b : Limbs) : Except FaultCode Limbs := mustFit (2 * c.W) (sumLimbs a b)

/-! ## The multiplier -/

/-- `s[j] = FOLD * b[j]` for `j = 1 .. N-1` (R95, R97). -/
def scaledLimbs (c : Config) (b : Limbs) : Limbs := (b.drop 1).map (fun x => c.fold * x)

/-- One term of `w[k]` in R94, for the multiplicand limb `i`: `a[i]*b[j]` with `i + j = k`, or `a[i]*s[j]` with
`i + j = k + N`. The list `s` starts at `s[1]`. -/
def mulTerm (N : Nat) (a b s : Limbs) (k i : Nat) : Nat :=
  if i ≤ k then a.getD i 0 * b.getD (k - i) 0 else a.getD i 0 * s.getD (k + N - i - 1) 0

/-- `mulcore(a, b, s)` (R94). -/
def mulcore (N : Nat) (a b s : Limbs) : Limbs :=
  (List.range N).map (fun k => ((List.range N).map (mulTerm N a b s k)).sum)

/-- The function of `MULP` (R98): the product with a factor `(k, s)`; every limb must fit 2W. -/
def mulWithFactor (c : Config) (a k s : Limbs) : Except FaultCode Limbs := mustFit (2 * c.W) (mulcore c.N a k s)

/-- The function of `MUL` (R95): the scaled limbs must fit W, then the product as in R98. -/
def mulLimbs (c : Config) (a b : Limbs) : Except FaultCode Limbs := do
  let s ← mustFit c.W (scaledLimbs c b)
  mulWithFactor c a b s

/-- The function of `SQR` (R96): exactly that of `MUL` with both sources the same. -/
def sqrLimbs (c : Config) (a : Limbs) : Except FaultCode Limbs := mulLimbs c a a

/-! ## The reducer -/

/-- The end of `CARRY` (R101) after the pass: the fold `u = y[0] + DELTA*c`, and one more carry step, limb 0 into
limb 1. A well-formed configuration has at least two limbs (00_scope.md R9(a)). -/
def foldCarry (c : Config) (carry : Nat) : Limbs → Except FaultCode Limbs
  | y0 :: y1 :: ys => do
    let u := y0 + c.DELTA * carry
    require (decide (u < 2 ^ (2 * c.W))) .overflow
    let y1' := y1 + u / 2 ^ c.b 0
    require (decide (y1' < 2 ^ c.W)) .overflow
    return u % 2 ^ c.b 0 :: y1' :: ys
  | ys => .ok ys

/-- The function of `CARRY` (R101): the pass with every `t[i]` fitting 2W, then the fold. -/
def carryLimbs (c : Config) (w : Limbs) : Except FaultCode Limbs := do
  let out := c.pass w
  let _ ← mustFit (2 * c.W) out.t
  foldCarry c out.carry out.y

/-- Add to limb 0. -/
def addToLimb0 (x : Nat) : Limbs → Limbs
  | h :: hs => (h + x) :: hs
  | [] => []

/-- The narrow pass-and-fold `npf` (R103): no storage check. -/
def npf (c : Config) (a : Limbs) : Limbs := addToLimb0 (c.DELTA * (c.pass a).carry) (c.pass a).y

/-- The limbs of p: `pl[0] = 2^b[0] - DELTA`, `pl[i] = 2^b[i] - 1` (R106). -/
def primeLimbs (c : Config) : Limbs :=
  match c.widths with
  | b0 :: bs => (2 ^ b0 - c.DELTA) :: bs.map (fun b => 2 ^ b - 1)
  | [] => []

/-- The subtraction of R106 with its borrow: the limbs `d` and the final `bo`. -/
def subBorrow : List Nat → Limbs → Limbs → Nat → Limbs × Nat
  | b :: bs, g :: gs, q :: qs, bo =>
    let t : Int := (g : Int) - (q : Int) - (bo : Int)
    let rest := subBorrow bs gs qs (if t < 0 then 1 else 0)
    ((t % ((2 : Int) ^ b)).toNat :: rest.1, rest.2)
  | _, _, _, bo => ([], bo)

/-- `z[i] <- (g[i] AND M) OR (d[i] AND NOT_W(M))` (R106). -/
def maskSelect (W M : Nat) (g d : Limbs) : Limbs :=
  List.zipWith (fun x y => (x &&& M) ||| (y &&& (2 ^ W - 1 - M))) g d

/-- The conditional subtraction `condsub` (R106): both candidates computed, the choice by mask. -/
def condsub (c : Config) (g : Limbs) : Limbs :=
  let db := subBorrow c.widths g (primeLimbs c) 0
  maskSelect c.W ((2 ^ c.W - 1) * db.2) g db.1

/-- The function of `REDUCE` (R105): two pass-and-fold rounds, then the conditional subtraction. Total. -/
def reduceLimbs (c : Config) (a : Limbs) : Limbs := condsub c (npf c (npf c a))

/-! ## Repeated multiply and reduce (42_key.md R153, R154) -/

/-- `REDUCE(CARRY(w))`. -/
def carryReduce (c : Config) (w : Limbs) : Except FaultCode Limbs := do
  let y ← carryLimbs c w
  return reduceLimbs c y

/-- The powers after `prev`: each is `REDUCE(CARRY(MUL(previous, k)))` (R153). -/
def powersAfter (c : Config) (k : Limbs) : Limbs → Nat → Except FaultCode (List Limbs)
  | _, 0 => .ok []
  | prev, n + 1 => do
    let w ← mulLimbs c prev k
    let next ← carryReduce c w
    let rest ← powersAfter c k next n
    return next :: rest

/-- The function of `DPOW` (R153): `K[1] = k`, then `n - 1` further powers. -/
def powers (c : Config) (k : Limbs) : Nat → Except FaultCode (List Limbs)
  | 0 => .ok []
  | n + 1 => do
    let rest ← powersAfter c k k n
    return k :: rest

/-- The squares after `prev`: each is `REDUCE(CARRY(SQR(previous)))` (R154). -/
def squaresAfter (c : Config) : Limbs → Nat → Except FaultCode (List Limbs)
  | _, 0 => .ok []
  | prev, n + 1 => do
    let w ← sqrLimbs c prev
    let next ← carryReduce c w
    let rest ← squaresAfter c next n
    return next :: rest

/-- The function of `DPOW2` (R154): `Q[0] = k`, then `n - 1` squarings. -/
def squares (c : Config) (k : Limbs) : Nat → Except FaultCode (List Limbs)
  | 0 => .ok []
  | n + 1 => do
    let rest ← squaresAfter c k n
    return k :: rest

end Sys2Proof.Machine
end

