-- ==== Sys2Proof/Machine/FieldArith.lean ====
section
/-! DEFINITION. The field arithmetic commands (40_field_arith.md): ADD, ADDW, MUL, SQR, PRECOMP, MULP, CARRY,
REDUCE, ZERO, ZEROW. Each reads its sources (field b before field c, 60_exceptions.md R230), computes, checks, and
only then writes (R90). -/

namespace Sys2Proof.Machine

/-- `ADD Fd, Fa, Fb` (R92). -/
def execAdd (fd fa fb : RegNo) (s : State) : Out :=
  issue (.add fd fa fb) s do
    let a ← readF s fa
    let b ← readF s fb
    let v ← addLimbs s.cfg a b
    return writeF s fd v

/-- `ADDW Wd, Wa, Wb` (R93). -/
def execAddw (wd wa wb : RegNo) (s : State) : Out :=
  issue (.addw wd wa wb) s do
    let a ← readW s wa
    let b ← readW s wb
    let v ← addwLimbs s.cfg a b
    return writeW s wd v

/-- `MUL Wd, Fa, Fb` (R95): `Fa` the multiplicand, `Fb` the scaled operand. -/
def execMul (wd fa fb : RegNo) (s : State) : Out :=
  issue (.mul wd fa fb) s do
    let a ← readF s fa
    let b ← readF s fb
    let w ← mulLimbs s.cfg a b
    return writeW s wd w

/-- `SQR Wd, Fa` (R96). -/
def execSqr (wd fa : RegNo) (s : State) : Out :=
  issue (.sqr wd fa) s do
    let a ← readF s fa
    let w ← sqrLimbs s.cfg a
    return writeW s wd w

/-- `PRECOMP Pd, Fa` (R97). -/
def execPrecomp (pd fa : RegNo) (s : State) : Out :=
  issue (.precomp pd fa) s do
    let a ← readF s fa
    let t ← mustFit s.cfg.W (scaledLimbs s.cfg a)
    return writeP s pd a t

/-- `MULP Wd, Fa, Pb` (R98). -/
def execMulp (wd fa pb : RegNo) (s : State) : Out :=
  issue (.mulp wd fa pb) s do
    let a ← readF s fa
    let q ← readP s pb
    let w ← mulWithFactor s.cfg a q.k q.s
    return writeW s wd w

/-- `CARRY Fd, Wa` (R101). -/
def execCarry (fd wa : RegNo) (s : State) : Out :=
  issue (.carry fd wa) s do
    let w ← readW s wa
    let y ← carryLimbs s.cfg w
    return writeF s fd y

/-- `REDUCE Fd, Fa` (R105). -/
def execReduce (fd fa : RegNo) (s : State) : Out :=
  issue (.reduce fd fa) s do
    let a ← readF s fa
    return writeF s fd (reduceLimbs s.cfg a)

/-- `ZERO Fd` (R109). -/
def execZero (fd : RegNo) (s : State) : Out :=
  issue (.zero fd) s (.ok (writeF s fd s.cfg.zeros))

/-- `ZEROW Wd` (R110). -/
def execZerow (wd : RegNo) (s : State) : Out :=
  issue (.zerow wd) s (.ok (writeW s wd s.cfg.zeros))

end Sys2Proof.Machine
end

