-- ==== Sys2Proof/Machine/Key.lean ====
section
/-! DEFINITION. The key derivation commands (42_key.md): DKEY, DPOW, DPOW2. -/

namespace Sys2Proof.Machine

/-- The evaluation point of sub-key `idx` (R150, R157): the pseudocode DKEY and HASH share. -/
def deriveKey (s : State) (idx : Nat) : Except FaultCode Limbs := do
  let raw ← readKeySlot s idx
  return evalPoint s.cfg raw

/-- `DKEY Fd, idx` (R150). -/
def execDkey (fd : RegNo) (idx : Imm8) (s : State) : Out :=
  issue (.dkey fd idx) s do
    let k ← deriveKey s idx.toNat
    return writeF s fd k

/-- `DPOW Fd, Fa, n` (R153): the base is read before any write. -/
def execDpow (fd fa : RegNo) (n : Imm8) (s : State) : Out :=
  issue (.dpow fd fa n) s do
    let k ← readF s fa
    let ks ← powers s.cfg k n.toNat
    return writeFs s fd ks

/-- `DPOW2 Fd, Fa, n` (R154): the base is read before any write. -/
def execDpow2 (fd fa : RegNo) (n : Imm8) (s : State) : Out :=
  issue (.dpow2 fd fa n) s do
    let k ← readF s fa
    let qs ← squares s.cfg k n.toNat
    return writeFs s fd qs

end Sys2Proof.Machine
end

