-- ==== Sys2Proof/Machine/Engine.lean ====
section
/-! DEFINITION. The polynomial evaluator (43_hash_engine.md): the blocks of the message (R171, R174), the powers of
`Init` (R177), the five schedules (R183 to R188), Combine (R179) and the tag (R175, R176, R180). A block that
cannot be read (a byte never written) faults where the schedule takes it from the stream, which is the order of
R176 and 60_exceptions.md R230. -/

namespace Sys2Proof.Machine

/-- The stream of encoded blocks `m[1], .., m[n]`, each with the fault its reading raises. -/
abbrev Blocks := List (Except FaultCode Limbs)

/-- `n = ceil(INLEN / BLOCKSIZE)` (R171). -/
def blockCount (s : State) : Nat := (s.INLEN.toNat + s.cfg.BLOCKSIZE - 1) / s.cfg.BLOCKSIZE

/-- The blocks of the message: `n-1` full blocks as ENCB, the last as ENCL, never an empty last block (R171,
R174). -/
def messageBlocks (s : State) : Blocks :=
  match blockCount s with
  | 0 => []
  | n + 1 =>
    (List.range n).map (fun i => encodeFullAt s (i * s.cfg.BLOCKSIZE)) ++ [encodeLastAt s (n * s.cfg.BLOCKSIZE)]

/-- `hstep(acc, m, K) = CARRY(MUL(ADD(acc, m), K))` (R183). -/
def hstep (c : Config) (acc m K : Limbs) : Except FaultCode Limbs := do
  let x ← addLimbs c acc m
  let w ← mulLimbs c x K
  carryLimbs c w

/-- `CARRY(MUL(a, K))`, the multiply-first step of TREE and NESTED (R187, R188). -/
def mulCarry (c : Config) (a K : Limbs) : Except FaultCode Limbs := do
  let w ← mulLimbs c a K
  carryLimbs c w

/-- Take the blocks of a window, in order. -/
def takeBlocks : Blocks → Except FaultCode (List Limbs)
  | [] => .ok []
  | x :: xs => do
    let m ← x
    let ms ← takeBlocks xs
    return m :: ms

/-- `q` windows of `size` blocks, each folded into the accumulator by `f`; the blocks left over come back. -/
def windows (f : Limbs → Blocks → Except FaultCode Limbs) (size : Nat) :
    Nat → Limbs → Blocks → Except FaultCode (Limbs × Blocks)
  | 0, acc, xs => .ok (acc, xs)
  | q + 1, acc, xs => do
    let acc' ← f acc (xs.take size)
    windows f size q acc' (xs.drop size)

/-! ## CHAIN (R184) -/

/-- One `hstep` per block with multiplier `k` (R184); also the remainder path of the other strategies. -/
def chain (c : Config) (k : Limbs) : Limbs → Blocks → Except FaultCode Limbs
  | acc, [] => .ok acc
  | acc, x :: xs => do
    let m ← x
    let acc' ← hstep c acc m k
    chain c k acc' xs

/-! ## BRANCH (R185) -/

/-- One round: block `j` to branch `j`, each with its own multiplier. -/
def branchRound (c : Config) : List Limbs → Blocks → List Limbs → Except FaultCode (List Limbs)
  | a :: as, x :: xs, pw :: pws => do
    let m ← x
    let a' ← hstep c a m pw
    let as' ← branchRound c as xs pws
    return a' :: as'
  | _, _, _ => .ok []

/-- The multipliers of a round with `left` rounds after it: `K[B]` for every branch, but in the last round
`K[B-j]` for branch `j`, that is `K[B], .., K[1]`. -/
def roundPowers (B : Nat) (K : List Limbs) (left : Nat) : List Limbs :=
  if left = 0 then K.reverse else List.replicate B (K.getD (B - 1) [])

/-- The `q` full rounds; the blocks left over come back. -/
def branchRounds (c : Config) (B : Nat) (K : List Limbs) :
    Nat → List Limbs → Blocks → Except FaultCode (List Limbs × Blocks)
  | 0, A, xs => .ok (A, xs)
  | q + 1, A, xs => do
    let A' ← branchRound c A (xs.take B) (roundPowers B K q)
    branchRounds c B K q A' (xs.drop B)

/-- The merge `acc <- A[0]; acc <- ADD(acc, A[j])` in ascending `j`. -/
def mergeBranches (c : Config) : Limbs → List Limbs → Except FaultCode Limbs
  | acc, [] => .ok acc
  | acc, a :: as => do
    let acc' ← addLimbs c acc a
    mergeBranches c acc' as

/-- `BRANCH(B)` with `K = K[1..B]` (R185). -/
def branchSchedule (c : Config) (B : Nat) (K : List Limbs) (k : Limbs) (xs : Blocks) : Except FaultCode Limbs := do
  let out ← branchRounds c B K (xs.length / B) (List.replicate B c.zeros) xs
  let acc ← if xs.length / B = 0 then .ok c.zeros else mergeBranches c (out.1.headD []) out.1.tail
  chain c k acc out.2

/-! ## DELAY (R186) -/

/-- The wide accumulation of a group after its first product: `w <- ADDW(w, MUL(m[i+u], K[g-u]))`. -/
def delayAccumulate (c : Config) : Limbs → Blocks → List Limbs → Except FaultCode Limbs
  | w, x :: xs, pw :: pws => do
    let m ← x
    let v ← mulLimbs c m pw
    let w' ← addwLimbs c w v
    delayAccumulate c w' xs pws
  | w, _, _ => .ok w

/-- The powers of a group of `g` blocks: `K[g], K[g-1], .., K[1]`. -/
def groupPowers (K : List Limbs) (g : Nat) : List Limbs := (K.take g).reverse

/-- One group: `g` multiplications, one CARRY. An empty group leaves the accumulator. -/
def delayGroup (c : Config) (K : List Limbs) (acc : Limbs) : Blocks → Except FaultCode Limbs
  | [] => .ok acc
  | x :: xs => do
    let m ← x
    let y ← addLimbs c acc m
    let w ← mulLimbs c y ((groupPowers K (xs.length + 1)).headD [])
    let w' ← delayAccumulate c w xs (groupPowers K (xs.length + 1)).tail
    carryLimbs c w'

/-- `DELAY(D)` with `K = K[1..D]` (R186): the full groups, then the short last group if there is one. -/
def delaySchedule (c : Config) (D : Nat) (K : List Limbs) (xs : Blocks) : Except FaultCode Limbs := do
  let out ← windows (delayGroup c K) D (xs.length / D) c.zeros xs
  delayGroup c K out.1 out.2

/-! ## TREE (R187) -/

/-- One level: adjacent nodes pair as `ADD(CARRY(MUL(left, Q[l-1])), right)`. -/
def treeLevel (c : Config) (Q : Limbs) : List Limbs → Except FaultCode (List Limbs)
  | left :: right :: rest => do
    let y ← mulCarry c left Q
    let node ← addLimbs c y right
    let nodes ← treeLevel c Q rest
    return node :: nodes
  | _ => .ok []

/-- The levels `1 .. H` with the multipliers `Q[0], .., Q[H-1]`; the root is the one node left. -/
def treeLevels (c : Config) : List Limbs → List Limbs → Except FaultCode Limbs
  | [], nodes => .ok (nodes.headD [])
  | Q :: Qs, nodes => do
    let nodes' ← treeLevel c Q nodes
    treeLevels c Qs nodes'

/-- One window: the root `R`, then `acc <- CARRY(ADDW(MUL(acc, Q[H]), MUL(R, Q[0])))`. -/
def treeWindow (c : Config) (H : Nat) (Q : List Limbs) (acc : Limbs) (xs : Blocks) : Except FaultCode Limbs := do
  let nodes ← takeBlocks xs
  let R ← treeLevels c (Q.take H) nodes
  let wAcc ← mulLimbs c acc (Q.getD H [])
  let wR ← mulLimbs c R (Q.getD 0 [])
  let w ← addwLimbs c wAcc wR
  carryLimbs c w

/-- `TREE(H)` with `Q = Q[0..H]` (R187): the full windows, then CHAIN steps. -/
def treeSchedule (c : Config) (H : Nat) (Q : List Limbs) (k : Limbs) (xs : Blocks) : Except FaultCode Limbs := do
  let out ← windows (treeWindow c H Q) (2 ^ H) (xs.length / 2 ^ H) c.zeros xs
  chain c k out.1 out.2

/-! ## NESTED (R188) -/

/-- One inner group: the super-block `s` by CHAIN from zero, then `acc <- ADD(CARRY(MUL(acc, K[L])), s)`. -/
def nestedGroup (c : Config) (L : Nat) (K : List Limbs) (k : Limbs) (acc : Limbs) (xs : Blocks) :
    Except FaultCode Limbs := do
  let s ← chain c k c.zeros xs
  let y ← mulCarry c acc (K.getD (L - 1) [])
  addLimbs c y s

/-- `NESTED(L)` with `K = K[1..L]` (R188): the full groups, then CHAIN steps. -/
def nestedSchedule (c : Config) (L : Nat) (K : List Limbs) (k : Limbs) (xs : Blocks) : Except FaultCode Limbs := do
  let out ← windows (nestedGroup c L K k) L (xs.length / L) c.zeros xs
  chain c k out.1 out.2

/-! ## The evaluation of one sub-tag (R176) -/

/-- The powers `Init` derives for the configured strategy (R177, R184 to R188). -/
def initPowers (c : Config) (k : Limbs) : Except FaultCode (List Limbs) :=
  match c.STRATEGY with
  | .chain => .ok []
  | .branch B => powers c k B
  | .delay D => powers c k D
  | .tree H => squares c k (H + 1)
  | .nested L => powers c k L

/-- The schedule of the configured strategy: the accumulator that enters Combine (R184 to R188). -/
def schedule (c : Config) (k : Limbs) (pw : List Limbs) (xs : Blocks) : Except FaultCode Limbs :=
  match c.STRATEGY with
  | .chain => chain c k c.zeros xs
  | .branch B => branchSchedule c B pw k xs
  | .delay D => delaySchedule c D pw xs
  | .tree H => treeSchedule c H pw k xs
  | .nested L => nestedSchedule c L pw k xs

/-- A sub-tag as by PACK: `TF(packbytes(z, SUBTAGSIZE))` (R179). -/
def subTagBytes (c : Config) (z : Limbs) : List Byte := c.TF.apply (packBytes c z c.SUBTAGSIZE)

/-- Sub-tag `j`: Init, then the zero sub-tag for the empty message (R178), or Absorb, AbsorbLast and Combine
(R176, R179). -/
def evaluate (s : State) (j : Nat) : Except FaultCode (List Byte) := do
  let k ← deriveKey s j
  let pw ← initPowers s.cfg k
  if s.INLEN.toNat = 0 then
    return subTagBytes s.cfg s.cfg.zeros
  else
    let acc ← schedule s.cfg k pw (messageBlocks s)
    return subTagBytes s.cfg (reduceLimbs s.cfg acc)

/-- The sub-tags `j, j+1, ..` in turn, concatenated (R180). -/
def evaluateFrom (s : State) (j : Nat) : Nat → Except FaultCode (List Byte)
  | 0 => .ok []
  | n + 1 => do
    let t ← evaluate s j
    let ts ← evaluateFrom s (j + 1) n
    return t ++ ts

/-- The OUTPUTSIZE bytes HASH writes (R175): the KEYLEN check first, then every evaluation (R180). -/
def tagBytes (s : State) : Except FaultCode (List Byte) := do
  requireKeylen s
  evaluateFrom s 0 s.cfg.NTAGS

/-! ## The target value (R170), which every strategy must reach -/

/-- The recurrence `acc <- (acc + m[i]) * k mod p`, add first, then multiply (R172). -/
def horner (p k : Nat) : Nat → List Nat → Nat
  | acc, [] => acc
  | acc, m :: ms => horner p k ((acc + m) * k % p) ms

/-- `T(m[1..n], k) = (sum of m[i] * k^(n-i+1)) mod p` (R170). -/
def target (p k : Nat) (ms : List Nat) : Nat :=
  ((List.range ms.length).map (fun i => ms.getD i 0 * k ^ (ms.length - i))).sum % p

end Sys2Proof.Machine
end

