-- ==== Sys2Proof/Machine/Hash.lean ====
section
/-! DEFINITION. The commands HASH (43_hash_engine.md R175) and VERIFY (R205). Each is one step, atomic to the host
(20_memory.md R57); the phases Init to Combine pass inside it (DEDUCED, log entry 14). -/

namespace Sys2Proof.Machine

/-- What reaching `Done` leaves besides the result (R175, R205): `PHASE`, `MPTR = INLEN`, no register written. -/
def reachDone (s : State) : State := { clearMarks s with PHASE := .done, MPTR := s.INLEN }

/-- `HASH` (R175): OUT gets the tag and OUTVALID 1; VOK is cleared by the start (10_state.md R32). -/
def execHash (s : State) : Out :=
  issue .hash s do
    let tag ← tagBytes s
    return { reachDone s with OUT := Memory.writeRun s.OUT 0 tag, OUTVALID := true, VOK := false }

/-- `VERIFY` (R205): the candidate in OUT against the recomputed tag; OUT is left as it was. -/
def execVerify (s : State) : Out :=
  issue .verify s do
    requireKeylen s
    let cand ← readBytes s.OUT 0 s.cfg.OUTPUTSIZE
    let tag ← tagBytes s
    return { reachDone s with VOK := sameBytes cand tag, OUTVALID := false }

end Sys2Proof.Machine
end

