-- ==== Sys2Proof/Machine/Dispatch.lean ====
section
/-! DEFINITION. The one dispatch from a command to its meaning (30_encoding.md R74). -/

namespace Sys2Proof.Machine

/-- The meaning of a command in a state. -/
def exec (i : Instr) (s : State) : Host.Outcome State Fault Refusal :=
  match i with
  | .add fd fa fb => Sys2Proof.Machine.execAdd fd fa fb s
  | .addw wd wa wb => Sys2Proof.Machine.execAddw wd wa wb s
  | .mul wd fa fb => Sys2Proof.Machine.execMul wd fa fb s
  | .sqr wd fa => Sys2Proof.Machine.execSqr wd fa s
  | .precomp pd fa => Sys2Proof.Machine.execPrecomp pd fa s
  | .mulp wd fa pb => Sys2Proof.Machine.execMulp wd fa pb s
  | .carry fd wa => Sys2Proof.Machine.execCarry fd wa s
  | .reduce fd fa => Sys2Proof.Machine.execReduce fd fa s
  | .zero fd => Sys2Proof.Machine.execZero fd s
  | .zerow wd => Sys2Proof.Machine.execZerow wd s
  | .unpack fd idx => Sys2Proof.Machine.execUnpack fd idx s
  | .encb fd => Sys2Proof.Machine.execEncb fd s
  | .encl fd => Sys2Proof.Machine.execEncl fd s
  | .pack fa idx => Sys2Proof.Machine.execPack fa idx s
  | .mrst => Sys2Proof.Machine.execMrst s
  | .dkey fd idx => Sys2Proof.Machine.execDkey fd idx s
  | .dpow fd fa n => Sys2Proof.Machine.execDpow fd fa n s
  | .dpow2 fd fa n => Sys2Proof.Machine.execDpow2 fd fa n s
  | .hash => Sys2Proof.Machine.execHash s
  | .verify => Sys2Proof.Machine.execVerify s

end Sys2Proof.Machine
end

