-- ==== Sys2Proof/Machine/Port.lean ====
section
/-! DEFINITION. The host interface (20_memory.md R59): what each host action other than a command does, and what
the host reads. -/

namespace Sys2Proof.Machine

/-- The value of `PHASE` (R30). -/
def phaseValue : Phase → Nat
  | .idle => 0
  | .init => 1
  | .absorb => 2
  | .absorbLast => 3
  | .combine => 4
  | .done => 5
  | .faulted => 7

/-- The value of `FAULT` (R31, R220): 0 for no fault. -/
def faultValue : Option FaultCode → Nat
  | none => 0
  | some .illegal => 1
  | some .keylen => 2
  | some .range => 3
  | some .uninit => 4
  | some .overflow => 5
  | some .notTight => 6

/-- What the host reads (R59), as a number. `none` is an unspecified byte of OUT, to which the model gives no
value (R37, R38, log entries 3 and 6). -/
def hostRead (s : State) : HostReg → Option Nat
  | .out addr => (Memory.read s.OUT addr).map BitVec.toNat
  | .outvalid => some s.OUTVALID.toNat
  | .mptr => some s.MPTR.toNat
  | .phase => some (phaseValue s.PHASE)
  | .fault => some (faultValue s.FAULT)
  | .finfo => some s.FINFO.toNat
  | .vok => some s.VOK.toNat

/-- The address is inside a space of `size` bytes; `none` is an unbounded space (R50, R224). -/
def inSpace (addr : Nat) : Option Nat → Bool
  | some size => decide (addr < size)
  | none => true

/-- A read changes nothing (R58); a read of what does not exist is no move of the host. -/
def hostReadStep (s : State) : HostReg → Out
  | .out addr => if addr < s.cfg.OUTPUTSIZE then .next s else .fault (.hostAddress .out addr)
  | .vok => if s.cfg.HAS_VERIFY then .next s else .fault .vokAbsent
  | _ => .next s

/-- A host write of a byte of KEY (R26). -/
def hostWriteKey (s : State) (addr : Nat) (b : Byte) : Out :=
  if addr < s.cfg.KEYSIZE then .next { s with KEY := Memory.write s.KEY addr b }
  else .fault (.hostAddress .key addr)

/-- A host write of a byte of MSG (R27). -/
def hostWriteMsg (s : State) (addr : Nat) (b : Byte) : Out :=
  if inSpace addr s.cfg.MSGMAX then .next { s with MSG := Memory.write s.MSG addr b }
  else .fault (.hostAddress .msg addr)

/-- INLEN may take the value: at most MSGMAX (R224). -/
def inlenAccepted (c : Config) (v : BitVec 64) : Bool :=
  match c.MSGMAX with
  | some m => decide (v.toNat ≤ m)
  | none => true

/-- A host write of INLEN: also `MPTR <- 0` (R27); above MSGMAX it is refused and nothing changes (R224). -/
def hostWriteInlen (s : State) (v : BitVec 64) : Out :=
  if inlenAccepted s.cfg v then .next { s with INLEN := v, MPTR := 0 } else .next s

/-- A host write of a byte of OUT: only with HAS_VERIFY, and it clears OUTVALID (R28, R59). -/
def hostWriteOut (s : State) (addr : Nat) (b : Byte) : Out :=
  if s.cfg.HAS_VERIFY then
    if addr < s.cfg.OUTPUTSIZE then .next { s with OUT := Memory.write s.OUT addr b, OUTVALID := false }
    else .fault (.hostAddress .out addr)
  else .fault .outNotWritable

/-- Reset (R250): the reset state of the same core. The configuration is not state and the host's further
actions are its own. -/
def hostReset (s : State) : State := { State.resetOf s.cfg with port := s.port }

/-- One host action (R59). A command word is run by `run`, which the step supplies. -/
def hostStep (run : Word → State → Out) (act : HostAction) (s : State) : Out :=
  match act with
  | .writeKey addr b => hostWriteKey s addr b
  | .writeKeylen v => .next { s with KEYLEN := v }
  | .writeMsg addr b => hostWriteMsg s addr b
  | .writeInlen v => hostWriteInlen s v
  | .writeOut addr b => hostWriteOut s addr b
  | .read reg => hostReadStep s reg
  | .command w => run w s
  | .reset => .next (hostReset s)

/-- A presented word: decoded and run, or illegal (30_encoding.md R70, R78). -/
def present (run : Instr → State → Out) (w : Word) (s : State) : Out :=
  match decode w with
  | .ok i => run i s
  | .error _ => illegalWord w s

/-- The core waits for the host, or takes its next action (70_reset_and_hazards.md R250: "after reset the core
waits for the host's first command"; R260: nothing advances except by a command). -/
def takeAction (run : Instr → State → Out) (s : State) : Out :=
  match s.port with
  | [] => .next s
  | act :: rest => hostStep (present run) act { s with port := rest }

/-- Put a command word at the front of the host's actions: the next word the core is presented with. -/
def placeCommand (s : State) (w : Word) : State := { s with port := .command w :: s.port }

end Sys2Proof.Machine
end

