-- ==== Sys2Proof/Machine/Step.lean ====
section
/-! DEFINITION. One step: the core takes the host's next action; a command word is decoded and executed to
completion (30_encoding.md R70, 20_memory.md R61). An ill-formed configuration has no core (00_scope.md R9). -/

namespace Sys2Proof.Machine

/-- One step of the machine. -/
def step (s : State) : Host.Outcome State Fault Refusal :=
  if s.cfg.wf then takeAction exec s else .refused .illFormedConfig

/-- The state with a command word presented next: what `step` decodes and runs. -/
def State.withFetchWord (s : State) (nbits w : Nat) : State :=
  placeCommand s (BitVec.ofNat 32 (w % 2 ^ nbits))

end Sys2Proof.Machine
end

