-- ==== Sys2Proof/Machine/Assembler.lean ====
section
/-! DEFINITION. The assembler text of a command (30_encoding.md R79) and the two pseudo-commands (R80), which the
core never sees: they are lists of commands. -/

namespace Sys2Proof

/-- `F0 .. F255` (R79). -/
def textF (i : RegNo) : String := "F" ++ toString i.toNat
/-- `W0 .. W255` (R79). -/
def textW (i : RegNo) : String := "W" ++ toString i.toNat
/-- `P0 .. P255` (R79). -/
def textP (i : RegNo) : String := "P" ++ toString i.toNat
/-- An immediate, a decimal number (R79). -/
def textImm (n : Imm8) : String := toString n.toNat

/-- Operands separated by commas (R79). -/
def textLine (mnemonic : String) (operands : List String) : String :=
  match operands with
  | [] => mnemonic
  | _ => mnemonic ++ " " ++ String.intercalate ", " operands

/-- One command as a line of assembler: mnemonic, destination, sources, immediate (R79). -/
def Instr.text : Instr → String
  | .add fd fa fb => textLine "ADD" [textF fd, textF fa, textF fb]
  | .addw wd wa wb => textLine "ADDW" [textW wd, textW wa, textW wb]
  | .mul wd fa fb => textLine "MUL" [textW wd, textF fa, textF fb]
  | .sqr wd fa => textLine "SQR" [textW wd, textF fa]
  | .precomp pd fa => textLine "PRECOMP" [textP pd, textF fa]
  | .mulp wd fa pb => textLine "MULP" [textW wd, textF fa, textP pb]
  | .carry fd wa => textLine "CARRY" [textF fd, textW wa]
  | .reduce fd fa => textLine "REDUCE" [textF fd, textF fa]
  | .zero fd => textLine "ZERO" [textF fd]
  | .zerow wd => textLine "ZEROW" [textW wd]
  | .unpack fd idx => textLine "UNPACK" [textF fd, textImm idx]
  | .encb fd => textLine "ENCB" [textF fd]
  | .encl fd => textLine "ENCL" [textF fd]
  | .pack fa idx => textLine "PACK" [textF fa, textImm idx]
  | .mrst => textLine "MRST" []
  | .dkey fd idx => textLine "DKEY" [textF fd, textImm idx]
  | .dpow fd fa n => textLine "DPOW" [textF fd, textF fa, textImm n]
  | .dpow2 fd fa n => textLine "DPOW2" [textF fd, textF fa, textImm n]
  | .hash => textLine "HASH" []
  | .verify => textLine "VERIFY" []

/-- `MULRED Fd, Fa, Fb, Wt` (R80): the repeated multiply and reduce. -/
def mulred (fd fa fb wt : RegNo) : List Instr := [.mul wt fa fb, .carry fd wt, .reduce fd fd]

/-- `HSTEP Facc, Fm, Fk, Wt` (R80): one step of the recurrence of 43_hash_engine.md R172. -/
def hstepCommands (facc fm fk wt : RegNo) : List Instr := [.add facc facc fm, .mul wt facc fk, .carry facc wt]

end Sys2Proof
end

