-- ==== Sys2Proof/Machine/Phases.lean ====
section
/-! DEFINITION. HASH as the sequence of internal steps of 43_hash_engine.md R176: `PHASE` and `MPTR` move as the
document's state machine says (10_state.md R29, R30), each block is encoded and handed to the strategy in the phase
that reads it, and no more encoded blocks are kept than 20_memory.md R67 allows. No host can observe these steps,
`execHash` is one step (R175, 20_memory.md R57); "a big-step model (rule R175) and a small-step model that follows
this rule and section 3 agree on every state the host can observe" (R176), which is an obligation of this package
(DEDUCED, log entry 14). -/

namespace Sys2Proof.Machine

/-! ## Handing blocks to the strategy (R176, R184 to R188) -/

/-- The variables of one evaluation that change while it absorbs: the accumulator `acc`, the branch accumulators
`A[0..B-1]` of BRANCH (R185), the super-block `s` of NESTED and how many blocks it holds (R188), and the encoded blocks
of the group that is not complete yet (20_memory.md R67). -/
structure Evaluation where
  acc : Limbs
  lanes : List Limbs
  inner : Limbs
  innerCount : Nat
  inFlight : List Limbs
  deriving DecidableEq, Repr

/-- "Accumulators are created zero-initialized" (R177). -/
def Evaluation.start (c : Config) : Evaluation where
  acc := c.zeros
  lanes :=
    match c.STRATEGY with
    | .branch B => List.replicate B c.zeros
    | .chain => []
    | .delay _ => []
    | .tree _ => []
    | .nested _ => []
  inner := c.zeros
  innerCount := 0
  inFlight := []

/-- At most so many encoded blocks are in flight: one for CHAIN, B, D, `2^H`, one for NESTED (20_memory.md R67). -/
def inFlightLimit : Strategy → Nat
  | .chain => 1
  | .branch B => B
  | .delay D => D
  | .tree H => 2 ^ H
  | .nested _ => 1

/-- How many blocks the strategy takes at once when `left` blocks, from the next one to the last, are still to be
processed: a round of BRANCH, a group of DELAY, a window of TREE, else one block, for the remainder path too (R185 to
R188). NESTED takes its blocks one by one, because R67 allows it one block in flight (DEDUCED, log entry 21). -/
def groupSize (st : Strategy) (left : Nat) : Nat :=
  match st with
  | .chain => 1
  | .branch B => if B ≤ left then B else 1
  | .delay D => min D left
  | .tree H => if 2 ^ H ≤ left then 2 ^ H else 1
  | .nested _ => 1

/-- One `hstep` per block on `acc`: CHAIN and the remainder paths (R184). -/
def chainGroup (c : Config) (k : Limbs) (ev : Evaluation) (ms : List Limbs) : Except FaultCode Evaluation := do
  let acc ← chain c k ev.acc (ms.map .ok)
  return { ev with acc := acc }

/-- A full round of BRANCH with `left` blocks from its first one on; the last full round also merges the branches
(R185). -/
def branchGroup (c : Config) (B : Nat) (K : List Limbs) (left : Nat) (ev : Evaluation) (ms : List Limbs) :
    Except FaultCode Evaluation := do
  let lanes ← branchRound c ev.lanes (ms.map .ok) (roundPowers B K (left / B - 1))
  if left / B - 1 = 0 then
    let acc ← mergeBranches c (lanes.headD []) lanes.tail
    return { ev with acc := acc, lanes := lanes }
  else
    return { ev with lanes := lanes }

/-- One block of an inner group of NESTED; the last one of the group is followed by the outer recurrence (R188). -/
def nestedBlock (c : Config) (L : Nat) (K : List Limbs) (k : Limbs) (ev : Evaluation) (ms : List Limbs) :
    Except FaultCode Evaluation := do
  let s ← chain c k ev.inner (ms.map .ok)
  if ev.innerCount + 1 = L then
    let y ← mulCarry c ev.acc (K.getD (L - 1) [])
    let acc ← addLimbs c y s
    return { ev with acc := acc, inner := c.zeros, innerCount := 0 }
  else
    return { ev with inner := s, innerCount := ev.innerCount + 1 }

/-- The strategy processes a complete group `ms`, the first of `left` blocks (R184 to R188). -/
def processGroup (c : Config) (k : Limbs) (pw : List Limbs) (left : Nat) (ev : Evaluation) (ms : List Limbs) :
    Except FaultCode Evaluation :=
  match c.STRATEGY with
  | .chain => chainGroup c k ev ms
  | .branch B => if B ≤ left then branchGroup c B pw left ev ms else chainGroup c k ev ms
  | .delay _ => do
    let acc ← delayGroup c pw ev.acc (ms.map .ok)
    return { ev with acc := acc }
  | .tree H =>
    if 2 ^ H ≤ left then do
      let acc ← treeWindow c H pw ev.acc (ms.map .ok)
      return { ev with acc := acc }
    else chainGroup c k ev ms
  | .nested L =>
    if ev.innerCount = 0 ∧ left < L then chainGroup c k ev ms else nestedBlock c L pw k ev ms

/-- "Hand it to the strategy" (R176): `m` is the next block, `left` blocks from it on to the last. It waits in flight
until its group is complete; a complete group is processed at once and no block of it is retained (R67). -/
def handBlock (c : Config) (k : Limbs) (pw : List Limbs) (left : Nat) (ev : Evaluation) (m : Limbs) :
    Except FaultCode Evaluation :=
  if ev.inFlight.length + 1 < groupSize c.STRATEGY (left + ev.inFlight.length) then
    .ok { ev with inFlight := ev.inFlight ++ [m] }
  else
    processGroup c k pw (left + ev.inFlight.length) { ev with inFlight := [] } (ev.inFlight ++ [m])

/-! ## The phases (R176) -/

/-- The inside of a running HASH: the core's state with its moving `PHASE` and `MPTR`, the sub-tag `j` under
evaluation, the point and the powers of its `Init`, the variables of the evaluation, and the bytes of the sub-tags
already computed. -/
structure HashRun where
  core : State
  j : Nat
  k : Limbs
  powers : List Limbs
  eval : Evaluation
  tag : List Byte
  deriving DecidableEq, Repr

/-- The start of HASH: `PHASE <- Init`, `MPTR <- 0`, `OUTVALID` and `VOK` cleared (R28, R29, R32). -/
def hashStart (s : State) : HashRun :=
  { core := { s with PHASE := .init, MPTR := 0, OUTVALID := false, VOK := false }, j := 0, k := [], powers := [],
    eval := Evaluation.start s.cfg, tag := [] }

/-- A sub-tag is complete: the next evaluation starts, or the last one reaches `Done` (R176). -/
def subTagDone (run : HashRun) (bytes : List Byte) : HashRun :=
  if run.j + 1 < run.core.cfg.NTAGS then
    { run with core := { run.core with PHASE := .init }, j := run.j + 1, tag := run.tag ++ bytes }
  else
    { run with core := { run.core with PHASE := .done }, tag := run.tag ++ bytes }

/-- `Init` (R176, R177, R178): rewind, derive the point and the powers, zero the accumulators; the empty message ends
here. -/
def initPhase (run : HashRun) : Except FaultCode HashRun := do
  let k ← deriveKey run.core run.j
  let pw ← initPowers run.core.cfg k
  let run' := { run with
    core := { run.core with MPTR := 0 }, k := k, powers := pw, eval := Evaluation.start run.core.cfg }
  if run.core.INLEN.toNat = 0 then
    return subTagDone run' (subTagBytes run.core.cfg run.core.cfg.zeros)
  else
    return { run' with core := { run'.core with PHASE := .absorb } }

/-- How many blocks lie from `MPTR` on to the end of the message. -/
def blocksLeft (s : State) : Nat := (remaining s + s.cfg.BLOCKSIZE - 1) / s.cfg.BLOCKSIZE

/-- `Absorb` (R176): while more than BLOCKSIZE bytes remain, encode the next full block as by ENCB and hand it to the
strategy; else on to `AbsorbLast`. -/
def absorbPhase (run : HashRun) : Except FaultCode HashRun :=
  if run.core.cfg.BLOCKSIZE < remaining run.core then do
    let m ← encodeFullAt run.core run.core.MPTR.toNat
    let ev ← handBlock run.core.cfg run.k run.powers (blocksLeft run.core) run.eval m
    return { run with
      core := { run.core with MPTR := BitVec.ofNat 64 (run.core.MPTR.toNat + run.core.cfg.BLOCKSIZE) }, eval := ev }
  else
    .ok { run with core := { run.core with PHASE := .absorbLast } }

/-- `AbsorbLast` (R176): encode the last 1 .. BLOCKSIZE bytes as by ENCL and hand them to the strategy, which processes
the group that contains `m[n]`. -/
def absorbLastPhase (run : HashRun) : Except FaultCode HashRun := do
  let m ← encodeLastAt run.core run.core.MPTR.toNat
  let ev ← handBlock run.core.cfg run.k run.powers (blocksLeft run.core) run.eval m
  return { run with core := { run.core with PHASE := .combine, MPTR := run.core.INLEN }, eval := ev }

/-- `Combine` (R176, R179): REDUCE the strategy's final accumulator and write the sub-tag. -/
def combinePhase (run : HashRun) : HashRun :=
  subTagDone run (subTagBytes run.core.cfg (reduceLimbs run.core.cfg run.eval.acc))

/-- One internal step. `Idle`, `Done` and `Faulted` are no phases of a running HASH: nothing moves. -/
def phaseStep (run : HashRun) : Except FaultCode HashRun :=
  match run.core.PHASE with
  | .init => initPhase run
  | .absorb => absorbPhase run
  | .absorbLast => absorbLastPhase run
  | .combine => .ok (combinePhase run)
  | .idle => .ok run
  | .done => .ok run
  | .faulted => .ok run

/-- `n` internal steps, up to the first fault. -/
def phaseSteps : Nat → HashRun → Except FaultCode HashRun
  | 0, run => .ok run
  | n + 1, run => do
    let run' ← phaseStep run
    phaseSteps n run'

end Sys2Proof.Machine
end

