-- ==== Sys2Proof/Safety.lean ====
section
/-! DEFINITION. The vocabulary of the claims: the invariant every step keeps, when a command can execute, what a
byte run is, the tag by the formula alone (43_hash_engine.md R170, R171, R175), what is public
(70_reset_and_hazards.md R258), and which bytes a command reads (20_memory.md R51, R55, R56, R66). -/

namespace Sys2Proof

/-! ## What a command reads and writes, from its word and public values alone (20_memory.md R66) -/

/-- The narrow registers a single-operation command writes. -/
def Instr.destF : Instr → List Nat
  | .add fd _ _ => [fd.toNat]
  | .carry fd _ => [fd.toNat]
  | .reduce fd _ => [fd.toNat]
  | .zero fd => [fd.toNat]
  | .unpack fd _ => [fd.toNat]
  | .encb fd => [fd.toNat]
  | .encl fd => [fd.toNat]
  | .dkey fd _ => [fd.toNat]
  | .dpow fd _ n => (List.range n.toNat).map (fun i => fd.toNat + i)
  | .dpow2 fd _ n => (List.range n.toNat).map (fun i => fd.toNat + i)
  | .addw .. => []
  | .mul .. => []
  | .sqr .. => []
  | .precomp .. => []
  | .mulp .. => []
  | .zerow .. => []
  | .pack .. => []
  | .mrst => []
  | .hash => []
  | .verify => []

/-- The wide registers a single-operation command writes. -/
def Instr.destW : Instr → List Nat
  | .addw wd _ _ => [wd.toNat]
  | .mul wd _ _ => [wd.toNat]
  | .sqr wd _ => [wd.toNat]
  | .mulp wd _ _ => [wd.toNat]
  | .zerow wd => [wd.toNat]
  | .add .. => []
  | .precomp .. => []
  | .carry .. => []
  | .reduce .. => []
  | .zero .. => []
  | .unpack .. => []
  | .encb .. => []
  | .encl .. => []
  | .pack .. => []
  | .mrst => []
  | .dkey .. => []
  | .dpow .. => []
  | .dpow2 .. => []
  | .hash => []
  | .verify => []

/-- The factor registers a single-operation command writes. -/
def Instr.destP : Instr → List Nat
  | .precomp pd _ => [pd.toNat]
  | .add .. => []
  | .addw .. => []
  | .mul .. => []
  | .sqr .. => []
  | .mulp .. => []
  | .carry .. => []
  | .reduce .. => []
  | .zero .. => []
  | .zerow .. => []
  | .unpack .. => []
  | .encb .. => []
  | .encl .. => []
  | .pack .. => []
  | .mrst => []
  | .dkey .. => []
  | .dpow .. => []
  | .dpow2 .. => []
  | .hash => []
  | .verify => []

/-! ## The operand ranges of 30_encoding.md R73, format by format -/

/-- Register numbers below NF (narrow), NW (wide) and NP (factor); `idx` below NTAGS; `1 <= n` and the registers
`a .. a+n-1` below NF (R73); VERIFY only with HAS_VERIFY (R76). -/
def Instr.OperandsInRange (c : Config) : Instr → Prop
  | .add fd fa fb => fd.toNat < c.NF ∧ fa.toNat < c.NF ∧ fb.toNat < c.NF
  | .addw wd wa wb => wd.toNat < c.NW ∧ wa.toNat < c.NW ∧ wb.toNat < c.NW
  | .mul wd fa fb => wd.toNat < c.NW ∧ fa.toNat < c.NF ∧ fb.toNat < c.NF
  | .sqr wd fa => wd.toNat < c.NW ∧ fa.toNat < c.NF
  | .precomp pd fa => pd.toNat < c.NP ∧ fa.toNat < c.NF
  | .mulp wd fa pb => wd.toNat < c.NW ∧ fa.toNat < c.NF ∧ pb.toNat < c.NP
  | .carry fd wa => fd.toNat < c.NF ∧ wa.toNat < c.NW
  | .reduce fd fa => fd.toNat < c.NF ∧ fa.toNat < c.NF
  | .zero fd => fd.toNat < c.NF
  | .zerow wd => wd.toNat < c.NW
  | .unpack fd idx => fd.toNat < c.NF ∧ idx.toNat < c.NTAGS
  | .encb fd => fd.toNat < c.NF
  | .encl fd => fd.toNat < c.NF
  | .pack fa idx => fa.toNat < c.NF ∧ idx.toNat < c.NTAGS
  | .mrst => True
  | .dkey fd idx => fd.toNat < c.NF ∧ idx.toNat < c.NTAGS
  | .dpow fd fa n => fd.toNat < c.NF ∧ fa.toNat < c.NF ∧ 1 ≤ n.toNat ∧ fd.toNat + n.toNat - 1 < c.NF
  | .dpow2 fd fa n => fd.toNat < c.NF ∧ fa.toNat < c.NF ∧ 1 ≤ n.toNat ∧ fd.toNat + n.toNat - 1 < c.NF
  | .hash => True
  | .verify => c.HAS_VERIFY = true

/-- A run of `n` addresses of a space. -/
def runOf (sp : Machine.Space) (a n : Nat) : List (Machine.Space × Nat) := (List.range n).map (fun i => (sp, a + i))

/-- The bytes a command may read, from the word, the configuration, INLEN and MPTR alone (R51, R55, R56, R66). -/
def Instr.reads (c : Config) (inlen mptr : Nat) : Instr → List (Machine.Space × Nat)
  | .unpack _ idx => runOf .key (idx.toNat * c.SUBKEYSIZE) c.SUBKEYSIZE
  | .dkey _ idx => runOf .key (idx.toNat * c.SUBKEYSIZE) c.SUBKEYSIZE
  | .encb _ => runOf .msg mptr c.BLOCKSIZE
  | .encl _ => runOf .msg mptr (inlen - mptr)
  | .hash => runOf .key 0 c.KEYSIZE ++ runOf .msg 0 inlen
  | .verify => runOf .key 0 c.KEYSIZE ++ runOf .msg 0 inlen ++ runOf .out 0 c.OUTPUTSIZE
  | .add .. => []
  | .addw .. => []
  | .mul .. => []
  | .sqr .. => []
  | .precomp .. => []
  | .mulp .. => []
  | .carry .. => []
  | .reduce .. => []
  | .zero .. => []
  | .zerow .. => []
  | .pack .. => []
  | .mrst => []
  | .dpow .. => []
  | .dpow2 .. => []

end Sys2Proof

namespace Sys2Proof.Machine

/-! ## The invariant -/

/-- Every address of a space is below its size. -/
def addressesBelow (m : Memory) (size : Nat) : Bool := m.all (fun cell => decide (cell.1 < size))

/-- Every address of a space is below its size; `none` is unbounded (60_exceptions.md R224). -/
def addressesIn (m : Memory) : Option Nat → Bool
  | some size => addressesBelow m size
  | none => true

/-- The relations between the fields of a state that every step keeps. -/
structure State.Inv (s : State) : Prop where
  /-- The configuration is well formed (00_scope.md R9). -/
  cfgWf : s.cfg.wf = true
  /-- The register files have the sizes of the configuration (10_state.md R21 to R23). -/
  sizes : s.F.length = s.cfg.NF ∧ s.Wd.length = s.cfg.NW ∧ s.P.length = s.cfg.NP
  /-- Narrow registers hold N limbs of W bits (R21). -/
  narrow : ∀ reg ∈ s.F, s.cfg.narrow reg.limbs = true
  /-- Wide registers hold N limbs of 2W bits (R22). -/
  wide : ∀ reg ∈ s.Wd, s.cfg.wide reg.limbs = true
  /-- Factor registers hold stored limbs (R23). -/
  factor : ∀ reg ∈ s.P, s.cfg.narrow reg.k = true ∧ reg.s.length + 1 = s.cfg.N ∧ fits s.cfg.W reg.s = true
  /-- `s[j] = FOLD * k[j]` for `j = 1 .. N-1` (R23). -/
  scaled : ∀ reg ∈ s.P, reg.written = true → reg.s = scaledLimbs s.cfg reg.k
  /-- The spaces are in canonical form and inside their sizes (20_memory.md R50). -/
  keySpace : Memory.wf s.KEY = true ∧ addressesBelow s.KEY s.cfg.KEYSIZE = true
  msgSpace : Memory.wf s.MSG = true ∧ addressesIn s.MSG s.cfg.MSGMAX = true
  outSpace : Memory.wf s.OUT = true ∧ addressesBelow s.OUT s.cfg.OUTPUTSIZE = true
  /-- `0 <= MPTR <= INLEN` (R29) and `INLEN <= MSGMAX` (60_exceptions.md R224). -/
  pointer : s.MPTR.toNat ≤ s.INLEN.toNat
  inlen : inlenAccepted s.cfg s.INLEN = true
  /-- The host can observe only Idle, Done and Faulted (R30). -/
  phase : s.PHASE = .idle ∨ s.PHASE = .done ∨ s.PHASE = .faulted
  /-- Faulted exactly while `FAULT` is not 0 (60_exceptions.md R226). -/
  fault : s.PHASE = .faulted ↔ s.FAULT ≠ none
  /-- `FINFO` is 0 until a command faults (R31, R37). -/
  finfo : s.FAULT = none → s.FINFO = 0
  /-- A valid tag stands in OUT only after a HASH that reached Done (R28), all its bytes written. -/
  outvalid : s.OUTVALID = true →
    s.PHASE = .done ∧ (Memory.readRun s.OUT 0 s.cfg.OUTPUTSIZE).isSome = true
  /-- Without HAS_VERIFY there is no VOK (R32). -/
  vok : s.cfg.HAS_VERIFY = false → s.VOK = false

/-! ## When a command executes -/

/-- The command is neither refused nor illegal: `FAULT` is 0 and its operands are in range (30_encoding.md R73,
60_exceptions.md R226). -/
def Ready (i : Instr) (s : State) : Prop := s.FAULT = none ∧ i.wf s.cfg = true

/-- `F[i]` is written and holds these limbs. -/
def HoldsF (s : State) (i : RegNo) (v : Limbs) : Prop := s.F[i.toNat]? = some ⟨v, true⟩

/-- `Wd[i]` is written and holds these limbs. -/
def HoldsW (s : State) (i : RegNo) (v : Limbs) : Prop := s.Wd[i.toNat]? = some ⟨v, true⟩

/-- `P[i]` is written and holds these limbs. -/
def HoldsP (st : State) (i : RegNo) (k s : Limbs) : Prop := st.P[i.toNat]? = some ⟨k, s, true⟩

/-- `F[i]` is a register of the file that is not marked written. -/
def UnwrittenF (s : State) (i : RegNo) : Prop := ∃ v, s.F[i.toNat]? = some ⟨v, false⟩

/-- `Wd[i]` is a register of the file that is not marked written. -/
def UnwrittenW (s : State) (i : RegNo) : Prop := ∃ v, s.Wd[i.toNat]? = some ⟨v, false⟩

/-- `P[i]` is a register of the file that is not marked written. -/
def UnwrittenP (st : State) (i : RegNo) : Prop := ∃ k s, st.P[i.toNat]? = some ⟨k, s, false⟩

/-- Every `F`, `Wd` and `P` register is not written (10_state.md R36). -/
def NoneWritten (s : State) : Prop :=
  (∀ reg ∈ s.F, reg.written = false) ∧ (∀ reg ∈ s.Wd, reg.written = false) ∧ (∀ reg ∈ s.P, reg.written = false)

/-- The state after a fault of a single-operation command: the fault registers, `PHASE` and `OUTVALID`, and
nothing else (60_exceptions.md R226). -/
def faultedState (s : State) (code : FaultCode) (info : Word) : State :=
  { s with FAULT := some code, FINFO := info, PHASE := .faulted, OUTVALID := false }

/-- The table of 10_state.md R37, which 70_reset_and_hazards.md R250 repeats: every `written` mark 0, no byte of a
space written, every other register at its value. -/
def ResetTable (s : State) : Prop :=
  NoneWritten s ∧
  (∀ a, Memory.read s.KEY a = none ∧ Memory.read s.MSG a = none ∧ Memory.read s.OUT a = none) ∧
  s.KEYLEN = 0 ∧ s.INLEN = 0 ∧ s.OUTVALID = false ∧ s.MPTR = 0 ∧ s.PHASE = .idle ∧ s.FAULT = none ∧ s.FINFO = 0 ∧
  s.VOK = false

/-- HASH or VERIFY ended in this fault: the fault registers, `PHASE` and `OUTVALID` as on every fault, every register
not written, `MPTR` 0, the inputs kept (60_exceptions.md R226). -/
def HashFaulted (s : State) (code : FaultCode) (out : Out) : Prop :=
  ∃ t, out = .next t ∧ t.FAULT = some code ∧ t.PHASE = .faulted ∧ t.OUTVALID = false ∧ t.MPTR = 0 ∧ NoneWritten t ∧
    t.KEY = s.KEY ∧ t.KEYLEN = s.KEYLEN ∧ t.MSG = s.MSG ∧ t.INLEN = s.INLEN

/-- What the host reads (20_memory.md R59): a byte of OUT that holds a value; OUTVALID, MPTR and FINFO; `PHASE` as 0 to
5 and 7 (10_state.md R30); `FAULT` as the codes 0 to 6 (60_exceptions.md R220); VOK. -/
def HostReads (s : State) : Prop :=
  (∀ a b, Memory.read s.OUT a = some b → hostRead s (.out a) = some b.toNat) ∧
  hostRead s .outvalid = some (if s.OUTVALID then 1 else 0) ∧
  hostRead s .mptr = some s.MPTR.toNat ∧
  ((s.PHASE = .idle → hostRead s .phase = some 0) ∧ (s.PHASE = .init → hostRead s .phase = some 1) ∧
    (s.PHASE = .absorb → hostRead s .phase = some 2) ∧ (s.PHASE = .absorbLast → hostRead s .phase = some 3) ∧
    (s.PHASE = .combine → hostRead s .phase = some 4) ∧ (s.PHASE = .done → hostRead s .phase = some 5) ∧
    (s.PHASE = .faulted → hostRead s .phase = some 7)) ∧
  ((s.FAULT = none → hostRead s .fault = some 0) ∧ (s.FAULT = some .illegal → hostRead s .fault = some 1) ∧
    (s.FAULT = some .keylen → hostRead s .fault = some 2) ∧ (s.FAULT = some .range → hostRead s .fault = some 3) ∧
    (s.FAULT = some .uninit → hostRead s .fault = some 4) ∧ (s.FAULT = some .overflow → hostRead s .fault = some 5) ∧
    (s.FAULT = some .notTight → hostRead s .fault = some 6)) ∧
  hostRead s .finfo = some s.FINFO.toNat ∧
  hostRead s .vok = some (if s.VOK then 1 else 0)

/-- `MUL(a, b)`, or `CARRY` of its result, fails a storage check (42_key.md R153, R154). -/
def MulCarryOverflows (c : Config) (a b : Limbs) : Prop :=
  mulLimbs c a b = .error .overflow ∨ ∃ w, mulLimbs c a b = .ok w ∧ carryLimbs c w = .error .overflow

/-- The message that INLEN names is written: its bytes (10_state.md R27). -/
def Message (s : State) (msg : List Byte) : Prop := Memory.readRun s.MSG 0 s.INLEN.toNat = some msg

/-- The key is stated and written: its bytes (10_state.md R26, 60_exceptions.md R222). -/
def KeyGiven (s : State) (key : List Byte) : Prop :=
  s.KEYLEN.toNat = s.cfg.KEYSIZE ∧ Memory.readRun s.KEY 0 s.cfg.KEYSIZE = some key

/-- A word that is illegal for a configuration, cause by cause (30_encoding.md R78, 60_exceptions.md R221): an
opcode outside the map, VERIFY without HAS_VERIFY, an unused field that is not 0, or a register number or an
immediate out of range (R73). -/
def IllegalWord (c : Config) (w : Word) : Prop :=
  (∀ i : Instr, fieldOp w ≠ i.opcode) ∨
  (fieldOp w = 0x21 ∧ c.HAS_VERIFY = false) ∨
  (∃ i : Instr, fieldOp w = i.opcode ∧ w &&& i.mask ≠ i.matchBits) ∨
  (∃ i : Instr, encode i = w ∧ i ≠ .verify ∧ ¬ i.OperandsInRange c)

/-! ## Reading a register nothing has written (10_state.md R38) -/

/-- Some source register the word names is not marked written (10_state.md R38). -/
def SomeSourceUnwritten (s : State) : Instr → Prop
  | .add _ fa fb => UnwrittenF s fa ∨ UnwrittenF s fb
  | .addw _ wa wb => UnwrittenW s wa ∨ UnwrittenW s wb
  | .mul _ fa fb => UnwrittenF s fa ∨ UnwrittenF s fb
  | .sqr _ fa => UnwrittenF s fa
  | .precomp _ fa => UnwrittenF s fa
  | .mulp _ fa pb => UnwrittenF s fa ∨ UnwrittenP s pb
  | .carry _ wa => UnwrittenW s wa
  | .reduce _ fa => UnwrittenF s fa
  | .pack fa _ => UnwrittenF s fa
  | .dpow _ fa _ => UnwrittenF s fa
  | .dpow2 _ fa _ => UnwrittenF s fa
  | .zero .. => False
  | .zerow .. => False
  | .unpack .. => False
  | .encb .. => False
  | .encl .. => False
  | .mrst => False
  | .dkey .. => False
  | .hash => False
  | .verify => False

/-! ## The product by its formula (40_field_arith.md R94, R95) -/

/-- `w[k]` of R94 with `s[j] = FOLD*b[j]`, as the double sum is written there. -/
def productLimb (c : Config) (a b : Limbs) (k : Nat) : Nat :=
  ((List.range c.N).map (fun i => ((List.range c.N).map (fun j =>
    if i + j = k then a.getD i 0 * b.getD j 0
    else if i + j = k + c.N then a.getD i 0 * (c.fold * b.getD j 0)
    else 0)).sum)).sum

/-- `H` of R95: the sum over the folded terms of `a[i]*b[j]*2^(r*(i+j-N))`. -/
def highPart (c : Config) (a b : Limbs) : Nat :=
  ((List.range c.N).map (fun i => ((List.range c.N).map (fun j =>
    if c.N ≤ i + j then a.getD i 0 * b.getD j 0 * 2 ^ (c.r * (i + j - c.N)) else 0)).sum)).sum

/-! ## The tag by the formula (43_hash_engine.md R170, R171, R175) -/

/-- The sum of R170 before it is reduced modulo p: the polynomial of the blocks at `k`. -/
def blockPolynomial (k : Nat) (ms : List Nat) : Nat :=
  ((List.range ms.length).map (fun i => ms.getD i 0 * k ^ (ms.length - i))).sum

/-- The integers `m[1], .., m[n]` of a message (R171, R174). -/
def messageInts (c : Config) (msg : List Byte) : List Nat :=
  match (msg.length + c.BLOCKSIZE - 1) / c.BLOCKSIZE with
  | 0 => []
  | n + 1 =>
    (List.range n).map (fun i => fullBlockInt c ((msg.drop (i * c.BLOCKSIZE)).take c.BLOCKSIZE)) ++
      [lastBlockInt c (msg.drop (n * c.BLOCKSIZE))]

/-- The raw bytes of sub-key `j` (42_key.md R157). -/
def subKey (c : Config) (key : List Byte) (j : Nat) : List Byte := (key.drop (j * c.SUBKEYSIZE)).take c.SUBKEYSIZE

/-- The integer `k_j` of sub-key `j` (R175). -/
def pointInt (c : Config) (key : List Byte) (j : Nat) : Nat :=
  leNat (c.TK.apply (subKey c key j)) &&& c.clampMask

/-- Sub-tag `j`: `TF(packbytes(split(T_j), SUBTAGSIZE))` (R175). -/
def subTagOf (c : Config) (key msg : List Byte) (j : Nat) : List Byte :=
  subTagBytes c (splitInt c (target c.p (pointInt c key j) (messageInts c msg)))

/-- The tag of a message under a key (R175, R180). -/
def tagOf (c : Config) (key msg : List Byte) : List Byte :=
  (List.range c.NTAGS).flatMap (subTagOf c key msg)

/-! ## The testable properties of HASH as laws (43_hash_engine.md R206) -/

/-- A core of this configuration, ready for HASH, that holds this key and this message. -/
structure InputsGiven (c : Config) (key msg : List Byte) (s : State) : Prop where
  cfg : s.cfg = c
  fault : s.FAULT = none
  key : KeyGiven s key
  message : Message s msg

/-- HASH ends without a fault and leaves these bytes in OUT. -/
def HashGives (s : State) (out : List Byte) : Prop :=
  ∃ t, exec .hash s = .next t ∧ t.FAULT = none ∧ t.OUTVALID = true ∧ Memory.readRun t.OUT 0 s.cfg.OUTPUTSIZE = some out

/-- Two keys that agree on every bit the clamp keeps, sub-key by sub-key (42_key.md R151, R158). -/
def SameClampedKey (c : Config) (key key' : List Byte) : Prop :=
  ∀ j, j < c.NTAGS → ∀ b, c.clampMask.testBit b = true →
    (leNat (subKey c key j)).testBit b = (leNat (subKey c key' j)).testBit b

/-- The laws (a) to (e) of R206 for one configuration. Its vectors (f) are those of 95_test_vectors.md. -/
structure HashLaws (c : Config) : Prop where
  /-- (a) Determinism (R181): the same bytes from every state that holds the same key and message. -/
  determinism : ∀ (s t : State) (key msg : List Byte), InputsGiven c key msg s → InputsGiven c key msg t →
    ∃ out, HashGives s out ∧ HashGives t out
  /-- (b) Cross-strategy equivalence (R196). -/
  crossStrategy : ∀ (st : Strategy) (s t : State) (key msg : List Byte),
    ({ c with STRATEGY := st } : Config).wf = true → InputsGiven c key msg s →
    InputsGiven { c with STRATEGY := st } key msg t → ∃ out, HashGives s out ∧ HashGives t out
  /-- (c) Length sensitivity: `m` and `m ++ [0x00]` give different polynomials (R173(d)), and sub-tags that are equal
  exactly when the values of the two polynomials at the point agree modulo p, or in the bytes `packbytes` keeps. -/
  lengthSensitivity : c.TM = .identity → ∀ (key msg : List Byte),
    (∃ k, blockPolynomial k (messageInts c msg) ≠ blockPolynomial k (messageInts c (msg ++ [0]))) ∧
    (c.TF = .identity → ∀ j, subTagOf c key msg j = subTagOf c key (msg ++ [0]) j ↔
      blockPolynomial (pointInt c key j) (messageInts c msg) % c.p % 2 ^ (8 * c.SUBTAGSIZE) =
        blockPolynomial (pointInt c key j) (messageInts c (msg ++ [0])) % c.p % 2 ^ (8 * c.SUBTAGSIZE))
  /-- (d) Key sensitivity (42_key.md R158): only the bits the clamp keeps have an influence (identity hook). -/
  keySensitivity : c.TK = .identity → ∀ (s t : State) (key key' msg : List Byte), SameClampedKey c key key' →
    InputsGiven c key msg s → InputsGiven c key' msg t → ∃ out, HashGives s out ∧ HashGives t out
  /-- (e) Reduction idempotence (40_field_arith.md R107). -/
  reductionIdempotence : ∀ a : Limbs, c.narrow a = true →
    reduceLimbs c (reduceLimbs c a) = reduceLimbs c a ∧ c.val (reduceLimbs c a) < c.p
  /-- (e) Carry correctness (40_field_arith.md R107). -/
  carryCorrectness : ∀ w y : Limbs, w.length = c.N → carryLimbs c w = .ok y →
    c.val (reduceLimbs c y) = c.val w % c.p

/-! ## Public values and access patterns -/

/-- The values R258 calls public, but for the command word: configuration, KEYLEN, INLEN, MPTR, PHASE, FAULT,
FINFO. -/
def SamePublic (s t : State) : Prop :=
  s.cfg = t.cfg ∧ s.KEYLEN = t.KEYLEN ∧ s.INLEN = t.INLEN ∧ s.MPTR = t.MPTR ∧ s.PHASE = t.PHASE ∧
    s.FAULT = t.FAULT ∧ s.FINFO = t.FINFO

/-- The faults that hardware must report (60_exceptions.md R220): they depend on public values only (R258). -/
def FaultCode.required : FaultCode → Bool
  | .illegal => true
  | .keylen => true
  | .range => true
  | .uninit => false
  | .overflow => false
  | .notTight => false

/-- The byte a space holds at an address. -/
def State.byteAt (s : State) : Space × Nat → Option Byte
  | (.key, a) => Memory.read s.KEY a
  | (.msg, a) => Memory.read s.MSG a
  | (.out, a) => Memory.read s.OUT a

/-- The registers of two states are the same (limbs and marks). -/
def SameRegisters (s t : State) : Prop := s.F = t.F ∧ s.Wd = t.Wd ∧ s.P = t.P

/-- Two outcomes agree on everything a command can write: both next states, with the same registers, OUT,
OUTVALID, MPTR, PHASE, FAULT, FINFO and VOK. -/
def SameResult : Out → Out → Prop
  | .next s, .next t =>
    SameRegisters s t ∧ s.OUT = t.OUT ∧ s.OUTVALID = t.OUTVALID ∧ s.MPTR = t.MPTR ∧ s.PHASE = t.PHASE ∧
      s.FAULT = t.FAULT ∧ s.FINFO = t.FINFO ∧ s.VOK = t.VOK
  | _, _ => False

/-- Run commands one after another, as the host issues them. -/
def runCommands : List Instr → State → Out
  | [], s => .next s
  | i :: is, s =>
    match exec i s with
    | .next t => runCommands is t
    | .fault e => .fault e
    | .refused e => .refused e

end Sys2Proof.Machine
end

