-- ==== Sys2Proof/Certificates/Slice0/Obligations.lean ====
section
/-! DEFINITION. The statements for the provers, one `def Obligations.<Name> : Prop` each, in the order of
OBLIGATIONS.json. Each docstring names the rules of spec/ the statement formalises. -/

open Sys2Proof Sys2Proof.Machine

/-! ## Encoding (30_encoding.md) -/

/-- Decoding an encoded command gives it back, with every operand at every value; under a configuration exactly
the commands that are legal for it come back (R71, R72, R74, R75). -/
def Obligations.DecodeEncodeAgree : Prop :=
  ∀ (c : Config) (i : Instr),
    decode (encode i) = .ok i ∧ (decodeFor c (encode i) = .ok i ↔ i.wf c = true)

/-- R75, R73: the decoder reads `op`, checks that the unused fields of the row's format are 0 and that the used fields
are in range, and yields the command with its operands; it depends on the configuration through NF, NW, NP, NTAGS
and HAS_VERIFY only; every word decodes to exactly one command or to "illegal"; a row's mask has 1 bits at `op` and
at every unused field, and a word matches the row exactly when the decoder reads that row's command from it. The ranges
are written out format by format in `OperandsInRange`. -/
def Obligations.DecoderFollowsRows : Prop :=
  (∀ (c : Config) (w : Word) (i : Instr), decodeFor c w = .ok i ↔
    fieldOp w = i.opcode ∧
    (if i.usedFields.1 then fieldA w = i.fields.1 else fieldA w = 0) ∧
    (if i.usedFields.2.1 then fieldB w = i.fields.2.1 else fieldB w = 0) ∧
    (if i.usedFields.2.2 then fieldC w = i.fields.2.2 else fieldC w = 0) ∧
    i.OperandsInRange c) ∧
  (∀ (c : Config) (i : Instr), i.wf c = true ↔ i.OperandsInRange c) ∧
  (∀ (c d : Config) (w : Word), c.NF = d.NF → c.NW = d.NW → c.NP = d.NP → c.NTAGS = d.NTAGS →
    c.HAS_VERIFY = d.HAS_VERIFY → decodeFor c w = decodeFor d w) ∧
  (∀ (c : Config) (w : Word), (∃! i, decodeFor c w = .ok i) ∨ (∃ e, decodeFor c w = .error e)) ∧
  (∀ i : Instr, fieldOp i.mask = 0xFF ∧
    fieldA i.mask = (if i.usedFields.1 then 0 else 0xFF) ∧
    fieldB i.mask = (if i.usedFields.2.1 then 0 else 0xFF) ∧
    fieldC i.mask = (if i.usedFields.2.2 then 0 else 0xFF) ∧
    i.matchBits = assemble i.opcode 0 0 0) ∧
  (∀ (w : Word) (j : Instr), w &&& j.mask = j.matchBits ↔ ∃ i, decode w = .ok i ∧ i.opcode = j.opcode)

/-- R78, R221, R226: a word that is illegal by one of the causes of R78, the ranges of R73 among them, raises
`E_ILLEGAL` with `FINFO` the word, whatever the state holds, and changes nothing but the fault state; any other word
is exactly one legal command and is executed as that command. (That an illegal word with opcode 0x20 or 0x21 clears no
mark is the model's reading of R226, log entry 12.) -/
def Obligations.IllegalWordsFault : Prop :=
  ∀ (s : State) (w : Word), s.FAULT = none →
    (IllegalWord s.cfg w → present exec w s = .next (faultedState s .illegal w)) ∧
    (¬ IllegalWord s.cfg w → ∃ i, encode i = w ∧ i.OperandsInRange s.cfg ∧ present exec w s = exec i s)

/-- A few words written out from the encoding of R71 to R74 (V1, V3, V7, V14, V18, V19), and two illegal ones (V20d,
V20i), under the reference configuration; the two words R77 names; and the word of R76 without and with HAS_VERIFY. -/
def Obligations.WordsOfTheSpec : Prop :=
  decodeFor Config.r26 0x01020001 = .ok (.add 2 0 1) ∧
  decodeFor Config.r26 0x03000109 = .ok (.mul 0 1 9) ∧
  decodeFor Config.r26 0x07010000 = .ok (.carry 1 0) ∧
  decodeFor Config.r26 0x13030000 = .ok (.pack 3 0) ∧
  decodeFor Config.r26 0x1A080304 = .ok (.dpow2 8 3 4) ∧
  decodeFor Config.r26 0x20000000 = .ok .hash ∧
  decodeFor Config.r26 0x04000001 = .error .unusedField ∧
  decodeFor Config.r26 0x193E0003 = .error .countRange ∧
  decodeFor Config.r26 0x00000000 = .error .unknownOpcode ∧
  decodeFor Config.r26 0xFFFFFFFF = .error .unknownOpcode ∧
  decodeFor Config.r26 0x21000000 = .error .verifyAbsent ∧
  decodeFor { Config.r26 with HAS_VERIFY := true } 0x21000000 = .ok .verify

/-! ## The step and the host (20_memory.md R59, R61, 30_encoding.md R70, 70_reset_and_hazards.md) -/

/-- When the next word the host presents decodes to a legal command, the step is `exec` of that command at the state
with the action taken off the port; the step adds nothing else. Placing a word at the front of the port makes it the
next word. With nothing on the port the core waits. -/
def Obligations.StepRunsDecodedCommand : Prop :=
  (∀ (s : State) (w : Word) (rest : List HostAction) (i : Instr), s.cfg.wf = true → s.port = .command w :: rest →
    decodeFor s.cfg w = .ok i → step s = exec i { s with port := rest }) ∧
  (∀ (s : State) (i : Instr), s.cfg.wf = true → step (s.withFetchWord 32 (encode i).toNat) = exec i s) ∧
  (∀ s : State, s.cfg.wf = true → s.port = [] → step s = .next s)

/-- R9: the two named instances are well formed, `C1MAX` is 64 for `R26` and 4194304 for `R44`, and the model refuses
every step of an ill-formed configuration. -/
def Obligations.IllFormedConfigRefused : Prop :=
  Config.r26.wf = true ∧ Config.r44.wf = true ∧ Config.r26.c1max = 64 ∧ Config.r44.c1max = 4194304 ∧
  ∀ s : State, s.cfg.wf = false → step s = .refused .illFormedConfig

/-- R37: what reset leaves. Every `written` mark is 0, no byte of KEY, MSG or OUT holds a value, and every other
register has the value of the table. -/
def Obligations.ResetValues : Prop :=
  ∀ c : Config, ResetTable (State.resetOf c)

/-- R250: the host's reset, from any state (a faulted one too), leaves a state of the table of R37, of the same
configuration; the host's further actions stay its own (that they are held in `port` is the model's choice, log
entry 4). It is the only way out of `Faulted`: any other action of the
host, a command among them, leaves `PHASE`, `FAULT` and `FINFO` as they are. -/
def Obligations.ResetIsTheOnlyWayOut : Prop :=
  (∀ (s : State) (rest : List HostAction), s.cfg.wf = true → s.port = .reset :: rest →
    ∃ t, step s = .next t ∧ ResetTable t ∧ t.cfg = s.cfg ∧ t.port = rest) ∧
  (∀ (s t : State), s.FAULT ≠ none → s.port.head? ≠ some .reset → step s = .next t →
    t.PHASE = s.PHASE ∧ t.FAULT = s.FAULT ∧ t.FINFO = s.FINFO)

/-- What each host action does (20_memory.md R59, 10_state.md R26 to R28, R30 to R32, 60_exceptions.md R220): the
bytes it writes read back, every other byte and register keeps its value, a write of INLEN zeroes MPTR, a write of OUT
clears OUTVALID; a read changes nothing and gives the value `HostReads` states, register by register; a command word
is executed as the command it decodes to, or raises `E_ILLEGAL` (which clears no mark, whatever its opcode: log entry
12), or is refused while FAULT is not 0; a reset leaves the table of R37 (70_reset_and_hazards.md R250). The actions
are held in `port`, which is the model's choice (log entry 4). -/
def Obligations.HostActions : Prop :=
  ∀ (s : State) (rest : List HostAction), s.cfg.wf = true →
    (∀ a b, s.port = .writeKey a b :: rest → a < s.cfg.KEYSIZE →
      ∃ m, step s = .next { s with port := rest, KEY := m } ∧ Memory.read m a = some b ∧
        ∀ x, x ≠ a → Memory.read m x = Memory.read s.KEY x) ∧
    (∀ v, s.port = .writeKeylen v :: rest → step s = .next { s with port := rest, KEYLEN := v }) ∧
    (∀ a b, s.port = .writeMsg a b :: rest → (∀ m, s.cfg.MSGMAX = some m → a < m) →
      ∃ m, step s = .next { s with port := rest, MSG := m } ∧ Memory.read m a = some b ∧
        ∀ x, x ≠ a → Memory.read m x = Memory.read s.MSG x) ∧
    (∀ v, s.port = .writeInlen v :: rest → (∀ m, s.cfg.MSGMAX = some m → v.toNat ≤ m) →
      step s = .next { s with port := rest, INLEN := v, MPTR := 0 }) ∧
    (∀ a b, s.port = .writeOut a b :: rest → s.cfg.HAS_VERIFY = true → a < s.cfg.OUTPUTSIZE →
      ∃ m, step s = .next { s with port := rest, OUT := m, OUTVALID := false } ∧ Memory.read m a = some b ∧
        ∀ x, x ≠ a → Memory.read m x = Memory.read s.OUT x) ∧
    (∀ r, s.port = .read r :: rest → (∀ a, r = .out a → a < s.cfg.OUTPUTSIZE) →
      (r = .vok → s.cfg.HAS_VERIFY = true) → step s = .next { s with port := rest }) ∧
    HostReads s ∧
    (∀ w, s.port = .command w :: rest →
      (∀ i, decodeFor s.cfg w = .ok i → step s = exec i { s with port := rest }) ∧
      (∀ e, decodeFor s.cfg w = .error e → s.FAULT = none →
        step s = .next (faultedState { s with port := rest } .illegal w)) ∧
      (s.FAULT ≠ none → step s = .next { s with port := rest })) ∧
    (s.port = .reset :: rest → ∃ t, step s = .next t ∧ ResetTable t ∧ t.cfg = s.cfg ∧ t.port = rest)

/-- R224: a host write of INLEN above MSGMAX is refused: INLEN, MPTR, FAULT and everything else keep their values; so
`INLEN <= MSGMAX` is an invariant. -/
def Obligations.InlenAboveMsgmaxRefused : Prop :=
  (∀ (s : State) (v : BitVec 64) (rest : List HostAction) (m : Nat), s.cfg.wf = true →
    s.port = .writeInlen v :: rest → s.cfg.MSGMAX = some m → m < v.toNat →
    step s = .next { s with port := rest }) ∧
  (∀ (s t : State) (m : Nat), s.cfg.MSGMAX = some m → s.INLEN.toNat ≤ m → step s = .next t →
    t.INLEN.toNat ≤ m)

/-- Where the machine can stop: a step of a well-formed core answers a next state, but for a host move that R59 does
not offer (an address outside its space, a write of OUT or a read of VOK without HAS_VERIFY). Such moves stopping
the model is the model's choice (log entry 9). -/
def Obligations.OnlyHostMovesStop : Prop :=
  ∀ s : State, s.cfg.wf = true →
    (∃ t, step s = .next t) ∨
    (∃ a, step s = .fault a) ∧
      ((∃ x b rest, s.port = .writeKey x b :: rest ∧ s.cfg.KEYSIZE ≤ x) ∨
       (∃ x b rest m, s.port = .writeMsg x b :: rest ∧ s.cfg.MSGMAX = some m ∧ m ≤ x) ∨
       (∃ x b rest, s.port = .writeOut x b :: rest ∧ (s.cfg.HAS_VERIFY = false ∨ s.cfg.OUTPUTSIZE ≤ x)) ∨
       (∃ x rest, s.port = .read (.out x) :: rest ∧ s.cfg.OUTPUTSIZE ≤ x) ∨
       (∃ rest, s.port = .read .vok :: rest ∧ s.cfg.HAS_VERIFY = false))

/-! ## Invariants -/

/-- Every step from a state that meets `State.Inv` gives a state that meets it: the spaces keep their canonical form
and bounds, the registers their sizes and storage widths, `s[j] = FOLD*k[j]`, `MPTR <= INLEN <= MSGMAX`, `PHASE` and
`FAULT` agree, and a valid tag is written (10_state.md R21 to R30, 20_memory.md R50, 60_exceptions.md R224, R226). -/
def Obligations.StepKeepsInv : Prop :=
  ∀ s t : State, s.Inv → step s = .next t → t.Inv

/-- The reset state of every well-formed configuration meets the invariant, and so does `State.reset`. That
`State.reset` is the reset state of the reference instance is the model's choice (log entry 1). -/
def Obligations.ResetMeetsInv : Prop :=
  (∀ c : Config, c.wf = true → (State.resetOf c).Inv) ∧ State.reset = State.resetOf Config.r26 ∧ State.reset.Inv

/-! ## Faults (60_exceptions.md) -/

/-- R226: fault entry. When a command raises a fault, `FAULT` gets the code, `FINFO` the command word, `PHASE` is
`Faulted` and `OUTVALID` 0; for HASH and VERIFY every mark becomes 0 and `MPTR` 0; for any other command nothing else
changes. For VERIFY the bytes of OUT stay (R226 "HASH only") or are unspecified (the row U12), and which is a free
value (log entry 22). Refusal: while `FAULT` is not 0 every word, legal or not, has no effect at all. (VERIFY is a
command only with HAS_VERIFY, 30_encoding.md R76; the clause on VERIFY says so. That an illegal word is no HASH or
VERIFY here, whatever its opcode, is the model's reading, log entry 12.) -/
def Obligations.FaultEntry : Prop :=
  (∀ (i : Instr) (s t : State) (code : FaultCode), s.FAULT = none → exec i s = .next t → t.FAULT = some code →
    t.FINFO = encode i ∧ t.PHASE = .faulted ∧ t.OUTVALID = false ∧
    (i = .hash → NoneWritten t ∧ t.MPTR = 0) ∧
    (i = .verify → s.cfg.HAS_VERIFY = true → NoneWritten t ∧ t.MPTR = 0 ∧
      ((∀ x, Memory.read t.OUT x = Memory.read s.OUT x) ∨ ∀ x, Memory.read t.OUT x = none)) ∧
    (i ≠ .hash → i ≠ .verify → t = faultedState s code (encode i)) ∧
    t.KEY = s.KEY ∧ t.KEYLEN = s.KEYLEN ∧ t.MSG = s.MSG ∧ t.INLEN = s.INLEN) ∧
  (∀ (s : State) (w : Word), s.FAULT = none → (∃ e, decodeFor s.cfg w = .error e) →
    present exec w s = .next (faultedState s .illegal w)) ∧
  (∀ (s : State) (w : Word), s.FAULT ≠ none → present exec w s = .next s) ∧
  (∀ (i : Instr) (s : State), s.FAULT ≠ none → exec i s = .next s)

/-- R222: UNPACK, DKEY, HASH and VERIFY raise `E_KEYLEN` when `KEYLEN` is not KEYSIZE, whatever KEY holds or does not
hold. After reset KEYLEN is 0. -/
def Obligations.KeylenFault : Prop :=
  (∀ (s : State) (fd : RegNo) (idx : Imm8), s.KEYLEN.toNat ≠ s.cfg.KEYSIZE →
    (Ready (.unpack fd idx) s →
      exec (.unpack fd idx) s = .next (faultedState s .keylen (encode (.unpack fd idx)))) ∧
    (Ready (.dkey fd idx) s → exec (.dkey fd idx) s = .next (faultedState s .keylen (encode (.dkey fd idx))))) ∧
  (∀ s : State, s.KEYLEN.toNat ≠ s.cfg.KEYSIZE → s.FAULT = none →
    (∃ t, exec .hash s = .next t ∧ t.FAULT = some .keylen ∧ t.PHASE = .faulted ∧ t.OUTVALID = false) ∧
    (s.cfg.HAS_VERIFY = true → ∃ t, exec .verify s = .next t ∧ t.FAULT = some .keylen ∧ t.PHASE = .faulted)) ∧
  (∀ c : Config, (State.resetOf c).KEYLEN = 0)

/-- R223: ENCB with fewer than BLOCKSIZE bytes left and ENCL with more than BLOCKSIZE left raise `E_RANGE`, whatever
MSG holds; MPTR is unchanged. ENCL with no byte left is no fault. HASH and VERIFY never raise it. -/
def Obligations.RangeFault : Prop :=
  ∀ (s : State) (fd : RegNo),
    (Ready (.encb fd) s → remaining s < s.cfg.BLOCKSIZE →
      exec (.encb fd) s = .next (faultedState s .range (encode (.encb fd)))) ∧
    (Ready (.encl fd) s → s.cfg.BLOCKSIZE < remaining s →
      exec (.encl fd) s = .next (faultedState s .range (encode (.encl fd)))) ∧
    (Ready (.encl fd) s → remaining s = 0 →
      exec (.encl fd) s = .next { s with
        F := s.F.set fd.toNat ⟨splitInt s.cfg (lastBlockInt s.cfg []), true⟩, MPTR := s.INLEN }) ∧
    (∀ (i : Instr) (t : State), i = .hash ∨ i = .verify → s.cfg.wf = true → s.FAULT = none → exec i s = .next t →
      t.FAULT ≠ some .range)

/-- A command whose word names a source register that is not marked written raises `E_UNINIT` and changes nothing
else; on a command of several sources one unwritten source is enough, and it comes before any overflow
(10_state.md R38, 60_exceptions.md R227, R230). -/
def Obligations.UnwrittenSourceFaults : Prop :=
  ∀ (i : Instr) (s : State), Ready i s → SomeSourceUnwritten s i →
    exec i s = .next (faultedState s .uninit (encode i))

/-- A command that would read a byte the host never wrote raises `E_UNINIT` and changes nothing else, after the checks
of KEYLEN and of the range (60_exceptions.md R227, R230). -/
def Obligations.UnwrittenByteFaults : Prop :=
  ∀ (s : State) (fd : RegNo) (idx : Imm8),
    (s.KEYLEN.toNat = s.cfg.KEYSIZE →
      (∃ x, idx.toNat * s.cfg.SUBKEYSIZE ≤ x ∧ x < idx.toNat * s.cfg.SUBKEYSIZE + s.cfg.SUBKEYSIZE ∧
        Memory.read s.KEY x = none) →
      (Ready (.unpack fd idx) s →
        exec (.unpack fd idx) s = .next (faultedState s .uninit (encode (.unpack fd idx)))) ∧
      (Ready (.dkey fd idx) s →
        exec (.dkey fd idx) s = .next (faultedState s .uninit (encode (.dkey fd idx))))) ∧
    (s.cfg.BLOCKSIZE ≤ remaining s →
      (∃ x, s.MPTR.toNat ≤ x ∧ x < s.MPTR.toNat + s.cfg.BLOCKSIZE ∧ Memory.read s.MSG x = none) →
      Ready (.encb fd) s → exec (.encb fd) s = .next (faultedState s .uninit (encode (.encb fd)))) ∧
    (remaining s ≤ s.cfg.BLOCKSIZE →
      (∃ x, s.MPTR.toNat ≤ x ∧ x < s.INLEN.toNat ∧ Memory.read s.MSG x = none) →
      Ready (.encl fd) s → exec (.encl fd) s = .next (faultedState s .uninit (encode (.encl fd))))

/-! ## Field arithmetic (40_field_arith.md) -/

/-- R92: ADD. Its word; a source not written is `E_UNINIT`; the limb sums and the value; a sum of `2^W` or more is
`E_OVERFLOW`. -/
def Obligations.AddResult : Prop :=
  (∀ fd fa fb : RegNo, encode (.add fd fa fb) = assemble 0x01 fd fa fb) ∧
  (∀ (s : State) (fd fa fb : RegNo), Ready (.add fd fa fb) s → UnwrittenF s fa ∨ UnwrittenF s fb →
    exec (.add fd fa fb) s = .next (faultedState s .uninit (encode (.add fd fa fb)))) ∧
  ∀ (s : State) (fd fa fb : RegNo) (a b : Limbs), Ready (.add fd fa fb) s → HoldsF s fa a → HoldsF s fb b →
    a.length = s.cfg.N → b.length = s.cfg.N →
    ((∀ i, i < s.cfg.N → a.getD i 0 + b.getD i 0 < 2 ^ s.cfg.W) →
      ∃ v, exec (.add fd fa fb) s = .next { s with F := s.F.set fd.toNat ⟨v, true⟩ } ∧ v.length = s.cfg.N ∧
        (∀ i, i < s.cfg.N → v.getD i 0 = a.getD i 0 + b.getD i 0) ∧ s.cfg.val v = s.cfg.val a + s.cfg.val b) ∧
    ((∃ i, i < s.cfg.N ∧ 2 ^ s.cfg.W ≤ a.getD i 0 + b.getD i 0) →
      exec (.add fd fa fb) s = .next (faultedState s .overflow (encode (.add fd fa fb))))

/-- R93: ADDW. As ADD, on wide registers with 2W in place of W. -/
def Obligations.AddwResult : Prop :=
  (∀ wd wa wb : RegNo, encode (.addw wd wa wb) = assemble 0x02 wd wa wb) ∧
  (∀ (s : State) (wd wa wb : RegNo), Ready (.addw wd wa wb) s → UnwrittenW s wa ∨ UnwrittenW s wb →
    exec (.addw wd wa wb) s = .next (faultedState s .uninit (encode (.addw wd wa wb)))) ∧
  ∀ (s : State) (wd wa wb : RegNo) (a b : Limbs), Ready (.addw wd wa wb) s → HoldsW s wa a → HoldsW s wb b →
    a.length = s.cfg.N → b.length = s.cfg.N →
    ((∀ i, i < s.cfg.N → a.getD i 0 + b.getD i 0 < 2 ^ (2 * s.cfg.W)) →
      ∃ v, exec (.addw wd wa wb) s = .next { s with Wd := s.Wd.set wd.toNat ⟨v, true⟩ } ∧ v.length = s.cfg.N ∧
        (∀ i, i < s.cfg.N → v.getD i 0 = a.getD i 0 + b.getD i 0) ∧ s.cfg.val v = s.cfg.val a + s.cfg.val b) ∧
    ((∃ i, i < s.cfg.N ∧ 2 ^ (2 * s.cfg.W) ≤ a.getD i 0 + b.getD i 0) →
      exec (.addw wd wa wb) s = .next (faultedState s .overflow (encode (.addw wd wa wb))))

/-- R95: MUL. Its word; a source not written is `E_UNINIT`; the limbs are the double sum of R94 with
`s[j] = FOLD*b[j]`; the value law holds exactly and modulo p; the product is symmetric; each failing check is
`E_OVERFLOW`. -/
def Obligations.MulResult : Prop :=
  (∀ wd fa fb : RegNo, encode (.mul wd fa fb) = assemble 0x03 wd fa fb) ∧
  (∀ (s : State) (wd fa fb : RegNo), Ready (.mul wd fa fb) s → UnwrittenF s fa ∨ UnwrittenF s fb →
    exec (.mul wd fa fb) s = .next (faultedState s .uninit (encode (.mul wd fa fb)))) ∧
  ∀ (s : State) (wd fa fb : RegNo) (a b : Limbs), s.cfg.wf = true → Ready (.mul wd fa fb) s →
    HoldsF s fa a → HoldsF s fb b → a.length = s.cfg.N → b.length = s.cfg.N →
    ((∀ j, 1 ≤ j → j < s.cfg.N → s.cfg.fold * b.getD j 0 < 2 ^ s.cfg.W) →
      (∀ k, k < s.cfg.N → productLimb s.cfg a b k < 2 ^ (2 * s.cfg.W)) →
      ∃ w, exec (.mul wd fa fb) s = .next { s with Wd := s.Wd.set wd.toNat ⟨w, true⟩ } ∧ w.length = s.cfg.N ∧
        (∀ k, k < s.cfg.N → w.getD k 0 = productLimb s.cfg a b k) ∧
        s.cfg.val w + s.cfg.p * 2 ^ s.cfg.e * highPart s.cfg a b = s.cfg.val a * s.cfg.val b ∧
        s.cfg.val w % s.cfg.p = s.cfg.val a * s.cfg.val b % s.cfg.p) ∧
    (((∃ j, 1 ≤ j ∧ j < s.cfg.N ∧ 2 ^ s.cfg.W ≤ s.cfg.fold * b.getD j 0) ∨
      (∃ k, k < s.cfg.N ∧ 2 ^ (2 * s.cfg.W) ≤ productLimb s.cfg a b k)) →
      exec (.mul wd fa fb) s = .next (faultedState s .overflow (encode (.mul wd fa fb)))) ∧
    (∀ k, productLimb s.cfg a b k = productLimb s.cfg b a k)

/-- R96: SQR. Its word; SQR is exactly MUL with both sources the same, both checks and both faults included (only
`FINFO` differs, which holds the word); its value is the square modulo p; and with the source written and the checks
met it completes with the limbs of the product of the source with itself. -/
def Obligations.SqrResult : Prop :=
  (∀ wd fa : RegNo, encode (.sqr wd fa) = assemble 0x04 wd fa 0) ∧
  (∀ (s : State) (wd fa : RegNo), Ready (.sqr wd fa) s →
    ∃ t u, exec (.sqr wd fa) s = .next t ∧ exec (.mul wd fa fa) s = .next u ∧ t = { u with FINFO := t.FINFO } ∧
      (t.FAULT = none → ∃ a w, HoldsF s fa a ∧ t = { s with Wd := s.Wd.set wd.toNat ⟨w, true⟩ } ∧
        (s.cfg.wf = true → a.length = s.cfg.N → s.cfg.val w % s.cfg.p = s.cfg.val a ^ 2 % s.cfg.p))) ∧
  ∀ (s : State) (wd fa : RegNo) (a : Limbs), Ready (.sqr wd fa) s → HoldsF s fa a →
    a.length = s.cfg.N →
    (∀ j, 1 ≤ j → j < s.cfg.N → s.cfg.fold * a.getD j 0 < 2 ^ s.cfg.W) →
    (∀ k, k < s.cfg.N → productLimb s.cfg a a k < 2 ^ (2 * s.cfg.W)) →
    ∃ w, exec (.sqr wd fa) s = .next { s with Wd := s.Wd.set wd.toNat ⟨w, true⟩ } ∧ w.length = s.cfg.N ∧
      ∀ k, k < s.cfg.N → w.getD k 0 = productLimb s.cfg a a k

/-- R97: PRECOMP. Its word; a source not written is `E_UNINIT`; the factor is the source and its limbs 1 to N-1 times
`FOLD`; a scaled limb of `2^W` or more is `E_OVERFLOW`. -/
def Obligations.PrecompResult : Prop :=
  (∀ pd fa : RegNo, encode (.precomp pd fa) = assemble 0x05 pd fa 0) ∧
  (∀ (s : State) (pd fa : RegNo), Ready (.precomp pd fa) s → UnwrittenF s fa →
    exec (.precomp pd fa) s = .next (faultedState s .uninit (encode (.precomp pd fa)))) ∧
  ∀ (s : State) (pd fa : RegNo) (a : Limbs), Ready (.precomp pd fa) s → HoldsF s fa a → a.length = s.cfg.N →
    ((∀ j, 1 ≤ j → j < s.cfg.N → s.cfg.fold * a.getD j 0 < 2 ^ s.cfg.W) →
      ∃ t, exec (.precomp pd fa) s = .next { s with P := s.P.set pd.toNat ⟨a, t, true⟩ } ∧
        t.length = s.cfg.N - 1 ∧ ∀ j, 1 ≤ j → j < s.cfg.N → t.getD (j - 1) 0 = s.cfg.fold * a.getD j 0) ∧
    ((∃ j, 1 ≤ j ∧ j < s.cfg.N ∧ 2 ^ s.cfg.W ≤ s.cfg.fold * a.getD j 0) →
      exec (.precomp pd fa) s = .next (faultedState s .overflow (encode (.precomp pd fa))))

/-- R98: MULP, for any factor the register holds. Its word; a source not written is `E_UNINIT`; the limbs are `mulcore`
of R94 with the stored `k` and `s`. -/
def Obligations.MulpResult : Prop :=
  (∀ wd fa pb : RegNo, encode (.mulp wd fa pb) = assemble 0x06 wd fa pb) ∧
  (∀ (s : State) (wd fa pb : RegNo), Ready (.mulp wd fa pb) s → UnwrittenF s fa ∨ UnwrittenP s pb →
    exec (.mulp wd fa pb) s = .next (faultedState s .uninit (encode (.mulp wd fa pb)))) ∧
  ∀ (s : State) (wd fa pb : RegNo) (a k t : Limbs), Ready (.mulp wd fa pb) s → HoldsF s fa a → HoldsP s pb k t →
    (fits (2 * s.cfg.W) (mulcore s.cfg.N a k t) = true →
      exec (.mulp wd fa pb) s =
        .next { s with Wd := s.Wd.set wd.toNat ⟨mulcore s.cfg.N a k t, true⟩ }) ∧
    (fits (2 * s.cfg.W) (mulcore s.cfg.N a k t) = false →
      exec (.mulp wd fa pb) s = .next (faultedState s .overflow (encode (.mulp wd fa pb)))) ∧
    (a.length = s.cfg.N → k.length = s.cfg.N → t = scaledLimbs s.cfg k → ∀ j, j < s.cfg.N →
      (mulcore s.cfg.N a k t).getD j 0 = productLimb s.cfg a k j)

/-- R99: for any state (with its factor register in the file), PRECOMP then MULP and the one command MUL either both
fault, with `E_OVERFLOW` or `E_UNINIT`, or leave the same limbs in `Wd`; the sequence differs only in that it also
writes `Pt`. -/
def Obligations.PrecompMulpIsMul : Prop :=
  ∀ (s : State) (wd fa fb pt : RegNo), Ready (.precomp pt fb) s → Ready (.mulp wd fa pt) s →
    pt.toNat < s.P.length →
    ∃ t u, runCommands [.precomp pt fb, .mulp wd fa pt] s = .next t ∧ exec (.mul wd fa fb) s = .next u ∧
      ((t.FAULT = none ∧ u.FAULT = none ∧ t.Wd = u.Wd ∧ ∃ q, t = { u with P := s.P.set pt.toNat q }) ∨
       ((t.FAULT = some .overflow ∨ t.FAULT = some .uninit) ∧
        (u.FAULT = some .overflow ∨ u.FAULT = some .uninit)))

/-- R100, R103, R104: the carry pass and the narrow pass-and-fold, for N limbs. The recurrence of the pass, limb by
limb; its limbs are tight, its value splits exactly at bit PBITS, its sums and its carry never decrease when a limb
grows. `npf` takes off the carry times p, with a carry of at most `C1MAX` on a stored narrow vector; and two rounds of
`npf` give a tight vector below `2^PBITS` of the same residue. -/
def Obligations.CarryPass : Prop :=
  ∀ (c : Config) (x : Limbs), c.wf = true → x.length = c.N →
    ((c.pass x).t.length = c.N ∧ (c.pass x).t.getD 0 0 = x.getD 0 0 ∧
      (∀ i, i + 1 < c.N → (c.pass x).t.getD (i + 1) 0 = x.getD (i + 1) 0 + (c.pass x).t.getD i 0 / 2 ^ c.b i) ∧
      (∀ i, i < c.N → (c.pass x).y.getD i 0 = (c.pass x).t.getD i 0 % 2 ^ c.b i) ∧
      (c.pass x).carry = (c.pass x).t.getD (c.N - 1) 0 / 2 ^ c.b (c.N - 1)) ∧
    (c.tight (c.pass x).y = true ∧ c.val x = c.val (c.pass x).y + (c.pass x).carry * 2 ^ c.PBITS ∧
      (c.pass x).carry = c.val x / 2 ^ c.PBITS ∧ c.val (c.pass x).y = c.val x % 2 ^ c.PBITS) ∧
    (∀ z : Limbs, z.length = c.N → (∀ i, x.getD i 0 ≤ z.getD i 0) →
      (c.pass x).carry ≤ (c.pass z).carry ∧ ∀ i, (c.pass x).t.getD i 0 ≤ (c.pass z).t.getD i 0) ∧
    (c.narrow x = true → (c.pass x).carry ≤ c.c1max ∧ c.val (npf c x) + (c.pass x).carry * c.p = c.val x ∧
      c.tight (npf c (npf c x)) = true ∧ c.val (npf c (npf c x)) < 2 ^ c.PBITS ∧
      c.val (npf c (npf c x)) % c.p = c.val x % c.p)

/-- R101: CARRY. Its word; a source not written is `E_UNINIT`; the pass, the fold of its carry, one more carry step; the
three checks; the value law; a tight vector is left alone. -/
def Obligations.CarryResult : Prop :=
  (∀ fd wa : RegNo, encode (.carry fd wa) = assemble 0x07 fd wa 0) ∧
  (∀ (s : State) (fd wa : RegNo), Ready (.carry fd wa) s → UnwrittenW s wa →
    exec (.carry fd wa) s = .next (faultedState s .uninit (encode (.carry fd wa)))) ∧
  ∀ (s : State) (fd wa : RegNo) (w : Limbs), s.cfg.wf = true → Ready (.carry fd wa) s → HoldsW s wa w →
    w.length = s.cfg.N →
    let c := s.cfg.val w / 2 ^ s.cfg.PBITS
    let y := splitInt s.cfg (s.cfg.val w % 2 ^ s.cfg.PBITS)
    let u := y.getD 0 0 + s.cfg.DELTA * c
    let y1 := y.getD 1 0 + u / 2 ^ s.cfg.b 0
    (((∀ t ∈ (s.cfg.pass w).t, t < 2 ^ (2 * s.cfg.W)) ∧ u < 2 ^ (2 * s.cfg.W) ∧ y1 < 2 ^ s.cfg.W) →
      ∃ z, exec (.carry fd wa) s = .next { s with F := s.F.set fd.toNat ⟨z, true⟩ } ∧ z.length = s.cfg.N ∧
        z.getD 0 0 = u % 2 ^ s.cfg.b 0 ∧ z.getD 1 0 = y1 ∧
        (∀ i, 2 ≤ i → i < s.cfg.N → z.getD i 0 = y.getD i 0) ∧
        s.cfg.val z + c * s.cfg.p = s.cfg.val w ∧ s.cfg.val z % s.cfg.p = s.cfg.val w % s.cfg.p) ∧
    (((∃ t ∈ (s.cfg.pass w).t, 2 ^ (2 * s.cfg.W) ≤ t) ∨ 2 ^ (2 * s.cfg.W) ≤ u ∨ 2 ^ s.cfg.W ≤ y1) →
      exec (.carry fd wa) s = .next (faultedState s .overflow (encode (.carry fd wa)))) ∧
    (s.cfg.tight w = true → exec (.carry fd wa) s = .next { s with F := s.F.set fd.toNat ⟨w, true⟩ })

/-- R102: the class of the results of CARRY: every limb but limb 1 is below its radix, limb 1 exceeds its radix by at
most `c'`, and the value is below `2p`. -/
def Obligations.CarryOutputClass : Prop :=
  ∀ (s t : State) (fd wa : RegNo) (w z : Limbs), s.cfg.wf = true → Ready (.carry fd wa) s → HoldsW s wa w →
    w.length = s.cfg.N → exec (.carry fd wa) s = .next t → t.FAULT = none → HoldsF t fd z →
    let c := s.cfg.val w / 2 ^ s.cfg.PBITS
    let c' := ((splitInt s.cfg (s.cfg.val w % 2 ^ s.cfg.PBITS)).getD 0 0 + s.cfg.DELTA * c) / 2 ^ s.cfg.b 0
    z.getD 0 0 < 2 ^ s.cfg.b 0 ∧ (∀ i, 2 ≤ i → i < s.cfg.N → z.getD i 0 < 2 ^ s.cfg.b i) ∧
      z.getD 1 0 < 2 ^ s.cfg.b 1 + c' ∧ c' ≤ (2 ^ s.cfg.b 0 - 1 + s.cfg.DELTA * c) / 2 ^ s.cfg.b 0 ∧
      s.cfg.val z < 2 ^ s.cfg.PBITS + c' * 2 ^ s.cfg.r ∧ c' < 2 ^ (2 * s.cfg.W - s.cfg.r) ∧
      s.cfg.val z < 2 * s.cfg.p

/-- R105: REDUCE. Its word; a source not written is `E_UNINIT`; for every stored narrow vector the result is the reduced
vector of `val(a) mod p`; it never overflows. -/
def Obligations.ReduceResult : Prop :=
  (∀ fd fa : RegNo, encode (.reduce fd fa) = assemble 0x08 fd fa 0) ∧
  (∀ (s : State) (fd fa : RegNo), Ready (.reduce fd fa) s → UnwrittenF s fa →
    exec (.reduce fd fa) s = .next (faultedState s .uninit (encode (.reduce fd fa)))) ∧
  ∀ (s : State) (fd fa : RegNo) (a : Limbs), s.cfg.wf = true → Ready (.reduce fd fa) s → HoldsF s fa a →
    s.cfg.narrow a = true →
    ∃ z, exec (.reduce fd fa) s = .next { s with F := s.F.set fd.toNat ⟨z, true⟩ } ∧ s.cfg.reduced z = true ∧
      s.cfg.val z = s.cfg.val a % s.cfg.p ∧
      ∀ i, i < s.cfg.N → z.getD i 0 = s.cfg.val a % s.cfg.p / 2 ^ (s.cfg.r * i) % 2 ^ s.cfg.b i

/-- R106: the conditional subtraction of a tight vector is the vector itself below p, and the limbs of `val(g) - p`
from p up. -/
def Obligations.ConditionalSubtraction : Prop :=
  ∀ (c : Config) (g : Limbs), c.wf = true → c.tight g = true →
    ((subBorrow c.widths g (primeLimbs c) 0).2 = 1 ↔ c.val g < c.p) ∧
    (c.val g < c.p → condsub c g = g) ∧
    (c.p ≤ c.val g → condsub c g = splitInt c (c.val g - c.p) ∧ c.val g - c.p < c.DELTA)

/-- R107: the laws of the reducer as runs of commands: REDUCE twice is REDUCE once and is below p; CARRY then REDUCE is
the reduction of the wide value; MUL, CARRY, REDUCE is the product and ADD, REDUCE the sum modulo p. -/
def Obligations.ReducerLaws : Prop :=
  ∀ s : State, s.Inv →
    (∀ (f g : RegNo) (t : State), runCommands [.reduce f g, .reduce f f] s = .next t → t.FAULT = none →
      exec (.reduce f g) s = .next t ∧ ∃ z, HoldsF t f z ∧ s.cfg.val z < s.cfg.p) ∧
    (∀ (f w : RegNo) (x : Limbs) (t : State), HoldsW s w x →
      runCommands [.carry f w, .reduce f f] s = .next t → t.FAULT = none →
      ∃ z, HoldsF t f z ∧ s.cfg.val z = s.cfg.val x % s.cfg.p) ∧
    (∀ (f g h w : RegNo) (a b : Limbs) (t : State), HoldsF s g a → HoldsF s h b →
      runCommands [.mul w g h, .carry f w, .reduce f f] s = .next t → t.FAULT = none →
      ∃ z, HoldsF t f z ∧ s.cfg.val z = s.cfg.val a * s.cfg.val b % s.cfg.p) ∧
    (∀ (f g h : RegNo) (a b : Limbs) (t : State), HoldsF s g a → HoldsF s h b →
      runCommands [.add f g h, .reduce f f] s = .next t → t.FAULT = none →
      ∃ z, HoldsF t f z ∧ s.cfg.val z = (s.cfg.val a + s.cfg.val b) % s.cfg.p)

/-- R80: the two pseudo-commands expand as the rule says; `HSTEP` is one step of the recurrence of
43_hash_engine.md R172, modulo p. Where `Facc` and `Fk` are one register the expansion multiplies by the sum that its
`ADD` has just written there, and gives `(acc + m) * (acc + m)`. -/
def Obligations.PseudoCommands : Prop :=
  (∀ fd fa fb wt : RegNo, mulred fd fa fb wt = [.mul wt fa fb, .carry fd wt, .reduce fd fd]) ∧
  (∀ facc fm fk wt : RegNo, hstepCommands facc fm fk wt = [.add facc facc fm, .mul wt facc fk, .carry facc wt]) ∧
  (∀ (s t : State) (facc fm fk wt : RegNo) (acc m k : Limbs), s.Inv → facc ≠ fk → HoldsF s facc acc →
    HoldsF s fm m → HoldsF s fk k → runCommands (hstepCommands facc fm fk wt) s = .next t → t.FAULT = none →
    ∃ z, HoldsF t facc z ∧ s.cfg.val z % s.cfg.p = (s.cfg.val acc + s.cfg.val m) * s.cfg.val k % s.cfg.p) ∧
  (∀ (s t : State) (facc fm wt : RegNo) (acc m : Limbs), s.Inv → HoldsF s facc acc → HoldsF s fm m →
    runCommands (hstepCommands facc fm facc wt) s = .next t → t.FAULT = none →
    ∃ z, HoldsF t facc z ∧ s.cfg.val z % s.cfg.p =
      (s.cfg.val acc + s.cfg.val m) * (s.cfg.val acc + s.cfg.val m) % s.cfg.p)

/-- R109, R110: the words of ZERO and ZEROW; they leave N zero limbs, marked written; the narrow result is reduced and
has value 0. -/
def Obligations.ZeroResult : Prop :=
  (∀ r : RegNo, encode (.zero r) = assemble 0x09 r 0 0 ∧ encode (.zerow r) = assemble 0x0A r 0 0) ∧
  (∀ (s : State) (fd : RegNo), Ready (.zero fd) s →
    exec (.zero fd) s = .next { s with F := s.F.set fd.toNat ⟨List.replicate s.cfg.N 0, true⟩ } ∧
    (s.cfg.wf = true → s.cfg.reduced (List.replicate s.cfg.N 0) = true ∧
      s.cfg.val (List.replicate s.cfg.N 0) = 0)) ∧
  (∀ (s : State) (wd : RegNo), Ready (.zerow wd) s →
    exec (.zerow wd) s = .next { s with Wd := s.Wd.set wd.toNat ⟨List.replicate s.cfg.N 0, true⟩ })

/-! ## Data format (41_data_format.md) -/

/-- R131: UNPACK. Its word; a KEYLEN other than KEYSIZE is `E_KEYLEN`, a byte never written `E_UNINIT`; else the
register gets the split of the sub-key's little-endian integer, which is reduced. -/
def Obligations.UnpackResult : Prop :=
  (∀ (fd : RegNo) (idx : Imm8), encode (.unpack fd idx) = assemble 0x10 fd 0 idx) ∧
  (∀ (s : State) (fd : RegNo) (idx : Imm8), Ready (.unpack fd idx) s →
    (s.KEYLEN.toNat ≠ s.cfg.KEYSIZE →
      exec (.unpack fd idx) s = .next (faultedState s .keylen (encode (.unpack fd idx)))) ∧
    (s.KEYLEN.toNat = s.cfg.KEYSIZE →
      Memory.readRun s.KEY (idx.toNat * s.cfg.SUBKEYSIZE) s.cfg.SUBKEYSIZE = none →
      exec (.unpack fd idx) s = .next (faultedState s .uninit (encode (.unpack fd idx))))) ∧
  ∀ (s : State) (fd : RegNo) (idx : Imm8) (bytes : List Byte), Ready (.unpack fd idx) s →
    s.KEYLEN.toNat = s.cfg.KEYSIZE →
    Memory.readRun s.KEY (idx.toNat * s.cfg.SUBKEYSIZE) s.cfg.SUBKEYSIZE = some bytes →
    exec (.unpack fd idx) s =
      .next { s with F := s.F.set fd.toNat ⟨splitInt s.cfg (leNat bytes), true⟩ } ∧
    (s.cfg.wf = true → s.cfg.reduced (splitInt s.cfg (leNat bytes)) = true ∧
      s.cfg.val (splitInt s.cfg (leNat bytes)) = leNat bytes)

/-- R133: ENCB. Its word; fewer than BLOCKSIZE bytes left is `E_RANGE`, a byte never written `E_UNINIT`; else the
register gets the encoded full block and `MPTR` advances by BLOCKSIZE. -/
def Obligations.EncbResult : Prop :=
  (∀ fd : RegNo, encode (.encb fd) = assemble 0x11 fd 0 0) ∧
  (∀ (s : State) (fd : RegNo), Ready (.encb fd) s →
    (remaining s < s.cfg.BLOCKSIZE → exec (.encb fd) s = .next (faultedState s .range (encode (.encb fd)))) ∧
    (s.cfg.BLOCKSIZE ≤ remaining s → Memory.readRun s.MSG s.MPTR.toNat s.cfg.BLOCKSIZE = none →
      exec (.encb fd) s = .next (faultedState s .uninit (encode (.encb fd))))) ∧
  ∀ (s : State) (fd : RegNo) (data : List Byte), Ready (.encb fd) s → s.cfg.BLOCKSIZE ≤ remaining s →
    Memory.readRun s.MSG s.MPTR.toNat s.cfg.BLOCKSIZE = some data →
    ∃ q : BitVec 64, q.toNat = s.MPTR.toNat + s.cfg.BLOCKSIZE ∧
      exec (.encb fd) s = .next { s with
        F := s.F.set fd.toNat ⟨splitInt s.cfg (leNat (s.cfg.TM.apply data) + 2 ^ (8 * s.cfg.BLOCKSIZE)), true⟩,
        MPTR := q }

/-- R135: ENCL. Its word; more than BLOCKSIZE bytes left is `E_RANGE`, a byte never written `E_UNINIT`; else the
register gets the encoded last block, zero-padded, hooked, with the marker at bit `8*len`, and `MPTR` is INLEN. With
the identity hook the integer is `LE(data) + 2^(8*len)`. -/
def Obligations.EnclResult : Prop :=
  (∀ fd : RegNo, encode (.encl fd) = assemble 0x12 fd 0 0) ∧
  (∀ (s : State) (fd : RegNo), Ready (.encl fd) s →
    (s.cfg.BLOCKSIZE < remaining s → exec (.encl fd) s = .next (faultedState s .range (encode (.encl fd)))) ∧
    (remaining s ≤ s.cfg.BLOCKSIZE → Memory.readRun s.MSG s.MPTR.toNat (remaining s) = none →
      exec (.encl fd) s = .next (faultedState s .uninit (encode (.encl fd))))) ∧
  ∀ (s : State) (fd : RegNo) (data : List Byte), Ready (.encl fd) s → remaining s ≤ s.cfg.BLOCKSIZE →
    Memory.readRun s.MSG s.MPTR.toNat (remaining s) = some data →
    exec (.encl fd) s = .next { s with
      F := s.F.set fd.toNat ⟨splitInt s.cfg
        (leNat (s.cfg.TM.apply (data ++ List.replicate (s.cfg.BLOCKSIZE - data.length) 0)) |||
          2 ^ (8 * data.length)), true⟩,
      MPTR := s.INLEN } ∧
    (s.cfg.TM = .identity → lastBlockInt s.cfg data = leNat data + 2 ^ (8 * data.length))

/-- R134: when exactly BLOCKSIZE bytes remain, ENCB and ENCL write the same limbs and leave the same `MPTR`, INLEN. -/
def Obligations.EncbEnclAgree : Prop :=
  ∀ (s : State) (fd : RegNo) (data : List Byte), Ready (.encb fd) s → remaining s = s.cfg.BLOCKSIZE →
    s.MPTR.toNat ≤ s.INLEN.toNat → Memory.readRun s.MSG s.MPTR.toNat s.cfg.BLOCKSIZE = some data →
    ∃ t, exec (.encb fd) s = .next t ∧ exec (.encl fd) s = .next t ∧ t.MPTR = s.INLEN ∧ t.FAULT = none

/-- R136: every encoded block is tight, non-zero, below `2^(8*BLOCKSIZE+1)` and not reduced or carried (its value is the
encoded integer itself); with the identity hook the map from byte strings of length 0 to BLOCKSIZE is injective. -/
def Obligations.EncoderProperties : Prop :=
  ∀ c : Config, c.wf = true →
    (∀ data : List Byte, data.length ≤ c.BLOCKSIZE →
      c.tight (splitInt c (lastBlockInt c data)) = true ∧ lastBlockInt c data ≠ 0 ∧
      lastBlockInt c data < 2 ^ (8 * c.BLOCKSIZE + 1) ∧
      c.val (splitInt c (lastBlockInt c data)) = lastBlockInt c data) ∧
    (∀ data : List Byte, data.length = c.BLOCKSIZE →
      c.tight (splitInt c (fullBlockInt c data)) = true ∧ fullBlockInt c data ≠ 0 ∧
      fullBlockInt c data < 2 ^ (8 * c.BLOCKSIZE + 1) ∧
      c.val (splitInt c (fullBlockInt c data)) = fullBlockInt c data) ∧
    (c.TM = .identity → ∀ x y : List Byte, x.length ≤ c.BLOCKSIZE → y.length ≤ c.BLOCKSIZE →
      lastBlockInt c x = lastBlockInt c y → x = y)

/-- R137, R138: PACK. Its word; a source not written is `E_UNINIT`; a tight source writes the SUBTAGSIZE bytes of its
value, through the hook, to its slot of OUT and nothing else; a source that is not tight is `E_NOTTIGHT`. -/
def Obligations.PackResult : Prop :=
  (∀ (fa : RegNo) (idx : Imm8), encode (.pack fa idx) = assemble 0x13 fa 0 idx) ∧
  (∀ (s : State) (fa : RegNo) (idx : Imm8), Ready (.pack fa idx) s → UnwrittenF s fa →
    exec (.pack fa idx) s = .next (faultedState s .uninit (encode (.pack fa idx)))) ∧
  ∀ (s : State) (fa : RegNo) (idx : Imm8) (a : Limbs), Ready (.pack fa idx) s → HoldsF s fa a →
    (s.cfg.tight a = true →
      ∃ m, exec (.pack fa idx) s = .next { s with OUT := m } ∧
        Memory.readRun m (idx.toNat * s.cfg.SUBTAGSIZE) s.cfg.SUBTAGSIZE =
          some (s.cfg.TF.apply (leBytes (s.cfg.val a % 2 ^ (8 * s.cfg.SUBTAGSIZE)) s.cfg.SUBTAGSIZE)) ∧
        ∀ x, x < idx.toNat * s.cfg.SUBTAGSIZE ∨ idx.toNat * s.cfg.SUBTAGSIZE + s.cfg.SUBTAGSIZE ≤ x →
          Memory.read m x = Memory.read s.OUT x) ∧
    (s.cfg.tight a = false →
      exec (.pack fa idx) s = .next (faultedState s .notTight (encode (.pack fa idx))))

/-- R140: MRST. -/
def Obligations.MrstResult : Prop :=
  encode .mrst = 0x14000000 ∧ ∀ s : State, s.FAULT = none → exec .mrst s = .next { s with MPTR := 0 }

/-! ## Key derivation (42_key.md) -/

/-- R150: DKEY. Its word; a KEYLEN other than KEYSIZE is `E_KEYLEN`, a byte never written `E_UNINIT`; else the point
is the split of the hooked, masked key integer, and is reduced. -/
def Obligations.DkeyResult : Prop :=
  (∀ (fd : RegNo) (idx : Imm8), encode (.dkey fd idx) = assemble 0x18 fd 0 idx) ∧
  (∀ (s : State) (fd : RegNo) (idx : Imm8), Ready (.dkey fd idx) s →
    (s.KEYLEN.toNat ≠ s.cfg.KEYSIZE →
      exec (.dkey fd idx) s = .next (faultedState s .keylen (encode (.dkey fd idx)))) ∧
    (s.KEYLEN.toNat = s.cfg.KEYSIZE →
      Memory.readRun s.KEY (idx.toNat * s.cfg.SUBKEYSIZE) s.cfg.SUBKEYSIZE = none →
      exec (.dkey fd idx) s = .next (faultedState s .uninit (encode (.dkey fd idx))))) ∧
  ∀ (s : State) (fd : RegNo) (idx : Imm8) (raw : List Byte), Ready (.dkey fd idx) s →
    s.KEYLEN.toNat = s.cfg.KEYSIZE →
    Memory.readRun s.KEY (idx.toNat * s.cfg.SUBKEYSIZE) s.cfg.SUBKEYSIZE = some raw →
    ∃ k, exec (.dkey fd idx) s = .next { s with F := s.F.set fd.toNat ⟨k, true⟩ } ∧
      k = splitInt s.cfg (leNat (s.cfg.TK.apply raw) &&& s.cfg.clampMask) ∧
      (s.cfg.wf = true → s.cfg.reduced k = true ∧ s.cfg.val k < 2 ^ (8 * s.cfg.SUBKEYSIZE) ∧
        2 ^ (8 * s.cfg.SUBKEYSIZE) < s.cfg.p)

/-- With `CLASSIC` the point is below `2^124` and limb by limb at most the split of the mask (the lists of R152 for
`R26` and `R44`); with `NONE` at most the split of `2^128 - 1`, in every geometry (the list of R152 for `R26`)
(42_key.md R152, first part, which is marked derived). The CLASSIC bounds rest on the mask that 00_scope.md R10 marks
as general knowledge (PRESUMED, log entry 18). -/
def Obligations.ClampBounds : Prop :=
  ∀ (c : Config) (raw : List Byte), c.wf = true → c.SUBKEYSIZE = 16 → raw.length = 16 →
    (c.CLAMP = .classic → c.val (evalPoint c raw) < 2 ^ 124) ∧
    (c.CLAMP = .classic → c.r = 26 → ∀ i, (evalPoint c raw).getD i 0 ≤
      [0x3ffffff, 0x3ffff03, 0x3ffc0ff, 0x3f03fff, 0x00fffff].getD i 0) ∧
    (c.CLAMP = .classic → c.r = 44 → ∀ i, (evalPoint c raw).getD i 0 ≤
      [0xffc0fffffff, 0xfffffc0ffff, 0xffffffc0f].getD i 0) ∧
    (c.CLAMP = .unclamped → c.r = 26 → ∀ i, (evalPoint c raw).getD i 0 ≤
      [0x3ffffff, 0x3ffffff, 0x3ffffff, 0x3ffffff, 0x0ffffff].getD i 0) ∧
    (c.CLAMP = .unclamped → ∀ i, (evalPoint c raw).getD i 0 ≤ (splitInt c (2 ^ 128 - 1)).getD i 0)

/-- R153: DPOW. Its word; a source not written is `E_UNINIT`. `K[1]` is a copy of the source, `K[2..n]` are reduced with
`val(K[i]) = val(k)^i mod p`; the command either writes all n registers, or overflows and writes none, and it overflows
exactly when some inner MUL or CARRY, of `K[i-1]` and `k`, fails a check; it cannot overflow on a tight base, nor, for
`R26`, on a base with every limb below `2^29`. -/
def Obligations.DpowResult : Prop :=
  (∀ (fd fa : RegNo) (n : Imm8), encode (.dpow fd fa n) = assemble 0x19 fd fa n) ∧
  (∀ (s : State) (fd fa : RegNo) (n : Imm8), Ready (.dpow fd fa n) s → UnwrittenF s fa →
    exec (.dpow fd fa n) s = .next (faultedState s .uninit (encode (.dpow fd fa n)))) ∧
  ∀ (s : State) (fd fa : RegNo) (n : Imm8) (k : Limbs), s.cfg.wf = true → Ready (.dpow fd fa n) s →
    HoldsF s fa k → s.cfg.narrow k = true → s.F.length = s.cfg.NF →
    ((s.cfg.tight k = true ∨ (s.cfg.r = 26 ∧ ∀ l ∈ k, l < 2 ^ 29)) →
      ∃ G, exec (.dpow fd fa n) s = .next { s with F := G }) ∧
    (exec (.dpow fd fa n) s = .next (faultedState s .overflow (encode (.dpow fd fa n))) ↔
      ∃ i, 2 ≤ i ∧ i ≤ n.toNat ∧
        MulCarryOverflows s.cfg (if i = 2 then k else splitInt s.cfg (s.cfg.val k ^ (i - 1) % s.cfg.p)) k) ∧
    (exec (.dpow fd fa n) s = .next (faultedState s .overflow (encode (.dpow fd fa n))) ∨
     ∃ G, exec (.dpow fd fa n) s = .next { s with F := G } ∧ G.length = s.F.length ∧
      G[fd.toNat]? = some ⟨k, true⟩ ∧
      (∀ i, 2 ≤ i → i ≤ n.toNat → ∃ z, G[fd.toNat + i - 1]? = some ⟨z, true⟩ ∧ s.cfg.reduced z = true ∧
        s.cfg.val z = s.cfg.val k ^ i % s.cfg.p) ∧
      (∀ j, j < fd.toNat ∨ fd.toNat + n.toNat ≤ j → G[j]? = s.F[j]?))

/-- R154: DPOW2. Its word; a source not written is `E_UNINIT`. `Q[0]` is a copy of the source, `Q[1..n-1]` are reduced
with `val(Q[j]) = val(k)^(2^j) mod p`; faults as for DPOW, the inner command squaring `Q[j-1]`. -/
def Obligations.Dpow2Result : Prop :=
  (∀ (fd fa : RegNo) (n : Imm8), encode (.dpow2 fd fa n) = assemble 0x1A fd fa n) ∧
  (∀ (s : State) (fd fa : RegNo) (n : Imm8), Ready (.dpow2 fd fa n) s → UnwrittenF s fa →
    exec (.dpow2 fd fa n) s = .next (faultedState s .uninit (encode (.dpow2 fd fa n)))) ∧
  ∀ (s : State) (fd fa : RegNo) (n : Imm8) (k : Limbs), s.cfg.wf = true → Ready (.dpow2 fd fa n) s →
    HoldsF s fa k → s.cfg.narrow k = true → s.F.length = s.cfg.NF →
    ((s.cfg.tight k = true ∨ (s.cfg.r = 26 ∧ ∀ l ∈ k, l < 2 ^ 29)) →
      ∃ G, exec (.dpow2 fd fa n) s = .next { s with F := G }) ∧
    (exec (.dpow2 fd fa n) s = .next (faultedState s .overflow (encode (.dpow2 fd fa n))) ↔
      ∃ j, 1 ≤ j ∧ j < n.toNat ∧
        MulCarryOverflows s.cfg (if j = 1 then k else splitInt s.cfg (s.cfg.val k ^ 2 ^ (j - 1) % s.cfg.p))
          (if j = 1 then k else splitInt s.cfg (s.cfg.val k ^ 2 ^ (j - 1) % s.cfg.p))) ∧
    (exec (.dpow2 fd fa n) s = .next (faultedState s .overflow (encode (.dpow2 fd fa n))) ∨
     ∃ G, exec (.dpow2 fd fa n) s = .next { s with F := G } ∧ G.length = s.F.length ∧
      G[fd.toNat]? = some ⟨k, true⟩ ∧
      (∀ j, 1 ≤ j → j < n.toNat → ∃ z, G[fd.toNat + j]? = some ⟨z, true⟩ ∧ s.cfg.reduced z = true ∧
        s.cfg.val z = s.cfg.val k ^ 2 ^ j % s.cfg.p) ∧
      (∀ j, j < fd.toNat ∨ fd.toNat + n.toNat ≤ j → G[j]? = s.F[j]?))

/-- R158, for the identity hook: a raw key bit that `CLAMP_MASK` clears has no influence on the point or on the tag;
with `CLASSIC` there are 22 of 128 such bits, the top four of bytes 3, 7, 11 and 15 and the bottom two of bytes 4, 8 and
12 of the mask (00_scope.md R10, which marks it as general knowledge: PRESUMED, log entry 18); with `NONE` no bit is
cleared; any other mask is the configuration's (42_key.md R151). -/
def Obligations.ClampedBitsIgnored : Prop :=
  (∀ (s : State) (K : Memory) (key key' : List Byte), s.cfg.wf = true → s.FAULT = none → s.cfg.TK = .identity →
    KeyGiven s key → KeyGiven { s with KEY := K } key' →
    (∀ j, j < s.cfg.NTAGS → ∀ b, s.cfg.clampMask.testBit b = true →
      (leNat (subKey s.cfg key j)).testBit b = (leNat (subKey s.cfg key' j)).testBit b) →
    (∀ j, j < s.cfg.NTAGS → evalPoint s.cfg (subKey s.cfg key j) = evalPoint s.cfg (subKey s.cfg key' j)) ∧
    SameResult (exec .hash s) (exec .hash { s with KEY := K })) ∧
  (∀ c : Config, c.CLAMP = .classic → c.clampMask = 0x0ffffffc0ffffffc0ffffffc0fffffff ∧
    (∀ b, b < 128 → (c.clampMask.testBit b = false ↔
      (b / 8 ∈ [3, 7, 11, 15] ∧ 4 ≤ b % 8) ∨ (b / 8 ∈ [4, 8, 12] ∧ b % 8 < 2))) ∧
    ((List.range 128).filter (fun b => !c.clampMask.testBit b)).length = 22) ∧
  (∀ c : Config, c.CLAMP = .unclamped → ∀ b, c.clampMask.testBit b = decide (b < 8 * c.SUBKEYSIZE)) ∧
  (∀ (c : Config) (mask : Nat), c.CLAMP = .other mask → c.clampMask = mask)

/-! ## The evaluator (43_hash_engine.md) -/

/-- R170, R171, R175, R180: HASH, whatever the strategy. Its word; the faults, `E_KEYLEN` before anything is read and
`E_UNINIT` for a byte of KEY or of the message never written; else it writes to slot j of OUT the packing of
`T(m[1..n], k_j)`, sets `OUTVALID`, reaches `Done` with `MPTR = INLEN`, leaves every register not written, and changes
no other byte of a space. `VOK` is 0 after it, by the start of HASH (10_state.md R32, log entry 8); the limbs under the
cleared marks are the model's (log entry 2). -/
def Obligations.HashWritesTheTag : Prop :=
  encode .hash = assemble 0x20 0 0 0 ∧
  (∀ s : State, s.cfg.wf = true → s.FAULT = none →
    ((s.KEYLEN.toNat ≠ s.cfg.KEYSIZE → HashFaulted s .keylen (exec .hash s)) ∧
     (s.KEYLEN.toNat = s.cfg.KEYSIZE →
       (∃ x, x < s.cfg.KEYSIZE ∧ Memory.read s.KEY x = none) ∨ (∃ x, x < s.INLEN.toNat ∧ Memory.read s.MSG x = none) →
       HashFaulted s .uninit (exec .hash s)))) ∧
  ∀ (s : State) (key msg : List Byte), s.cfg.wf = true → s.FAULT = none → KeyGiven s key → Message s msg →
    ∃ out, exec .hash s = .next { s with
        F := s.F.map unmark, Wd := s.Wd.map unmark, P := s.P.map unmarkFactor,
        OUT := out, OUTVALID := true, PHASE := .done, MPTR := s.INLEN, VOK := false } ∧
      (∀ j, j < s.cfg.NTAGS → Memory.readRun out (j * s.cfg.SUBTAGSIZE) s.cfg.SUBTAGSIZE =
        some (subTagOf s.cfg key msg j)) ∧
      (∀ x, s.cfg.OUTPUTSIZE ≤ x → Memory.read out x = Memory.read s.OUT x)

/-- The faults of HASH and VERIFY besides `E_KEYLEN` (43_hash_engine.md R175, R205): a byte of KEY or of the message
never written is `E_UNINIT`, for VERIFY a byte of OUT too; and no other fault is possible. -/
def Obligations.HashFaults : Prop :=
  ∀ s : State, s.cfg.wf = true → s.FAULT = none → s.KEYLEN.toNat = s.cfg.KEYSIZE →
    (((∃ x, x < s.cfg.KEYSIZE ∧ Memory.read s.KEY x = none) ∨
      (∃ x, x < s.INLEN.toNat ∧ Memory.read s.MSG x = none)) →
      (∃ t, exec .hash s = .next t ∧ t.FAULT = some .uninit) ∧
      (s.cfg.HAS_VERIFY = true → ∃ t, exec .verify s = .next t ∧ t.FAULT = some .uninit)) ∧
    (s.cfg.HAS_VERIFY = true → (∃ x, x < s.cfg.OUTPUTSIZE ∧ Memory.read s.OUT x = none) →
      ∃ t, exec .verify s = .next t ∧ t.FAULT = some .uninit) ∧
    (∀ t, exec .hash s = .next t → t.FAULT = none ∨ t.FAULT = some .uninit) ∧
    (∀ t, s.cfg.HAS_VERIFY = true → exec .verify s = .next t → t.FAULT = none ∨ t.FAULT = some .uninit)

/-- R200: for both instances and every mask the strategies accepted are CHAIN, BRANCH(2..16), DELAY(2..16),
TREE(1..4), NESTED(2..16); and in a well-formed core no step of any schedule fails a storage check, whatever the key
and the message are: HASH (and VERIFY) never raise `E_OVERFLOW`. -/
def Obligations.HashNeverOverflows : Prop :=
  (∀ (st : Strategy) (mask : Nat) (c : Config), (c = Config.r26 ∨ c = Config.r44) → mask < 2 ^ 128 →
    (({ c with STRATEGY := st, CLAMP := .other mask } : Config).wf = true ↔
      st = .chain ∨ (∃ B, st = .branch B ∧ 2 ≤ B ∧ B ≤ 16) ∨ (∃ D, st = .delay D ∧ 2 ≤ D ∧ D ≤ 16) ∨
      (∃ H, st = .tree H ∧ 1 ≤ H ∧ H ≤ 4) ∨ (∃ L, st = .nested L ∧ 2 ≤ L ∧ L ≤ 16))) ∧
  (∀ (i : Instr) (s t : State), i = .hash ∨ i = .verify → s.cfg.wf = true → exec i s = .next t →
    t.FAULT = some .overflow → s.FAULT = some .overflow)

/-- R196: two well-formed configurations that differ only in STRATEGY give the same state after HASH, for every key and
message and every other content of the state. -/
def Obligations.StrategiesAgree : Prop :=
  ∀ (s : State) (st : Strategy), s.cfg.wf = true → ({ s.cfg with STRATEGY := st } : Config).wf = true →
    ∃ t, exec .hash s = .next t ∧
      exec .hash { s with cfg := { s.cfg with STRATEGY := st } } =
        .next { t with cfg := { s.cfg with STRATEGY := st } }

/-- The value every schedule must reach: the accumulator that enters Combine is congruent modulo p to
`T(m[1..n], k)` of R170, and stored narrow, for tight blocks and a tight point (43_hash_engine.md R172, R179, R183 to
R188). -/
def Obligations.ScheduleReachesTarget : Prop :=
  ∀ (c : Config) (k : Limbs) (ms : List Limbs), c.wf = true → c.tight k = true → (∀ m ∈ ms, c.tight m = true) →
    ∃ pw acc, initPowers c k = .ok pw ∧ schedule c k pw (ms.map .ok) = .ok acc ∧ c.narrow acc = true ∧
      c.val acc % c.p = blockPolynomial (c.val k) (ms.map c.val) % c.p

/-- R173, R206: `k = 0` gives the all-zero tag, `k = 1` the sum of the blocks, one block `m[1]*k`; two different
messages give two different coefficient sequences and two different polynomials (identity hooks where bytes are
named); and the laws (a) to (e) of R206 hold of every well-formed configuration, as `HashLaws` writes them out. -/
def Obligations.TargetConsequences : Prop :=
  (∀ (p : Nat) (ms : List Nat), target p 0 ms = 0 ∧ target p 1 ms = ms.sum % p) ∧
  (∀ p k m : Nat, target p k [m] = m * k % p) ∧
  (∀ (c : Config) (key msg : List Byte), c.wf = true → c.TF = .identity →
    (∀ j, j < c.NTAGS → pointInt c key j = 0) → tagOf c key msg = List.replicate c.OUTPUTSIZE 0) ∧
  (∀ (c : Config) (x y : List Byte), c.wf = true → c.TM = .identity → x ≠ y →
    messageInts c x ≠ messageInts c y ∧
    ∃ k, blockPolynomial k (messageInts c x) ≠ blockPolynomial k (messageInts c y)) ∧
  (∀ c : Config, c.wf = true → HashLaws c)

/-- R178: the empty message: `E_KEYLEN` and `E_UNINIT` for a key byte can still be raised; after the key checks each
sub-tag is the zero element packed, whatever the key is; no byte of MSG is read. -/
def Obligations.EmptyMessageTag : Prop :=
  (∀ s : State, s.cfg.wf = true → s.FAULT = none → s.INLEN = 0 →
    (s.KEYLEN.toNat ≠ s.cfg.KEYSIZE → HashFaulted s .keylen (exec .hash s)) ∧
    (s.KEYLEN.toNat = s.cfg.KEYSIZE → (∃ x, x < s.cfg.KEYSIZE ∧ Memory.read s.KEY x = none) →
      HashFaulted s .uninit (exec .hash s))) ∧
  ∀ (s : State) (key : List Byte), s.cfg.wf = true → s.FAULT = none → KeyGiven s key → s.INLEN = 0 →
    ∃ t, exec .hash s = .next t ∧ t.FAULT = none ∧ t.OUTVALID = true ∧
      (∀ j, j < s.cfg.NTAGS → Memory.readRun t.OUT (j * s.cfg.SUBTAGSIZE) s.cfg.SUBTAGSIZE =
        some (s.cfg.TF.apply (leBytes 0 s.cfg.SUBTAGSIZE))) ∧
      (∀ M : Memory, exec .hash { s with MSG := M } = .next { t with MSG := M })

/-- R36, R181: the result of HASH is a function of the configuration, KEY, KEYLEN, `MSG[0 .. INLEN-1]` and INLEN alone:
two states that agree on these, whatever their registers, OUT, MPTR and earlier phase, reach the same result; and HASH
leaves every register not written, on `Done` and on `Faulted`. (On `Faulted` the bytes of OUT agree because the model
gives none a value, R226 leaves them unspecified: DESIGN CHOICE, log entry 6.) -/
def Obligations.HashIsPure : Prop :=
  ∀ s t : State, s.FAULT = none → t.FAULT = none → s.cfg = t.cfg → s.KEYLEN = t.KEYLEN → s.INLEN = t.INLEN →
    (∀ x, x < s.cfg.KEYSIZE → Memory.read s.KEY x = Memory.read t.KEY x) →
    (∀ x, x < s.INLEN.toNat → Memory.read s.MSG x = Memory.read t.MSG x) →
    s.cfg.wf = true →
    ∃ s' t', exec .hash s = .next s' ∧ exec .hash t = .next t' ∧ s'.FAULT = t'.FAULT ∧ s'.PHASE = t'.PHASE ∧
      s'.OUTVALID = t'.OUTVALID ∧ s'.MPTR = t'.MPTR ∧
      Memory.readRun s'.OUT 0 s.cfg.OUTPUTSIZE = Memory.readRun t'.OUT 0 s.cfg.OUTPUTSIZE ∧
      NoneWritten s' ∧ NoneWritten t'

/-- R176, 20_memory.md R67: the sequence of internal steps (`Init`, `Absorb`, `AbsorbLast`, `Combine`, for each
sub-tag in turn), in which each block is handed to the strategy in the phase that reads it, and the one-step HASH
agree on every state the host can observe: either the steps reach `Done` with the bytes HASH writes, or they raise the
fault HASH raises. Between any two steps, with the block about to be encoded, at most one block is in flight for
CHAIN, B for BRANCH, D for DELAY, `2^H` for TREE, one for NESTED; and none is when `Combine` begins, since the group
that holds `m[n]` is processed in `AbsorbLast`. That the steps are a second definition beside HASH is log entry 14;
that NESTED takes its blocks one by one is log entry 21. -/
def Obligations.SmallStepsAgree : Prop :=
  ∀ s : State, s.cfg.wf = true → s.FAULT = none →
    ((∃ n run, phaseSteps n (hashStart s) = .ok run ∧ run.core.PHASE = .done ∧ run.core.MPTR = s.INLEN ∧
      run.tag.length = s.cfg.OUTPUTSIZE ∧
      exec .hash s = .next { clearMarks run.core with OUT := Memory.writeRun s.OUT 0 run.tag, OUTVALID := true }) ∨
    (∃ n e, phaseSteps n (hashStart s) = .error e ∧
      exec .hash s = .next (raiseFault .hash e (encode .hash) s))) ∧
    (∀ n run, phaseSteps n (hashStart s) = .ok run →
      (run.core.PHASE = .combine → run.eval.inFlight = []) ∧
      run.eval.inFlight.length + 1 ≤ (match s.cfg.STRATEGY with
        | .chain => 1
        | .branch B => B
        | .delay D => D
        | .tree H => 2 ^ H
        | .nested _ => 1))

/-- R205: VERIFY. Its word, illegal without HAS_VERIFY (that the illegal word clears no mark and keeps MPTR is the
model's reading of R226, log entry 12). With it, the faults are those of HASH, and `E_UNINIT` also for a
byte of OUT never written; else `VOK` tells whether the candidate in OUT is the tag HASH would write; OUT is left as it
was, `OUTVALID` is 0, and the rest is as for HASH (the limbs under the cleared marks are the model's, log entry 2). -/
def Obligations.VerifyResult : Prop :=
  encode .verify = assemble 0x21 0 0 0 ∧
  (∀ s : State, s.FAULT = none → s.cfg.HAS_VERIFY = false →
    exec .verify s = .next (faultedState s .illegal (encode .verify))) ∧
  (∀ s : State, s.cfg.wf = true → s.cfg.HAS_VERIFY = true → s.FAULT = none →
    (s.KEYLEN.toNat ≠ s.cfg.KEYSIZE → HashFaulted s .keylen (exec .verify s)) ∧
    (s.KEYLEN.toNat = s.cfg.KEYSIZE →
      (∃ x, x < s.cfg.KEYSIZE ∧ Memory.read s.KEY x = none) ∨ (∃ x, x < s.INLEN.toNat ∧ Memory.read s.MSG x = none) ∨
        (∃ x, x < s.cfg.OUTPUTSIZE ∧ Memory.read s.OUT x = none) →
      HashFaulted s .uninit (exec .verify s))) ∧
  ∀ (s : State) (key msg cand : List Byte), s.cfg.wf = true → s.cfg.HAS_VERIFY = true → s.FAULT = none →
    KeyGiven s key → Message s msg → Memory.readRun s.OUT 0 s.cfg.OUTPUTSIZE = some cand →
    exec .verify s = .next { s with
      F := s.F.map unmark, Wd := s.Wd.map unmark, P := s.P.map unmarkFactor,
      VOK := decide (cand = tagOf s.cfg key msg), PHASE := .done, OUTVALID := false, MPTR := s.INLEN }

/-! ## Frames and secrets (20_memory.md R51, R56, R66, 70_reset_and_hazards.md R258) -/

/-- Registers: ADD, ADDW, MUL, SQR, PRECOMP, MULP, CARRY, REDUCE, ZERO, ZEROW, UNPACK, ENCB, ENCL, PACK, MRST, DKEY,
DPOW, DPOW2 leave every narrow, wide and factor register unchanged but the destinations their word names. -/
def Obligations.RegisterFrame : Prop :=
  ∀ (i : Instr) (s t : State), i ≠ .hash → i ≠ .verify → exec i s = .next t →
    (∀ j, j ∉ i.destF → t.F[j]? = s.F[j]?) ∧ (∀ j, j ∉ i.destW → t.Wd[j]? = s.Wd[j]?) ∧
    (∀ j, j ∉ i.destP → t.P[j]? = s.P[j]?) ∧
    t.F.length = s.F.length ∧ t.Wd.length = s.Wd.length ∧ t.P.length = s.P.length

/-- Bytes: no command changes a byte of KEY or MSG; every command but PACK and HASH leaves every byte of OUT; PACK
changes only the bytes of its slot, `idx*SUBTAGSIZE` and up; HASH without a fault only the first OUTPUTSIZE bytes. A
faulting VERIFY leaves every byte of OUT (R226) or leaves them all unspecified (the row U12), which is a free value
(log entry 22). -/
def Obligations.ByteFrame : Prop :=
  ∀ (i : Instr) (s t : State), exec i s = .next t →
    (∀ x, Memory.read t.KEY x = Memory.read s.KEY x) ∧ (∀ x, Memory.read t.MSG x = Memory.read s.MSG x) ∧
    (i ≠ .hash → (∀ fa idx, i ≠ .pack fa idx) →
      (i = .verify → s.cfg.HAS_VERIFY = true → s.FAULT = none → t.FAULT = none) →
      ∀ x, Memory.read t.OUT x = Memory.read s.OUT x) ∧
    (i = .verify → (∀ x, Memory.read t.OUT x = Memory.read s.OUT x) ∨ ∀ x, Memory.read t.OUT x = none) ∧
    (∀ fa idx, i = .pack fa idx → ∀ x, x < idx.toNat * s.cfg.SUBTAGSIZE ∨
      idx.toNat * s.cfg.SUBTAGSIZE + s.cfg.SUBTAGSIZE ≤ x → Memory.read t.OUT x = Memory.read s.OUT x) ∧
    (i = .hash → s.cfg.wf = true → t.FAULT = none → ∀ x, s.cfg.OUTPUTSIZE ≤ x →
      Memory.read t.OUT x = Memory.read s.OUT x)

/-- The other state: no command changes the configuration, KEYLEN, INLEN or the port; only ENCB, ENCL, MRST, HASH and
VERIFY change MPTR; only HASH and VERIFY change VOK; and a single-operation command that raises no fault leaves PHASE,
OUTVALID, FAULT and FINFO. -/
def Obligations.ControlFrame : Prop :=
  ∀ (i : Instr) (s t : State), exec i s = .next t →
    t.cfg = s.cfg ∧ t.KEYLEN = s.KEYLEN ∧ t.INLEN = s.INLEN ∧ t.port = s.port ∧
    (i ≠ .hash → i ≠ .verify → i ≠ .mrst → (∀ fd, i ≠ .encb fd) → (∀ fd, i ≠ .encl fd) → t.MPTR = s.MPTR) ∧
    (i ≠ .hash → i ≠ .verify → t.VOK = s.VOK) ∧
    (t.FAULT = s.FAULT → t.FINFO = s.FINFO) ∧
    (i ≠ .hash → i ≠ .verify → t.FAULT = s.FAULT → t.PHASE = s.PHASE ∧ t.OUTVALID = s.OUTVALID)

/-- Two states that differ only in KEY and MSG, and agree on the bytes the command may read (a list computed from the
word, the configuration, INLEN and MPTR alone), give the same result (R51, R55, R56, R66). -/
def Obligations.ReadsOnlyItsBytes : Prop :=
  ∀ (i : Instr) (s : State) (K M : Memory), s.cfg.wf = true →
    (∀ x ∈ i.reads s.cfg s.INLEN.toNat s.MPTR.toNat,
      ({ s with KEY := K, MSG := M } : State).byteAt x = s.byteAt x) →
    SameResult (exec i s) (exec i { s with KEY := K, MSG := M })

/-- Whether a command raises a fault that hardware must report, and which, depends on public values only: two states
with the same configuration, KEYLEN, INLEN, MPTR, PHASE, FAULT and FINFO raise the same one (R258, third form). -/
def Obligations.RequiredFaultsArePublic : Prop :=
  ∀ (i : Instr) (s t s' t' : State), SamePublic s t → exec i s = .next s' → exec i t = .next t' →
    ∀ code : FaultCode, code.required = true → (s'.FAULT = some code ↔ t'.FAULT = some code)
end

