-- ==== Sys2Proof/Laws/State.lean ====
section
/-! SUPPORT. What each named update of the state does to each field: one lemma per field per update, true by rfl,
so that no later proof unfolds a record update. -/

namespace Sys2Proof.Machine

@[simp] theorem writeF_cfg (s : State) (i : RegNo) (v : Limbs) : (writeF s i v).cfg = s.cfg := rfl
@[simp] theorem writeF_F (s : State) (i : RegNo) (v : Limbs) : (writeF s i v).F = s.F.set i.toNat ⟨v, true⟩ := rfl
@[simp] theorem writeF_Wd (s : State) (i : RegNo) (v : Limbs) : (writeF s i v).Wd = s.Wd := rfl
@[simp] theorem writeF_P (s : State) (i : RegNo) (v : Limbs) : (writeF s i v).P = s.P := rfl
@[simp] theorem writeF_KEY (s : State) (i : RegNo) (v : Limbs) : (writeF s i v).KEY = s.KEY := rfl
@[simp] theorem writeF_KEYLEN (s : State) (i : RegNo) (v : Limbs) : (writeF s i v).KEYLEN = s.KEYLEN := rfl
@[simp] theorem writeF_MSG (s : State) (i : RegNo) (v : Limbs) : (writeF s i v).MSG = s.MSG := rfl
@[simp] theorem writeF_INLEN (s : State) (i : RegNo) (v : Limbs) : (writeF s i v).INLEN = s.INLEN := rfl
@[simp] theorem writeF_OUT (s : State) (i : RegNo) (v : Limbs) : (writeF s i v).OUT = s.OUT := rfl
@[simp] theorem writeF_OUTVALID (s : State) (i : RegNo) (v : Limbs) : (writeF s i v).OUTVALID = s.OUTVALID := rfl
@[simp] theorem writeF_MPTR (s : State) (i : RegNo) (v : Limbs) : (writeF s i v).MPTR = s.MPTR := rfl
@[simp] theorem writeF_PHASE (s : State) (i : RegNo) (v : Limbs) : (writeF s i v).PHASE = s.PHASE := rfl
@[simp] theorem writeF_FAULT (s : State) (i : RegNo) (v : Limbs) : (writeF s i v).FAULT = s.FAULT := rfl
@[simp] theorem writeF_FINFO (s : State) (i : RegNo) (v : Limbs) : (writeF s i v).FINFO = s.FINFO := rfl
@[simp] theorem writeF_VOK (s : State) (i : RegNo) (v : Limbs) : (writeF s i v).VOK = s.VOK := rfl
@[simp] theorem writeF_port (s : State) (i : RegNo) (v : Limbs) : (writeF s i v).port = s.port := rfl

@[simp] theorem writeW_cfg (s : State) (i : RegNo) (v : Limbs) : (writeW s i v).cfg = s.cfg := rfl
@[simp] theorem writeW_F (s : State) (i : RegNo) (v : Limbs) : (writeW s i v).F = s.F := rfl
@[simp] theorem writeW_Wd (s : State) (i : RegNo) (v : Limbs) : (writeW s i v).Wd = s.Wd.set i.toNat ⟨v, true⟩ := rfl
@[simp] theorem writeW_P (s : State) (i : RegNo) (v : Limbs) : (writeW s i v).P = s.P := rfl
@[simp] theorem writeW_KEY (s : State) (i : RegNo) (v : Limbs) : (writeW s i v).KEY = s.KEY := rfl
@[simp] theorem writeW_KEYLEN (s : State) (i : RegNo) (v : Limbs) : (writeW s i v).KEYLEN = s.KEYLEN := rfl
@[simp] theorem writeW_MSG (s : State) (i : RegNo) (v : Limbs) : (writeW s i v).MSG = s.MSG := rfl
@[simp] theorem writeW_INLEN (s : State) (i : RegNo) (v : Limbs) : (writeW s i v).INLEN = s.INLEN := rfl
@[simp] theorem writeW_OUT (s : State) (i : RegNo) (v : Limbs) : (writeW s i v).OUT = s.OUT := rfl
@[simp] theorem writeW_OUTVALID (s : State) (i : RegNo) (v : Limbs) : (writeW s i v).OUTVALID = s.OUTVALID := rfl
@[simp] theorem writeW_MPTR (s : State) (i : RegNo) (v : Limbs) : (writeW s i v).MPTR = s.MPTR := rfl
@[simp] theorem writeW_PHASE (s : State) (i : RegNo) (v : Limbs) : (writeW s i v).PHASE = s.PHASE := rfl
@[simp] theorem writeW_FAULT (s : State) (i : RegNo) (v : Limbs) : (writeW s i v).FAULT = s.FAULT := rfl
@[simp] theorem writeW_FINFO (s : State) (i : RegNo) (v : Limbs) : (writeW s i v).FINFO = s.FINFO := rfl
@[simp] theorem writeW_VOK (s : State) (i : RegNo) (v : Limbs) : (writeW s i v).VOK = s.VOK := rfl
@[simp] theorem writeW_port (s : State) (i : RegNo) (v : Limbs) : (writeW s i v).port = s.port := rfl

@[simp] theorem writeP_cfg (s : State) (i : RegNo) (k q : Limbs) : (writeP s i k q).cfg = s.cfg := rfl
@[simp] theorem writeP_F (s : State) (i : RegNo) (k q : Limbs) : (writeP s i k q).F = s.F := rfl
@[simp] theorem writeP_Wd (s : State) (i : RegNo) (k q : Limbs) : (writeP s i k q).Wd = s.Wd := rfl
@[simp] theorem writeP_P (s : State) (i : RegNo) (k q : Limbs) : (writeP s i k q).P = s.P.set i.toNat ⟨k, q, true⟩ := rfl
@[simp] theorem writeP_KEY (s : State) (i : RegNo) (k q : Limbs) : (writeP s i k q).KEY = s.KEY := rfl
@[simp] theorem writeP_KEYLEN (s : State) (i : RegNo) (k q : Limbs) : (writeP s i k q).KEYLEN = s.KEYLEN := rfl
@[simp] theorem writeP_MSG (s : State) (i : RegNo) (k q : Limbs) : (writeP s i k q).MSG = s.MSG := rfl
@[simp] theorem writeP_INLEN (s : State) (i : RegNo) (k q : Limbs) : (writeP s i k q).INLEN = s.INLEN := rfl
@[simp] theorem writeP_OUT (s : State) (i : RegNo) (k q : Limbs) : (writeP s i k q).OUT = s.OUT := rfl
@[simp] theorem writeP_OUTVALID (s : State) (i : RegNo) (k q : Limbs) : (writeP s i k q).OUTVALID = s.OUTVALID := rfl
@[simp] theorem writeP_MPTR (s : State) (i : RegNo) (k q : Limbs) : (writeP s i k q).MPTR = s.MPTR := rfl
@[simp] theorem writeP_PHASE (s : State) (i : RegNo) (k q : Limbs) : (writeP s i k q).PHASE = s.PHASE := rfl
@[simp] theorem writeP_FAULT (s : State) (i : RegNo) (k q : Limbs) : (writeP s i k q).FAULT = s.FAULT := rfl
@[simp] theorem writeP_FINFO (s : State) (i : RegNo) (k q : Limbs) : (writeP s i k q).FINFO = s.FINFO := rfl
@[simp] theorem writeP_VOK (s : State) (i : RegNo) (k q : Limbs) : (writeP s i k q).VOK = s.VOK := rfl
@[simp] theorem writeP_port (s : State) (i : RegNo) (k q : Limbs) : (writeP s i k q).port = s.port := rfl

@[simp] theorem writeFs_cfg (s : State) (i : RegNo) (vs : List Limbs) : (writeFs s i vs).cfg = s.cfg := rfl
@[simp] theorem writeFs_F (s : State) (i : RegNo) (vs : List Limbs) : (writeFs s i vs).F = setConsecutive s.F i.toNat vs := rfl
@[simp] theorem writeFs_Wd (s : State) (i : RegNo) (vs : List Limbs) : (writeFs s i vs).Wd = s.Wd := rfl
@[simp] theorem writeFs_P (s : State) (i : RegNo) (vs : List Limbs) : (writeFs s i vs).P = s.P := rfl
@[simp] theorem writeFs_KEY (s : State) (i : RegNo) (vs : List Limbs) : (writeFs s i vs).KEY = s.KEY := rfl
@[simp] theorem writeFs_KEYLEN (s : State) (i : RegNo) (vs : List Limbs) : (writeFs s i vs).KEYLEN = s.KEYLEN := rfl
@[simp] theorem writeFs_MSG (s : State) (i : RegNo) (vs : List Limbs) : (writeFs s i vs).MSG = s.MSG := rfl
@[simp] theorem writeFs_INLEN (s : State) (i : RegNo) (vs : List Limbs) : (writeFs s i vs).INLEN = s.INLEN := rfl
@[simp] theorem writeFs_OUT (s : State) (i : RegNo) (vs : List Limbs) : (writeFs s i vs).OUT = s.OUT := rfl
@[simp] theorem writeFs_OUTVALID (s : State) (i : RegNo) (vs : List Limbs) : (writeFs s i vs).OUTVALID = s.OUTVALID := rfl
@[simp] theorem writeFs_MPTR (s : State) (i : RegNo) (vs : List Limbs) : (writeFs s i vs).MPTR = s.MPTR := rfl
@[simp] theorem writeFs_PHASE (s : State) (i : RegNo) (vs : List Limbs) : (writeFs s i vs).PHASE = s.PHASE := rfl
@[simp] theorem writeFs_FAULT (s : State) (i : RegNo) (vs : List Limbs) : (writeFs s i vs).FAULT = s.FAULT := rfl
@[simp] theorem writeFs_FINFO (s : State) (i : RegNo) (vs : List Limbs) : (writeFs s i vs).FINFO = s.FINFO := rfl
@[simp] theorem writeFs_VOK (s : State) (i : RegNo) (vs : List Limbs) : (writeFs s i vs).VOK = s.VOK := rfl
@[simp] theorem writeFs_port (s : State) (i : RegNo) (vs : List Limbs) : (writeFs s i vs).port = s.port := rfl

@[simp] theorem clearMarks_cfg (s : State) : (clearMarks s).cfg = s.cfg := rfl
@[simp] theorem clearMarks_F (s : State) : (clearMarks s).F = s.F.map unmark := rfl
@[simp] theorem clearMarks_Wd (s : State) : (clearMarks s).Wd = s.Wd.map unmark := rfl
@[simp] theorem clearMarks_P (s : State) : (clearMarks s).P = s.P.map unmarkFactor := rfl
@[simp] theorem clearMarks_KEY (s : State) : (clearMarks s).KEY = s.KEY := rfl
@[simp] theorem clearMarks_KEYLEN (s : State) : (clearMarks s).KEYLEN = s.KEYLEN := rfl
@[simp] theorem clearMarks_MSG (s : State) : (clearMarks s).MSG = s.MSG := rfl
@[simp] theorem clearMarks_INLEN (s : State) : (clearMarks s).INLEN = s.INLEN := rfl
@[simp] theorem clearMarks_OUT (s : State) : (clearMarks s).OUT = s.OUT := rfl
@[simp] theorem clearMarks_OUTVALID (s : State) : (clearMarks s).OUTVALID = s.OUTVALID := rfl
@[simp] theorem clearMarks_MPTR (s : State) : (clearMarks s).MPTR = s.MPTR := rfl
@[simp] theorem clearMarks_PHASE (s : State) : (clearMarks s).PHASE = s.PHASE := rfl
@[simp] theorem clearMarks_FAULT (s : State) : (clearMarks s).FAULT = s.FAULT := rfl
@[simp] theorem clearMarks_FINFO (s : State) : (clearMarks s).FINFO = s.FINFO := rfl
@[simp] theorem clearMarks_VOK (s : State) : (clearMarks s).VOK = s.VOK := rfl
@[simp] theorem clearMarks_port (s : State) : (clearMarks s).port = s.port := rfl

@[simp] theorem writeOutSlot_cfg (s : State) (idx : Nat) (bytes : List Byte) : (writeOutSlot s idx bytes).cfg = s.cfg := rfl
@[simp] theorem writeOutSlot_F (s : State) (idx : Nat) (bytes : List Byte) : (writeOutSlot s idx bytes).F = s.F := rfl
@[simp] theorem writeOutSlot_Wd (s : State) (idx : Nat) (bytes : List Byte) : (writeOutSlot s idx bytes).Wd = s.Wd := rfl
@[simp] theorem writeOutSlot_P (s : State) (idx : Nat) (bytes : List Byte) : (writeOutSlot s idx bytes).P = s.P := rfl
@[simp] theorem writeOutSlot_KEY (s : State) (idx : Nat) (bytes : List Byte) : (writeOutSlot s idx bytes).KEY = s.KEY := rfl
@[simp] theorem writeOutSlot_KEYLEN (s : State) (idx : Nat) (bytes : List Byte) : (writeOutSlot s idx bytes).KEYLEN = s.KEYLEN := rfl
@[simp] theorem writeOutSlot_MSG (s : State) (idx : Nat) (bytes : List Byte) : (writeOutSlot s idx bytes).MSG = s.MSG := rfl
@[simp] theorem writeOutSlot_INLEN (s : State) (idx : Nat) (bytes : List Byte) : (writeOutSlot s idx bytes).INLEN = s.INLEN := rfl
@[simp] theorem writeOutSlot_OUT (s : State) (idx : Nat) (bytes : List Byte) : (writeOutSlot s idx bytes).OUT = Memory.writeRun s.OUT (idx * s.cfg.SUBTAGSIZE) bytes := rfl
@[simp] theorem writeOutSlot_OUTVALID (s : State) (idx : Nat) (bytes : List Byte) : (writeOutSlot s idx bytes).OUTVALID = s.OUTVALID := rfl
@[simp] theorem writeOutSlot_MPTR (s : State) (idx : Nat) (bytes : List Byte) : (writeOutSlot s idx bytes).MPTR = s.MPTR := rfl
@[simp] theorem writeOutSlot_PHASE (s : State) (idx : Nat) (bytes : List Byte) : (writeOutSlot s idx bytes).PHASE = s.PHASE := rfl
@[simp] theorem writeOutSlot_FAULT (s : State) (idx : Nat) (bytes : List Byte) : (writeOutSlot s idx bytes).FAULT = s.FAULT := rfl
@[simp] theorem writeOutSlot_FINFO (s : State) (idx : Nat) (bytes : List Byte) : (writeOutSlot s idx bytes).FINFO = s.FINFO := rfl
@[simp] theorem writeOutSlot_VOK (s : State) (idx : Nat) (bytes : List Byte) : (writeOutSlot s idx bytes).VOK = s.VOK := rfl
@[simp] theorem writeOutSlot_port (s : State) (idx : Nat) (bytes : List Byte) : (writeOutSlot s idx bytes).port = s.port := rfl

@[simp] theorem reachDone_cfg (s : State) : (reachDone s).cfg = s.cfg := rfl
@[simp] theorem reachDone_F (s : State) : (reachDone s).F = s.F.map unmark := rfl
@[simp] theorem reachDone_Wd (s : State) : (reachDone s).Wd = s.Wd.map unmark := rfl
@[simp] theorem reachDone_P (s : State) : (reachDone s).P = s.P.map unmarkFactor := rfl
@[simp] theorem reachDone_KEY (s : State) : (reachDone s).KEY = s.KEY := rfl
@[simp] theorem reachDone_KEYLEN (s : State) : (reachDone s).KEYLEN = s.KEYLEN := rfl
@[simp] theorem reachDone_MSG (s : State) : (reachDone s).MSG = s.MSG := rfl
@[simp] theorem reachDone_INLEN (s : State) : (reachDone s).INLEN = s.INLEN := rfl
@[simp] theorem reachDone_OUT (s : State) : (reachDone s).OUT = s.OUT := rfl
@[simp] theorem reachDone_OUTVALID (s : State) : (reachDone s).OUTVALID = s.OUTVALID := rfl
@[simp] theorem reachDone_MPTR (s : State) : (reachDone s).MPTR = s.INLEN := rfl
@[simp] theorem reachDone_PHASE (s : State) : (reachDone s).PHASE = .done := rfl
@[simp] theorem reachDone_FAULT (s : State) : (reachDone s).FAULT = s.FAULT := rfl
@[simp] theorem reachDone_FINFO (s : State) : (reachDone s).FINFO = s.FINFO := rfl
@[simp] theorem reachDone_VOK (s : State) : (reachDone s).VOK = s.VOK := rfl
@[simp] theorem reachDone_port (s : State) : (reachDone s).port = s.port := rfl

@[simp] theorem placeCommand_cfg (s : State) (w : Word) : (placeCommand s w).cfg = s.cfg := rfl
@[simp] theorem placeCommand_F (s : State) (w : Word) : (placeCommand s w).F = s.F := rfl
@[simp] theorem placeCommand_Wd (s : State) (w : Word) : (placeCommand s w).Wd = s.Wd := rfl
@[simp] theorem placeCommand_P (s : State) (w : Word) : (placeCommand s w).P = s.P := rfl
@[simp] theorem placeCommand_KEY (s : State) (w : Word) : (placeCommand s w).KEY = s.KEY := rfl
@[simp] theorem placeCommand_KEYLEN (s : State) (w : Word) : (placeCommand s w).KEYLEN = s.KEYLEN := rfl
@[simp] theorem placeCommand_MSG (s : State) (w : Word) : (placeCommand s w).MSG = s.MSG := rfl
@[simp] theorem placeCommand_INLEN (s : State) (w : Word) : (placeCommand s w).INLEN = s.INLEN := rfl
@[simp] theorem placeCommand_OUT (s : State) (w : Word) : (placeCommand s w).OUT = s.OUT := rfl
@[simp] theorem placeCommand_OUTVALID (s : State) (w : Word) : (placeCommand s w).OUTVALID = s.OUTVALID := rfl
@[simp] theorem placeCommand_MPTR (s : State) (w : Word) : (placeCommand s w).MPTR = s.MPTR := rfl
@[simp] theorem placeCommand_PHASE (s : State) (w : Word) : (placeCommand s w).PHASE = s.PHASE := rfl
@[simp] theorem placeCommand_FAULT (s : State) (w : Word) : (placeCommand s w).FAULT = s.FAULT := rfl
@[simp] theorem placeCommand_FINFO (s : State) (w : Word) : (placeCommand s w).FINFO = s.FINFO := rfl
@[simp] theorem placeCommand_VOK (s : State) (w : Word) : (placeCommand s w).VOK = s.VOK := rfl
@[simp] theorem placeCommand_port (s : State) (w : Word) : (placeCommand s w).port = .command w :: s.port := rfl

@[simp] theorem hostReset_cfg (s : State) : (hostReset s).cfg = s.cfg := rfl
@[simp] theorem hostReset_F (s : State) : (hostReset s).F = (State.resetOf s.cfg).F := rfl
@[simp] theorem hostReset_Wd (s : State) : (hostReset s).Wd = (State.resetOf s.cfg).Wd := rfl
@[simp] theorem hostReset_P (s : State) : (hostReset s).P = (State.resetOf s.cfg).P := rfl
@[simp] theorem hostReset_KEY (s : State) : (hostReset s).KEY = (State.resetOf s.cfg).KEY := rfl
@[simp] theorem hostReset_KEYLEN (s : State) : (hostReset s).KEYLEN = (State.resetOf s.cfg).KEYLEN := rfl
@[simp] theorem hostReset_MSG (s : State) : (hostReset s).MSG = (State.resetOf s.cfg).MSG := rfl
@[simp] theorem hostReset_INLEN (s : State) : (hostReset s).INLEN = (State.resetOf s.cfg).INLEN := rfl
@[simp] theorem hostReset_OUT (s : State) : (hostReset s).OUT = (State.resetOf s.cfg).OUT := rfl
@[simp] theorem hostReset_OUTVALID (s : State) : (hostReset s).OUTVALID = (State.resetOf s.cfg).OUTVALID := rfl
@[simp] theorem hostReset_MPTR (s : State) : (hostReset s).MPTR = (State.resetOf s.cfg).MPTR := rfl
@[simp] theorem hostReset_PHASE (s : State) : (hostReset s).PHASE = (State.resetOf s.cfg).PHASE := rfl
@[simp] theorem hostReset_FAULT (s : State) : (hostReset s).FAULT = (State.resetOf s.cfg).FAULT := rfl
@[simp] theorem hostReset_FINFO (s : State) : (hostReset s).FINFO = (State.resetOf s.cfg).FINFO := rfl
@[simp] theorem hostReset_VOK (s : State) : (hostReset s).VOK = (State.resetOf s.cfg).VOK := rfl
@[simp] theorem hostReset_port (s : State) : (hostReset s).port = s.port := rfl

@[simp] theorem faultedState_cfg (s : State) (e : FaultCode) (w : Word) : (faultedState s e w).cfg = s.cfg := rfl
@[simp] theorem faultedState_F (s : State) (e : FaultCode) (w : Word) : (faultedState s e w).F = s.F := rfl
@[simp] theorem faultedState_Wd (s : State) (e : FaultCode) (w : Word) : (faultedState s e w).Wd = s.Wd := rfl
@[simp] theorem faultedState_P (s : State) (e : FaultCode) (w : Word) : (faultedState s e w).P = s.P := rfl
@[simp] theorem faultedState_KEY (s : State) (e : FaultCode) (w : Word) : (faultedState s e w).KEY = s.KEY := rfl
@[simp] theorem faultedState_KEYLEN (s : State) (e : FaultCode) (w : Word) : (faultedState s e w).KEYLEN = s.KEYLEN := rfl
@[simp] theorem faultedState_MSG (s : State) (e : FaultCode) (w : Word) : (faultedState s e w).MSG = s.MSG := rfl
@[simp] theorem faultedState_INLEN (s : State) (e : FaultCode) (w : Word) : (faultedState s e w).INLEN = s.INLEN := rfl
@[simp] theorem faultedState_OUT (s : State) (e : FaultCode) (w : Word) : (faultedState s e w).OUT = s.OUT := rfl
@[simp] theorem faultedState_OUTVALID (s : State) (e : FaultCode) (w : Word) : (faultedState s e w).OUTVALID = false := rfl
@[simp] theorem faultedState_MPTR (s : State) (e : FaultCode) (w : Word) : (faultedState s e w).MPTR = s.MPTR := rfl
@[simp] theorem faultedState_PHASE (s : State) (e : FaultCode) (w : Word) : (faultedState s e w).PHASE = .faulted := rfl
@[simp] theorem faultedState_FAULT (s : State) (e : FaultCode) (w : Word) : (faultedState s e w).FAULT = some e := rfl
@[simp] theorem faultedState_FINFO (s : State) (e : FaultCode) (w : Word) : (faultedState s e w).FINFO = w := rfl
@[simp] theorem faultedState_VOK (s : State) (e : FaultCode) (w : Word) : (faultedState s e w).VOK = s.VOK := rfl
@[simp] theorem faultedState_port (s : State) (e : FaultCode) (w : Word) : (faultedState s e w).port = s.port := rfl

@[simp] theorem resetOf_cfg (c : Config) : (State.resetOf c).cfg = c := rfl
@[simp] theorem resetOf_KEY (c : Config) : (State.resetOf c).KEY = [] := rfl
@[simp] theorem resetOf_KEYLEN (c : Config) : (State.resetOf c).KEYLEN = 0 := rfl
@[simp] theorem resetOf_MSG (c : Config) : (State.resetOf c).MSG = [] := rfl
@[simp] theorem resetOf_INLEN (c : Config) : (State.resetOf c).INLEN = 0 := rfl
@[simp] theorem resetOf_OUT (c : Config) : (State.resetOf c).OUT = [] := rfl
@[simp] theorem resetOf_OUTVALID (c : Config) : (State.resetOf c).OUTVALID = false := rfl
@[simp] theorem resetOf_MPTR (c : Config) : (State.resetOf c).MPTR = 0 := rfl
@[simp] theorem resetOf_PHASE (c : Config) : (State.resetOf c).PHASE = .idle := rfl
@[simp] theorem resetOf_FAULT (c : Config) : (State.resetOf c).FAULT = none := rfl
@[simp] theorem resetOf_FINFO (c : Config) : (State.resetOf c).FINFO = 0 := rfl
@[simp] theorem resetOf_VOK (c : Config) : (State.resetOf c).VOK = false := rfl
@[simp] theorem resetOf_port (c : Config) : (State.resetOf c).port = [] := rfl

end Sys2Proof.Machine
end

