-- ==== Sys2Proof/Laws/Memory.lean ====
section
/-! SUPPORT. The laws of a byte space: a read after a write, what a write leaves alone, that every operation keeps
the canonical form, and what a run of bytes is. -/

namespace Sys2Proof.Machine

/-! ## One byte -/

/-- A byte reads as it was written. -/
@[simp] theorem read_write_same (m : Memory) (a : Nat) (b : Byte) : Memory.read (Memory.write m a b) a = some b := by
  induction m with
  | nil => simp [Memory.write, Memory.read]
  | cons cell rest ih =>
    obtain ⟨k, v⟩ := cell
    simp only [Memory.write]
    split
    · simp [Memory.read]
    · split
      · simp [Memory.read]
      · have : k ≠ a := by omega
        simp [Memory.read, this, ih]

/-- A write leaves every other address alone. -/
theorem read_write_other (m : Memory) {a x : Nat} (b : Byte) (h : x ≠ a) :
    Memory.read (Memory.write m a b) x = Memory.read m x := by
  induction m with
  | nil => simp [Memory.write, Memory.read, h.symm]
  | cons cell rest ih =>
    obtain ⟨k, v⟩ := cell
    simp only [Memory.write]
    split
    · simp [Memory.read, h.symm]
    · split
      · have : k ≠ x := by omega
        simp [Memory.read, this, h.symm]
      · simp [Memory.read, ih]

/-- The form of a memory with one more entry in front. -/
theorem wf_cons (k : Nat) (v : Byte) (m : Memory) :
    Memory.wf ((k, v) :: m) = true ↔ (∀ cell ∈ m.head?, k < cell.1) ∧ Memory.wf m = true := by
  cases m with
  | nil => simp [Memory.wf]
  | cons cell rest => obtain ⟨k', v'⟩ := cell; simp [Memory.wf]

/-- The head of a memory after a write is the written address or the old head. -/
theorem head_write (m : Memory) (a : Nat) (b : Byte) :
    ∀ cell ∈ (Memory.write m a b).head?, cell.1 = a ∨ ∃ c ∈ m.head?, cell.1 = c.1 := by
  cases m with
  | nil => simp [Memory.write]
  | cons cell rest =>
    obtain ⟨k, v⟩ := cell
    simp only [Memory.write]
    split
    · simp
    · split <;> simp_all

/-- A write keeps the canonical form. -/
theorem write_wf (m : Memory) (a : Nat) (b : Byte) (h : Memory.wf m = true) :
    Memory.wf (Memory.write m a b) = true := by
  induction m with
  | nil => rfl
  | cons cell rest ih =>
    obtain ⟨k, v⟩ := cell
    have hk := (wf_cons k v rest).1 h
    simp only [Memory.write]
    split
    · rename_i hlt
      exact (wf_cons _ _ _).2 ⟨by simp [hlt], h⟩
    · split
      · rename_i heq
        exact (wf_cons _ _ _).2 ⟨by rw [heq]; exact hk.1, hk.2⟩
      · refine (wf_cons _ _ _).2 ⟨fun cell hc => ?_, ih hk.2⟩
        rcases head_write rest a b cell hc with h1 | ⟨c, hc1, hc2⟩
        · omega
        · rw [hc2]; exact hk.1 c hc1

/-- The addresses listed after a write. -/
theorem mem_write {m : Memory} {a : Nat} {b : Byte} {cell : Host.Cell} (h : cell ∈ Memory.write m a b) :
    cell = (a, b) ∨ cell ∈ m := by
  induction m with
  | nil => simpa [Memory.write] using h
  | cons c rest ih =>
    obtain ⟨k, v⟩ := c
    simp only [Memory.write] at h
    split at h
    · simpa using h
    · split at h
      · rcases List.mem_cons.1 h with h | h
        · exact .inl h
        · exact .inr (List.mem_cons_of_mem _ h)
      · rcases List.mem_cons.1 h with h | h
        · exact .inr (h ▸ List.mem_cons_self)
        · exact (ih h).imp_right (List.mem_cons_of_mem _)

/-- A write below the size keeps every address below the size. -/
theorem write_addressesBelow (m : Memory) (a : Nat) (b : Byte) (size : Nat) (ha : a < size)
    (h : addressesBelow m size = true) : addressesBelow (Memory.write m a b) size = true := by
  simp only [addressesBelow, List.all_eq_true, decide_eq_true_eq] at *
  intro cell hc
  rcases mem_write hc with rfl | hc
  · exact ha
  · exact h cell hc

/-! ## Runs -/

/-- A run leaves every address outside it alone. -/
theorem read_writeRun_outside (m : Memory) (a : Nat) (bs : List Byte) (x : Nat) (h : x < a ∨ a + bs.length ≤ x) :
    Memory.read (Memory.writeRun m a bs) x = Memory.read m x := by
  induction bs generalizing m a with
  | nil => rfl
  | cons b bs ih =>
    simp only [List.length_cons] at h
    rw [Memory.writeRun, ih _ _ (by omega), read_write_other _ _ (by omega)]

/-- Inside a written run the byte is the run's. -/
theorem read_writeRun_inside (m : Memory) (a : Nat) (bs : List Byte) (i : Nat) (h : i < bs.length) :
    Memory.read (Memory.writeRun m a bs) (a + i) = some bs[i] := by
  induction bs generalizing m a i with
  | nil => simp at h
  | cons b bs ih =>
    cases i with
    | zero => rw [Memory.writeRun, read_writeRun_outside _ _ _ _ (by omega)]; simp
    | succ i =>
      rw [Memory.writeRun, show a + (i + 1) = a + 1 + i by omega, ih _ _ _ (by simpa using h)]
      simp

/-- Writing a run keeps the canonical form. -/
theorem writeRun_wf (m : Memory) (a : Nat) (bs : List Byte) (h : Memory.wf m = true) :
    Memory.wf (Memory.writeRun m a bs) = true := by
  induction bs generalizing m a with
  | nil => exact h
  | cons b bs ih => exact ih _ _ (write_wf m a b h)

/-- A run that ends inside the size keeps every address below the size. -/
theorem writeRun_addressesBelow (m : Memory) (a : Nat) (bs : List Byte) (size : Nat) (ha : a + bs.length ≤ size)
    (h : addressesBelow m size = true) : addressesBelow (Memory.writeRun m a bs) size = true := by
  induction bs generalizing m a with
  | nil => exact h
  | cons b bs ih =>
    simp only [List.length_cons] at ha
    exact ih _ _ (by omega) (write_addressesBelow m a b size (by omega) h)

/-- A run is read exactly when each of its bytes is. -/
theorem readRun_eq_some {m : Memory} {a n : Nat} {bs : List Byte} :
    Memory.readRun m a n = some bs ↔ bs.length = n ∧ ∀ i (h : i < bs.length), Memory.read m (a + i) = some bs[i] := by
  induction n generalizing a bs with
  | zero =>
    simp only [Memory.readRun, Option.some.injEq]
    constructor
    · rintro rfl; simp
    · rintro ⟨h, -⟩; exact (List.length_eq_zero_iff.1 h).symm
  | succ n ih =>
    simp only [Memory.readRun]
    constructor
    · intro h
      split at h
      · rename_i b bs' h1 h2
        simp only [Option.some.injEq] at h
        subst h
        obtain ⟨hl, hb⟩ := ih.1 h2
        refine ⟨by simp [hl], fun i hi => ?_⟩
        cases i with
        | zero => simpa using h1
        | succ i =>
          have := hb i (by simpa using hi)
          rw [show a + (i + 1) = a + 1 + i by omega]
          simpa using this
      · simp at h
    · rintro ⟨hl, hb⟩
      cases bs with
      | nil => simp at hl
      | cons b bs =>
        have h1 : Memory.read m a = some b := hb 0 (by simp)
        have h2 : Memory.readRun m (a + 1) n = some bs := by
          refine ih.2 ⟨by simpa using hl, fun i hi => ?_⟩
          have := hb (i + 1) (by simpa using hi)
          rw [show a + 1 + i = a + (i + 1) by omega]
          simpa using this
        simp [h1, h2]

/-- The length of a run that was read. -/
theorem readRun_length {m : Memory} {a n : Nat} {bs : List Byte} (h : Memory.readRun m a n = some bs) :
    bs.length = n := (readRun_eq_some.1 h).1

/-- A written run reads back. -/
@[simp] theorem readRun_writeRun (m : Memory) (a : Nat) (bs : List Byte) :
    Memory.readRun (Memory.writeRun m a bs) a bs.length = some bs :=
  readRun_eq_some.2 ⟨rfl, fun i h => read_writeRun_inside m a bs i h⟩

/-- A run depends only on its own bytes. -/
theorem readRun_congr {m m' : Memory} {a n : Nat}
    (h : ∀ i, i < n → Memory.read m (a + i) = Memory.read m' (a + i)) :
    Memory.readRun m a n = Memory.readRun m' a n := by
  induction n generalizing a with
  | zero => rfl
  | succ n ih =>
    have h0 := h 0 (by omega)
    have hs := ih (a := a + 1) (fun i hi => by
      have := h (i + 1) (by omega)
      rwa [show a + (i + 1) = a + 1 + i by omega] at this)
    simp only [Nat.add_zero] at h0
    simp [Memory.readRun, h0, hs]

/-- Part of a run that was read. -/
theorem readRun_sub {m : Memory} {a n : Nat} {bs : List Byte} (h : Memory.readRun m a n = some bs) (i k : Nat)
    (hk : i + k ≤ n) : Memory.readRun m (a + i) k = some ((bs.drop i).take k) := by
  obtain ⟨hl, hb⟩ := readRun_eq_some.1 h
  refine readRun_eq_some.2 ⟨by simp; omega, fun j hj => ?_⟩
  have hj' : i + j < bs.length := by simp at hj; omega
  rw [Nat.add_assoc, hb _ hj']
  simp

/-- `readBytes` answers the run, or `E_UNINIT` when a byte of it was never written. -/
theorem readBytes_eq_ok {m : Memory} {a n : Nat} {bs : List Byte} :
    readBytes m a n = .ok bs ↔ Memory.readRun m a n = some bs := by
  unfold readBytes
  split <;> simp_all

/-- The only fault of `readBytes` is `E_UNINIT`. -/
theorem readBytes_error {m : Memory} {a n : Nat} {e : FaultCode} (h : readBytes m a n = .error e) :
    e = .uninit ∧ Memory.readRun m a n = none := by
  unfold readBytes at h
  split at h
  · cases h
  · rename_i hn
    exact ⟨by cases h; rfl, hn⟩

/-- The memories of the reset state are in canonical form. -/
theorem reset_memories_wf (c : Config) :
    Memory.wf (State.resetOf c).KEY = true ∧ Memory.wf (State.resetOf c).MSG = true ∧
      Memory.wf (State.resetOf c).OUT = true := ⟨rfl, rfl, rfl⟩

end Sys2Proof.Machine
end

