-- ==== Sys2Proof/Laws/Ops.lean ====
section
/-! SUPPORT. What the shared operations can do, said once: reading and writing registers, fault entry, and the
frame every command runs in (`issue`). -/

namespace Sys2Proof.Machine

/-! ## Registers -/

/-- A limb register is read exactly when it is of the file and marked written (10_state.md R38). -/
theorem readLimbs_eq_ok {file : List LimbReg} {i : RegNo} {v : Limbs} :
    readLimbs file i = .ok v ↔ file[i.toNat]? = some ⟨v, true⟩ := by
  unfold readLimbs
  split
  · rename_i reg h
    obtain ⟨l, m⟩ := reg
    cases m <;> simp [h]
  · rename_i h; simp [h]

/-- The only fault of reading a limb register is `E_UNINIT`. -/
theorem readLimbs_error {file : List LimbReg} {i : RegNo} {e : FaultCode} (h : readLimbs file i = .error e) :
    e = .uninit := by
  unfold readLimbs at h
  split at h
  · split at h <;> simp_all
  · simp_all

theorem readF_eq_ok {s : State} {i : RegNo} {v : Limbs} : readF s i = .ok v ↔ HoldsF s i v := readLimbs_eq_ok

theorem readW_eq_ok {s : State} {i : RegNo} {v : Limbs} : readW s i = .ok v ↔ HoldsW s i v := readLimbs_eq_ok

/-- A factor register is read exactly when it is of the file and marked written. -/
theorem readP_eq_ok {s : State} {i : RegNo} {q : FactorReg} :
    readP s i = .ok q ↔ s.P[i.toNat]? = some q ∧ q.written = true := by
  unfold readP
  split
  · rename_i reg h
    cases hw : reg.written <;> simp [h]
    · rintro rfl; simp [hw]
    · rintro rfl; exact hw
  · rename_i h; simp [h]

/-- A register that holds limbs is read. -/
@[simp] theorem readF_holds {s : State} {i : RegNo} {v : Limbs} (h : HoldsF s i v) : readF s i = .ok v :=
  readF_eq_ok.2 h

@[simp] theorem readW_holds {s : State} {i : RegNo} {v : Limbs} (h : HoldsW s i v) : readW s i = .ok v :=
  readW_eq_ok.2 h

@[simp] theorem readP_holds {s : State} {i : RegNo} {k q : Limbs} (h : HoldsP s i k q) :
    readP s i = .ok ⟨k, q, true⟩ := readP_eq_ok.2 ⟨h, rfl⟩

/-- An unwritten register raises `E_UNINIT`. -/
@[simp] theorem readF_unwritten {s : State} {i : RegNo} (h : UnwrittenF s i) : readF s i = .error .uninit := by
  obtain ⟨v, hv⟩ := h
  simp [readF, readLimbs, hv]

/-- A register written in range holds what was written. -/
theorem writeF_holds (s : State) (i : RegNo) (v : Limbs) (h : i.toNat < s.F.length) : HoldsF (writeF s i v) i v := by
  simp [HoldsF, h]

theorem writeW_holds (s : State) (i : RegNo) (v : Limbs) (h : i.toNat < s.Wd.length) : HoldsW (writeW s i v) i v := by
  simp [HoldsW, h]

theorem writeP_holds (s : State) (i : RegNo) (k q : Limbs) (h : i.toNat < s.P.length) :
    HoldsP (writeP s i k q) i k q := by
  simp [HoldsP, h]

/-- Writing one narrow register leaves every other alone. -/
theorem writeF_other (s : State) (i : RegNo) (v : Limbs) (j : Nat) (h : j ≠ i.toNat) :
    (writeF s i v).F[j]? = s.F[j]? := by
  simp [h.symm]

@[simp] theorem setConsecutive_length (file : List LimbReg) (first : Nat) (vs : List Limbs) :
    (setConsecutive file first vs).length = file.length := by
  induction vs generalizing file first with
  | nil => rfl
  | cons v vs ih => simp [setConsecutive, ih]

/-- Consecutive writes leave the registers outside their range alone. -/
theorem setConsecutive_outside (file : List LimbReg) (first : Nat) (vs : List Limbs) (j : Nat)
    (h : j < first ∨ first + vs.length ≤ j) : (setConsecutive file first vs)[j]? = file[j]? := by
  induction vs generalizing file first with
  | nil => rfl
  | cons v vs ih =>
    simp only [List.length_cons] at h
    rw [setConsecutive, ih _ _ (by omega), List.getElem?_set_ne (by omega)]

/-- Consecutive writes in range put each vector in its register, marked written. -/
theorem setConsecutive_inside (file : List LimbReg) (first : Nat) (vs : List Limbs) (i : Nat) (hi : i < vs.length)
    (h : first + vs.length ≤ file.length) : (setConsecutive file first vs)[first + i]? = some ⟨vs[i], true⟩ := by
  induction vs generalizing file first i with
  | nil => simp at hi
  | cons v vs ih =>
    simp only [List.length_cons] at h
    cases i with
    | zero =>
      rw [setConsecutive, setConsecutive_outside _ _ _ _ (by omega)]
      rw [Nat.add_zero, List.getElem?_set_self (by omega)]
      rfl
    | succ i =>
      rw [setConsecutive, show first + (i + 1) = first + 1 + i by omega,
        ih _ _ _ (by simpa using hi) (by simp; omega)]
      rfl

/-! ## Fault entry (60_exceptions.md R226) -/

/-- Fault entry of a single-operation command changes the fault registers, `PHASE` and `OUTVALID` alone. -/
theorem raiseFault_single (s : State) (e : FaultCode) (w : Word) (h : s.FAULT = none) :
    raiseFault .single e w s = faultedState s e w := by
  simp [raiseFault, h, faultEffects, faultedState]

/-- OUT after a faulting VERIFY is kept or empty. -/
theorem verifyFaultOut_cases (out : Memory) : verifyFaultOut out = out ∨ verifyFaultOut out = [] := by
  unfold verifyFaultOut
  split
  · exact .inl rfl
  · exact .inr rfl

/-- While `FAULT` is not 0 fault entry does nothing. -/
theorem raiseFault_sticky (kind : CommandKind) (s : State) (e : FaultCode) (w : Word) (h : s.FAULT ≠ none) :
    raiseFault kind e w s = s := by
  simp [raiseFault, Option.isSome_iff_ne_none, h]

/-- Fault entry writes the same fault registers for every kind of command. -/
theorem raiseFault_registers (kind : CommandKind) (s : State) (e : FaultCode) (w : Word) (h : s.FAULT = none) :
    (raiseFault kind e w s).FAULT = some e ∧ (raiseFault kind e w s).FINFO = w ∧
      (raiseFault kind e w s).PHASE = .faulted ∧ (raiseFault kind e w s).OUTVALID = false := by
  simp [raiseFault, h]

/-- Fault entry leaves the configuration, KEY, MSG, their lengths and the port alone. -/
theorem raiseFault_inputs (kind : CommandKind) (s : State) (e : FaultCode) (w : Word) :
    (raiseFault kind e w s).cfg = s.cfg ∧ (raiseFault kind e w s).KEY = s.KEY ∧
      (raiseFault kind e w s).KEYLEN = s.KEYLEN ∧ (raiseFault kind e w s).MSG = s.MSG ∧
      (raiseFault kind e w s).INLEN = s.INLEN ∧ (raiseFault kind e w s).port = s.port := by
  unfold raiseFault
  split
  · simp
  · cases kind <;> simp [faultEffects]

/-! ## The frame of every command -/

/-- Legal operands, in the form `issue` asks for them. -/
theorem wf_iff_check {c : Config} {i : Instr} : i.wf c = true ↔ i.check c = none := by
  simp [Instr.wf]

/-- Everything `issue` can do (60_exceptions.md R226, R230). -/
theorem issue_cases (i : Instr) (s : State) (body : Except FaultCode State) :
    (s.FAULT ≠ none ∧ issue i s body = .next s) ∨
    (s.FAULT = none ∧ i.wf s.cfg = false ∧ issue i s body = .next (faultedState s .illegal (encode i))) ∨
    (Ready i s ∧ ∃ t, body = .ok t ∧ issue i s body = .next t) ∨
    (Ready i s ∧ ∃ e, body = .error e ∧ issue i s body = .next (raiseFault (commandKind i) e (encode i) s)) := by
  by_cases hf : s.FAULT = none
  · cases hc : i.check s.cfg with
    | some e =>
      exact .inr (.inl ⟨hf, by simp [Instr.wf, hc], by simp [issue, hf, hc, raiseFault_single]⟩)
    | none =>
      have hr : Ready i s := ⟨hf, wf_iff_check.2 hc⟩
      cases hb : body with
      | ok t => exact .inr (.inr (.inl ⟨hr, t, rfl, by simp [issue, hf, hc]⟩))
      | error e => exact .inr (.inr (.inr ⟨hr, e, rfl, by simp [issue, hf, hc]⟩))
  · exact .inl ⟨hf, by simp [issue, Option.isSome_iff_ne_none, hf]⟩

/-- While `FAULT` is not 0 a command has no effect. -/
theorem issue_refused (i : Instr) (s : State) (body : Except FaultCode State) (h : s.FAULT ≠ none) :
    issue i s body = .next s := by
  simp [issue, Option.isSome_iff_ne_none, h]

/-- A command out of range is illegal. -/
theorem issue_illegal (i : Instr) (s : State) (body : Except FaultCode State) (h : s.FAULT = none)
    (hw : i.wf s.cfg = false) : issue i s body = .next (faultedState s .illegal (encode i)) := by
  rcases issue_cases i s body with h' | h' | h' | h'
  · exact absurd h h'.1
  · exact h'.2.2
  · simp [Ready, hw] at h'
  · simp [Ready, hw] at h'

/-- A ready command whose body answers a state has it as its next state. -/
theorem issue_ok {i : Instr} {s t : State} {body : Except FaultCode State} (h : Ready i s) (hb : body = .ok t) :
    issue i s body = .next t := by
  simp [issue, h.1, wf_iff_check.1 h.2, hb]

/-- A ready command whose body raises a fault enters it. -/
theorem issue_error {i : Instr} {s : State} {e : FaultCode} {body : Except FaultCode State} (h : Ready i s)
    (hb : body = .error e) : issue i s body = .next (raiseFault (commandKind i) e (encode i) s) := by
  simp [issue, h.1, wf_iff_check.1 h.2, hb]

/-- A ready single-operation command whose body raises a fault changes the fault state alone. -/
theorem issue_error_single {i : Instr} {s : State} {e : FaultCode} {body : Except FaultCode State} (h : Ready i s)
    (hk : commandKind i = .single) (hb : body = .error e) :
    issue i s body = .next (faultedState s e (encode i)) := by
  rw [issue_error h hb, hk, raiseFault_single _ _ _ h.1]

/-- `issue` always answers a next state. -/
theorem issue_next (i : Instr) (s : State) (body : Except FaultCode State) : ∃ t, issue i s body = .next t := by
  rcases issue_cases i s body with h | h | ⟨-, t, -, h⟩ | ⟨-, e, -, h⟩
  · exact ⟨_, h.2⟩
  · exact ⟨_, h.2.2⟩
  · exact ⟨_, h⟩
  · exact ⟨_, h⟩

/-- `exec` always answers a next state: no command stops the machine. -/
theorem exec_next (i : Instr) (s : State) : ∃ t, exec i s = .next t := by
  cases i <;>
    simp only [exec, execAdd, execAddw, execMul, execSqr, execPrecomp, execMulp, execCarry, execReduce, execZero,
      execZerow, execUnpack, execEncb, execEncl, execPack, execMrst, execDkey, execDpow, execDpow2, execHash,
      execVerify] <;>
    exact issue_next _ _ _

/-! ## The monad of the bodies -/

/-- A check passes or raises its fault. -/
@[simp] theorem require_true (e : FaultCode) : require true e = .ok () := rfl
@[simp] theorem require_false (e : FaultCode) : require false e = .error e := rfl

/-- Peel one step off a body. -/
theorem bind_eq_ok {α β : Type} {x : Except FaultCode α} {f : α → Except FaultCode β} {b : β} :
    (x >>= f) = .ok b ↔ ∃ a, x = .ok a ∧ f a = .ok b := by
  cases x with
  | error e => exact ⟨fun h => (nomatch h), fun ⟨_, h, _⟩ => (nomatch h)⟩
  | ok a => exact ⟨fun h => ⟨a, rfl, h⟩, fun ⟨_, h, h'⟩ => by cases h; exact h'⟩

/-- A body raises its fault in its first step or in what follows. -/
theorem bind_eq_error {α β : Type} {x : Except FaultCode α} {f : α → Except FaultCode β} {e : FaultCode} :
    (x >>= f) = .error e ↔ x = .error e ∨ ∃ a, x = .ok a ∧ f a = .error e := by
  cases x with
  | error e' =>
    constructor
    · intro h; cases h; exact .inl rfl
    · rintro (h | ⟨_, h, -⟩)
      · cases h; rfl
      · cases h
  | ok a =>
    constructor
    · intro h; exact .inr ⟨a, rfl, h⟩
    · rintro (h | ⟨_, h, h'⟩)
      · cases h
      · cases h; exact h'

@[simp] theorem ok_bind {α β : Type} (a : α) (f : α → Except FaultCode β) : (Except.ok a >>= f) = f a := rfl
@[simp] theorem error_bind {α β : Type} (e : FaultCode) (f : α → Except FaultCode β) :
    (Except.error e >>= f) = .error e := rfl
@[simp] theorem pure_eq_ok {α : Type} (a : α) : (pure a : Except FaultCode α) = .ok a := rfl

/-- A storage check passes exactly when every limb fits, and then answers the vector (00_scope.md R16). -/
theorem mustFit_eq_ok {width : Nat} {x y : Limbs} : mustFit width x = .ok y ↔ fits width x = true ∧ y = x := by
  cases h : fits width x <;> simp [mustFit, h, eq_comm]

/-- A storage check fails with `E_OVERFLOW` alone. -/
theorem mustFit_eq_error {width : Nat} {x : Limbs} {e : FaultCode} :
    mustFit width x = .error e ↔ fits width x = false ∧ e = .overflow := by
  cases h : fits width x <;> simp [mustFit, h, eq_comm]

/-- A check passes exactly when its condition holds. -/
theorem require_eq_ok {ok : Bool} {e : FaultCode} {u : Unit} : require ok e = .ok u ↔ ok = true := by
  cases ok <;> simp

theorem require_eq_error {ok : Bool} {e e' : FaultCode} : require ok e = .error e' ↔ ok = false ∧ e' = e := by
  cases ok <;> simp [eq_comm]

end Sys2Proof.Machine
end

