-- ==== Sys2Proof/Laws/Exec.lean ====
section
/-! SUPPORT. Everything a command can do, said once: every command is `issue` of its body (`exec_eq_issue`), and each
body, when it raises no fault, writes what `body_<command>` says. -/

namespace Sys2Proof.Machine

/-- The body of each command: what it does once it is neither refused nor illegal. -/
def body (s : State) : Instr → Except FaultCode State
  | .add fd fa fb => do
    let a ← readF s fa
    let b ← readF s fb
    let v ← addLimbs s.cfg a b
    return writeF s fd v
  | .addw wd wa wb => do
    let a ← readW s wa
    let b ← readW s wb
    let v ← addwLimbs s.cfg a b
    return writeW s wd v
  | .mul wd fa fb => do
    let a ← readF s fa
    let b ← readF s fb
    let w ← mulLimbs s.cfg a b
    return writeW s wd w
  | .sqr wd fa => do
    let a ← readF s fa
    let w ← sqrLimbs s.cfg a
    return writeW s wd w
  | .precomp pd fa => do
    let a ← readF s fa
    let t ← mustFit s.cfg.W (scaledLimbs s.cfg a)
    return writeP s pd a t
  | .mulp wd fa pb => do
    let a ← readF s fa
    let q ← readP s pb
    let w ← mulWithFactor s.cfg a q.k q.s
    return writeW s wd w
  | .carry fd wa => do
    let w ← readW s wa
    let y ← carryLimbs s.cfg w
    return writeF s fd y
  | .reduce fd fa => do
    let a ← readF s fa
    return writeF s fd (reduceLimbs s.cfg a)
  | .zero fd => .ok (writeF s fd s.cfg.zeros)
  | .zerow wd => .ok (writeW s wd s.cfg.zeros)
  | .unpack fd idx => do
    let bytes ← readKeySlot s idx.toNat
    return writeF s fd (splitInt s.cfg (leNat bytes))
  | .encb fd => do
    require (decide (s.cfg.BLOCKSIZE ≤ remaining s)) .range
    let m ← encodeFullAt s s.MPTR.toNat
    return { writeF s fd m with MPTR := BitVec.ofNat 64 (s.MPTR.toNat + s.cfg.BLOCKSIZE) }
  | .encl fd => do
    require (decide (remaining s ≤ s.cfg.BLOCKSIZE)) .range
    let m ← encodeLastAt s s.MPTR.toNat
    return { writeF s fd m with MPTR := s.INLEN }
  | .pack fa idx => do
    let a ← readF s fa
    require (s.cfg.tight a) .notTight
    return writeOutSlot s idx.toNat (s.cfg.TF.apply (packBytes s.cfg a s.cfg.SUBTAGSIZE))
  | .mrst => .ok { s with MPTR := 0 }
  | .dkey fd idx => do
    let k ← deriveKey s idx.toNat
    return writeF s fd k
  | .dpow fd fa n => do
    let k ← readF s fa
    let ks ← powers s.cfg k n.toNat
    return writeFs s fd ks
  | .dpow2 fd fa n => do
    let k ← readF s fa
    let qs ← squares s.cfg k n.toNat
    return writeFs s fd qs
  | .hash => do
    let tag ← tagBytes s
    return { reachDone s with OUT := Memory.writeRun s.OUT 0 tag, OUTVALID := true, VOK := false }
  | .verify => do
    requireKeylen s
    let cand ← readBytes s.OUT 0 s.cfg.OUTPUTSIZE
    let tag ← tagBytes s
    return { reachDone s with VOK := sameBytes cand tag, OUTVALID := false }

/-- Every command runs its body in the one frame of R226 and R230. -/
theorem exec_eq_issue (i : Instr) (s : State) : exec i s = issue i s (body s i) := by cases i <;> rfl

/-- Everything `exec` can do. -/
theorem exec_cases (i : Instr) (s : State) :
    (s.FAULT ≠ none ∧ exec i s = .next s) ∨
    (s.FAULT = none ∧ i.wf s.cfg = false ∧ exec i s = .next (faultedState s .illegal (encode i))) ∨
    (Ready i s ∧ ∃ t, body s i = .ok t ∧ exec i s = .next t) ∨
    (Ready i s ∧ ∃ e, body s i = .error e ∧ exec i s = .next (raiseFault (commandKind i) e (encode i) s)) := by
  rw [exec_eq_issue]; exact issue_cases i s (body s i)

/-- A ready command whose body answers a state has it as its next state. -/
theorem exec_ok {i : Instr} {s t : State} (h : Ready i s) (hb : body s i = .ok t) : exec i s = .next t := by
  rw [exec_eq_issue]; exact issue_ok h hb

/-- A ready command whose body raises a fault enters it. -/
theorem exec_error {i : Instr} {s : State} {e : FaultCode} (h : Ready i s) (hb : body s i = .error e) :
    exec i s = .next (raiseFault (commandKind i) e (encode i) s) := by
  rw [exec_eq_issue]; exact issue_error h hb

/-- A ready single-operation command whose body raises a fault changes the fault state alone. -/
theorem exec_error_single {i : Instr} {s : State} {e : FaultCode} (h : Ready i s) (hk : commandKind i = .single)
    (hb : body s i = .error e) : exec i s = .next (faultedState s e (encode i)) := by
  rw [exec_eq_issue]; exact issue_error_single h hk hb

/-- The bodies that write one narrow register: what they write, and MPTR. -/
theorem body_narrow {s t : State} {i : Instr} (h : body s i = .ok t) :
    (∀ fd fa fb, i = .add fd fa fb → ∃ a b, HoldsF s fa a ∧ HoldsF s fb b ∧ fits s.cfg.W (sumLimbs a b) = true ∧
      t = writeF s fd (sumLimbs a b)) ∧
    (∀ fd wa, i = .carry fd wa → ∃ w y, HoldsW s wa w ∧ carryLimbs s.cfg w = .ok y ∧ t = writeF s fd y) ∧
    (∀ fd fa, i = .reduce fd fa → ∃ a, HoldsF s fa a ∧ t = writeF s fd (reduceLimbs s.cfg a)) ∧
    (∀ fd, i = .zero fd → t = writeF s fd s.cfg.zeros) := by
  refine ⟨?_, ?_, ?_, ?_⟩
  · rintro fd fa fb rfl
    obtain ⟨a, ha, h⟩ := bind_eq_ok.1 h
    obtain ⟨b, hb, h⟩ := bind_eq_ok.1 h
    obtain ⟨v, hv, h⟩ := bind_eq_ok.1 h
    obtain ⟨hf, rfl⟩ := mustFit_eq_ok.1 hv
    cases h
    exact ⟨a, b, readF_eq_ok.1 ha, readF_eq_ok.1 hb, hf, rfl⟩
  · rintro fd wa rfl
    obtain ⟨w, hw, h⟩ := bind_eq_ok.1 h
    obtain ⟨y, hy, h⟩ := bind_eq_ok.1 h
    cases h
    exact ⟨w, y, readW_eq_ok.1 hw, hy, rfl⟩
  · rintro fd fa rfl
    obtain ⟨a, ha, h⟩ := bind_eq_ok.1 h
    cases h
    exact ⟨a, readF_eq_ok.1 ha, rfl⟩
  · rintro fd rfl
    cases h
    rfl

/-- The bodies that write one wide or factor register. -/
theorem body_wide {s t : State} {i : Instr} (h : body s i = .ok t) :
    (∀ wd wa wb, i = .addw wd wa wb → ∃ a b, HoldsW s wa a ∧ HoldsW s wb b ∧
      fits (2 * s.cfg.W) (sumLimbs a b) = true ∧ t = writeW s wd (sumLimbs a b)) ∧
    (∀ wd fa fb, i = .mul wd fa fb → ∃ a b w, HoldsF s fa a ∧ HoldsF s fb b ∧ mulLimbs s.cfg a b = .ok w ∧
      t = writeW s wd w) ∧
    (∀ wd fa, i = .sqr wd fa → ∃ a w, HoldsF s fa a ∧ mulLimbs s.cfg a a = .ok w ∧ t = writeW s wd w) ∧
    (∀ pd fa, i = .precomp pd fa → ∃ a, HoldsF s fa a ∧ fits s.cfg.W (scaledLimbs s.cfg a) = true ∧
      t = writeP s pd a (scaledLimbs s.cfg a)) ∧
    (∀ wd fa pb, i = .mulp wd fa pb → ∃ a k q, HoldsF s fa a ∧ HoldsP s pb k q ∧
      fits (2 * s.cfg.W) (mulcore s.cfg.N a k q) = true ∧ t = writeW s wd (mulcore s.cfg.N a k q)) ∧
    (∀ wd, i = .zerow wd → t = writeW s wd s.cfg.zeros) := by
  refine ⟨?_, ?_, ?_, ?_, ?_, ?_⟩
  · rintro wd wa wb rfl
    obtain ⟨a, ha, h⟩ := bind_eq_ok.1 h
    obtain ⟨b, hb, h⟩ := bind_eq_ok.1 h
    obtain ⟨v, hv, h⟩ := bind_eq_ok.1 h
    obtain ⟨hf, rfl⟩ := mustFit_eq_ok.1 hv
    cases h
    exact ⟨a, b, readW_eq_ok.1 ha, readW_eq_ok.1 hb, hf, rfl⟩
  · rintro wd fa fb rfl
    obtain ⟨a, ha, h⟩ := bind_eq_ok.1 h
    obtain ⟨b, hb, h⟩ := bind_eq_ok.1 h
    obtain ⟨w, hw, h⟩ := bind_eq_ok.1 h
    cases h
    exact ⟨a, b, w, readF_eq_ok.1 ha, readF_eq_ok.1 hb, hw, rfl⟩
  · rintro wd fa rfl
    obtain ⟨a, ha, h⟩ := bind_eq_ok.1 h
    obtain ⟨w, hw, h⟩ := bind_eq_ok.1 h
    cases h
    exact ⟨a, w, readF_eq_ok.1 ha, hw, rfl⟩
  · rintro pd fa rfl
    obtain ⟨a, ha, h⟩ := bind_eq_ok.1 h
    obtain ⟨v, hv, h⟩ := bind_eq_ok.1 h
    obtain ⟨hf, rfl⟩ := mustFit_eq_ok.1 hv
    cases h
    exact ⟨a, readF_eq_ok.1 ha, hf, rfl⟩
  · rintro wd fa pb rfl
    obtain ⟨a, ha, h⟩ := bind_eq_ok.1 h
    obtain ⟨q, hq, h⟩ := bind_eq_ok.1 h
    obtain ⟨v, hv, h⟩ := bind_eq_ok.1 h
    obtain ⟨hf, rfl⟩ := mustFit_eq_ok.1 hv
    obtain ⟨hq1, hq2⟩ := readP_eq_ok.1 hq
    obtain ⟨k, q, m⟩ := q
    cases h
    simp only at hq2
    subst hq2
    exact ⟨a, k, q, readF_eq_ok.1 ha, hq1, hf, rfl⟩
  · rintro wd rfl
    cases h
    rfl

/-- The bodies that read a byte space or write OUT, and MRST. -/
theorem body_data {s t : State} {i : Instr} (h : body s i = .ok t) :
    (∀ fd idx, i = .unpack fd idx → ∃ bytes, readKeySlot s idx.toNat = .ok bytes ∧
      t = writeF s fd (splitInt s.cfg (leNat bytes))) ∧
    (∀ fd, i = .encb fd → ∃ m, s.cfg.BLOCKSIZE ≤ remaining s ∧ encodeFullAt s s.MPTR.toNat = .ok m ∧
      t = { writeF s fd m with MPTR := BitVec.ofNat 64 (s.MPTR.toNat + s.cfg.BLOCKSIZE) }) ∧
    (∀ fd, i = .encl fd → ∃ m, remaining s ≤ s.cfg.BLOCKSIZE ∧ encodeLastAt s s.MPTR.toNat = .ok m ∧
      t = { writeF s fd m with MPTR := s.INLEN }) ∧
    (∀ fa idx, i = .pack fa idx → ∃ a, HoldsF s fa a ∧ s.cfg.tight a = true ∧
      t = writeOutSlot s idx.toNat (s.cfg.TF.apply (packBytes s.cfg a s.cfg.SUBTAGSIZE))) ∧
    (i = .mrst → t = { s with MPTR := 0 }) := by
  refine ⟨?_, ?_, ?_, ?_, ?_⟩
  · rintro fd idx rfl
    obtain ⟨a, ha, h⟩ := bind_eq_ok.1 h
    cases h
    exact ⟨a, ha, rfl⟩
  · rintro fd rfl
    obtain ⟨u, hu, h⟩ := bind_eq_ok.1 h
    obtain ⟨m, hm, h⟩ := bind_eq_ok.1 h
    cases h
    exact ⟨m, by simpa using require_eq_ok.1 hu, hm, rfl⟩
  · rintro fd rfl
    obtain ⟨u, hu, h⟩ := bind_eq_ok.1 h
    obtain ⟨m, hm, h⟩ := bind_eq_ok.1 h
    cases h
    exact ⟨m, by simpa using require_eq_ok.1 hu, hm, rfl⟩
  · rintro fa idx rfl
    obtain ⟨a, ha, h⟩ := bind_eq_ok.1 h
    obtain ⟨u, hu, h⟩ := bind_eq_ok.1 h
    cases h
    exact ⟨a, readF_eq_ok.1 ha, require_eq_ok.1 hu, rfl⟩
  · rintro rfl
    cases h
    rfl

/-- The bodies of the key derivation commands. -/
theorem body_key {s t : State} {i : Instr} (h : body s i = .ok t) :
    (∀ fd idx, i = .dkey fd idx → ∃ raw, readKeySlot s idx.toNat = .ok raw ∧
      t = writeF s fd (evalPoint s.cfg raw)) ∧
    (∀ fd fa n, i = .dpow fd fa n → ∃ k ks, HoldsF s fa k ∧ powers s.cfg k n.toNat = .ok ks ∧
      t = writeFs s fd ks) ∧
    (∀ fd fa n, i = .dpow2 fd fa n → ∃ k ks, HoldsF s fa k ∧ squares s.cfg k n.toNat = .ok ks ∧
      t = writeFs s fd ks) := by
  refine ⟨?_, ?_, ?_⟩
  · rintro fd idx rfl
    obtain ⟨k, hk, h⟩ := bind_eq_ok.1 h
    obtain ⟨raw, hr, hk⟩ := bind_eq_ok.1 hk
    cases hk
    cases h
    exact ⟨raw, hr, rfl⟩
  · rintro fd fa n rfl
    obtain ⟨k, hk, h⟩ := bind_eq_ok.1 h
    obtain ⟨ks, hks, h⟩ := bind_eq_ok.1 h
    cases h
    exact ⟨k, ks, readF_eq_ok.1 hk, hks, rfl⟩
  · rintro fd fa n rfl
    obtain ⟨k, hk, h⟩ := bind_eq_ok.1 h
    obtain ⟨ks, hks, h⟩ := bind_eq_ok.1 h
    cases h
    exact ⟨k, ks, readF_eq_ok.1 hk, hks, rfl⟩

/-- The bodies of HASH and VERIFY. -/
theorem body_engine {s t : State} {i : Instr} (h : body s i = .ok t) :
    (i = .hash → ∃ tag, tagBytes s = .ok tag ∧
      t = { reachDone s with OUT := Memory.writeRun s.OUT 0 tag, OUTVALID := true, VOK := false }) ∧
    (i = .verify → ∃ cand tag, s.KEYLEN.toNat = s.cfg.KEYSIZE ∧
      Memory.readRun s.OUT 0 s.cfg.OUTPUTSIZE = some cand ∧ tagBytes s = .ok tag ∧
      t = { reachDone s with VOK := sameBytes cand tag, OUTVALID := false }) := by
  refine ⟨?_, ?_⟩
  · rintro rfl
    obtain ⟨tag, ht, h⟩ := bind_eq_ok.1 h
    cases h
    exact ⟨tag, ht, rfl⟩
  · rintro rfl
    obtain ⟨u, hu, h⟩ := bind_eq_ok.1 h
    obtain ⟨cand, hc, h⟩ := bind_eq_ok.1 h
    obtain ⟨tag, ht, h⟩ := bind_eq_ok.1 h
    cases h
    exact ⟨cand, tag, by simpa [requireKeylen] using require_eq_ok.1 hu, readBytes_eq_ok.1 hc, ht, rfl⟩

/-- What every body leaves alone, whatever the command. -/
theorem body_inputs {s t : State} {i : Instr} (h : body s i = .ok t) :
    t.cfg = s.cfg ∧ t.KEY = s.KEY ∧ t.KEYLEN = s.KEYLEN ∧ t.MSG = s.MSG ∧ t.INLEN = s.INLEN ∧ t.port = s.port ∧
      t.FAULT = s.FAULT ∧ t.FINFO = s.FINFO := by
  cases i with
  | add fd fa fb => obtain ⟨a, b, -, -, -, rfl⟩ := (body_narrow h).1 _ _ _ rfl; simp
  | addw wd wa wb => obtain ⟨a, b, -, -, -, rfl⟩ := (body_wide h).1 _ _ _ rfl; simp
  | mul wd fa fb => obtain ⟨a, b, w, -, -, -, rfl⟩ := (body_wide h).2.1 _ _ _ rfl; simp
  | sqr wd fa => obtain ⟨a, w, -, -, rfl⟩ := (body_wide h).2.2.1 _ _ rfl; simp
  | precomp pd fa => obtain ⟨a, -, -, rfl⟩ := (body_wide h).2.2.2.1 _ _ rfl; simp
  | mulp wd fa pb => obtain ⟨a, k, q, -, -, -, rfl⟩ := (body_wide h).2.2.2.2.1 _ _ _ rfl; simp
  | carry fd wa => obtain ⟨w, y, -, -, rfl⟩ := (body_narrow h).2.1 _ _ rfl; simp
  | reduce fd fa => obtain ⟨a, -, rfl⟩ := (body_narrow h).2.2.1 _ _ rfl; simp
  | zero fd => obtain rfl := (body_narrow h).2.2.2 _ rfl; simp
  | zerow wd => obtain rfl := (body_wide h).2.2.2.2.2 _ rfl; simp
  | unpack fd idx => obtain ⟨b, -, rfl⟩ := (body_data h).1 _ _ rfl; simp
  | encb fd => obtain ⟨m, -, -, rfl⟩ := (body_data h).2.1 _ rfl; simp
  | encl fd => obtain ⟨m, -, -, rfl⟩ := (body_data h).2.2.1 _ rfl; simp
  | pack fa idx => obtain ⟨a, -, -, rfl⟩ := (body_data h).2.2.2.1 _ _ rfl; simp [writeOutSlot]
  | mrst => obtain rfl := (body_data h).2.2.2.2 rfl; simp
  | dkey fd idx => obtain ⟨b, -, rfl⟩ := (body_key h).1 _ _ rfl; simp
  | dpow fd fa n => obtain ⟨k, ks, -, -, rfl⟩ := (body_key h).2.1 _ _ _ rfl; simp
  | dpow2 fd fa n => obtain ⟨k, ks, -, -, rfl⟩ := (body_key h).2.2 _ _ _ rfl; simp
  | hash => obtain ⟨tag, -, rfl⟩ := (body_engine h).1 rfl; simp [reachDone]
  | verify => obtain ⟨c, tag, -, -, -, rfl⟩ := (body_engine h).2 rfl; simp [reachDone]

end Sys2Proof.Machine
end

