-- ==== Sys2Proof/Laws/Geometry.lean ====
section
/-! SUPPORT. The arithmetic of limb vectors (00_scope.md R8, R15): the value of sums, tight vectors and their value,
that a tight vector is determined by its value, `split`, the carry pass (40_field_arith.md R100), little-endian
bytes; and what a well-formed configuration gives (R9). -/

namespace Sys2Proof.Machine

/-! ## What well-formedness gives (R9) -/

/-- The facts of a well-formed configuration, by name. -/
structure WfFacts (c : Config) : Prop where
  deltaPos : 1 ≤ c.DELTA
  deltaLt : c.DELTA < 2 ^ c.PBITS
  twoLimbs : 2 ≤ c.N
  bits : c.PBITS ≤ c.N * c.r
  excess : c.e < c.r
  radix : c.r < c.W
  scale : c.fold * (2 ^ c.r - 1) < 2 ^ c.W
  carryBound : c.DELTA * (c.c1max + 1) < 2 ^ c.b 0
  blockPos : 1 ≤ c.BLOCKSIZE
  blockBits : 8 * c.BLOCKSIZE + 1 < c.PBITS
  blockTop : 8 * c.BLOCKSIZE + 1 ≤ c.W + c.r * (c.N - 1)
  keyBits : 8 * c.SUBKEYSIZE < c.PBITS
  keySize : c.KEYSIZE = c.NTAGS * c.SUBKEYSIZE
  outSize : c.OUTPUTSIZE = c.NTAGS * c.SUBTAGSIZE
  tagsPos : 1 ≤ c.NTAGS
  maskLt : c.clampMask < 2 ^ (8 * c.SUBKEYSIZE)
  geometry : (c.PBITS = 130 ∧ c.DELTA = 5 ∧ c.r = 26 ∧ c.N = 5 ∧ c.W = 32) ∨
    (c.PBITS = 130 ∧ c.DELTA = 5 ∧ c.r = 44 ∧ c.N = 3 ∧ c.W = 64)
  strategy : c.STRATEGY.supported = true

/-- A well-formed configuration has all the facts of R9. -/
theorem wfFacts {c : Config} (h : c.wf = true) : WfFacts c := by
  simp only [Config.wf, Config.wfField, Config.wfStorage, Config.wfSizes, Config.wfEngine, Config.budgetedGeometry,
    Bool.and_eq_true, Bool.or_eq_true, decide_eq_true_eq, beq_iff_eq, Prod.mk.injEq] at h
  obtain ⟨⟨⟨⟨h1, h2, h3, h4, h5⟩, h6, h7, h8⟩, h9, h10, h11, h12, h13, h14, h15, h16⟩, ⟨⟨⟨h17, h18⟩, -⟩, -⟩, -⟩ := h
  exact ⟨h1, h2, h3, h4, h5, h6, h7, h8, h9, h10, h11, h12, h13, h14, h15, h16, h17, h18⟩

/-- The two named instances are well formed (R9). -/
theorem r26_wf : Config.r26.wf = true := by decide
theorem r44_wf : Config.r44.wf = true := by decide

/-! ## Value -/

@[simp] theorem val_nil (c : Config) : c.val [] = 0 := rfl
@[simp] theorem val_cons (c : Config) (x : Nat) (xs : Limbs) : c.val (x :: xs) = x + 2 ^ c.r * c.val xs := rfl

theorem val_replicate_zero (c : Config) (n : Nat) : c.val (List.replicate n 0) = 0 := by
  induction n with
  | zero => rfl
  | succ n ih => simp [List.replicate_succ, ih]

@[simp] theorem val_zeros (c : Config) : c.val c.zeros = 0 := val_replicate_zero c c.N

@[simp] theorem sumLimbs_length (a b : Limbs) : (sumLimbs a b).length = min a.length b.length := by
  simp [sumLimbs]

/-- `val(ADD(a, b)) = val(a) + val(b)` exactly (40_field_arith.md R92, R93). -/
theorem val_sumLimbs (c : Config) (a b : Limbs) (h : a.length = b.length) :
    c.val (sumLimbs a b) = c.val a + c.val b := by
  induction a generalizing b with
  | nil => cases b <;> simp_all [sumLimbs]
  | cons x xs ih =>
    cases b with
    | nil => simp at h
    | cons y ys =>
      have := ih ys (by simpa using h)
      simp only [sumLimbs] at this
      simp only [sumLimbs, List.zipWith_cons_cons, val_cons, this]
      ring

/-! ## Storage and tightness -/

/-- The storage check on a vector, limb by limb (R16). -/
theorem fits_iff {width : Nat} {x : Limbs} : fits width x = true ↔ ∀ l ∈ x, l < 2 ^ width := by
  simp [fits]

/-- The limb at an index of a vector that fits. -/
theorem fits_getD {width : Nat} {x : Limbs} (h : fits width x = true) (i : Nat) : x.getD i 0 < 2 ^ width := by
  rw [List.getD_eq_getElem?_getD]
  cases hx : x[i]? with
  | none => simp
  | some l => exact fits_iff.1 h l (List.mem_of_getElem? hx)

/-- A vector below its widths has as many limbs. -/
theorem below_length {bs : List Nat} {xs : Limbs} (h : below bs xs = true) : xs.length = bs.length := by
  induction bs generalizing xs with
  | nil => cases xs <;> simp_all [below]
  | cons b bs ih =>
    cases xs with
    | nil => simp [below] at h
    | cons x xs => simp only [below, Bool.and_eq_true] at h; simp [ih h.2]

/-- A vector below widths that are at most `W` fits W. -/
theorem below_fits {bs : List Nat} {xs : Limbs} {W : Nat} (h : below bs xs = true) (hb : ∀ b ∈ bs, b ≤ W) :
    fits W xs = true := by
  induction bs generalizing xs with
  | nil => cases xs <;> simp_all [below, fits]
  | cons b bs ih =>
    cases xs with
    | nil => simp [below] at h
    | cons x xs =>
      simp only [below, Bool.and_eq_true, decide_eq_true_eq] at h
      have h1 : x < 2 ^ W := lt_of_lt_of_le h.1 (Nat.pow_le_pow_right (by norm_num) (hb b (by simp)))
      have h2 := ih h.2 (fun b' hb' => hb b' (by simp [hb']))
      simp only [fits_iff] at h2 ⊢
      intro l hl
      rcases List.mem_cons.1 hl with rfl | hl
      · exact h1
      · exact h2 l hl

/-- The value of a vector below `m` widths `r` and a top width `t`. -/
theorem val_lt_of_below (c : Config) (m t : Nat) (xs : Limbs)
    (h : below (List.replicate m c.r ++ [t]) xs = true) : c.val xs < 2 ^ (c.r * m + t) := by
  induction m generalizing xs with
  | zero =>
    match xs with
    | [x] => simpa [below] using h
    | [] => simp [below] at h
    | _ :: _ :: _ => simp [below] at h
  | succ m ih =>
    cases xs with
    | nil => simp [List.replicate_succ, below] at h
    | cons x xs =>
      simp only [List.replicate_succ, List.cons_append, below, Bool.and_eq_true, decide_eq_true_eq] at h
      have h2 := ih xs h.2
      have : 2 ^ (c.r * (m + 1) + t) = 2 ^ c.r * 2 ^ (c.r * m + t) := by rw [← pow_add]; congr 1; ring
      rw [val_cons, this]
      nlinarith [h.1, Nat.one_le_two_pow (n := c.r)]

/-- A vector below its widths is determined by its value. -/
theorem below_unique (c : Config) (m t : Nat) (xs ys : Limbs)
    (hx : below (List.replicate m c.r ++ [t]) xs = true) (hy : below (List.replicate m c.r ++ [t]) ys = true)
    (h : c.val xs = c.val ys) : xs = ys := by
  induction m generalizing xs ys with
  | zero =>
    match xs, ys with
    | [x], [y] => simpa using h
    | [], _ => simp [below] at hx
    | _ :: _ :: _, _ => simp [below] at hx
    | [_], [] => simp [below] at hy
    | [_], _ :: _ :: _ => simp [below] at hy
  | succ m ih =>
    match xs, ys with
    | [], _ => simp [List.replicate_succ, below] at hx
    | _ :: _, [] => simp [List.replicate_succ, below] at hy
    | x :: xs, y :: ys =>
      simp only [List.replicate_succ, List.cons_append, below, Bool.and_eq_true, decide_eq_true_eq] at hx hy
      simp only [val_cons] at h
      have hxy : x = y := by
        have := congrArg (· % 2 ^ c.r) h
        simpa [Nat.add_mul_mod_self_left, Nat.mod_eq_of_lt hx.1, Nat.mod_eq_of_lt hy.1] using this
      subst hxy
      have : c.val xs = c.val ys := by
        have hp : 0 < 2 ^ c.r := by positivity
        exact Nat.eq_of_mul_eq_mul_left hp (by omega)
      rw [ih xs ys hx.2 hy.2 this]

/-- The top of the widths: `r*(N-1) + b[N-1] = PBITS` (R8). -/
theorem widths_bits {c : Config} (h : WfFacts c) : c.r * (c.N - 1) + (c.r - c.e) = c.PBITS := by
  have hN : c.N = c.N - 1 + 1 := by have := h.twoLimbs; omega
  have h1 : c.N * c.r = c.r * (c.N - 1) + c.r := by
    conv_lhs => rw [hN]
    ring
  have h2 := h.bits
  have h3 := h.excess
  simp only [Config.e] at *
  omega

/-- Every width is at most `r`. -/
theorem widths_le (c : Config) : ∀ b ∈ c.widths, b ≤ c.r := by
  intro b hb
  simp only [Config.widths, List.mem_append, List.mem_replicate, List.mem_singleton] at hb
  omega

/-- There are N widths. -/
theorem widths_length {c : Config} (h : WfFacts c) : c.widths.length = c.N := by
  have := h.twoLimbs
  simp [Config.widths]; omega

/-- A tight vector has N limbs. -/
theorem tight_length {c : Config} (h : WfFacts c) {x : Limbs} (hx : c.tight x = true) : x.length = c.N := by
  rw [below_length hx, widths_length h]

/-- A tight vector is below `2^PBITS` (R15). -/
theorem tight_val_lt {c : Config} (h : WfFacts c) {x : Limbs} (hx : c.tight x = true) : c.val x < 2 ^ c.PBITS := by
  have := val_lt_of_below c (c.N - 1) (c.r - c.e) x hx
  rwa [widths_bits h] at this

/-- A tight vector is a stored narrow vector. -/
theorem tight_narrow {c : Config} (h : WfFacts c) {x : Limbs} (hx : c.tight x = true) : c.narrow x = true := by
  simp only [Config.narrow, Bool.and_eq_true, decide_eq_true_eq]
  exact ⟨tight_length h hx, below_fits hx (fun b hb => (widths_le c b hb).trans h.radix.le)⟩

/-- A tight vector is determined by its value (R15). -/
theorem tight_unique {c : Config} {x y : Limbs} (hx : c.tight x = true) (hy : c.tight y = true)
    (hv : c.val x = c.val y) : x = y := below_unique c _ _ x y hx hy hv

/-! ## The carry pass (40_field_arith.md R100) -/

/-- The pass keeps the value: `val(x) + cin = val(y) + c * 2^bits`, and `y` is below the widths. -/
theorem carryPass_spec (c : Config) (m t : Nat) (xs : Limbs) (cin : Nat) (hl : xs.length = m + 1) :
    below (List.replicate m c.r ++ [t]) (carryPass (List.replicate m c.r ++ [t]) xs cin).y = true ∧
    c.val xs + cin = c.val (carryPass (List.replicate m c.r ++ [t]) xs cin).y +
      (carryPass (List.replicate m c.r ++ [t]) xs cin).carry * 2 ^ (c.r * m + t) := by
  induction m generalizing xs cin with
  | zero =>
    match xs, hl with
    | [x], _ =>
      simp [carryPass, below, Nat.mod_lt]
      rw [Nat.mul_comm]
      exact (Nat.mod_add_div _ _).symm
  | succ m ih =>
    match xs, hl with
    | x :: xs, hl =>
      obtain ⟨h1, h2⟩ := ih xs ((x + cin) / 2 ^ c.r) (by simpa using hl)
      simp only [List.replicate_succ, List.cons_append, carryPass, below, val_cons, Bool.and_eq_true, decide_eq_true_eq]
      refine ⟨⟨Nat.mod_lt _ (by positivity), h1⟩, ?_⟩
      have h3 := Nat.mod_add_div (x + cin) (2 ^ c.r)
      have : 2 ^ (c.r * (m + 1) + t) = 2 ^ c.r * 2 ^ (c.r * m + t) := by rw [← pow_add]; congr 1; ring
      rw [this]
      generalize carryPass (List.replicate m c.r ++ [t]) xs ((x + cin) / 2 ^ c.r) = out at *
      calc x + 2 ^ c.r * c.val xs + cin
          = (x + cin) % 2 ^ c.r + 2 ^ c.r * (c.val xs + (x + cin) / 2 ^ c.r) := by rw [Nat.mul_add]; omega
        _ = _ := by rw [h2]; ring

/-- `y` is tight and `val(x) = val(y) + c * 2^PBITS` (R100). -/
theorem pass_spec {c : Config} (h : WfFacts c) {x : Limbs} (hl : x.length = c.N) :
    c.tight (c.pass x).y = true ∧ c.val x = c.val (c.pass x).y + (c.pass x).carry * 2 ^ c.PBITS := by
  have h2 := h.twoLimbs
  have := carryPass_spec c (c.N - 1) (c.r - c.e) x 0 (by omega)
  rw [widths_bits h] at this
  exact this

/-- The carry of the pass is `val(x) div 2^PBITS`, the limbs are `val(x) mod 2^PBITS` (R100). -/
theorem pass_divmod {c : Config} (h : WfFacts c) {x : Limbs} (hl : x.length = c.N) :
    (c.pass x).carry = c.val x / 2 ^ c.PBITS ∧ c.val (c.pass x).y = c.val x % 2 ^ c.PBITS := by
  obtain ⟨h1, h2⟩ := pass_spec h hl
  have h3 := tight_val_lt h h1
  constructor
  · rw [h2, Nat.add_mul_div_right _ _ (by positivity), Nat.div_eq_of_lt h3, Nat.zero_add]
  · rw [h2, Nat.add_mul_mod_self_right, Nat.mod_eq_of_lt h3]

/-! ## Split (41_data_format.md R130) -/

/-- The digits of `split`, from any limb on. -/
theorem split_from (c : Config) (x : Nat) (m : Nat) :
    c.val ((List.range (m + 1)).map
        (fun i => if i + 1 < m + 1 then x / 2 ^ (c.r * i) % 2 ^ c.r else x / 2 ^ (c.r * i))) = x ∧
      (∀ t, x < 2 ^ (c.r * m + t) →
        below (List.replicate m c.r ++ [t]) ((List.range (m + 1)).map
          (fun i => if i + 1 < m + 1 then x / 2 ^ (c.r * i) % 2 ^ c.r else x / 2 ^ (c.r * i))) = true) := by
  induction m generalizing x with
  | zero => simp [below]
  | succ m ih =>
    obtain ⟨h1, h2⟩ := ih (x / 2 ^ c.r)
    have heq : (List.range (m + 1 + 1)).map
          (fun i => if i + 1 < m + 1 + 1 then x / 2 ^ (c.r * i) % 2 ^ c.r else x / 2 ^ (c.r * i)) =
        x % 2 ^ c.r :: (List.range (m + 1)).map (fun i => if i + 1 < m + 1
          then x / 2 ^ c.r / 2 ^ (c.r * i) % 2 ^ c.r else x / 2 ^ c.r / 2 ^ (c.r * i)) := by
      rw [List.range_succ_eq_map, List.map_cons, List.map_map]
      congr 1
      · simp
      · apply List.map_congr_left
        intro i _
        have : x / 2 ^ (c.r * (i + 1)) = x / 2 ^ c.r / 2 ^ (c.r * i) := by
          rw [Nat.div_div_eq_div_mul, ← pow_add]; congr 2; ring
        simp only [Function.comp, Nat.succ_eq_add_one, this, Nat.add_lt_add_iff_right]
    rw [heq]
    refine ⟨?_, fun t ht => ?_⟩
    · rw [val_cons, h1]; exact Nat.mod_add_div _ _
    · simp only [List.replicate_succ, List.cons_append, below, Bool.and_eq_true, decide_eq_true_eq]
      refine ⟨Nat.mod_lt _ (by positivity), h2 t ?_⟩
      rw [Nat.div_lt_iff_lt_mul (by positivity), ← pow_add]
      calc x < _ := ht
        _ = _ := by congr 1; ring

/-- `val(split(x)) = x` (R130). -/
theorem val_splitInt {c : Config} (h : WfFacts c) (x : Nat) : c.val (splitInt c x) = x := by
  have hN : c.N = c.N - 1 + 1 := by have := h.twoLimbs; omega
  have := (split_from c x (c.N - 1)).1
  rw [← hN] at this
  exact this

/-- `split(x)` is tight when `x < 2^PBITS` (R130). -/
theorem splitInt_tight {c : Config} (h : WfFacts c) {x : Nat} (hx : x < 2 ^ c.PBITS) :
    c.tight (splitInt c x) = true := by
  have hN : c.N = c.N - 1 + 1 := by have := h.twoLimbs; omega
  have := (split_from c x (c.N - 1)).2 (c.r - c.e) (by rw [widths_bits h]; exact hx)
  rw [← hN] at this
  exact this

/-- A tight vector is the split of its value (R15, R130). -/
theorem splitInt_val {c : Config} (h : WfFacts c) {x : Limbs} (hx : c.tight x = true) :
    splitInt c (c.val x) = x :=
  tight_unique (splitInt_tight h (tight_val_lt h hx)) hx (val_splitInt h _)

/-! ## Little-endian bytes (R13) -/

@[simp] theorem leBytes_length (x n : Nat) : (leBytes x n).length = n := by
  induction n generalizing x with
  | zero => rfl
  | succ n ih => simp [leBytes, ih]

theorem leNat_lt (bs : List Byte) : leNat bs < 2 ^ (8 * bs.length) := by
  induction bs with
  | nil => simp [leNat]
  | cons b bs ih =>
    have := b.isLt
    simp only [leNat, List.length_cons, Nat.mul_add, Nat.mul_one, pow_add]
    omega

/-- `LE(LEbytes(x, n)) = x` for `x < 2^(8n)`, and the remainder otherwise (R13). -/
theorem leNat_leBytes (x n : Nat) : leNat (leBytes x n) = x % 2 ^ (8 * n) := by
  induction n generalizing x with
  | zero => simp [leBytes, leNat, Nat.mod_one]
  | succ n ih =>
    have h : 2 ^ (8 * (n + 1)) = 256 * 2 ^ (8 * n) := by rw [Nat.mul_add, pow_add]; ring
    rw [leBytes, leNat, ih, h, Nat.mod_mul]
    simp

/-- A byte string is the bytes of its integer (R13). -/
theorem leBytes_leNat (bs : List Byte) : leBytes (leNat bs) bs.length = bs := by
  induction bs with
  | nil => rfl
  | cons b bs ih =>
    have hb := b.isLt
    have h1 : (b.toNat + 256 * leNat bs) / 256 = leNat bs := by omega
    have h2 : BitVec.ofNat 8 (b.toNat + 256 * leNat bs) = b := by
      apply BitVec.eq_of_toNat_eq
      simp only [BitVec.toNat_ofNat]
      omega
    simp [leNat, leBytes, h1, h2, ih]

/-- A hook keeps the length of its buffer (R12). -/
@[simp] theorem hook_length (hk : Hook) (bs : List Byte) : (hk.apply bs).length = bs.length := by
  cases hk <;> simp [Hook.apply]

end Sys2Proof.Machine
end

