-- ==== Sys2Proof/Laws/Commands.lean ====
section
/-! SUPPORT. Commands as a whole: a refused and an illegal command, what no command changes, the frame of a body, the
length of what the evaluator answers, sequences of commands, and the step on one host action. -/

namespace Sys2Proof.Machine

/-- An illegal command enters the fault of a single-operation command, whatever its opcode (60_exceptions.md R221). -/
theorem exec_illegal (i : Instr) (s : State) (h : s.FAULT = none)
    (hw : i.wf s.cfg = false) : exec i s = .next (faultedState s .illegal (encode i)) := by
  cases i <;>
    simp only [exec, execAdd, execAddw, execMul, execSqr, execPrecomp, execMulp, execCarry, execReduce, execZero,
      execZerow, execUnpack, execEncb, execEncl, execPack, execMrst, execDkey, execDpow, execDpow2, execHash,
      execVerify] <;>
    exact issue_illegal _ _ _ h hw

/-- While `FAULT` is not 0 a command has no effect (60_exceptions.md R226). -/
theorem exec_faulted (i : Instr) (s : State) (h : s.FAULT ≠ none) : exec i s = .next s := by
  cases i <;>
    simp only [exec, execAdd, execAddw, execMul, execSqr, execPrecomp, execMulp, execCarry, execReduce, execZero,
      execZerow, execUnpack, execEncb, execEncl, execPack, execMrst, execDkey, execDpow, execDpow2, execHash,
      execVerify] <;>
    exact issue_refused _ _ _ h

/-- What no command changes, whether it faults or not. -/
theorem exec_inputs {i : Instr} {s t : State} (h : exec i s = .next t) :
    t.cfg = s.cfg ∧ t.KEY = s.KEY ∧ t.KEYLEN = s.KEYLEN ∧ t.MSG = s.MSG ∧ t.INLEN = s.INLEN ∧ t.port = s.port := by
  rcases exec_cases i s with ⟨-, h'⟩ | ⟨hf, -, h'⟩ | ⟨-, t', hb, h'⟩ | ⟨-, e, -, h'⟩
  · rw [h'] at h; cases h; simp
  · rw [h'] at h; cases h; simp [faultedState]
  · rw [h'] at h; cases h; obtain ⟨h1, h2, h3, h4, h5, h6, -⟩ := body_inputs hb; exact ⟨h1, h2, h3, h4, h5, h6⟩
  · rw [h'] at h; cases h; exact raiseFault_inputs _ _ _ _

/-- Every command but HASH and VERIFY is a single-operation command. -/
theorem commandKind_single {i : Instr} (h1 : i ≠ .hash) (h2 : i ≠ .verify) : commandKind i = .single := by
  cases i <;> simp_all [commandKind]

/-- Clearing the marks leaves no register written (10_state.md R36). -/
theorem clearMarks_noneWritten (s : State) : NoneWritten (clearMarks s) := by
  refine ⟨?_, ?_, ?_⟩ <;> intro r hr <;> simp [clearMarks] at hr <;> obtain ⟨a, -, rfl⟩ := hr <;> rfl

/-- Fault entry from a fault-free state sets the code (60_exceptions.md R226). -/
theorem raiseFault_code {kind e w} {s : State} (hf : s.FAULT = none) : (raiseFault kind e w s).FAULT = some e :=
    (raiseFault_registers _ _ _ _ hf).1

/-- A step of a well-formed core takes the first host action. -/
theorem step_action {s : State} (hw : s.cfg.wf = true) {act rest} (hp : s.port = act :: rest) :
    step s = hostStep (present exec) act { s with port := rest } := by
  simp [step, hw, takeAction, hp]

/-! Reads that fault -/

/-- A wrong KEYLEN stops every read of a key slot (60_exceptions.md R222). -/
theorem readKeySlot_keylen {s : State} (h : s.KEYLEN.toNat ≠ s.cfg.KEYSIZE)
    (j : Nat) : readKeySlot s j = .error .keylen := by
  simp [readKeySlot, requireKeylen, h]

/-- A key slot that is stated and written reads as its bytes. -/
theorem readKeySlot_ok {s : State} {j : Nat} {b} (h : s.KEYLEN.toNat = s.cfg.KEYSIZE)
    (hr : Memory.readRun s.KEY (j * s.cfg.SUBKEYSIZE) s.cfg.SUBKEYSIZE = some b) : readKeySlot s j = .ok b := by
  simp [readKeySlot, requireKeylen, h, readBytes_eq_ok.2 hr]

/-- A key slot has SUBKEYSIZE bytes. -/
theorem readKeySlot_length {s : State} {j : Nat} {b} (h : readKeySlot s j = .ok b) : b.length = s.cfg.SUBKEYSIZE := by
  obtain ⟨_, -, h⟩ := bind_eq_ok.1 h
  exact readRun_length (readBytes_eq_ok.1 h)

/-- Reading a wide register that is not written is `E_UNINIT` (10_state.md R38). -/
theorem readW_unwritten {s : State} {i : RegNo} (h : UnwrittenW s i) : readW s i = .error .uninit := by
  obtain ⟨v, hv⟩ := h; simp [readW, readLimbs, hv]

/-- Reading a factor register that is not written is `E_UNINIT` (10_state.md R38). -/
theorem readP_unwritten {s : State} {i : RegNo} (h : UnwrittenP s i) : readP s i = .error .uninit := by
  obtain ⟨k, v, hv⟩ := h; simp [readP, hv]

/-- The only fault of reading a narrow register is `E_UNINIT`. -/
theorem readF_error {s : State} {i : RegNo} : ∀ e, readF s i = .error e → e = .uninit := fun _ h => readLimbs_error h

/-- The only fault of reading a wide register is `E_UNINIT`. -/
theorem readW_error {s : State} {i : RegNo} : ∀ e, readW s i = .error e → e = .uninit := fun _ h => readLimbs_error h

/-- Two sources, one of them unreadable: `E_UNINIT`, before anything that follows (60_exceptions.md R230). -/
theorem two_reads {α β γ : Type} {x : Except FaultCode α} {y : Except FaultCode β} {f : α → β → Except FaultCode γ}
    (hx : ∀ e, x = .error e → e = .uninit) (hxy : x = .error .uninit ∨ y = .error .uninit) :
    (do let a ← x; let b ← y; f a b) = .error .uninit := by
  rcases hxy with h | h
  · rw [h]; rfl
  · cases x with
    | error e => rw [hx e rfl]; rfl
    | ok a => rw [h]; rfl

/-- A run with a byte that holds no value cannot be read. -/
theorem readRun_none {m : Memory} {a n x : Nat} (h1 : a ≤ x) (h2 : x < a + n)
    (h : Memory.read m x = none) : Memory.readRun m a n = none := by
  cases hr : Memory.readRun m a n with
  | none => rfl
  | some bs =>
    obtain ⟨hl, hb⟩ := readRun_eq_some.1 hr
    have := hb (x - a) (by omega)
    rw [show a + (x - a) = x by omega, h] at this; cases this

/-- A run with a byte that holds no value is `E_UNINIT` (60_exceptions.md R227). -/
theorem readBytes_none {m : Memory} {a n x : Nat} (h1 : a ≤ x) (h2 : x < a + n)
    (h : Memory.read m x = none) : readBytes m a n = .error .uninit := by
  simp [readBytes, readRun_none h1 h2 h]

/-- A run can be read exactly when each of its bytes can. -/
theorem readRun_isSome {m : Memory} {a n : Nat} : (Memory.readRun m a n).isSome = true ↔ ∀ i, i < n → (Memory.read
    m (a + i)).isSome = true := by
  constructor
  · intro h i hi
    obtain ⟨bs, hbs⟩ := Option.isSome_iff_exists.1 h
    obtain ⟨hl, hb⟩ := readRun_eq_some.1 hbs
    rw [hb i (by omega)]; rfl
  · intro h
    induction n generalizing a with
    | zero => simp [Memory.readRun]
    | succ n ih =>
      have h0 := h 0 (by omega)
      have hs := ih (a := a + 1) (fun i hi => by have := h (i+1) (by omega); rwa [show a + (i+1) =
        a + 1 + i by omega] at this)
      obtain ⟨b, hb⟩ := Option.isSome_iff_exists.1 h0
      obtain ⟨bs, hbs⟩ := Option.isSome_iff_exists.1 hs
      simp only [Nat.add_zero] at hb
      simp [Memory.readRun, hb, hbs]

/-- A run that cannot be read has a byte that holds no value. -/
theorem readRun_none_exists {m : Memory} {a n : Nat} (h : Memory.readRun m a n = none) : ∃ i, i < n ∧ Memory.read m
    (a + i) = none := by
  by_contra hn
  push Not at hn
  have := readRun_isSome (m := m) (a := a) (n := n) |>.2 (fun i hi => by
    cases h2 : Memory.read m (a + i) with
    | none => exact absurd h2 (hn i hi)
    | some b => rfl)
  rw [h] at this; cases this

/-- A read of a run answers or is `E_UNINIT`. -/
theorem readBytes_cases (m : Memory) (a n : Nat) : (∃ b, readBytes m a n = .ok b) ∨ readBytes m a n = .error
    .uninit := by
  cases h : readBytes m a n with
  | ok b => exact .inl ⟨b, rfl⟩
  | error e => obtain ⟨rfl, -⟩ := readBytes_error h; exact .inr rfl

/-- Writing a run leaves written bytes written. -/
theorem writeRun_keeps {m : Memory} {a : Nat} {bs : List Byte} {x : Nat} (h : (Memory.read m x).isSome = true) :
    (Memory.read (Memory.writeRun m a bs) x).isSome = true := by
  by_cases hx : x < a ∨ a + bs.length ≤ x
  · rw [read_writeRun_outside _ _ _ _ hx]; exact h
  · have := read_writeRun_inside m a bs (x - a) (by omega)
    rw [show a + (x - a) = x by omega] at this; rw [this]; rfl

/-- A read of a run depends on its own bytes alone. -/
theorem readBytes_congr {m m' : Memory} {a n : Nat} (h : ∀ i, i < n → Memory.read m (a + i) = Memory.read m' (a +
    i)) : readBytes m a n = readBytes m' a n := by
  rw [readBytes, readBytes, readRun_congr h]

/-! Lengths -/

/-- As many powers as asked for (42_key.md R153). -/
theorem powersAfter_length {c : Config} {k : Limbs} {n : Nat} : ∀ {prev ks}, powersAfter c k prev n = .ok ks →
    ks.length = n := by
  induction n with
  | zero => intro prev ks h; cases h; rfl
  | succ n ih =>
    intro prev ks h
    obtain ⟨w, -, h⟩ := bind_eq_ok.1 h
    obtain ⟨nx, -, h⟩ := bind_eq_ok.1 h
    obtain ⟨r, hr, h⟩ := bind_eq_ok.1 h
    cases h; simp [ih hr]

/-- As many squares as asked for (42_key.md R154). -/
theorem squaresAfter_length {c : Config} {n : Nat} : ∀ {prev ks}, squaresAfter c prev n = .ok ks → ks.length = n := by
  induction n with
  | zero => intro prev ks h; cases h; rfl
  | succ n ih =>
    intro prev ks h
    obtain ⟨w, -, h⟩ := bind_eq_ok.1 h
    obtain ⟨nx, -, h⟩ := bind_eq_ok.1 h
    obtain ⟨r, hr, h⟩ := bind_eq_ok.1 h
    cases h; simp [ih hr]

/-- DPOW answers `n` vectors. -/
theorem powers_length {c : Config} {k : Limbs} {n : Nat} {ks} (h : powers c k n = .ok ks) : ks.length = n := by
  cases n with
  | zero => cases h; rfl
  | succ n => obtain ⟨r, hr, h⟩ := bind_eq_ok.1 h; cases h; simp [powersAfter_length hr]

/-- DPOW2 answers `n` vectors. -/
theorem squares_length {c : Config} {k : Limbs} {n : Nat} {ks} (h : squares c k n = .ok ks) : ks.length = n := by
  cases n with
  | zero => cases h; rfl
  | succ n => obtain ⟨r, hr, h⟩ := bind_eq_ok.1 h; cases h; simp [squaresAfter_length hr]

/-- A sub-tag has SUBTAGSIZE bytes (43_hash_engine.md R179). -/
theorem subTagBytes_length (c : Config) (z : Limbs) : (subTagBytes c z).length = c.SUBTAGSIZE := by
  simp [subTagBytes, hook_length, packBytes]

/-- An evaluation answers SUBTAGSIZE bytes. -/
theorem evaluate_length {s : State} {j : Nat} {b} (h : evaluate s j = .ok b) : b.length = s.cfg.SUBTAGSIZE := by
  obtain ⟨k, -, h⟩ := bind_eq_ok.1 h
  obtain ⟨pw, -, h⟩ := bind_eq_ok.1 h
  split at h
  · cases h; exact subTagBytes_length _ _
  · obtain ⟨acc, -, h⟩ := bind_eq_ok.1 h
    cases h; exact subTagBytes_length _ _

/-- Consecutive evaluations answer that many sub-tags. -/
theorem evaluateFrom_length {s : State} {n : Nat} : ∀ {j : Nat}
    {b}, evaluateFrom s j n = .ok b → b.length = n * s.cfg.SUBTAGSIZE := by
  induction n with
  | zero => intro j b h; cases h; simp
  | succ n ih =>
    intro j b h
    obtain ⟨t, ht, h⟩ := bind_eq_ok.1 h
    obtain ⟨ts, hts, h⟩ := bind_eq_ok.1 h
    cases h
    simp [evaluate_length ht, ih hts]; ring

/-- The tag has OUTPUTSIZE bytes (43_hash_engine.md R180). -/
theorem tagBytes_length {s : State} {b} (hw : s.cfg.wf = true)
    (h : tagBytes s = .ok b) : b.length = s.cfg.OUTPUTSIZE := by
  obtain ⟨_, -, h⟩ := bind_eq_ok.1 h
  rw [evaluateFrom_length h, (wfFacts hw).outSize]

/-! The frame of a body -/

/-- What a single-operation command leaves alone when it raises no fault (20_memory.md R66). -/
theorem body_frame {s t : State} {i : Instr} (h1 : i ≠ .hash) (h2 : i ≠ .verify) (h : body s i = .ok t) :
    (∀ j, j ∉ i.destF → t.F[j]? = s.F[j]?) ∧ (∀ j, j ∉ i.destW → t.Wd[j]? = s.Wd[j]?) ∧
    (∀ j, j ∉ i.destP → t.P[j]? = s.P[j]?) ∧
    t.F.length = s.F.length ∧ t.Wd.length = s.Wd.length ∧ t.P.length = s.P.length ∧
    (∀ j, (∀ fa idx, i ≠ .pack fa idx) → Memory.read t.OUT j = Memory.read s.OUT j) ∧
    (i ≠ .mrst → (∀ fd, i ≠ .encb fd) → (∀ fd, i ≠ .encl fd) → t.MPTR = s.MPTR) ∧ t.VOK = s.VOK ∧
    t.PHASE = s.PHASE ∧ t.OUTVALID = s.OUTVALID := by
  have hF : ∀ (fd : RegNo) (v : Limbs) (j : Nat), j ∉ [fd.toNat] → (s.F.set fd.toNat ⟨v, true⟩)[j]? = s.F[j]? := by
    intro fd v j hj; simp at hj; rw [List.getElem?_set_ne (by omega)]
  have hW : ∀ (fd : RegNo) (v : Limbs) (j : Nat), j ∉ [fd.toNat] → (s.Wd.set fd.toNat ⟨v, true⟩)[j]? = s.Wd[j]? := by
    intro fd v j hj; simp at hj; rw [List.getElem?_set_ne (by omega)]
  cases i with
  | add fd fa fb => obtain ⟨a, b, -, -, -, rfl⟩ := (body_narrow h).1 _ _ _ rfl; simpa [Instr.destF, Instr.destW,
    Instr.destP] using hF fd _
  | addw wd wa wb => obtain ⟨a, b, -, -, -, rfl⟩ := (body_wide h).1 _ _ _ rfl; simpa [Instr.destF, Instr.destW,
    Instr.destP] using hW wd _
  | mul wd fa fb => obtain ⟨a, b, w, -, -, -, rfl⟩ := (body_wide h).2.1 _ _ _ rfl; simpa [Instr.destF, Instr.destW,
    Instr.destP] using hW wd _
  | sqr wd fa => obtain ⟨a, w, -, -, rfl⟩ := (body_wide h).2.2.1 _ _ rfl; simpa [Instr.destF, Instr.destW,
    Instr.destP] using hW wd _
  | precomp pd fa =>
    obtain ⟨a, -, -, rfl⟩ := (body_wide h).2.2.2.1 _ _ rfl
    simp [Instr.destF, Instr.destW, Instr.destP]
    intro j hj; rw [List.getElem?_set_ne (by omega)]
  | mulp wd fa pb => obtain ⟨a, k, q, -, -, -, rfl⟩ := (body_wide h).2.2.2.2.1 _ _ _ rfl; simpa [Instr.destF,
    Instr.destW, Instr.destP] using hW wd _
  | carry fd wa => obtain ⟨w, y, -, -, rfl⟩ := (body_narrow h).2.1 _ _ rfl; simpa [Instr.destF, Instr.destW,
    Instr.destP] using hF fd _
  | reduce fd fa => obtain ⟨a, -, rfl⟩ := (body_narrow h).2.2.1 _ _ rfl; simpa [Instr.destF, Instr.destW,
    Instr.destP] using hF fd _
  | zero fd => obtain rfl := (body_narrow h).2.2.2 _ rfl; simpa [Instr.destF, Instr.destW, Instr.destP] using hF fd _
  | zerow wd => obtain rfl := (body_wide h).2.2.2.2.2 _ rfl; simpa [Instr.destF, Instr.destW, Instr.destP] using hW wd _
  | unpack fd idx => obtain ⟨b, -, rfl⟩ := (body_data h).1 _ _ rfl; simpa [Instr.destF, Instr.destW,
    Instr.destP] using hF fd _
  | encb fd => obtain ⟨m, -, -, rfl⟩ := (body_data h).2.1 _ rfl; simpa [Instr.destF, Instr.destW,
    Instr.destP] using hF fd _
  | encl fd => obtain ⟨m, -, -, rfl⟩ := (body_data h).2.2.1 _ rfl; simpa [Instr.destF, Instr.destW,
    Instr.destP] using hF fd _
  | pack fa idx => obtain ⟨a, -, -, rfl⟩ := (body_data h).2.2.2.1 _ _ rfl; simp [writeOutSlot]
  | mrst => obtain rfl := (body_data h).2.2.2.2 rfl; simp
  | dkey fd idx => obtain ⟨b, -, rfl⟩ := (body_key h).1 _ _ rfl; simpa [Instr.destF, Instr.destW,
    Instr.destP] using hF fd _
  | dpow fd fa n =>
    obtain ⟨k, ks, -, hks, rfl⟩ := (body_key h).2.1 _ _ _ rfl
    have hl : ks.length = n.toNat := powers_length hks
    simp [Instr.destF, Instr.destW, Instr.destP]
    intro j hj
    apply setConsecutive_outside
    by_contra hc
    exact hj (j - fd.toNat) (by omega) (by omega)
  | dpow2 fd fa n =>
    obtain ⟨k, ks, -, hks, rfl⟩ := (body_key h).2.2 _ _ _ rfl
    have hl : ks.length = n.toNat := squares_length hks
    simp [Instr.destF, Instr.destW, Instr.destP]
    intro j hj
    apply setConsecutive_outside
    by_contra hc
    exact hj (j - fd.toNat) (by omega) (by omega)
  | hash => exact absurd rfl h1
  | verify => exact absurd rfl h2

/-! Sequences of commands -/

/-- A sequence runs its first command, then the rest. -/
theorem runCommands_cons {i : Instr} {is : List Instr} {s t : State}
    (h : exec i s = .next t) : runCommands (i :: is) s = runCommands is t := by
  simp [runCommands, h]

/-- Two commands in a row. -/
theorem runCommands_two {i j : Instr} {s t u : State} (h : exec i s = .next t)
    (h' : exec j t = .next u) : runCommands [i, j] s = .next u := by
  rw [runCommands_cons h, runCommands_cons h']; rfl

/-- After a fault the rest of a sequence has no effect (60_exceptions.md R226). -/
theorem runCommands_faulted {is : List Instr} : ∀ {s t : State}, s.FAULT ≠ none → runCommands is s = .next t → t =
    s := by
  induction is with
  | nil => intro s t _ h; cases h; rfl
  | cons i is ih =>
    intro s t hf h
    rw [runCommands_cons (exec_faulted i s hf)] at h
    exact ih hf h

/-- A sequence's first command answers, and the rest runs from there. -/
theorem runCommands_next {i : Instr} {is : List Instr} {s t : State} (h : runCommands (i :: is) s = .next t) :
    ∃ u, exec i s = .next u ∧ runCommands is u = .next t := by
  obtain ⟨u, hu⟩ := exec_next i s
  exact ⟨u, hu, by rw [runCommands_cons hu] at h; exact h⟩

/-- A sequence that ends without a fault: its first command was ready and raised none. -/
theorem runCommands_step {i : Instr} {is : List Instr} {s t : State} (h : runCommands (i :: is) s = .next t)
    (hf : t.FAULT = none) :
    ∃ u, Ready i s ∧ body s i = .ok u ∧ exec i s = .next u ∧ u.FAULT = none ∧ runCommands is u = .next t := by
  obtain ⟨u, hu, h⟩ := runCommands_next h
  have huf : u.FAULT = none := by
    by_contra hn
    rw [runCommands_faulted hn h] at hf; exact hn hf
  rcases exec_cases i s with ⟨hf', h'⟩ | ⟨hf', -, h'⟩ | ⟨hr, t', hb, h'⟩ | ⟨hr, e, -, h'⟩ <;> rw [h'] at hu <;> cases hu
  · exact absurd huf hf'
  · simp at huf
  · exact ⟨_, hr, hb, h', huf, h⟩
  · rw [(raiseFault_registers _ _ _ _ hr.1).1] at huf; simp at huf

/-- A register holds one vector. -/
theorem register_unique {F : List LimbReg} {i : Nat} {a b : Limbs} (h1 : F[i]? = some ⟨a, true⟩)
    (h2 : F[i]? = some ⟨b, true⟩) : a = b := by
  rw [h1] at h2; simpa using h2

end Sys2Proof.Machine
end

