-- ==== Sys2Proof/Laws/LimbArith.lean ====
section
/-! SUPPORT. The laws of the functional units: the product and its value (40_field_arith.md R94, R95), CARRY
(R101, R102), the normalisation lemma (R104), the conditional subtraction (R106) and REDUCE (R105); and the limb
bounds under which no storage check fails (R112). -/

namespace Sys2Proof.Machine

/-! ## The two geometries, written out (00_scope.md R8) -/

/-- What R8 derives for `R26`. -/
theorem r26_geometry {c : Config} (h : c.PBITS = 130 ∧ c.DELTA = 5 ∧ c.r = 26 ∧ c.N = 5 ∧ c.W = 32) :
    c.widths = [26, 26, 26, 26, 26] ∧ c.fold = 5 ∧ c.p = 2 ^ 130 - 5 ∧ c.b 0 = 26 := by
  obtain ⟨h1, h2, h3, h4, h5⟩ := h
  simp [Config.widths, Config.fold, Config.p, Config.b, Config.e, h1, h2, h3, h4, List.replicate]

/-- What R8 derives for `R44`. -/
theorem r44_geometry {c : Config} (h : c.PBITS = 130 ∧ c.DELTA = 5 ∧ c.r = 44 ∧ c.N = 3 ∧ c.W = 64) :
    c.widths = [44, 44, 42] ∧ c.fold = 20 ∧ c.p = 2 ^ 130 - 5 ∧ c.b 0 = 44 := by
  obtain ⟨h1, h2, h3, h4, h5⟩ := h
  simp [Config.widths, Config.fold, Config.p, Config.b, Config.e, h1, h2, h3, h4, List.replicate]

/-- Five limbs by name. -/
theorem five_limbs {x : Limbs} (h : x.length = 5) : ∃ a b c d e, x = [a, b, c, d, e] := by
  match x, h with
  | [a, b, c, d, e], _ => exact ⟨a, b, c, d, e, rfl⟩

/-- Three limbs by name. -/
theorem three_limbs {x : Limbs} (h : x.length = 3) : ∃ a b c, x = [a, b, c] := by
  match x, h with
  | [a, b, c], _ => exact ⟨a, b, c, rfl⟩

/-- `b[0] = r`: there are at least two limbs (R8). -/
theorem b_zero {c : Config} (h : WfFacts c) : c.b 0 = c.r := by
  rcases h.geometry with hg | hg
  · rw [(r26_geometry hg).2.2.2, hg.2.2.1]
  · rw [(r44_geometry hg).2.2.2, hg.2.2.1]

/-- `p + DELTA = 2^PBITS` (R6). -/
theorem p_add_delta {c : Config} (h : WfFacts c) : c.p + c.DELTA = 2 ^ c.PBITS := by
  have := h.deltaLt
  simp only [Config.p]; omega

/-- `DELTA < p`. -/
theorem delta_lt_p {c : Config} (h : WfFacts c) : c.DELTA < c.p := by
  rcases h.geometry with hg | hg
  · rw [(r26_geometry hg).2.2.1, hg.2.1]; norm_num
  · rw [(r44_geometry hg).2.2.1, hg.2.1]; norm_num

/-! ## The product (R94) -/

/-- `mulcore` for N = 5, as R94 writes it out. -/
theorem mulcore_five (a0 a1 a2 a3 a4 b0 b1 b2 b3 b4 s1 s2 s3 s4 : Nat) :
    mulcore 5 [a0, a1, a2, a3, a4] [b0, b1, b2, b3, b4] [s1, s2, s3, s4] =
      [a0 * b0 + a1 * s4 + a2 * s3 + a3 * s2 + a4 * s1,
       a0 * b1 + a1 * b0 + a2 * s4 + a3 * s3 + a4 * s2,
       a0 * b2 + a1 * b1 + a2 * b0 + a3 * s4 + a4 * s3,
       a0 * b3 + a1 * b2 + a2 * b1 + a3 * b0 + a4 * s4,
       a0 * b4 + a1 * b3 + a2 * b2 + a3 * b1 + a4 * b0] := by
  simp [mulcore, mulTerm, List.range_succ, Nat.add_assoc]

/-- `mulcore` for N = 3, as R94 writes it out. -/
theorem mulcore_three (a0 a1 a2 b0 b1 b2 s1 s2 : Nat) :
    mulcore 3 [a0, a1, a2] [b0, b1, b2] [s1, s2] =
      [a0 * b0 + a1 * s2 + a2 * s1,
       a0 * b1 + a1 * b0 + a2 * s2,
       a0 * b2 + a1 * b1 + a2 * b0] := by
  simp [mulcore, mulTerm, List.range_succ, Nat.add_assoc]

@[simp] theorem mulcore_length (N : Nat) (a b s : Limbs) : (mulcore N a b s).length = N := by simp [mulcore]

/-- The value law of the product: `val(w) mod p = val(a) * val(b) mod p`, tight or not (R95). -/
theorem val_mulcore {c : Config} (h : WfFacts c) {a b : Limbs} (ha : a.length = c.N) (hb : b.length = c.N) :
    c.val (mulcore c.N a b (scaledLimbs c b)) % c.p = c.val a * c.val b % c.p := by
  rcases h.geometry with hg | hg
  · obtain ⟨-, hf, hp, -⟩ := r26_geometry hg
    obtain ⟨-, -, hr, hN, -⟩ := hg
    rw [hN] at ha hb
    obtain ⟨a0, a1, a2, a3, a4, rfl⟩ := five_limbs ha
    obtain ⟨b0, b1, b2, b3, b4, rfl⟩ := five_limbs hb
    have key : c.val [a0, a1, a2, a3, a4] * c.val [b0, b1, b2, b3, b4] =
        c.val (mulcore c.N [a0, a1, a2, a3, a4] [b0, b1, b2, b3, b4] (scaledLimbs c [b0, b1, b2, b3, b4])) +
        c.p * (a1 * b4 + a2 * b3 + a3 * b2 + a4 * b1 + 2 ^ 26 * (a2 * b4 + a3 * b3 + a4 * b2) +
          2 ^ 52 * (a3 * b4 + a4 * b3) + 2 ^ 78 * (a4 * b4)) := by
      simp only [scaledLimbs, List.drop_succ_cons, List.drop_zero, List.map_cons, List.map_nil, hN, mulcore_five,
        val_cons, val_nil, hr, hf, hp]
      norm_num
      ring
    rw [key, Nat.add_mul_mod_self_left]
  · obtain ⟨-, hf, hp, -⟩ := r44_geometry hg
    obtain ⟨-, -, hr, hN, -⟩ := hg
    rw [hN] at ha hb
    obtain ⟨a0, a1, a2, rfl⟩ := three_limbs ha
    obtain ⟨b0, b1, b2, rfl⟩ := three_limbs hb
    have key : c.val [a0, a1, a2] * c.val [b0, b1, b2] =
        c.val (mulcore c.N [a0, a1, a2] [b0, b1, b2] (scaledLimbs c [b0, b1, b2])) +
        c.p * (4 * (a1 * b2 + a2 * b1 + 2 ^ 44 * (a2 * b2))) := by
      simp only [scaledLimbs, List.drop_succ_cons, List.drop_zero, List.map_cons, List.map_nil, hN, mulcore_three,
        val_cons, val_nil, hr, hf, hp]
      norm_num
      ring
    rw [key, Nat.add_mul_mod_self_left]

/-- The limb bound of the product (R112): with `a` below `A` and `b`, `s` below `S`, limbs are below `N*A*S`. -/
theorem mulcore_lt {N A S : Nat} {a b s : Limbs} (hN : 0 < N) (ha : ∀ i, a.getD i 0 < A)
    (hb : ∀ i, b.getD i 0 < S) (hs : ∀ i, s.getD i 0 < S) : ∀ l ∈ mulcore N a b s, l < N * (A * S) := by
  intro l hl
  simp only [mulcore, List.mem_map, List.mem_range] at hl
  obtain ⟨k, -, rfl⟩ := hl
  have hterm : ∀ i, mulTerm N a b s k i < A * S := by
    intro i
    unfold mulTerm
    split
    · exact Nat.mul_lt_mul'' (ha _) (hb _)
    · exact Nat.mul_lt_mul'' (ha _) (hs _)
  have : ∀ n, 0 < n → ((List.range n).map (mulTerm N a b s k)).sum < n * (A * S) := by
    intro n hn
    induction n with
    | zero => omega
    | succ n ih =>
      rw [List.range_succ, List.map_append, List.sum_append]
      have h1 := hterm n
      simp only [List.map_cons, List.map_nil, List.sum_cons, List.sum_nil, Nat.add_zero]
      rcases Nat.eq_zero_or_pos n with rfl | hn'
      · simpa using h1
      · have h2 := ih hn'
        rw [Nat.succ_mul]
        omega
  exact this N hN

/-- `MUL` answers the product exactly when both of its checks pass (R95). -/
theorem mulLimbs_eq_ok {c : Config} {a b w : Limbs} : mulLimbs c a b = .ok w ↔
    fits c.W (scaledLimbs c b) = true ∧ w = mulcore c.N a b (scaledLimbs c b) ∧ fits (2 * c.W) w = true := by
  unfold mulLimbs mulWithFactor
  simp only [bind_eq_ok, mustFit_eq_ok]
  constructor
  · rintro ⟨s, ⟨h1, rfl⟩, h2, rfl⟩; exact ⟨h1, rfl, h2⟩
  · rintro ⟨h1, rfl, h2⟩; exact ⟨_, ⟨h1, rfl⟩, h2, rfl⟩

/-- The only fault of `MUL` is `E_OVERFLOW` (R95). -/
theorem mulLimbs_error {c : Config} {a b : Limbs} {e : FaultCode} (h : mulLimbs c a b = .error e) : e = .overflow := by
  unfold mulLimbs mulWithFactor at h
  rcases bind_eq_error.1 h with h | ⟨s, -, h⟩
  · exact (mustFit_eq_error.1 h).2
  · exact (mustFit_eq_error.1 h).2

/-- Getting a limb of a tight vector: it is below `2^r`. -/
theorem tight_getD {c : Config} {x : Limbs} (hx : c.tight x = true) (i : Nat) : x.getD i 0 < 2 ^ c.r :=
  fits_getD (below_fits hx (widths_le c)) i

/-- Scaled limbs are `FOLD` times a limb. -/
theorem scaledLimbs_getD (c : Config) (b : Limbs) (i : Nat) : (scaledLimbs c b).getD i 0 = c.fold * b.getD (i + 1) 0 := by
  simp only [scaledLimbs, List.getD_eq_getElem?_getD, List.getElem?_map, List.getElem?_drop]
  rw [Nat.add_comm 1 i]
  cases b[i + 1]? <;> simp

/-- `FOLD` is at least 1. -/
theorem fold_pos {c : Config} (h : WfFacts c) : 0 < c.fold := by
  rcases h.geometry with hg | hg
  · rw [(r26_geometry hg).2.1]; norm_num
  · rw [(r44_geometry hg).2.1]; norm_num

/-- A tight multiplier passes the scaling check (R9(e), R201). -/
theorem scaledLimbs_fits {c : Config} (h : WfFacts c) {b : Limbs} (hb : c.tight b = true) :
    fits c.W (scaledLimbs c b) = true := by
  rw [fits_iff]
  intro l hl
  obtain ⟨i, hi⟩ := List.mem_iff_getElem?.1 hl
  have h1 : (scaledLimbs c b).getD i 0 = l := by simp [List.getD_eq_getElem?_getD, hi]
  rw [← h1, scaledLimbs_getD]
  have h2 := tight_getD hb (i + 1)
  calc c.fold * b.getD (i + 1) 0 ≤ c.fold * (2 ^ c.r - 1) := Nat.mul_le_mul_left _ (by omega)
    _ < _ := h.scale

/-- A stored multiplicand and a tight multiplier never fail a check of `MUL`; with the multiplicand below `2^A`
the product is below `N*FOLD*2^(A+r)` (R112, R201). -/
theorem mulLimbs_tight {c : Config} (h : WfFacts c) {a b : Limbs} {A : Nat} (hA : A ≤ c.W) (ha : fits A a = true)
    (hb : c.tight b = true) : ∃ w, mulLimbs c a b = .ok w ∧ w.length = c.N ∧
      ∀ l ∈ w, l < c.N * c.fold * 2 ^ (A + c.r) := by
  have hpos := fold_pos h
  have hlt : ∀ l ∈ mulcore c.N a b (scaledLimbs c b), l < c.N * (2 ^ A * (c.fold * 2 ^ c.r)) := by
    apply mulcore_lt (by have := h.twoLimbs; omega) (fits_getD ha)
    · intro i
      calc b.getD i 0 < 2 ^ c.r := tight_getD hb i
        _ ≤ c.fold * 2 ^ c.r := Nat.le_mul_of_pos_left _ hpos
    · intro i
      rw [scaledLimbs_getD]
      exact Nat.mul_lt_mul_of_pos_left (tight_getD hb _) hpos
  have heq : c.N * (2 ^ A * (c.fold * 2 ^ c.r)) = c.N * c.fold * 2 ^ (A + c.r) := by rw [pow_add]; ring
  rw [heq] at hlt
  refine ⟨_, mulLimbs_eq_ok.2 ⟨scaledLimbs_fits h hb, rfl, ?_⟩, mulcore_length _ _ _ _, hlt⟩
  rw [fits_iff]
  intro l hl
  refine lt_of_lt_of_le (hlt l hl) ?_
  rcases h.geometry with hg | hg
  · obtain ⟨-, hf, -, -⟩ := r26_geometry hg
    obtain ⟨-, -, hr, hN, hW⟩ := hg
    rw [hW] at hA
    rw [hf, hr, hN, hW]
    calc 5 * 5 * 2 ^ (A + 26) ≤ 5 * 5 * 2 ^ (32 + 26) :=
          Nat.mul_le_mul_left _ (Nat.pow_le_pow_right (by norm_num) (by omega))
      _ ≤ 2 ^ (2 * 32) := by norm_num
  · obtain ⟨-, hf, -, -⟩ := r44_geometry hg
    obtain ⟨-, -, hr, hN, hW⟩ := hg
    rw [hW] at hA
    rw [hf, hr, hN, hW]
    calc 3 * 20 * 2 ^ (A + 44) ≤ 3 * 20 * 2 ^ (64 + 44) :=
          Nat.mul_le_mul_left _ (Nat.pow_le_pow_right (by norm_num) (by omega))
      _ ≤ 2 ^ (2 * 64) := by norm_num

/-! ## CARRY (R101, R102) -/

/-- `CARRY` on N limbs, taken apart: what it answers when it answers (R101, R102). -/
theorem carryLimbs_ok {c : Config} (h : WfFacts c) {w y : Limbs} (hl : w.length = c.N)
    (hy : carryLimbs c w = .ok y) :
    c.narrow y = true ∧ c.val y + (c.pass w).carry * c.p = c.val w ∧ y.getD 0 0 < 2 ^ c.b 0 ∧
      ∀ i, 2 ≤ i → i < c.N → y.getD i 0 < 2 ^ c.b i := by
  obtain ⟨ht, hv⟩ := pass_spec h hl
  have hlen := tight_length h ht
  have h2 := h.twoLimbs
  have hb0 := b_zero h
  have hpd := p_add_delta h
  have hnar := tight_narrow h ht
  have hbi : ∀ i, i < c.N → (c.pass w).y.getD i 0 < 2 ^ c.b i := by
    intro i hi
    have : ∀ (bs : List Nat) (xs : Limbs), below bs xs = true → ∀ i, i < xs.length → xs.getD i 0 < 2 ^ bs.getD i 0 := by
      intro bs
      induction bs with
      | nil => intro xs hx i hi; cases xs <;> simp_all [below]
      | cons b bs ih =>
        intro xs hx i hi
        cases xs with
        | nil => simp at hi
        | cons x xs =>
          simp only [below, Bool.and_eq_true, decide_eq_true_eq] at hx
          cases i with
          | zero => simpa using hx.1
          | succ i => simpa using ih xs hx.2 i (by simpa using hi)
    exact this _ _ ht i (by omega)
  unfold carryLimbs at hy
  obtain ⟨t, -, hy⟩ := bind_eq_ok.1 hy
  generalize (c.pass w).carry = q at *
  generalize (c.pass w).y = z at *
  match z, hlen with
  | [], hlen => simp at hlen; omega
  | [_], hlen => simp at hlen; omega
  | y0 :: y1 :: ys, hlen =>
    simp only [foldCarry] at hy
    obtain ⟨-, -, hy⟩ := bind_eq_ok.1 hy
    obtain ⟨_, h3, hy⟩ := bind_eq_ok.1 hy
    rw [require_eq_ok, decide_eq_true_eq] at h3
    simp only [pure_eq_ok, Except.ok.injEq] at hy
    subst hy
    rw [hb0] at h3 ⊢
    simp only [Config.narrow, Bool.and_eq_true, decide_eq_true_eq, fits_iff, List.mem_cons, forall_eq_or_imp] at hnar ⊢
    have hrW : (2 : Nat) ^ c.r < 2 ^ c.W := Nat.pow_lt_pow_right (by norm_num) h.radix
    have hm : (y0 + c.DELTA * q) % 2 ^ c.r < 2 ^ c.r := Nat.mod_lt _ (by positivity)
    refine ⟨⟨by simpa using hlen, by omega, h3, hnar.2.2.2⟩, ?_, by simpa using hm, ?_⟩
    · have hdm := Nat.mod_add_div (y0 + c.DELTA * q) (2 ^ c.r)
      have hq : q * c.p + c.DELTA * q = q * 2 ^ c.PBITS := by rw [← hpd]; ring
      simp only [val_cons] at hv ⊢
      rw [Nat.mul_add, Nat.mul_add] at *
      omega
    · intro i hi1 hi2
      have := hbi i hi2
      match i, hi1 with
      | i + 2, _ => simpa using this

/-- The only fault of `CARRY` is `E_OVERFLOW` (R101). -/
theorem carryLimbs_error {c : Config} {w : Limbs} {e : FaultCode} (h : carryLimbs c w = .error e) : e = .overflow := by
  unfold carryLimbs at h
  rcases bind_eq_error.1 h with h | ⟨_, -, h⟩
  · exact (mustFit_eq_error.1 h).2
  · unfold foldCarry at h
    split at h
    · rcases bind_eq_error.1 h with h | ⟨_, -, h⟩
      · exact (require_eq_error.1 h).2
      · rcases bind_eq_error.1 h with h | ⟨_, -, h⟩
        · exact (require_eq_error.1 h).2
        · cases h
    · cases h

/-- `val(CARRY(w)) mod p = val(w) mod p` (R101). -/
theorem val_carryLimbs {c : Config} (h : WfFacts c) {w y : Limbs} (hl : w.length = c.N)
    (hy : carryLimbs c w = .ok y) : c.val y % c.p = c.val w % c.p := by
  rw [← (carryLimbs_ok h hl hy).2.1, Nat.add_mul_mod_self_right]

/-- A wide vector with limbs below `2^(3r-15)` passes every check of `CARRY`, and the result has limbs below
`2^(r+1)` (R112): the bound is `2^63` for `R26` and `2^117` for `R44`. -/
theorem carryLimbs_total {c : Config} (h : WfFacts c) {w : Limbs} (hl : w.length = c.N)
    (hw : ∀ l ∈ w, l < 2 ^ (3 * c.r - 15)) : ∃ y, carryLimbs c w = .ok y ∧ fits (c.r + 1) y = true := by
  rcases h.geometry with hg | hg
  · obtain ⟨hwd, -, -, hb0⟩ := r26_geometry hg
    obtain ⟨-, hd, hr, hN, hW⟩ := hg
    rw [hN] at hl
    obtain ⟨w0, w1, w2, w3, w4, rfl⟩ := five_limbs hl
    simp only [hr, List.mem_cons, List.not_mem_nil, or_false, forall_eq_or_imp, forall_eq] at hw
    norm_num at hw
    obtain ⟨h0, h1, h2, h3, h4⟩ := hw
    simp only [carryLimbs, Config.pass, hwd, carryPass, foldCarry, hb0, hW, hd, mustFit, fits, List.all_cons,
      List.all_nil, Bool.and_true, hr]
    norm_num
    have e0 := Nat.div_lt_of_lt_mul (m := w0) (n := 67108864) (k := 2 ^ 37) (by omega)
    have e1 := Nat.div_lt_of_lt_mul (m := w1 + w0 / 67108864) (n := 67108864) (k := 2 ^ 38) (by omega)
    have e2 := Nat.div_lt_of_lt_mul (m := w2 + (w1 + w0 / 67108864) / 67108864) (n := 67108864) (k := 2 ^ 38) (by omega)
    have e3 := Nat.div_lt_of_lt_mul (m := w3 + (w2 + (w1 + w0 / 67108864) / 67108864) / 67108864) (n := 67108864)
      (k := 2 ^ 38) (by omega)
    have e4 := Nat.div_lt_of_lt_mul
      (m := w4 + (w3 + (w2 + (w1 + w0 / 67108864) / 67108864) / 67108864) / 67108864) (n := 67108864)
      (k := 2 ^ 38) (by omega)
    generalize w0 / 67108864 = c0 at *
    generalize (w1 + c0) / 67108864 = c1 at *
    generalize (w2 + c1) / 67108864 = c2 at *
    generalize (w3 + c2) / 67108864 = c3 at *
    generalize (w4 + c3) / 67108864 = c4 at *
    have m0 := Nat.mod_lt w0 (show 67108864 > 0 by norm_num)
    have m1 := Nat.mod_lt (w1 + c0) (show 67108864 > 0 by norm_num)
    have m2 := Nat.mod_lt (w2 + c1) (show 67108864 > 0 by norm_num)
    have m3 := Nat.mod_lt (w3 + c2) (show 67108864 > 0 by norm_num)
    have m4 := Nat.mod_lt (w4 + c3) (show 67108864 > 0 by norm_num)
    generalize w0 % 67108864 = y0 at *
    have e5 := Nat.div_lt_of_lt_mul (m := y0 + 5 * c4) (n := 67108864) (k := 2 ^ 15) (by omega)
    have m5 := Nat.mod_lt (y0 + 5 * c4) (show 67108864 > 0 by norm_num)
    generalize (y0 + 5 * c4) / 67108864 = c5 at *
    norm_num at e0 e1 e2 e3 e4 e5
    have k0 : w0 < 18446744073709551616 := by omega
    have k1 : w1 + c0 < 18446744073709551616 := by omega
    have k2 : w2 + c1 < 18446744073709551616 := by omega
    have k3 : w3 + c2 < 18446744073709551616 := by omega
    have k4 : w4 + c3 < 18446744073709551616 := by omega
    have k5 : y0 + 5 * c4 < 18446744073709551616 := by omega
    have k6 : (w1 + c0) % 67108864 + c5 < 4294967296 := by omega
    simp only [k0, k1, k2, k3, k4, k5, k6, and_self, ↓reduceIte, ok_bind, decide_true, require_true, Except.ok.injEq,
      exists_eq_left']
    simp only [List.mem_cons, List.not_mem_nil, or_false, forall_eq_or_imp, forall_eq]
    omega
  · obtain ⟨hwd, -, -, hb0⟩ := r44_geometry hg
    obtain ⟨-, hd, hr, hN, hW⟩ := hg
    rw [hN] at hl
    obtain ⟨w0, w1, w2, rfl⟩ := three_limbs hl
    simp only [hr, List.mem_cons, List.not_mem_nil, or_false, forall_eq_or_imp, forall_eq] at hw
    norm_num at hw
    obtain ⟨h0, h1, h2⟩ := hw
    simp only [carryLimbs, Config.pass, hwd, carryPass, foldCarry, hb0, hW, hd, mustFit, fits, List.all_cons,
      List.all_nil, Bool.and_true, hr]
    norm_num
    have e0 := Nat.div_lt_of_lt_mul (m := w0) (n := 17592186044416) (k := 2 ^ 73) (by omega)
    have e1 := Nat.div_lt_of_lt_mul (m := w1 + w0 / 17592186044416) (n := 17592186044416) (k := 2 ^ 74) (by omega)
    have e2 := Nat.div_lt_of_lt_mul (m := w2 + (w1 + w0 / 17592186044416) / 17592186044416) (n := 4398046511104)
      (k := 2 ^ 76) (by omega)
    generalize w0 / 17592186044416 = c0 at *
    generalize (w1 + c0) / 17592186044416 = c1 at *
    generalize (w2 + c1) / 4398046511104 = c2 at *
    have m0 := Nat.mod_lt w0 (show 17592186044416 > 0 by norm_num)
    have m1 := Nat.mod_lt (w1 + c0) (show 17592186044416 > 0 by norm_num)
    have m2 := Nat.mod_lt (w2 + c1) (show 4398046511104 > 0 by norm_num)
    generalize w0 % 17592186044416 = y0 at *
    have e5 := Nat.div_lt_of_lt_mul (m := y0 + 5 * c2) (n := 17592186044416) (k := 2 ^ 35) (by omega)
    have m5 := Nat.mod_lt (y0 + 5 * c2) (show 17592186044416 > 0 by norm_num)
    generalize (y0 + 5 * c2) / 17592186044416 = c5 at *
    norm_num at e0 e1 e2 e5
    have k0 : w0 < 340282366920938463463374607431768211456 := by omega
    have k1 : w1 + c0 < 340282366920938463463374607431768211456 := by omega
    have k2 : w2 + c1 < 340282366920938463463374607431768211456 := by omega
    have k5 : y0 + 5 * c2 < 340282366920938463463374607431768211456 := by omega
    have k6 : (w1 + c0) % 17592186044416 + c5 < 18446744073709551616 := by omega
    simp only [k0, k1, k2, k5, k6, and_self, ↓reduceIte, ok_bind, decide_true, require_true, Except.ok.injEq,
      exists_eq_left']
    simp only [List.mem_cons, List.not_mem_nil, or_false, forall_eq_or_imp, forall_eq]
    omega

/-! ## REDUCE (R103 to R106) -/

/-- Adding to limb 0 adds to the value. -/
theorem val_addToLimb0 (c : Config) (x : Nat) {a : Limbs} (h : a ≠ []) :
    c.val (addToLimb0 x a) = c.val a + x := by
  cases a with
  | nil => exact absurd rfl h
  | cons a as => simp only [addToLimb0, val_cons]; omega

@[simp] theorem addToLimb0_length (x : Nat) (a : Limbs) : (addToLimb0 x a).length = a.length := by
  cases a <;> simp [addToLimb0]

/-- A vector of N limbs is not empty. -/
theorem ne_nil_of_length {c : Config} (h : WfFacts c) {a : Limbs} (hl : a.length = c.N) : a ≠ [] := by
  have := h.twoLimbs
  rintro rfl
  simp at hl; omega

/-- The carry of a stored vector is at most `C1MAX` (R103). -/
theorem pass_carry_le {c : Config} (h : WfFacts c) {a : Limbs} (ha : c.narrow a = true) :
    (c.pass a).carry ≤ c.c1max := by
  simp only [Config.narrow, Bool.and_eq_true, decide_eq_true_eq, fits_iff] at ha
  have hmono : ∀ (xs : Limbs), (∀ l ∈ xs, l < 2 ^ c.W) →
      c.val xs ≤ c.val (List.replicate xs.length (2 ^ c.W - 1)) := by
    intro xs
    induction xs with
    | nil => simp
    | cons x xs ih =>
      intro hx
      simp only [List.mem_cons, forall_eq_or_imp] at hx
      have := ih hx.2
      simp only [List.length_cons, List.replicate_succ, val_cons]
      have h1 : x ≤ 2 ^ c.W - 1 := by omega
      exact Nat.add_le_add h1 (Nat.mul_le_mul_left _ this)
  rw [Config.c1max, (pass_divmod h ha.1).1, (pass_divmod h (by simp)).1]
  apply Nat.div_le_div_right
  have := hmono a ha.2
  rwa [ha.1] at this

/-- One pass-and-fold on N limbs: it keeps the value but for a multiple of p (R103). -/
theorem val_npf {c : Config} (h : WfFacts c) {a : Limbs} (hl : a.length = c.N) :
    c.val (npf c a) + (c.pass a).carry * c.p = c.val a ∧ (npf c a).length = c.N := by
  obtain ⟨ht, hv⟩ := pass_spec h hl
  have hlen := tight_length h ht
  refine ⟨?_, by simp [npf, hlen]⟩
  rw [npf, val_addToLimb0 _ _ (ne_nil_of_length h hlen), hv, ← p_add_delta h]
  ring

/-- Adding to limb 0 of a tight vector keeps it tight while the value stays below `2^b[0]`. -/
theorem addToLimb0_tight {c : Config} (h : WfFacts c) {x : Nat} {a : Limbs} (ha : c.tight a = true)
    (hx : c.val a + x < 2 ^ c.b 0) : c.tight (addToLimb0 x a) = true := by
  have h2 := h.twoLimbs
  rw [b_zero h] at hx
  obtain ⟨m, hm⟩ : ∃ m, c.N - 1 = m + 1 := ⟨c.N - 2, by omega⟩
  simp only [Config.tight, Config.widths, hm, List.replicate_succ, List.cons_append] at ha ⊢
  cases a with
  | nil => simp [below] at ha
  | cons y ys =>
    simp only [below, Bool.and_eq_true, decide_eq_true_eq, addToLimb0, val_cons] at ha hx ⊢
    have := Nat.zero_le (2 ^ c.r * c.val ys)
    exact ⟨by omega, ha.2⟩

/-- The normalisation lemma (R104): two rounds make any stored vector tight and keep its value modulo p. -/
theorem npf_npf {c : Config} (h : WfFacts c) {a : Limbs} (ha : c.narrow a = true) :
    c.tight (npf c (npf c a)) = true ∧ c.val (npf c (npf c a)) % c.p = c.val a % c.p := by
  have hc1 := pass_carry_le h ha
  have hl : a.length = c.N := by
    simp only [Config.narrow, Bool.and_eq_true, decide_eq_true_eq] at ha; exact ha.1
  obtain ⟨hv1, hl1⟩ := val_npf h hl
  obtain ⟨hv2, hl2⟩ := val_npf h hl1
  have hmod : c.val (npf c (npf c a)) % c.p = c.val a % c.p := by
    rw [← hv1, ← hv2, Nat.add_mul_mod_self_right, Nat.add_mul_mod_self_right]
  refine ⟨?_, hmod⟩
  obtain ⟨ht1, hp1⟩ := pass_spec h hl
  have hlt1 := tight_val_lt h ht1
  have hval1 : c.val (npf c a) = c.val (c.pass a).y + c.DELTA * (c.pass a).carry :=
    val_addToLimb0 _ _ (ne_nil_of_length h (tight_length h ht1))
  obtain ⟨ht2, hp2⟩ := pass_spec h hl1
  have hlt2 := tight_val_lt h ht2
  have hb := h.carryBound
  have hd : c.DELTA * (c.pass a).carry ≤ c.DELTA * c.c1max := Nat.mul_le_mul_left _ hc1
  rw [Nat.mul_add, Nat.mul_one] at hb
  have hbp : 2 ^ c.b 0 ≤ 2 ^ c.PBITS := by
    rw [b_zero h]
    apply Nat.pow_le_pow_right (by norm_num)
    have := widths_bits h
    have h2 := h.twoLimbs
    have : c.r * 1 ≤ c.r * (c.N - 1) := Nat.mul_le_mul_left _ (by omega)
    omega
  have hsmall : (c.pass (npf c a)).carry ≤ 1 := by
    by_contra hcon
    have : 2 * 2 ^ c.PBITS ≤ (c.pass (npf c a)).carry * 2 ^ c.PBITS := Nat.mul_le_mul_right _ (by omega)
    omega
  rw [npf]
  interval_cases hq : (c.pass (npf c a)).carry
  · cases hz : (c.pass (npf c a)).y with
    | nil => exact absurd hz (ne_nil_of_length h (tight_length h ht2))
    | cons z zs => simpa [addToLimb0, hz] using ht2
  · apply addToLimb0_tight h ht2
    omega

/-- The value of the limbs of p is p (R106). -/
theorem val_primeLimbs {c : Config} (h : WfFacts c) :
    c.val (primeLimbs c) = c.p ∧ (primeLimbs c).length = c.N := by
  rcases h.geometry with hg | hg
  · obtain ⟨hwd, -, hp, -⟩ := r26_geometry hg
    obtain ⟨-, hd, hr, hN, -⟩ := hg
    simp [primeLimbs, hwd, hp, hd, hr, hN]
  · obtain ⟨hwd, -, hp, -⟩ := r44_geometry hg
    obtain ⟨-, hd, hr, hN, -⟩ := hg
    simp [primeLimbs, hwd, hp, hd, hr, hN]

/-- The subtraction with borrow: `val(g) + bo*2^bits = val(d) + val(q) + bin`, `d` is below the widths and the
final borrow is 0 or 1 (R106). -/
theorem subBorrow_spec (c : Config) (m t : Nat) (g q : Limbs) (bin : Nat) (hb : bin ≤ 1)
    (hg : below (List.replicate m c.r ++ [t]) g = true) (hq : below (List.replicate m c.r ++ [t]) q = true) :
    below (List.replicate m c.r ++ [t]) (subBorrow (List.replicate m c.r ++ [t]) g q bin).1 = true ∧
    (subBorrow (List.replicate m c.r ++ [t]) g q bin).2 ≤ 1 ∧
    c.val g + (subBorrow (List.replicate m c.r ++ [t]) g q bin).2 * 2 ^ (c.r * m + t) =
      c.val (subBorrow (List.replicate m c.r ++ [t]) g q bin).1 + c.val q + bin := by
  have limb : ∀ (b x y bin : Nat), x < 2 ^ b → y < 2 ^ b → bin ≤ 1 →
      ∃ d bo : Nat, (((x : Int) - y - bin) % ((2 : Int) ^ b)).toNat = d ∧
        (if ((x : Int) - y - bin) < 0 then 1 else 0) = bo ∧ d < 2 ^ b ∧ bo ≤ 1 ∧ x + bo * 2 ^ b = d + y + bin := by
    intro b x y bin hx hy hbin
    have hpos : (0 : Int) < 2 ^ b := by positivity
    have hx' : (x : Int) < 2 ^ b := by exact_mod_cast hx
    have hy' : (y : Int) < 2 ^ b := by exact_mod_cast hy
    have hcast : ((2 ^ b : Nat) : Int) = 2 ^ b := by push_cast; rfl
    by_cases hneg : ((x : Int) - y - bin) < 0
    · refine ⟨_, 1, rfl, by simp [hneg], ?_, le_refl _, ?_⟩
      · have : ((x : Int) - y - bin) % 2 ^ b = (x : Int) - y - bin + 2 ^ b := by
          rw [← Int.add_emod_right, Int.emod_eq_of_lt (by omega) (by omega)]
        rw [this]; omega
      · have : ((x : Int) - y - bin) % 2 ^ b = (x : Int) - y - bin + 2 ^ b := by
          rw [← Int.add_emod_right, Int.emod_eq_of_lt (by omega) (by omega)]
        rw [this]; omega
    · have : ((x : Int) - y - bin) % 2 ^ b = (x : Int) - y - bin := Int.emod_eq_of_lt (by omega) (by omega)
      refine ⟨_, 0, rfl, by simp [hneg], ?_, by omega, ?_⟩
      · rw [this]; omega
      · rw [this]; omega
  induction m generalizing g q bin with
  | zero =>
    match g, q with
    | [x], [y] =>
      simp only [List.replicate_zero, List.nil_append, below, Bool.and_true, decide_eq_true_eq] at hg hq
      obtain ⟨d, bo, h1, h2, h3, h4, h5⟩ := limb t x y bin hg hq hb
      simp only [List.replicate_zero, List.nil_append, subBorrow, h1, h2, below, Bool.and_true, decide_eq_true_eq,
        val_cons, val_nil, Nat.mul_zero, Nat.add_zero, Nat.zero_add]
      exact ⟨h3, h4, h5⟩
    | [], _ => simp [below] at hg
    | _ :: _ :: _, _ => simp [below] at hg
    | [_], [] => simp [below] at hq
    | [_], _ :: _ :: _ => simp [below] at hq
  | succ m ih =>
    match g, q with
    | [], _ => simp [List.replicate_succ, below] at hg
    | _ :: _, [] => simp [List.replicate_succ, below] at hq
    | x :: xs, y :: ys =>
      simp only [List.replicate_succ, List.cons_append, below, Bool.and_eq_true, decide_eq_true_eq] at hg hq
      obtain ⟨d, bo, h1, h2, h3, h4, h5⟩ := limb c.r x y bin hg.1 hq.1 hb
      obtain ⟨i1, i2, i3⟩ := ih xs ys bo h4 hg.2 hq.2
      simp only [List.replicate_succ, List.cons_append, subBorrow, h1, h2, below, Bool.and_eq_true, decide_eq_true_eq,
        val_cons]
      refine ⟨⟨h3, i1⟩, i2, ?_⟩
      have hpow : 2 ^ (c.r * (m + 1) + t) = 2 ^ c.r * 2 ^ (c.r * m + t) := by rw [← pow_add]; congr 1; ring
      rw [hpow]
      generalize subBorrow (List.replicate m c.r ++ [t]) xs ys bo = out at *
      calc x + 2 ^ c.r * c.val xs + out.2 * (2 ^ c.r * 2 ^ (c.r * m + t))
          = x + 2 ^ c.r * (c.val xs + out.2 * 2 ^ (c.r * m + t)) := by ring
        _ = (x + bo * 2 ^ c.r) + 2 ^ c.r * (c.val out.1 + c.val ys) := by rw [i3]; ring
        _ = _ := by rw [h5]; ring

/-- The mask is all ones: the first candidate (R106). -/
theorem maskSelect_ones {W : Nat} {g d : Limbs} (hl : g.length = d.length) (hg : fits W g = true) :
    maskSelect W (2 ^ W - 1) g d = g := by
  rw [fits_iff] at hg
  induction g generalizing d with
  | nil => simp [maskSelect]
  | cons x xs ih =>
    cases d with
    | nil => simp at hl
    | cons y ys =>
      simp only [List.mem_cons, forall_eq_or_imp] at hg
      have := ih (by simpa using hl) hg.2
      simp only [maskSelect] at this ⊢
      rw [List.zipWith_cons_cons, this]
      simp [Nat.and_two_pow_sub_one_eq_mod, Nat.mod_eq_of_lt hg.1]

/-- The mask is zero: the second candidate (R106). -/
theorem maskSelect_zero {W : Nat} {g d : Limbs} (hl : g.length = d.length) (hd : fits W d = true) :
    maskSelect W 0 g d = d := by
  rw [fits_iff] at hd
  induction g generalizing d with
  | nil => cases d <;> simp_all [maskSelect]
  | cons x xs ih =>
    cases d with
    | nil => simp at hl
    | cons y ys =>
      simp only [List.mem_cons, forall_eq_or_imp] at hd
      have := ih (by simpa using hl) hd.2
      simp only [maskSelect] at this ⊢
      rw [List.zipWith_cons_cons, this]
      simp [Nat.and_two_pow_sub_one_eq_mod, Nat.mod_eq_of_lt hd.1]

/-- The limbs of p are tight (R106). -/
theorem primeLimbs_tight {c : Config} (h : WfFacts c) : c.tight (primeLimbs c) = true := by
  rcases h.geometry with hg | hg
  · obtain ⟨hwd, -, -, -⟩ := r26_geometry hg
    obtain ⟨-, hd, -, -, -⟩ := hg
    simp [Config.tight, primeLimbs, hwd, hd, below]
  · obtain ⟨hwd, -, -, -⟩ := r44_geometry hg
    obtain ⟨-, hd, -, -, -⟩ := hg
    simp [Config.tight, primeLimbs, hwd, hd, below]

/-- The conditional subtraction on a tight vector: tight, and its value is `val(g) mod p` (R106). -/
theorem condsub_spec {c : Config} (h : WfFacts c) {g : Limbs} (hg : c.tight g = true) :
    c.tight (condsub c g) = true ∧ c.val (condsub c g) = c.val g % c.p := by
  obtain ⟨h1, h2, h3⟩ := subBorrow_spec c (c.N - 1) (c.r - c.e) g (primeLimbs c) 0 (by omega) hg (primeLimbs_tight h)
  rw [widths_bits h, (val_primeLimbs h).1] at h3
  have hlt := tight_val_lt h hg
  have hpd := p_add_delta h
  have hdp := delta_lt_p h
  have hgf : fits c.W g = true := below_fits hg (fun b hb => (widths_le c b hb).trans h.radix.le)
  have hdt : c.tight (subBorrow c.widths g (primeLimbs c) 0).1 = true := h1
  have hdlt := tight_val_lt h hdt
  have hdf : fits c.W (subBorrow c.widths g (primeLimbs c) 0).1 = true :=
    below_fits hdt (fun b hb => (widths_le c b hb).trans h.radix.le)
  have hlen : g.length = (subBorrow c.widths g (primeLimbs c) 0).1.length := by
    rw [tight_length h hg, tight_length h hdt]
  change (subBorrow c.widths g (primeLimbs c) 0).2 ≤ 1 at h2
  change c.val g + (subBorrow c.widths g (primeLimbs c) 0).2 * 2 ^ c.PBITS =
    c.val (subBorrow c.widths g (primeLimbs c) 0).1 + c.p + 0 at h3
  simp only [condsub]
  generalize subBorrow c.widths g (primeLimbs c) 0 = out at *
  obtain ⟨d, bo⟩ := out
  simp only at *
  interval_cases bo
  · rw [Nat.mul_zero, maskSelect_zero hlen hdf]
    refine ⟨hdt, ?_⟩
    rw [Nat.mod_eq_sub_mod (by omega), Nat.mod_eq_of_lt (by omega)]
    omega
  · rw [Nat.mul_one, maskSelect_ones hlen hgf]
    exact ⟨hg, (Nat.mod_eq_of_lt (by omega)).symm⟩

/-- `REDUCE` on a stored narrow vector: tight, and its value is `val(a) mod p` (R105). -/
theorem reduceLimbs_spec {c : Config} (h : WfFacts c) {a : Limbs} (ha : c.narrow a = true) :
    c.tight (reduceLimbs c a) = true ∧ c.val (reduceLimbs c a) = c.val a % c.p := by
  obtain ⟨h1, h2⟩ := npf_npf h ha
  obtain ⟨h3, h4⟩ := condsub_spec h h1
  exact ⟨h3, by rw [← h2]; exact h4⟩

/-- `REDUCE` by one line: the split of `val(a) mod p` (R105). -/
theorem reduceLimbs_eq {c : Config} (h : WfFacts c) {a : Limbs} (ha : c.narrow a = true) :
    reduceLimbs c a = splitInt c (c.val a % c.p) := by
  obtain ⟨h1, h2⟩ := reduceLimbs_spec h ha
  rw [← h2, splitInt_val h h1]

/-- p is positive. -/
theorem p_pos {c : Config} (h : WfFacts c) : 0 < c.p := lt_of_le_of_lt (Nat.zero_le _) (delta_lt_p h)

/-- The result of REDUCE is below p (R107(a)). -/
theorem val_reduceLimbs_lt {c : Config} (h : WfFacts c) {a : Limbs} (ha : c.narrow a = true) :
    c.val (reduceLimbs c a) < c.p := by
  rw [(reduceLimbs_spec h ha).2]; exact Nat.mod_lt _ (p_pos h)

end Sys2Proof.Machine
end

