-- ==== Sys2Proof/Laws/Product.lean ====
section
/-! SUPPORT. The adder and the multiplier limb by limb: when their checks pass, and the product as the double sum of
40_field_arith.md R94 with its exact value law (R95). -/

namespace Sys2Proof.Machine

/-- A bound on every limb, by position or by membership. -/
theorem getD_lt_iff {x : Limbs} {n : Nat} (h : x.length = n) (B : Nat) : (∀ i, i < n → x.getD i 0 < B) ↔ ∀ l ∈ x, l
    < B := by
  constructor
  · intro hh l hl
    obtain ⟨i, hi, rfl⟩ := List.mem_iff_getElem.1 hl
    have := hh i (by omega)
    rwa [List.getD_eq_getElem?_getD, List.getElem?_eq_getElem hi] at this
  · intro hh i hi
    rw [List.getD_eq_getElem?_getD, List.getElem?_eq_getElem (by omega)]
    exact hh _ (List.getElem_mem _)

/-- A limb of a sum (40_field_arith.md R92). -/
theorem sumLimbs_getD {a b : Limbs} {i n : Nat} (ha : a.length = n) (hb : b.length = n)
    (hi : i < n) : (sumLimbs a b).getD i 0 = a.getD i 0 + b.getD i 0 := by
  simp only [sumLimbs, List.getD_eq_getElem?_getD]
  rw [List.getElem?_eq_getElem (by simp; omega), List.getElem?_eq_getElem (by omega), List.getElem?_eq_getElem (by omega)]
  simp

/-- When a sum passes its storage check (R92, R93). -/
theorem sumLimbs_fits_iff {a b : Limbs} {n w : Nat} (ha : a.length = n) (hb : b.length = n) :
   fits w (sumLimbs a b) = true ↔ ∀ i, i < n → a.getD i 0 + b.getD i 0 < 2 ^ w := by
  rw [fits_iff, ← getD_lt_iff (n := n) (by simp [ha, hb])]
  constructor
  · intro h i hi; rw [← sumLimbs_getD ha hb hi]; exact h i hi
  · intro h i hi; rw [sumLimbs_getD ha hb hi]; exact h i hi

/-- When the scaled limbs pass their storage check (R95, R97). -/
theorem scaledLimbs_fits_iff {c : Config} {b : Limbs} (hb : b.length = c.N) : fits c.W (scaledLimbs c b) = true ↔
    ∀ j, 1 ≤ j → j < c.N → c.fold * b.getD j 0 < 2 ^ c.W := by
  rw [fits_iff, ← getD_lt_iff (n := c.N - 1) (by simp [scaledLimbs, hb])]
  constructor
  · intro h j h1 h2
    have := h (j - 1) (by omega)
    rwa [scaledLimbs_getD, show j - 1 + 1 = j by omega] at this
  · intro h i hi
    rw [scaledLimbs_getD]; exact h (i+1) (by omega) (by omega)

/-- A limb of `mulcore` is the double sum of R94. -/
theorem mulcore_productLimb {c : Config} {a b : Limbs} {k : Nat} (hk : k < c.N) :
    (mulcore c.N a b (scaledLimbs c b)).getD k 0 = productLimb c a b k := by
  unfold mulcore productLimb
  rw [List.getD_eq_getElem?_getD, List.getElem?_map, List.getElem?_range hk]
  simp only [Option.map_some, Option.getD_some]
  congr 1
  apply List.map_congr_left
  intro i hi
  rw [List.mem_range] at hi
  have key : ∀ (f : Nat → Nat) (j0 : Nat), j0 < c.N → (∀ j, j < c.N → j ≠ j0 → f j = 0) →
    ((List.range c.N).map f).sum = f j0 := by
    intro f j0 hj0 h0
    rw [← List.sum_toFinset _ List.nodup_range, Finset.sum_eq_single j0]
    · intro j hj hne; simp at hj; exact h0 j hj hne
    · intro hn; simp at hn; omega
  unfold mulTerm
  by_cases hik : i ≤ k
  · rw [if_pos hik, key _ (k - i) (by omega)]
    · rw [if_pos (by omega)]
    · intro j hj hne
      rw [if_neg (by omega), if_neg (by omega)]
  · rw [if_neg hik, key _ (k + c.N - i) (by omega)]
    · rw [if_neg (by omega), if_pos (by omega), scaledLimbs_getD, show k + c.N - i - 1 + 1 = k + c.N - i by omega]
    · intro j hj hne
      rw [if_neg (by omega), if_neg (by omega)]

/-- When the product passes its storage check (R94). -/
theorem mulcore_fits_iff {c : Config} {a b : Limbs} {w : Nat} : fits w (mulcore c.N a b (scaledLimbs c b)) = true ↔
    ∀ k, k < c.N → productLimb c a b k < 2 ^ w := by
  rw [fits_iff, ← getD_lt_iff (n := c.N) (by simp)]
  constructor
  · intro h j h1; have := h j h1; rwa [mulcore_productLimb h1] at this
  · intro h j h1; rw [mulcore_productLimb h1]; exact h j h1

/-- The double sum is symmetric in its operands (R94). -/
theorem productLimb_symm (c : Config) (a b : Limbs) (k : Nat) : productLimb c a b k = productLimb c b a k := by
  unfold productLimb
  simp only [← List.sum_toFinset _ List.nodup_range]
  rw [Finset.sum_comm]
  apply Finset.sum_congr rfl; intro i _; apply Finset.sum_congr rfl; intro j _
  rw [Nat.add_comm j i]
  split_ifs <;> ring

/-- The folded terms for three limbs (R95). -/
theorem highPart_three {c : Config} (hN : c.N = 3) (a0 a1 a2 b0 b1 b2 : Nat) :
    highPart c [a0, a1, a2] [b0, b1, b2] =
      a1 * b2 + a2 * b1 + (a2 * b2) * 2 ^ c.r := by
  simp only [highPart, hN, List.range_succ, List.range_zero, List.nil_append, List.cons_append, List.map_cons,
    List.map_nil, List.sum_cons, List.sum_nil]
  simp
  ring

/-- The folded terms for five limbs (R95). -/
theorem highPart_five {c : Config} (hN : c.N = 5) (a0 a1 a2 a3 a4 b0 b1 b2 b3 b4 : Nat) :
    highPart c [a0, a1, a2, a3, a4] [b0, b1, b2, b3, b4] =
      a1 * b4 + a2 * b3 + a3 * b2 + a4 * b1 + (a2 * b4 + a3 * b3 + a4 * b2) * 2 ^ c.r +
          (a3 * b4 + a4 * b3) * 2 ^ (c.r * 2) + (a4 * b4) * 2 ^ (c.r * 3) := by
  simp only [highPart, hN, List.range_succ, List.range_zero, List.nil_append, List.cons_append, List.map_cons,
    List.map_nil, List.sum_cons, List.sum_nil]
  simp
  ring

/-- The exact value law of the product (R95). -/
theorem mul_exact {c : Config} (h : WfFacts c) {a b : Limbs} (ha : a.length = c.N) (hb : b.length = c.N) :
    c.val (mulcore c.N a b (scaledLimbs c b)) + c.p * 2 ^ c.e * highPart c a b = c.val a * c.val b := by
  rcases h.geometry with hg | hg
  · obtain ⟨-, hf, hp, -⟩ := r26_geometry hg
    obtain ⟨hP, -, hr, hN, -⟩ := hg
    have he : c.e = 0 := by simp [Config.e, hN, hr, hP]
    rw [hN] at ha hb
    obtain ⟨a0, a1, a2, a3, a4, rfl⟩ := five_limbs ha
    obtain ⟨b0, b1, b2, b3, b4, rfl⟩ := five_limbs hb
    simp only [highPart_five hN, he, scaledLimbs, List.drop_succ_cons, List.drop_zero, List.map_cons, List.map_nil, hN,
      mulcore_five,
        val_cons, val_nil, hr, hf, hp]
    norm_num
    ring
  · obtain ⟨-, hf, hp, -⟩ := r44_geometry hg
    obtain ⟨hP, -, hr, hN, -⟩ := hg
    have he : c.e = 2 := by simp [Config.e, hN, hr, hP]
    rw [hN] at ha hb
    obtain ⟨a0, a1, a2, rfl⟩ := three_limbs ha
    obtain ⟨b0, b1, b2, rfl⟩ := three_limbs hb
    simp only [highPart_three hN, he, scaledLimbs, List.drop_succ_cons, List.drop_zero, List.map_cons, List.map_nil,
      hN, mulcore_three,
        val_cons, val_nil, hr, hf, hp]
    norm_num
    ring

/-- SQR and MUL with one source have the same operand ranges (R96). -/
theorem ready_sqr_mul {s : State} {wd fa : RegNo} (h : Ready (.sqr wd fa) s) : Ready (.mul wd fa fa) s := by
  refine ⟨h.1, ?_⟩
  have := h.2
  simp only [Instr.wf, Instr.check, registersThen] at this ⊢
  revert this
  cases wd.inFile s.cfg.NW <;> cases fa.inFile s.cfg.NF <;> simp

end Sys2Proof.Machine
end

