-- ==== Sys2Proof/Laws/Carry.lean ====
section
/-! SUPPORT. CARRY and the limbs of tight vectors: the pass is a split with a quotient, CARRY taken apart into its
three checks (40_field_arith.md R100 to R102), and a tight vector read off its value (00_scope.md R15). -/

namespace Sys2Proof.Machine

/-- The pass leaves a tight vector alone, with no carry (R100). -/
theorem carryPass_below (bs : List Nat) (xs : Limbs) (h : below bs xs = true) : carryPass bs xs 0 = ⟨xs, xs, 0⟩ := by
  induction bs generalizing xs with
  | nil => cases xs <;> simp_all [below, carryPass]
  | cons b bs ih =>
    cases xs with
    | nil => simp [below] at h
    | cons x xs =>
      simp only [below, Bool.and_eq_true, decide_eq_true_eq] at h
      simp [carryPass, Nat.div_eq_of_lt h.1, ih xs h.2, Nat.mod_eq_of_lt h.1]

/-- The pass by value: the split of the remainder, and the quotient as carry (R100). -/
theorem pass_eq {c : Config} (h : WfFacts c) {w : Limbs} (hl : w.length = c.N) :
    (c.pass w).y = splitInt c (c.val w % 2 ^ c.PBITS) ∧ (c.pass w).carry = c.val w / 2 ^ c.PBITS := by
  obtain ⟨h1, h2⟩ := pass_divmod h hl
  refine ⟨?_, h1⟩
  rw [← h2, splitInt_val h (pass_spec h hl).1]

/-- A vector of N limbs has a limb 0 and a limb 1 (00_scope.md R9(a)). -/
theorem two_limbs {c : Config} (h : WfFacts c) {y : Limbs} (hl : y.length = c.N) : ∃ y0 y1 ys, y = y0 :: y1 :: ys
    := by
  have := h.twoLimbs
  match y, hl with
  | [], hl => simp at hl; omega
  | [_], hl => simp at hl; omega
  | y0 :: y1 :: ys, _ => exact ⟨y0, y1, ys, rfl⟩

/-- Each limb of a vector within the widths is below its own. -/
theorem getD_below : ∀ (bs : List Nat) (xs : Limbs), below bs xs = true → ∀ i, i < xs.length → xs.getD i 0 < 2 ^
    bs.getD i 0 := by
  intro bs
  induction bs with
  | nil => intro xs hx i hi; cases xs <;> simp_all [below]
  | cons b bs ih =>
    intro xs hx i hi
    cases xs with
    | nil => simp at hi
    | cons x xs =>
      simp only [below, Bool.and_eq_true, decide_eq_true_eq] at hx
      cases i with
      | zero => simpa using hx.1
      | succ i => simpa using ih xs hx.2 i (by simpa using hi)

/-- CARRY answers exactly when its three checks pass, else it is `E_OVERFLOW` (R101). -/
theorem carryLimbs_cases {c : Config} {w : Limbs} {y0 y1 ys} (hy : (c.pass w).y = y0 :: y1 :: ys) :
    let q := (c.pass w).carry
    let u := y0 + c.DELTA * q
    ((fits (2 * c.W) (c.pass w).t = true ∧ u < 2 ^ (2 * c.W) ∧ y1 + u / 2 ^ c.b 0 < 2 ^ c.W) →
       carryLimbs c w = .ok (u % 2 ^ c.b 0 :: (y1 + u / 2 ^ c.b 0) :: ys)) ∧
    (¬(fits (2 * c.W) (c.pass w).t = true ∧ u < 2 ^ (2 * c.W) ∧ y1 + u / 2 ^ c.b 0 < 2 ^ c.W) → carryLimbs c w =
    .error .overflow) := by
  intro q u
  constructor
  · rintro ⟨h1, h2, h3⟩
    refine bind_eq_ok.2 ⟨_, mustFit_eq_ok.2 ⟨h1, rfl⟩, ?_⟩
    rw [hy]
    exact bind_eq_ok.2 ⟨(), require_eq_ok.2 (by simpa using h2), bind_eq_ok.2 ⟨(), require_eq_ok.2 (by simpa using h3),
      rfl⟩⟩
  · intro hn
    cases hc : carryLimbs c w with
    | error e => rw [carryLimbs_error hc]
    | ok z =>
      exfalso; apply hn
      obtain ⟨t, ht, hc⟩ := bind_eq_ok.1 hc
      rw [hy] at hc
      obtain ⟨_, h1, hc⟩ := bind_eq_ok.1 hc
      obtain ⟨_, h2, hc⟩ := bind_eq_ok.1 hc
      exact ⟨(mustFit_eq_ok.1 ht).1, by simpa using require_eq_ok.1 h1, by simpa using require_eq_ok.1 h2⟩

/-- The value with the first two limbs apart. -/
theorem val_cons_cons {c : Config} (a0 a1 : Nat) (as : Limbs) : c.val (a0 :: a1 :: as) = a0 + 2 ^ c.r * a1 + 2 ^
    c.r * (2 ^ c.r * c.val as) := by
  simp; ring

/-- Limb 1 has width `r` (00_scope.md R8). -/
theorem b_one {c : Config} (h : WfFacts c) : c.b 1 = c.r := by
  rcases h.geometry with hg | hg
  · simp [Config.b, (r26_geometry hg).1, hg.2.2.1]
  · simp [Config.b, (r44_geometry hg).1, hg.2.2.1]

/-- A limb of a split (41_data_format.md R130). -/
theorem splitInt_getD {c : Config} {x i : Nat} (hi : i < c.N) : (splitInt c x).getD i 0 = if i + 1 < c.N then x / 2
    ^ (c.r * i) % 2 ^ c.r else x / 2 ^ (c.r * i) := by
  rw [splitInt, List.getD_eq_getElem?_getD, List.getElem?_map, List.getElem?_range hi]; rfl

/-- A tight vector holds the digits of its value. -/
theorem tight_digits {c : Config} (h : WfFacts c) {x : Limbs} (hx : c.tight x = true) {i : Nat} (hi : i < c.N) :
    x.getD i 0 = c.val x / 2 ^ (c.r * i) % 2 ^ c.b i := by
  have hbl := getD_below _ _ hx i (by rw [tight_length h hx]; exact hi)
  have : x.getD i 0 = (splitInt c (c.val x)).getD i 0 := by rw [splitInt_val h hx]
  rw [splitInt_getD hi] at this
  split at this
  · have hb : c.b i = c.r := by
      have : i < c.N - 1 := by omega
      simp [Config.b, Config.widths, List.getD_eq_getElem?_getD, List.getElem?_append, this]
    rw [hb]; exact this
  · rw [← this, Nat.mod_eq_of_lt]; exact hbl

/-- REDUCE of a reduced vector is that vector (R107). -/
theorem reduceLimbs_idem {c : Config} (W : WfFacts c) {a : Limbs}
    (ha : c.narrow a = true) : reduceLimbs c (reduceLimbs c a) = reduceLimbs c a := by
  have h1 := reduceLimbs_spec W ha
  have h2 := reduceLimbs_spec W (tight_narrow W h1.1)
  exact tight_unique h2.1 h1.1 (by rw [h2.2, h1.2, Nat.mod_mod])

/-- The recurrence of the pass, limb by limb (R100). -/
theorem carryPass_rec (bs : List Nat) : ∀ (xs : Limbs) (cin : Nat), xs.length = bs.length →
    (carryPass bs xs cin).t.length = bs.length ∧
    (∀ i, i < bs.length → (carryPass bs xs cin).t.getD i 0 =
      xs.getD i 0 + (if i = 0 then cin else (carryPass bs xs cin).t.getD (i - 1) 0 / 2 ^ bs.getD (i - 1) 0)) ∧
    (∀ i, i < bs.length → (carryPass bs xs cin).y.getD i 0 = (carryPass bs xs cin).t.getD i 0 % 2 ^ bs.getD i 0) ∧
    (carryPass bs xs cin).carry = if bs.length = 0 then cin else
      (carryPass bs xs cin).t.getD (bs.length - 1) 0 / 2 ^ bs.getD (bs.length - 1) 0 := by
  induction bs with
  | nil => intro xs cin _; cases xs <;> simp [carryPass]
  | cons b bs ih =>
    intro xs cin hl
    match xs, hl with
    | x :: xs, hl =>
      obtain ⟨h1, h2, h3, h4⟩ := ih xs ((x + cin) / 2 ^ b) (by simpa using hl)
      simp only [carryPass]
      generalize carryPass bs xs ((x + cin) / 2 ^ b) = o at *
      refine ⟨by simp [h1], ?_, ?_, ?_⟩
      · intro i hi
        cases i with
        | zero => simp
        | succ i =>
          have := h2 i (by simpa using hi)
          simp only [List.getD_cons_succ, this, Nat.add_sub_cancel, if_neg (Nat.succ_ne_zero i)]
          cases i with
          | zero => simp
          | succ i => simp
      · intro i hi
        cases i with
        | zero => simp
        | succ i => simpa using h3 i (by simpa using hi)
      · rw [h4]
        cases bs with
        | nil => simp
        | cons b' bs => simp

/-- The sums and the carry of the pass never decrease when a limb grows (R100). -/
theorem carryPass_mono (bs : List Nat) : ∀ (xs zs : Limbs) (cin cin' : Nat), xs.length = bs.length → zs.length =
    bs.length →
    (∀ i, xs.getD i 0 ≤ zs.getD i 0) → cin ≤ cin' →
    (carryPass bs xs cin).carry ≤ (carryPass bs zs cin').carry ∧
    ∀ i, (carryPass bs xs cin).t.getD i 0 ≤ (carryPass bs zs cin').t.getD i 0 := by
  induction bs with
  | nil => intro xs zs cin cin' _ _ _ h; cases xs <;> cases zs <;> simp [carryPass, h]
  | cons b bs ih =>
    intro xs zs cin cin' hx hz hle hc
    match xs, zs, hx, hz with
    | x :: xs, z :: zs, hx, hz =>
      have h0 : x ≤ z := by simpa using hle 0
      obtain ⟨h1, h2⟩ := ih xs zs ((x + cin) / 2 ^ b) ((z + cin') / 2 ^ b) (by simpa using hx) (by simpa using hz)
        (fun i => by simpa using hle (i + 1)) (Nat.div_le_div_right (by omega))
      refine ⟨h1, fun i => ?_⟩
      cases i with
      | zero => simp [carryPass]; omega
      | succ i => simpa [carryPass] using h2 i

end Sys2Proof.Machine
end

