-- ==== Sys2Proof/Laws/Engine.lean ====
section
/-! SUPPORT. The laws of the evaluator: the value of every function in the ring of integers modulo p, the bounds
under which no storage check fails (43_hash_engine.md R200, R201), and what one step, the powers, and each part of
the schedules compute (R172, R183 to R188, R196). -/

namespace Sys2Proof.Machine

/-- The field element a vector stands for: its value modulo p (10_state.md R24). -/
def residue (c : Config) (x : Limbs) : ZMod c.p := (c.val x : ZMod c.p)

/-- The recurrence of R172 in the ring modulo p: add first, then multiply. -/
def hornerZ {p : Nat} (k : ZMod p) : ZMod p → List (ZMod p) → ZMod p
  | acc, [] => acc
  | acc, m :: ms => hornerZ k ((acc + m) * k) ms

theorem residue_eq_of_mod {c : Config} {x : Limbs} {n : Nat} (h : c.val x % c.p = n % c.p) : residue c x = (n : ZMod c.p) :=
  (ZMod.natCast_eq_natCast_iff' _ _ _).2 h

@[simp] theorem residue_zeros (c : Config) : residue c c.zeros = 0 := by simp [residue]

/-! ## Classes of vectors -/

/-- N limbs below `2^A`: the class of a vector within a bound (40_field_arith.md R112). -/
def Bounded (c : Config) (A : Nat) (x : Limbs) : Prop := x.length = c.N ∧ fits A x = true

theorem Bounded.mono {c : Config} {A B : Nat} {x : Limbs} (h : Bounded c A x) (hAB : A ≤ B) : Bounded c B x :=
  ⟨h.1, fits_iff.2 (fun l hl => lt_of_lt_of_le (fits_iff.1 h.2 l hl) (Nat.pow_le_pow_right (by norm_num) hAB))⟩

theorem Bounded.narrow {c : Config} {A : Nat} {x : Limbs} (h : Bounded c A x) (hA : A ≤ c.W) : c.narrow x = true := by
  simp only [Config.narrow, Bool.and_eq_true, decide_eq_true_eq]
  exact (h.mono hA)

theorem bounded_of_narrow {c : Config} {x : Limbs} (h : c.narrow x = true) : Bounded c c.W x := by
  simpa [Config.narrow, Bounded] using h

theorem bounded_of_tight {c : Config} (h : WfFacts c) {x : Limbs} (hx : c.tight x = true) : Bounded c c.r x :=
  ⟨tight_length h hx, below_fits hx (widths_le c)⟩

theorem bounded_zeros (c : Config) (A : Nat) : Bounded c A c.zeros := by
  refine ⟨by simp [Config.zeros], fits_iff.2 ?_⟩
  intro l hl
  simp only [Config.zeros, List.mem_replicate] at hl
  rw [hl.2]; positivity

/-- The words have room: `r + 6 <= W` (both geometries of R200). -/
theorem headroom {c : Config} (h : WfFacts c) : c.r + 6 ≤ c.W := by
  rcases h.geometry with hg | hg
  · rw [hg.2.2.1, hg.2.2.2.2]
  · rw [hg.2.2.1, hg.2.2.2.2]; norm_num

/-! ## Sums -/

/-- A sum of vectors whose bounds add up inside W passes the check of ADD (R92, R112). -/
theorem addLimbs_bounded {c : Config} {a b : Limbs} {A : Nat} (hA : A + 1 ≤ c.W) (ha : Bounded c A a)
    (hb : Bounded c A b) : ∃ y, addLimbs c a b = .ok y ∧ Bounded c (A + 1) y ∧
      residue c y = residue c a + residue c b := by
  have hlen : a.length = b.length := ha.1.trans hb.1.symm
  have hfit : ∀ l ∈ sumLimbs a b, l < 2 ^ (A + 1) := by
    intro l hl
    simp only [sumLimbs, List.mem_iff_getElem?, List.getElem?_zipWith] at hl
    obtain ⟨i, hi⟩ := hl
    cases h1 : a[i]? with
    | none => simp [h1] at hi
    | some x =>
      cases h2 : b[i]? with
      | none => simp [h1, h2] at hi
      | some y =>
        have hx := fits_iff.1 ha.2 x (List.mem_of_getElem? h1)
        have hy := fits_iff.1 hb.2 y (List.mem_of_getElem? h2)
        simp [h1, h2] at hi
        rw [pow_succ]; omega
  have hB : Bounded c (A + 1) (sumLimbs a b) := ⟨by simp [ha.1, hb.1], fits_iff.2 hfit⟩
  refine ⟨sumLimbs a b, mustFit_eq_ok.2 ⟨(hB.mono hA).2, rfl⟩, hB, ?_⟩
  simp [residue, val_sumLimbs c a b hlen]

/-! ## Product and carry -/

/-- A multiplicand in bounds and a tight multiplier: the product passes, and CARRY of it passes, with the value of
the product and limbs below `2^(r+1)` (R95, R101, R201). -/
theorem mulCarry_bounded {c : Config} (h : WfFacts c) {a K : Limbs} (ha : c.narrow a = true)
    (hK : c.tight K = true) : ∃ y, mulCarry c a K = .ok y ∧ Bounded c (c.r + 1) y ∧
      residue c y = residue c a * residue c K := by
  have hb := bounded_of_narrow ha
  obtain ⟨w, hw, hwl, hwb⟩ := mulLimbs_tight h (le_refl c.W) hb.2 hK
  have hwb' : ∀ l ∈ w, l < 2 ^ (3 * c.r - 15) := by
    intro l hl
    refine lt_of_lt_of_le (hwb l hl) ?_
    rcases h.geometry with hg | hg
    · rw [(r26_geometry hg).2.1, hg.2.2.1, hg.2.2.2.1, hg.2.2.2.2]; norm_num
    · rw [(r44_geometry hg).2.1, hg.2.2.1, hg.2.2.2.1, hg.2.2.2.2]; norm_num
  obtain ⟨y, hy, hyb⟩ := carryLimbs_total h hwl hwb'
  have hnar := (carryLimbs_ok h hwl hy).1
  refine ⟨y, bind_eq_ok.2 ⟨w, hw, hy⟩, ⟨(bounded_of_narrow hnar).1, hyb⟩, ?_⟩
  have h1 := val_carryLimbs h hwl hy
  have h2 := val_mulcore h hb.1 (tight_length h hK)
  rw [← (mulLimbs_eq_ok.1 hw).2.1, ← h1] at h2
  simp only [residue]
  rw [← Nat.cast_mul]
  exact residue_eq_of_mod h2

/-- One step of the recurrence on an accumulator with headroom: `(acc + m) * K` (R172, R183). -/
theorem hstep_bounded {c : Config} (h : WfFacts c) {acc m K : Limbs} (hacc : Bounded c (c.W - 1) acc)
    (hm : c.tight m = true) (hK : c.tight K = true) : ∃ y, hstep c acc m K = .ok y ∧ Bounded c (c.r + 1) y ∧
      residue c y = (residue c acc + residue c m) * residue c K := by
  have hr := headroom h
  obtain ⟨x, hx, hxb, hxv⟩ := addLimbs_bounded (A := c.W - 1) (by omega) hacc
    ((bounded_of_tight h hm).mono (by omega))
  obtain ⟨y, hy, hyb, hyv⟩ := mulCarry_bounded h (hxb.narrow (by omega)) hK
  exact ⟨y, bind_eq_ok.2 ⟨x, hx, hy⟩, hyb, by rw [hyv, hxv]⟩

/-- CARRY then REDUCE of a wide vector on which CARRY answers (R107(b)). -/
theorem carryReduce_ok {c : Config} (h : WfFacts c) {w z : Limbs} (hl : w.length = c.N)
    (hz : carryReduce c w = .ok z) : c.tight z = true ∧ c.val z = c.val w % c.p := by
  obtain ⟨y, hy, hz⟩ := bind_eq_ok.1 hz
  simp only [pure_eq_ok, Except.ok.injEq] at hz
  subst hz
  obtain ⟨h1, h2⟩ := reduceLimbs_spec h (carryLimbs_ok h hl hy).1
  exact ⟨h1, by rw [h2, val_carryLimbs h hl hy]⟩

/-- One power step: `REDUCE(CARRY(MUL(a, K)))` on a stored `a` and a tight `K` (42_key.md R153). -/
theorem mulReduce_total {c : Config} (h : WfFacts c) {a K : Limbs} (ha : c.narrow a = true) (hK : c.tight K = true) :
    ∃ w z, mulLimbs c a K = .ok w ∧ carryReduce c w = .ok z ∧ c.tight z = true ∧
      residue c z = residue c a * residue c K := by
  obtain ⟨y, hy, hyb, hyv⟩ := mulCarry_bounded h ha hK
  obtain ⟨w, hw, hy⟩ := bind_eq_ok.1 hy
  have hr := headroom h
  obtain ⟨h1, h2⟩ := reduceLimbs_spec h (hyb.narrow (by omega))
  refine ⟨w, reduceLimbs c y, hw, bind_eq_ok.2 ⟨y, hy, rfl⟩, h1, ?_⟩
  rw [← hyv]
  exact residue_eq_of_mod (by rw [h2, Nat.mod_mod])

/-- The powers after `prev` (R153): they exist, are tight, and each is the one before times `k`. -/
theorem powersAfter_spec {c : Config} (h : WfFacts c) {k : Limbs} (hk : c.tight k = true) (n : Nat) :
    ∀ {prev : Limbs}, c.tight prev = true → ∃ ks, powersAfter c k prev n = .ok ks ∧ ks.length = n ∧
      ∀ i (hi : i < ks.length), c.tight ks[i] = true ∧ residue c ks[i] = residue c prev * residue c k ^ (i + 1) := by
  induction n with
  | zero => intro prev _; exact ⟨[], rfl, rfl, fun i hi => by simp at hi⟩
  | succ n ih =>
    intro prev hp
    obtain ⟨w, z, hw, hz, hzt, hzv⟩ := mulReduce_total h (tight_narrow h hp) hk
    obtain ⟨ks, hks, hl, hall⟩ := ih hzt
    refine ⟨z :: ks, ?_, by simp [hl], ?_⟩
    · rw [powersAfter]
      exact bind_eq_ok.2 ⟨w, hw, bind_eq_ok.2 ⟨z, hz, bind_eq_ok.2 ⟨ks, hks, rfl⟩⟩⟩
    · intro i hi
      cases i with
      | zero => simp [hzt, hzv]
      | succ i =>
        obtain ⟨h1, h2⟩ := hall i (by simpa using hi)
        refine ⟨by simpa using h1, ?_⟩
        simp only [List.getElem_cons_succ, h2, hzv]
        ring

/-- `K[1..n]` on a tight base (R153): `K[i] = k^i`, all tight. -/
theorem powers_spec {c : Config} (h : WfFacts c) {k : Limbs} (hk : c.tight k = true) (n : Nat) :
    ∃ ks, powers c k n = .ok ks ∧ ks.length = n ∧
      ∀ i (hi : i < ks.length), c.tight ks[i] = true ∧ residue c ks[i] = residue c k ^ (i + 1) := by
  cases n with
  | zero => exact ⟨[], rfl, rfl, fun i hi => by simp at hi⟩
  | succ n =>
    obtain ⟨ks, hks, hl, hall⟩ := powersAfter_spec h hk n hk
    refine ⟨k :: ks, bind_eq_ok.2 ⟨ks, hks, rfl⟩, by simp [hl], ?_⟩
    intro i hi
    cases i with
    | zero => simp [hk]
    | succ i =>
      obtain ⟨h1, h2⟩ := hall i (by simpa using hi)
      refine ⟨by simpa using h1, ?_⟩
      simp only [List.getElem_cons_succ, h2]
      ring

/-- The squares after `prev` (R154). -/
theorem squaresAfter_spec {c : Config} (h : WfFacts c) (n : Nat) :
    ∀ {prev : Limbs}, c.tight prev = true → ∃ qs, squaresAfter c prev n = .ok qs ∧ qs.length = n ∧
      ∀ i (hi : i < qs.length), c.tight qs[i] = true ∧ residue c qs[i] = residue c prev ^ 2 ^ (i + 1) := by
  induction n with
  | zero => intro prev _; exact ⟨[], rfl, rfl, fun i hi => by simp at hi⟩
  | succ n ih =>
    intro prev hp
    obtain ⟨w, z, hw, hz, hzt, hzv⟩ := mulReduce_total h (tight_narrow h hp) hp
    obtain ⟨qs, hqs, hl, hall⟩ := ih hzt
    refine ⟨z :: qs, ?_, by simp [hl], ?_⟩
    · rw [squaresAfter]
      exact bind_eq_ok.2 ⟨w, hw, bind_eq_ok.2 ⟨z, hz, bind_eq_ok.2 ⟨qs, hqs, rfl⟩⟩⟩
    · intro i hi
      cases i with
      | zero => simp [hzt, hzv, pow_two]
      | succ i =>
        obtain ⟨h1, h2⟩ := hall i (by simpa using hi)
        refine ⟨by simpa using h1, ?_⟩
        simp only [List.getElem_cons_succ, h2, hzv]
        rw [← pow_two, ← pow_mul, ← pow_succ']

/-- `Q[0..n-1]` on a tight base (R154): `Q[j] = k^(2^j)`, all tight. -/
theorem squares_spec {c : Config} (h : WfFacts c) {k : Limbs} (hk : c.tight k = true) (n : Nat) :
    ∃ qs, squares c k n = .ok qs ∧ qs.length = n ∧
      ∀ i (hi : i < qs.length), c.tight qs[i] = true ∧ residue c qs[i] = residue c k ^ 2 ^ i := by
  cases n with
  | zero => exact ⟨[], rfl, rfl, fun i hi => by simp at hi⟩
  | succ n =>
    obtain ⟨qs, hqs, hl, hall⟩ := squaresAfter_spec h n hk
    refine ⟨k :: qs, bind_eq_ok.2 ⟨qs, hqs, rfl⟩, by simp [hl], ?_⟩
    intro i hi
    cases i with
    | zero => simp [hk]
    | succ i => simpa using hall i (by simpa using hi)

/-! ## The recurrence -/

theorem hornerZ_append {p : Nat} (k acc : ZMod p) (xs ys : List (ZMod p)) :
    hornerZ k acc (xs ++ ys) = hornerZ k (hornerZ k acc xs) ys := by
  induction xs generalizing acc with
  | nil => rfl
  | cons x xs ih => simp [hornerZ, ih]

/-- `Hn(a; x)`: the accumulator gets the power of the length, and the terms are those from zero (R196). -/
theorem hornerZ_acc {p : Nat} (k acc : ZMod p) (xs : List (ZMod p)) :
    hornerZ k acc xs = acc * k ^ xs.length + hornerZ k 0 xs := by
  induction xs generalizing acc with
  | nil => simp [hornerZ]
  | cons x xs ih =>
    rw [hornerZ, hornerZ, ih, ih ((0 + x) * k), List.length_cons, pow_succ']
    ring

/-- The recurrence on naturals is the recurrence in the ring (R172). -/
theorem horner_cast (p k acc : Nat) (ms : List Nat) :
    ((horner p k acc ms : Nat) : ZMod p) = hornerZ (k : ZMod p) (acc : ZMod p) (ms.map (fun m : Nat => (m : ZMod p))) := by
  induction ms generalizing acc with
  | nil => rfl
  | cons m ms ih =>
    rw [horner, ih]
    simp [hornerZ]

/-- The sum of R170 is the recurrence of R172 from zero. -/
theorem hornerZ_eq_sum {p : Nat} (k : ZMod p) (ms : List (ZMod p)) :
    hornerZ k 0 ms = ((List.range ms.length).map (fun i => ms.getD i 0 * k ^ (ms.length - i))).sum := by
  induction ms with
  | nil => rfl
  | cons m ms ih =>
    rw [hornerZ, hornerZ_acc, ih, List.length_cons, List.range_succ_eq_map, List.map_cons, List.sum_cons, List.map_map]
    congr 1
    · simp [pow_succ']; ring
    · congr 1
      apply List.map_congr_left
      intro i _
      simp [Function.comp, Nat.succ_eq_add_one, Nat.add_sub_add_right]

/-- The target value of R170 in the ring. -/
theorem target_cast (p k : Nat) (ms : List Nat) :
    ((target p k ms : Nat) : ZMod p) = hornerZ (k : ZMod p) 0 (ms.map (fun m : Nat => (m : ZMod p))) := by
  rw [hornerZ_eq_sum, target, ZMod.natCast_mod, List.length_map, Nat.cast_list_sum, List.map_map]
  congr 1
  apply List.map_congr_left
  intro i _
  simp only [Function.comp, List.getD_eq_getElem?_getD, List.getElem?_map]
  cases ms[i]? <;> simp

end Sys2Proof.Machine
end

