-- ==== Sys2Proof/Laws/Format.lean ====
section
/-! SUPPORT. The data format and the evaluation point: a sub-key and an encoded block are small enough to be reduced or
tight, the marker makes the encoding injective, and the mask bounds the point limb by limb (41_data_format.md R130 to
R137, 42_key.md R150, R152). -/

namespace Sys2Proof.Machine

/-- A sub-key is below p (00_scope.md R9(d)). -/
theorem pow_subkey_le {c : Config} (W : WfFacts c) : 2 ^ (8 * c.SUBKEYSIZE) ≤ c.p := by
  have := W.keyBits
  have h1 : (2:Nat) ^ (8 * c.SUBKEYSIZE) ≤ 2 ^ 129 := Nat.pow_le_pow_right (by norm_num) (by rcases W.geometry with hg | hg <;> omega)
  refine h1.trans ?_
  rcases W.geometry with hg | hg <;> rw [Config.p, hg.1, hg.2.1] <;> norm_num

/-- The split of a sub-key is reduced (41_data_format.md R131). -/
theorem splitInt_reduced {c : Config} (W : WfFacts c) {x : Nat}
    (h : x < 2 ^ (8 * c.SUBKEYSIZE)) : c.reduced (splitInt c x) = true := by
  have := pow_subkey_le W
  have hd := p_add_delta W
  simp [Config.reduced, splitInt_tight W (x := x) (by omega), val_splitInt W]; omega

/-- A masked key integer is below `2^(8*SUBKEYSIZE)` (00_scope.md R9(h)). -/
theorem masked_lt {c : Config} (W : WfFacts c) (x : Nat) : x &&& c.clampMask < 2 ^ (8 * c.SUBKEYSIZE) :=
  lt_of_le_of_lt Nat.and_le_right W.maskLt

/-- The evaluation point is tight (42_key.md R150). -/
theorem evalPoint_tight {c : Config} (W : WfFacts c) (raw : List Byte) : c.tight (evalPoint c raw) = true := by
  have := splitInt_reduced W (masked_lt W (leNat (c.TK.apply raw)))
  simp only [Config.reduced, Bool.and_eq_true] at this; exact this.1

/-- Each limb of a masked integer is at most that limb of the mask (42_key.md R152). -/
theorem splitInt_mask_le {c : Config} {x m i : Nat} : (splitInt c (x &&& m)).getD i 0 ≤ (splitInt c m).getD i 0 := by
  by_cases hi : i < c.N
  · rw [splitInt_getD hi, splitInt_getD hi]
    have h1 : (x &&& m) / 2 ^ (c.r * i) = (x / 2 ^ (c.r * i)) &&& (m / 2 ^ (c.r * i)) := by
      rw [← Nat.shiftRight_eq_div_pow, Nat.shiftRight_and_distrib, Nat.shiftRight_eq_div_pow, Nat.shiftRight_eq_div_pow]
    rw [h1]
    split
    · rw [Nat.and_mod_two_pow]; exact Nat.and_le_right
    · exact Nat.and_le_right
  · have : (splitInt c (x &&& m)).length ≤ i := by simp [splitInt]; omega
    simp [List.getD_eq_getElem?_getD, List.getElem?_eq_none this]

/-- With `r = 26` the split is that of the instance `R26`. -/
theorem splitInt_r26 {c : Config} (W : WfFacts c) (h : c.r = 26)
    (x : Nat) : splitInt c x = splitInt Config.r26 x := by
  have : c.N = 5 := by rcases W.geometry with hg | hg <;> omega
  rw [splitInt, splitInt, this, h]; rfl

/-- With `r = 44` the split is that of the instance `R44`. -/
theorem splitInt_r44 {c : Config} (W : WfFacts c) (h : c.r = 44)
    (x : Nat) : splitInt c x = splitInt Config.r44 x := by
  have : c.N = 3 := by rcases W.geometry with hg | hg <;> omega
  rw [splitInt, splitInt, this, h]; rfl

/-- Zero padding does not change a little-endian value. -/
theorem leNat_append_zero (xs : List Byte) (n : Nat) : leNat (xs ++ List.replicate n 0) = leNat xs := by
  induction xs with
  | nil => induction n with
    | zero => rfl
    | succ n ih => simp only [List.nil_append] at ih ⊢; rw [List.replicate_succ]; change (0:Byte).toNat + 256 * leNat (List.replicate n 0) = 0; rw [ih]; rfl
  | cons x xs ih => simp only [List.cons_append, leNat, ih]

/-- The last block with the identity hook: the marker is added (41_data_format.md R132). -/
theorem lastBlockInt_identity {c : Config} (h : c.TM = .identity)
    (data : List Byte) : lastBlockInt c data = leNat data + 2 ^ (8 * data.length) := by
  rw [lastBlockInt, h, Hook.apply, leNat_append_zero, Nat.or_comm]
  have := Nat.two_pow_add_eq_or_of_lt (leNat_lt data) 1
  rw [mul_one] at this
  rw [← this, add_comm]

/-- A full last block is encoded as a full block (41_data_format.md R134). -/
theorem lastBlockInt_full {c : Config} {data : List Byte} (h : data.length = c.BLOCKSIZE) : lastBlockInt c data =
    fullBlockInt c data := by
  rw [lastBlockInt, fullBlockInt, h]
  simp only [Nat.sub_self, List.replicate_zero, List.append_nil]
  rw [Nat.or_comm]
  have := Nat.two_pow_add_eq_or_of_lt (leNat_lt (c.TM.apply data)) 1
  rw [mul_one, hook_length, h] at this
  rw [← this, add_comm]

/-- Setting a low bit keeps the bound. -/
theorem or_pow_lt {x n m : Nat} (hx : x < 2 ^ (n + 1)) (hm : m ≤ n) : x ||| 2 ^ m < 2 ^ (n + 1) :=
  Nat.or_lt_two_pow hx (Nat.pow_lt_pow_right (by norm_num) (by omega))

/-- An encoded block is below `2^(8*BLOCKSIZE+1)` (41_data_format.md R136). -/
theorem lastBlockInt_lt {c : Config} {data : List Byte} (h : data.length ≤ c.BLOCKSIZE) : lastBlockInt c data < 2 ^
    (8 * c.BLOCKSIZE + 1) := by
  apply or_pow_lt
  · have := leNat_lt (c.TM.apply (data ++ List.replicate (c.BLOCKSIZE - data.length) 0))
    rw [hook_length, List.length_append, List.length_replicate, show data.length + (c.BLOCKSIZE - data.length) =
      c.BLOCKSIZE by omega] at this
    rw [pow_succ]; omega
  · omega

/-- An encoded block is tight (41_data_format.md R136). -/
theorem lastBlockInt_tight {c : Config} (W : WfFacts c) {data : List Byte} (h : data.length ≤ c.BLOCKSIZE) :
    c.tight (splitInt c (lastBlockInt c data)) = true :=
  splitInt_tight W ((lastBlockInt_lt h).trans_le
    (Nat.pow_le_pow_right (by norm_num) (by have := W.blockBits; omega)))

/-- An encoded block is not zero (41_data_format.md R136). -/
theorem lastBlockInt_pos (c : Config) (data : List Byte) : 0 < lastBlockInt c data := by
  have h1 : 2 ^ (8 * data.length) ≤ lastBlockInt c data := Nat.right_le_or
  have h2 : 0 < 2 ^ (8 * data.length) := by positivity
  omega

/-- An integer below `2^(8*BLOCKSIZE+1)` splits into a stored vector. -/
theorem splitInt_narrow {c : Config} (W : WfFacts c) {x : Nat}
    (h : x < 2 ^ (8 * c.BLOCKSIZE + 1)) : c.narrow (splitInt c x) = true :=
  tight_narrow W (splitInt_tight W (h.trans_le (Nat.pow_le_pow_right (by norm_num) (by have := W.blockBits; omega))))

/-- Byte strings of one length with one value are equal. -/
theorem leNat_injective {x y : List Byte} (hl : x.length = y.length) (h : leNat x = leNat y) : x = y := by
  rw [← leBytes_leNat x, ← leBytes_leNat y, h, hl]

/-- The marker makes the encoding injective over all lengths (41_data_format.md R136). -/
theorem marker_inj {x y : List Byte} (h : leNat x + 2 ^ (8 * x.length) = leNat y + 2 ^ (8 * y.length)) : x = y := by
  have hx := leNat_lt x
  have hy := leNat_lt y
  have hl : x.length = y.length := by
    by_contra hne
    rcases Nat.lt_or_gt_of_ne hne with hlt | hlt
    · have : (2:Nat) ^ (8 * x.length + 1) ≤ 2 ^ (8 * y.length) := Nat.pow_le_pow_right (by norm_num) (by omega)
      rw [pow_succ] at this; omega
    · have : (2:Nat) ^ (8 * y.length + 1) ≤ 2 ^ (8 * x.length) := Nat.pow_le_pow_right (by norm_num) (by omega)
      rw [pow_succ] at this; omega
  exact leNat_injective hl (by rw [hl] at h; omega)

/-- Full blocks with one encoding are equal (identity hook). -/
theorem fullBlockInt_injective {c : Config} (h : c.TM = .identity) {x y : List Byte} (hl : x.length = y.length)
    (he : fullBlockInt c x = fullBlockInt c y) : x = y := by
  simp only [fullBlockInt, h, Hook.apply] at he
  exact leNat_injective hl (by omega)

/-- Packed bytes have the length asked for. -/
theorem hook_packBytes_length (c : Config) (a : Limbs) (S : Nat) : (c.TF.apply (packBytes c a S)).length = S := by
    simp [packBytes]

/-- The bytes of 0. -/
theorem leBytes_zero (n : Nat) : leBytes 0 n = List.replicate n 0 := by
  induction n with
  | zero => rfl
  | succ n ih => rw [leBytes, List.replicate_succ, Nat.zero_div, ih]; rfl

/-- Two integers that agree under a mask. -/
theorem masked_eq {x y m : Nat} (h : ∀ b, m.testBit b = true → x.testBit b = y.testBit b) : x &&& m = y &&& m := by
  apply Nat.eq_of_testBit_eq; intro b
  rw [Nat.testBit_and, Nat.testBit_and]
  cases hb : m.testBit b with
  | false => simp
  | true => simp [h b hb]

/-- The comparison of VERIFY finds no difference exactly when the strings are equal (43_hash_engine.md R205). -/
theorem byteDiff_zero : ∀ {a b : List Byte}, a.length = b.length → (byteDiff a b = 0 ↔ a = b) := by
  intro a
  induction a with
  | nil => intro b h; cases b with
    | nil => simp [byteDiff]
    | cons => simp at h
  | cons x a ih =>
    intro b h
    cases b with
    | nil => simp at h
    | cons y b =>
      show (x ^^^ y) ||| byteDiff a b = 0#8 ↔ _
      have := ih (b := b) (by simpa using h)
      rw [BitVec.or_eq_zero_iff, List.cons.injEq, ← this]
      constructor
      · rintro ⟨h1, h2⟩; exact ⟨BitVec.xor_eq_zero_iff.1 h1, h2⟩
      · rintro ⟨h1, h2⟩; exact ⟨BitVec.xor_eq_zero_iff.2 h1, h2⟩

end Sys2Proof.Machine
end

