-- ==== Sys2Proof/Laws/Powers.lean ====
section
/-! SUPPORT. DPOW and DPOW2 on any stored base: the value of every power, the bases on which no check fails, and the
register file after the write (42_key.md R153, R154). -/

namespace Sys2Proof.Machine

/-- The bases on which the power commands cannot overflow: tight, or for `R26` limbs below `2^29` (R153). -/
def PowerBase (c : Config) (k : Limbs) : Prop := c.tight k = true ∨ (c.r = 26 ∧ ∀ l ∈ k, l < 2 ^ 29)

/-- A bound on the members bounds every position. -/
theorem getD_of_all {x : Limbs} {B : Nat} (hB : 0 < B) (h : ∀ l ∈ x, l < B) (i : Nat) : x.getD i 0 < B := by
  rw [List.getD_eq_getElem?_getD]
  cases h1 : x[i]? with
  | none => simpa using hB
  | some y => simpa using h y (List.mem_of_getElem? h1)

/-- One power step on such bases passes every check (R153). -/
theorem powerBase_step {c : Config} (W : WfFacts c) {a k : Limbs} (ha : c.narrow a = true)
    (hab : PowerBase c a) (hkb : PowerBase c k) : ∃ w z, mulLimbs c a k = .ok w ∧ carryReduce c w = .ok z ∧ c.tight
    z = true := by
  by_cases hr : c.r = 26
  · have hg : c.PBITS = 130 ∧ c.DELTA = 5 ∧ c.r = 26 ∧ c.N = 5 ∧ c.W = 32 := by
      rcases W.geometry with hg | hg
      · exact hg
      · omega
    have up : ∀ x, PowerBase c x → ∀ i, x.getD i 0 < 2 ^ 29 := by
      intro x hx i
      rcases hx with h | h
      · have := tight_getD h i
        rw [hr] at this; exact this.trans (by norm_num)
      · exact getD_of_all (by norm_num) h.2 i
    have hf : c.fold = 5 := (r26_geometry hg).2.1
    have hs : ∀ i, (scaledLimbs c k).getD i 0 < 5 * 2 ^ 29 := by
      intro i; rw [scaledLimbs_getD, hf]; have := up k hkb (i+1); omega
    have hsf : fits c.W (scaledLimbs c k) = true := by
      rw [fits_iff]; intro l hl
      obtain ⟨i, hi⟩ := List.mem_iff_getElem?.1 hl
      have := hs i
      rw [List.getD_eq_getElem?_getD, hi] at this
      rw [hg.2.2.2.2]; exact lt_trans this (by norm_num)
    have hw : ∀ l ∈ mulcore c.N a k (scaledLimbs c k), l < 5 * (2 ^ 29 * (5 * 2 ^ 29)) := by
      have := mulcore_lt (N := c.N) (A := 2 ^ 29) (S := 5 * 2 ^ 29) (by omega) (up a hab)
        (fun i => (up k hkb i).trans (by norm_num)) hs
      rw [hg.2.2.2.1] at this ⊢; exact this
    have hok : mulLimbs c a k = .ok (mulcore c.N a k (scaledLimbs c k)) := by
      refine mulLimbs_eq_ok.2 ⟨hsf, rfl, fits_iff.2 fun l hl => (hw l hl).trans ?_⟩
      rw [hg.2.2.2.2]; norm_num
    obtain ⟨y, hy, hyb⟩ := carryLimbs_total W (w := mulcore c.N a k (scaledLimbs c k)) (by simp) (by
      intro l hl; refine (hw l hl).trans ?_; rw [hr]; norm_num)
    have hz : carryReduce c (mulcore c.N a k (scaledLimbs c k)) = .ok (reduceLimbs c y) := bind_eq_ok.2 ⟨y, hy, rfl⟩
    exact ⟨_, _, hok, hz, (carryReduce_ok W (by simp) hz).1⟩
  · have ht : c.tight k = true := by rcases hkb with h | h; exact h; exact absurd h.1 hr
    obtain ⟨w, z, h1, h2, h3, -⟩ := mulReduce_total W ha ht
    exact ⟨w, z, h1, h2, h3⟩

/-- The powers of such a base exist (R153). -/
theorem powersAfter_base {c : Config} (W : WfFacts c) {k : Limbs} (hkb : PowerBase c k) (n : Nat) :
    ∀ {prev}, c.narrow prev = true → PowerBase c prev → ∃ ks, powersAfter c k prev n = .ok ks := by
  induction n with
  | zero => intro prev _ _; exact ⟨_, rfl⟩
  | succ n ih =>
    intro prev hp hb
    obtain ⟨w, z, h1, h2, h3⟩ := powerBase_step W hp hb hkb
    obtain ⟨ks, h4⟩ := ih (tight_narrow W h3) (.inl h3)
    exact ⟨_, bind_eq_ok.2 ⟨w, h1, bind_eq_ok.2 ⟨z, h2, bind_eq_ok.2 ⟨ks, h4, rfl⟩⟩⟩⟩

/-- The powers by value, on any stored base (R153). -/
theorem powersAfter_value {c : Config} (W : WfFacts c) {k : Limbs} (hk : c.narrow k = true) (n : Nat) :
    ∀ {prev ks}, c.narrow prev = true → powersAfter c k prev n = .ok ks → ks.length = n ∧
      ∀ i z, ks[i]? = some z → c.reduced z = true ∧ c.val z = c.val prev * c.val k ^ (i + 1) % c.p := by
  induction n with
  | zero => intro prev ks _ h; cases h; simp
  | succ n ih =>
    intro prev ks hp h
    obtain ⟨w, hw, h⟩ := bind_eq_ok.1 h
    obtain ⟨z, hz, h⟩ := bind_eq_ok.1 h
    obtain ⟨rest, hrest, h⟩ := bind_eq_ok.1 h
    cases h
    have hwl : w.length = c.N := by rw [(mulLimbs_eq_ok.1 hw).2.1]; simp
    obtain ⟨z1, z2⟩ := carryReduce_ok W hwl hz
    have hwv : c.val w % c.p = c.val prev * c.val k % c.p := by
      rw [(mulLimbs_eq_ok.1 hw).2.1]; exact val_mulcore W (bounded_of_narrow hp).1 (bounded_of_narrow hk).1
    obtain ⟨r1, r2⟩ := ih (tight_narrow W z1) hrest
    refine ⟨by simp [r1], ?_⟩
    intro i x hx
    cases i with
    | zero =>
      simp only [List.getElem?_cons_zero, Option.some.injEq] at hx
      subst hx
      refine ⟨by simp [Config.reduced, z1, z2, Nat.mod_lt _ (p_pos W)], by rw [z2, hwv]; simp⟩
    | succ i =>
      obtain ⟨a1, a2⟩ := r2 i x (by simpa using hx)
      refine ⟨a1, ?_⟩
      rw [a2, z2, hwv, Nat.mod_mul_mod]
      congr 1; ring

/-- The squares of such a base exist (R154). -/
theorem squaresAfter_base {c : Config} (W : WfFacts c) (n : Nat) :
    ∀ {prev}, c.narrow prev = true → PowerBase c prev → ∃ ks, squaresAfter c prev n = .ok ks := by
  induction n with
  | zero => intro prev _ _; exact ⟨_, rfl⟩
  | succ n ih =>
    intro prev hp hb
    obtain ⟨w, z, h1, h2, h3⟩ := powerBase_step W hp hb hb
    obtain ⟨ks, h4⟩ := ih (tight_narrow W h3) (.inl h3)
    exact ⟨_, bind_eq_ok.2 ⟨w, h1, bind_eq_ok.2 ⟨z, h2, bind_eq_ok.2 ⟨ks, h4, rfl⟩⟩⟩⟩

/-- The squares by value, on any stored base (R154). -/
theorem squaresAfter_value {c : Config} (W : WfFacts c) (n : Nat) :
    ∀ {prev ks}, c.narrow prev = true → squaresAfter c prev n = .ok ks → ks.length = n ∧
      ∀ i z, ks[i]? = some z → c.reduced z = true ∧ c.val z = c.val prev ^ 2 ^ (i + 1) % c.p := by
  induction n with
  | zero => intro prev ks _ h; cases h; simp
  | succ n ih =>
    intro prev ks hp h
    obtain ⟨w, hw, h⟩ := bind_eq_ok.1 h
    obtain ⟨z, hz, h⟩ := bind_eq_ok.1 h
    obtain ⟨rest, hrest, h⟩ := bind_eq_ok.1 h
    cases h
    have hwl : w.length = c.N := by rw [(mulLimbs_eq_ok.1 hw).2.1]; simp
    obtain ⟨z1, z2⟩ := carryReduce_ok W hwl hz
    have hwv : c.val w % c.p = c.val prev * c.val prev % c.p := by
      rw [(mulLimbs_eq_ok.1 hw).2.1]; exact val_mulcore W (bounded_of_narrow hp).1 (bounded_of_narrow hp).1
    obtain ⟨r1, r2⟩ := ih (tight_narrow W z1) hrest
    refine ⟨by simp [r1], ?_⟩
    intro i x hx
    cases i with
    | zero =>
      simp only [List.getElem?_cons_zero, Option.some.injEq] at hx
      subst hx
      refine ⟨by simp [Config.reduced, z1, z2, Nat.mod_lt _ (p_pos W)], by rw [z2, hwv]; simp [pow_two]⟩
    | succ i =>
      obtain ⟨a1, a2⟩ := r2 i x (by simpa using hx)
      refine ⟨a1, ?_⟩
      rw [a2, z2, hwv, ← Nat.pow_mod, ← pow_two, ← pow_mul, ← pow_succ']

/-- The file after writing consecutive registers. -/
theorem setConsecutive_cons {F : List LimbReg} {first : Nat} {k : Limbs} {rest : List Limbs}
    (hb : first + (rest.length + 1) ≤ F.length) :
    (setConsecutive F first (k :: rest)).length = F.length ∧ (setConsecutive F first (k :: rest))[first]? = some
    ⟨k, true⟩ ∧
    (∀ i z, rest[i]? = some z → (setConsecutive F first (k :: rest))[first + (i + 1)]? = some ⟨z, true⟩) ∧
    (∀ j, j < first ∨ first + (rest.length + 1) ≤ j → (setConsecutive F first (k :: rest))[j]? = F[j]?) := by
  refine ⟨by simp, ?_, ?_, ?_⟩
  · have := setConsecutive_inside F first (k :: rest) 0 (by simp) (by simpa using hb)
    simpa using this
  · intro i z hz
    have hi : i < rest.length := by
      by_contra hh; rw [List.getElem?_eq_none (by omega)] at hz; cases hz
    have := setConsecutive_inside F first (k :: rest) (i + 1) (by simpa using hi) (by simpa using hb)
    rw [this]
    rw [List.getElem?_eq_getElem hi] at hz
    simp only [List.getElem_cons_succ]
    cases hz; rfl
  · intro j hj
    exact setConsecutive_outside _ _ _ _ (by simpa using hj)

/-- A legal count: at least 1, and inside the file (30_encoding.md R73). -/
theorem dpow_ready {s : State} {fd fa : RegNo} {n : Imm8} (h : Ready (.dpow fd fa n) s) : 1 ≤ n.toNat ∧ fd.toNat +
    n.toNat ≤ s.cfg.NF := by
  have := wf_iff_check.1 h.2
  simp only [Instr.check, registersThen, countCheck] at this
  split at this
  · split at this
    · assumption
    · cases this
  · cases this

/-- The only fault of `REDUCE(CARRY(w))` is `E_OVERFLOW`. -/
theorem carryReduce_error {c : Config} {w : Limbs} {e} (h : carryReduce c w = .error e) : e = .overflow := by
  rcases bind_eq_error.1 h with h | ⟨_, _, h⟩
  · exact carryLimbs_error h
  · cases h

/-- The only fault of the powers is `E_OVERFLOW`. -/
theorem powersAfter_error {c : Config} {k : Limbs} {n : Nat} : ∀ {prev e}, powersAfter c k prev n = .error e → e =
    .overflow := by
  induction n with
  | zero => intro _ _ h; cases h
  | succ n ih =>
    intro prev e h
    rcases bind_eq_error.1 h with h | ⟨_, _, h⟩
    · exact mulLimbs_error h
    rcases bind_eq_error.1 h with h | ⟨_, _, h⟩
    · exact carryReduce_error h
    rcases bind_eq_error.1 h with h | ⟨_, _, h⟩
    · exact ih h
    · cases h

/-- The only fault of the squares is `E_OVERFLOW`. -/
theorem squaresAfter_error {c : Config} {n : Nat} : ∀ {prev e}, squaresAfter c prev n = .error e → e = .overflow := by
  induction n with
  | zero => intro _ _ h; cases h
  | succ n ih =>
    intro prev e h
    rcases bind_eq_error.1 h with h | ⟨_, _, h⟩
    · exact mulLimbs_error h
    rcases bind_eq_error.1 h with h | ⟨_, _, h⟩
    · exact carryReduce_error h
    rcases bind_eq_error.1 h with h | ⟨_, _, h⟩
    · exact ih h
    · cases h

/-- When the checks of `MUL` and of `CARRY` pass, the step has its result. -/
theorem mulCarry_dec {c : Config} {a b : Limbs} (hno : ¬ MulCarryOverflows c a b) : ∃ w z, mulLimbs c a b = .ok w ∧
    carryReduce c w = .ok z := by
  cases h : mulLimbs c a b with
  | error e => exact absurd (.inl (by rw [h, mulLimbs_error h])) hno
  | ok w =>
    cases h2 : carryLimbs c w with
    | error e => exact absurd (.inr ⟨w, h, by rw [h2, carryLimbs_error h2]⟩) hno
    | ok y => exact ⟨w, _, rfl, bind_eq_ok.2 ⟨y, h2, rfl⟩⟩

/-- A step that has its result fails no check. -/
theorem mulCarry_bad {c : Config} {a b : Limbs} (hov : MulCarryOverflows c a b) {w z} (h1 : mulLimbs c a b = .ok w) (h2 : carryReduce c w = .ok z) : False := by
  rcases hov with h | ⟨w', h, h'⟩
  · rw [h1] at h; cases h
  · rw [h1] at h; cases h
    obtain ⟨y, hy, -⟩ := bind_eq_ok.1 h2
    rw [hy] at h'; cases h'

/-- DPOW overflows exactly when some inner step does, each on the reduced power before it (R153). -/
theorem powersAfter_iff {c : Config} (W : WfFacts c) {k : Limbs} (hk : c.narrow k = true) (n : Nat) :
    ∀ {prev}, c.narrow prev = true → ((∃ e, powersAfter c k prev n = .error e) ↔
      ∃ i, i < n ∧ MulCarryOverflows c (if i = 0 then prev else splitInt c (c.val prev * c.val k ^ i % c.p)) k) := by
  induction n with
  | zero => intro prev _; simp [powersAfter]
  | succ n ih =>
    intro prev hp
    by_cases hov : MulCarryOverflows c prev k
    · refine ⟨fun _ => ⟨0, by omega, by simpa using hov⟩, fun _ => ?_⟩
      cases h : powersAfter c k prev (n + 1) with
      | error e => exact ⟨e, rfl⟩
      | ok ks =>
        obtain ⟨w, hw, h⟩ := bind_eq_ok.1 h
        obtain ⟨z, hz, h⟩ := bind_eq_ok.1 h
        exact (mulCarry_bad hov hw hz).elim
    · obtain ⟨w, z, hw, hz⟩ := mulCarry_dec hov
      have hwl : w.length = c.N := by rw [(mulLimbs_eq_ok.1 hw).2.1]; simp
      obtain ⟨z1, z2⟩ := carryReduce_ok W hwl hz
      have hwv : c.val w % c.p = c.val prev * c.val k % c.p := by
        rw [(mulLimbs_eq_ok.1 hw).2.1]; exact val_mulcore W (bounded_of_narrow hp).1 (bounded_of_narrow hk).1
      have hzs : ∀ i, (if i = 0 then z else splitInt c (c.val z * c.val k ^ i % c.p)) =
        splitInt c (c.val prev * c.val k ^ (i + 1) % c.p) := by
        intro i
        have : c.val z * c.val k ^ i % c.p = c.val prev * c.val k ^ (i + 1) % c.p := by
          rw [z2, hwv, Nat.mod_mul_mod]; congr 1; ring
        split
        · next h => subst h; rw [← this, pow_zero, mul_one, z2, Nat.mod_mod, ← z2, splitInt_val W z1]
        · rw [this]
      have e1 : (∃ e, powersAfter c k prev (n + 1) = .error e) ↔ ∃ e, powersAfter c k z n = .error e := by
        rw [show powersAfter c k prev (n + 1) =
          (do let w ← mulLimbs c prev k; let next ← carryReduce c w; let rest ← powersAfter c k next n; return next :: rest) from rfl, hw]
        simp only [bind, Except.bind, hz]
        cases powersAfter c k z n <;> simp [pure, Except.pure]
      rw [e1, ih (tight_narrow W z1)]
      constructor
      · rintro ⟨i, hi, h⟩
        rw [hzs] at h
        exact ⟨i + 1, by omega, by simpa using h⟩
      · rintro ⟨i, hi, h⟩
        cases i with
        | zero => exact absurd (by simpa using h) hov
        | succ i => exact ⟨i, by omega, by rw [hzs]; simpa using h⟩

/-- DPOW2 overflows exactly when some inner squaring does (R154). -/
theorem squaresAfter_iff {c : Config} (W : WfFacts c) (n : Nat) :
    ∀ {prev}, c.narrow prev = true → ((∃ e, squaresAfter c prev n = .error e) ↔
      ∃ i, i < n ∧ MulCarryOverflows c (if i =
        0 then prev else splitInt c (c.val prev ^ 2 ^ i % c.p)) (if i = 0 then prev else splitInt c (c.val prev ^ 2 ^ i % c.p))) := by
  induction n with
  | zero => intro prev _; simp [squaresAfter]
  | succ n ih =>
    intro prev hp
    by_cases hov : MulCarryOverflows c prev prev
    · refine ⟨fun _ => ⟨0, by omega, by simpa using hov⟩, fun _ => ?_⟩
      cases h : squaresAfter c prev (n + 1) with
      | error e => exact ⟨e, rfl⟩
      | ok ks =>
        obtain ⟨w, hw, h⟩ := bind_eq_ok.1 h
        obtain ⟨z, hz, h⟩ := bind_eq_ok.1 h
        exact (mulCarry_bad hov hw hz).elim
    · obtain ⟨w, z, hw, hz⟩ := mulCarry_dec hov
      have hwl : w.length = c.N := by rw [(mulLimbs_eq_ok.1 hw).2.1]; simp
      obtain ⟨z1, z2⟩ := carryReduce_ok W hwl hz
      have hwv : c.val w % c.p = c.val prev * c.val prev % c.p := by
        rw [(mulLimbs_eq_ok.1 hw).2.1]; exact val_mulcore W (bounded_of_narrow hp).1 (bounded_of_narrow hp).1
      have hzs : ∀ i, (if i = 0 then z else splitInt c (c.val z ^ 2 ^ i % c.p)) =
        splitInt c (c.val prev ^ 2 ^ (i + 1) % c.p) := by
        intro i
        have : c.val z ^ 2 ^ i % c.p = c.val prev ^ 2 ^ (i + 1) % c.p := by
          rw [z2, hwv, ← Nat.pow_mod, ← pow_two, ← pow_mul, ← pow_succ']
        split
        · next h => subst h; rw [← this, pow_zero, pow_one, z2, Nat.mod_mod, ← z2, splitInt_val W z1]
        · rw [this]
      have e1 : (∃ e, squaresAfter c prev (n + 1) = .error e) ↔ ∃ e, squaresAfter c z n = .error e := by
        rw [show squaresAfter c prev (n + 1) =
          (do let w ← sqrLimbs c prev; let next ← carryReduce c w; let rest ← squaresAfter c next n; return next :: rest) from rfl, sqrLimbs, hw]
        simp only [bind, Except.bind, hz]
        cases squaresAfter c z n <;> simp [pure, Except.pure]
      rw [e1, ih (tight_narrow W z1)]
      constructor
      · rintro ⟨i, hi, h⟩
        rw [hzs] at h
        exact ⟨i + 1, by omega, by simpa using h⟩
      · rintro ⟨i, hi, h⟩
        cases i with
        | zero => exact absurd (by simpa using h) hov
        | succ i => exact ⟨i, by omega, by rw [hzs]; simpa using h⟩

end Sys2Proof.Machine
end

