-- ==== Sys2Proof/Laws/Invariant.lean ====
section
/-! SUPPORT. The invariant `State.Inv`, operation by operation: each shared operation keeps it, so does every body of a
command, and so does fault entry. -/

namespace Sys2Proof.Machine

/-- The host's pending actions are no part of the invariant. -/
theorem inv_port {s : State} (h : s.Inv) (p : List HostAction) : ({ s with port := p } : State).Inv := by
  cases h; constructor <;> assumption

/-- Fault entry of a single-operation command keeps the invariant (60_exceptions.md R226). -/
theorem inv_faulted {s : State} (h : s.Inv) (e : FaultCode) (w : Word) : (faultedState s e w).Inv := by
  obtain ⟨a, b, c, d, f, g, k, l, m, n, o, p, q, r, t, u⟩ := h
  exact ⟨a, b, c, d, f, g, k, l, m, n, o, by simp, by simp, by simp, by simp, u⟩

/-- A narrow file of the same size with stored vectors. -/
theorem inv_narrowFile {s : State} (h : s.Inv) {F : List LimbReg} (hl : F.length = s.F.length)
    (hF : ∀ reg ∈ F, s.cfg.narrow reg.limbs = true) :
    ({ s with F := F } : State).Inv := by
  obtain ⟨a, b, c, d, f, g, k, l, m, n, o, p, q, r, t, u⟩ := h
  exact ⟨a, by simpa [hl] using b, hF, d, f, g, k, l, m, n, o, p, q, r, t, u⟩

/-- Writing a stored vector to a narrow register. -/
theorem inv_writeF {s : State} (h : s.Inv) (i : RegNo) {v : Limbs}
    (hv : s.cfg.narrow v = true) : (writeF s i v).Inv := by
  refine inv_narrowFile h (by simp) fun reg hreg => ?_
  rcases List.mem_or_eq_of_mem_set hreg with h' | rfl
  · exact h.narrow _ h'
  · exact hv

/-- Writing a stored vector to a wide register. -/
theorem inv_writeW {s : State} (h : s.Inv) (i : RegNo) {v : Limbs}
    (hv : s.cfg.wide v = true) : (writeW s i v).Inv := by
  obtain ⟨a, b, c, d, f, g, k, l, m, n, o, p, q, r, t, u⟩ := h
  refine ⟨a, by simpa using b, c, ?_, f, g, k, l, m, n, o, p, q, r, t, u⟩
  intro reg hreg
  rcases List.mem_or_eq_of_mem_set hreg with h' | rfl
  · exact d _ h'
  · exact hv

/-- Moving the message pointer inside the message (10_state.md R29). -/
theorem inv_mptr {s : State} (h : s.Inv) {q : BitVec 64} (hq : q.toNat ≤ s.INLEN.toNat) : ({ s with MPTR := q } :
    State).Inv := by
  obtain ⟨a, b, c, d, f, g, k, l, m, n, o, p, q, r, t, u⟩ := h
  exact ⟨a, b, c, d, f, g, k, l, m, hq, o, p, q, r, t, u⟩

/-- What a file holds after consecutive writes. -/
theorem mem_setConsecutive {vs : List Limbs} : ∀ {F : List LimbReg} {first : Nat}
    {reg}, reg ∈ setConsecutive F first vs → reg ∈ F ∨ ∃ v ∈ vs, reg = ⟨v, true⟩ := by
  induction vs with
  | nil => intro F first reg h; exact .inl h
  | cons v vs ih =>
    intro F first reg h
    rcases ih h with h | ⟨x, hx, rfl⟩
    · rcases List.mem_or_eq_of_mem_set h with h | rfl
      · exact .inl h
      · exact .inr ⟨v, by simp, rfl⟩
    · exact .inr ⟨x, by simp [hx], rfl⟩

/-- Writing bytes of OUT inside the space. -/
theorem inv_out {s : State} (h : s.Inv) {a : Nat} {bs : List Byte} (ha : a + bs.length ≤ s.cfg.OUTPUTSIZE) :
    ({ s with OUT := Memory.writeRun s.OUT a bs } : State).Inv := by
  obtain ⟨a1, b, c, d, f, g, k, l, m, n, o, p, q, r, t, u⟩ := h
  refine ⟨a1, b, c, d, f, g, k, l, ⟨writeRun_wf _ _ _ m.1, writeRun_addressesBelow _ _ _ _ ha m.2⟩, n, o, p, q, r, ?_, u⟩
  intro hv
  obtain ⟨t1, t2⟩ := t hv
  exact ⟨t1, readRun_isSome.2 fun i hi => writeRun_keeps (readRun_isSome.1 t2 i hi)⟩

/-- A full block is tight (41_data_format.md R136). -/
theorem encodeFullAt_tight {s : State} (hw : s.cfg.wf = true) {a : Nat} {m} (h : encodeFullAt s a = .ok m) :
    s.cfg.tight m = true := by
  obtain ⟨d, hd, h⟩ := bind_eq_ok.1 h
  cases h
  have hl := readRun_length (readBytes_eq_ok.1 hd)
  rw [← lastBlockInt_full hl]
  exact lastBlockInt_tight (wfFacts hw) hl.le

/-- A last block is tight (41_data_format.md R136). -/
theorem encodeLastAt_tight {s : State} (hw : s.cfg.wf = true) {a : Nat} {m}
    (hr : s.INLEN.toNat - a ≤ s.cfg.BLOCKSIZE) (h : encodeLastAt s a = .ok m) : s.cfg.tight m = true := by
  obtain ⟨d, hd, h⟩ := bind_eq_ok.1 h
  cases h
  exact lastBlockInt_tight (wfFacts hw) (by rw [readRun_length (readBytes_eq_ok.1 hd)]; exact hr)

/-- A reduced vector can be stored. -/
theorem reduced_narrow {c : Config} (W : WfFacts c) {x : Limbs} (h : c.reduced x = true) : c.narrow x = true := by
  simp only [Config.reduced, Bool.and_eq_true] at h; exact tight_narrow W h.1

/-- The evaluation point is tight (42_key.md R150). -/
theorem deriveKey_tight {s : State} (hw : s.cfg.wf = true) {j : Nat} {k}
    (h : deriveKey s j = .ok k) : s.cfg.tight k = true := by
  have W := wfFacts hw
  obtain ⟨raw, -, h⟩ := bind_eq_ok.1 h
  cases h
  have := splitInt_reduced W (masked_lt W (leNat (s.cfg.TK.apply raw)))
  simp only [Config.reduced, Bool.and_eq_true] at this; exact this.1

/-- Reaching `Done` keeps the invariant (43_hash_engine.md R175, R205). -/
theorem inv_reachDone {s : State} (h : s.Inv) (hf : s.FAULT = none) {OUT : Memory} {ov vok : Bool}
    (hO : Memory.wf OUT = true ∧ addressesBelow OUT s.cfg.OUTPUTSIZE = true)
    (hv : ov = true → (Memory.readRun OUT 0 s.cfg.OUTPUTSIZE).isSome = true)
    (hk : s.cfg.HAS_VERIFY = false → vok = false) :
    ({ reachDone s with OUT := OUT, OUTVALID := ov, VOK := vok } : State).Inv := by
  obtain ⟨a, b, c, d, f, g, k, l, m, n, o, p, q, r, t, u⟩ := h
  refine ⟨a, by simpa using b, ?_, ?_, ?_, ?_, k, l, hO, le_refl _, o, by simp, by simp [hf], by simpa using r, ?_, hk⟩
  · intro reg hr; simp only [reachDone_F, List.mem_map] at hr; obtain ⟨x, hx, rfl⟩ := hr; exact c x hx
  · intro reg hr; simp only [reachDone_Wd, List.mem_map] at hr; obtain ⟨x, hx, rfl⟩ := hr; exact d x hx
  · intro reg hr; simp only [reachDone_P, List.mem_map] at hr; obtain ⟨x, hx, rfl⟩ := hr; exact f x hx
  · intro reg hr; simp only [reachDone_P, List.mem_map] at hr; obtain ⟨x, hx, rfl⟩ := hr; intro h;
      simp [unmarkFactor] at h
  · intro h; exact ⟨by simp, hv h⟩

/-- A readable narrow register holds a stored vector. -/
theorem holdsF_narrow {s : State} (h : s.Inv) {i : RegNo} {v} (hv : HoldsF s i v) : s.cfg.narrow v = true :=
  h.narrow _ (List.mem_of_getElem? hv)

/-- A readable wide register holds a stored vector. -/
theorem holdsW_wide {s : State} (h : s.Inv) {i : RegNo} {v} (hv : HoldsW s i v) : s.cfg.wide v = true :=
  h.wide _ (List.mem_of_getElem? hv)

/-- A stored wide vector from its two conditions. -/
theorem wide_of_fits {c : Config} {x : Limbs} (h1 : x.length = c.N)
    (h2 : fits (2 * c.W) x = true) : c.wide x = true := by
  simp [Config.wide, h1, h2]

/-- A stored narrow vector from its two conditions. -/
theorem narrow_of_fits {c : Config} {x : Limbs} (h1 : x.length = c.N)
    (h2 : fits c.W x = true) : c.narrow x = true := by
  simp [Config.narrow, h1, h2]

/-- A stored wide vector has N limbs. -/
theorem wide_length {c : Config} {x : Limbs} (h : c.wide x = true) : x.length = c.N := by
  simp only [Config.wide, Bool.and_eq_true, decide_eq_true_eq] at h; exact h.1

/-- A stored narrow vector has N limbs. -/
theorem narrow_length {c : Config} {x : Limbs} (h : c.narrow x = true) : x.length = c.N := by
  simp only [Config.narrow, Bool.and_eq_true, decide_eq_true_eq] at h; exact h.1

/-- A register number in range is inside the file. -/
theorem inFile_lt {s : State} (h : s.Inv) {fd : RegNo} (hr : fd.inFile s.cfg.NF = true) : fd.toNat < s.F.length := by
  rw [h.sizes.1]; simpa [RegNo.inFile] using hr

/-- A legal slot is below NTAGS (30_encoding.md R73). -/
theorem pack_ready {s : State} {fa : RegNo} {idx : Imm8} (h : Ready (.pack fa idx) s) : idx.toNat < s.cfg.NTAGS := by
  have := wf_iff_check.1 h.2
  simp only [Instr.check, registersThen, slotCheck] at this
  split at this
  · split at this
    · assumption
    · cases this
  · cases this

/-- Every body that raises no fault keeps the invariant. -/
theorem body_inv {s t : State} {i : Instr} (h : s.Inv) (hr : Ready i s) (hb : body s i = .ok t) : t.Inv := by
  have W := wfFacts h.cfgWf
  have hw := h.cfgWf
  cases i with
  | add fd fa fb =>
    obtain ⟨a, b, ha, hbb, hf, rfl⟩ := (body_narrow hb).1 _ _ _ rfl
    exact inv_writeF h _ (narrow_of_fits (by simp [narrow_length (holdsF_narrow h ha),
      narrow_length (holdsF_narrow h hbb)]) hf)
  | addw wd wa wb =>
    obtain ⟨a, b, ha, hbb, hf, rfl⟩ := (body_wide hb).1 _ _ _ rfl
    exact inv_writeW h _ (wide_of_fits (by simp [wide_length (holdsW_wide h ha), wide_length (holdsW_wide h hbb)]) hf)
  | mul wd fa fb =>
    obtain ⟨a, b, w, -, -, hm, rfl⟩ := (body_wide hb).2.1 _ _ _ rfl
    obtain ⟨_, rfl, h2⟩ := mulLimbs_eq_ok.1 hm
    exact inv_writeW h _ (wide_of_fits (by simp) h2)
  | sqr wd fa =>
    obtain ⟨a, w, -, hm, rfl⟩ := (body_wide hb).2.2.1 _ _ rfl
    obtain ⟨_, rfl, h2⟩ := mulLimbs_eq_ok.1 hm
    exact inv_writeW h _ (wide_of_fits (by simp) h2)
  | precomp pd fa =>
    obtain ⟨v, ha, hf, rfl⟩ := (body_wide hb).2.2.2.1 _ _ rfl
    have hv := holdsF_narrow h ha
    have hN := W.twoLimbs
    obtain ⟨a, b, c, d, f, g, k, l, m, n, o, p, q, r, t, u⟩ := h
    refine ⟨a, by simpa using b, c, d, ?_, ?_, k, l, m, n, o, p, q, r, t, u⟩
    · intro reg hreg
      rcases List.mem_or_eq_of_mem_set hreg with h' | rfl
      · exact f _ h'
      · refine ⟨hv, ?_, hf⟩
        show (scaledLimbs s.cfg v).length + 1 = s.cfg.N
        simp [scaledLimbs, narrow_length hv]; omega
    · intro reg hreg
      rcases List.mem_or_eq_of_mem_set hreg with h' | rfl
      · exact g _ h'
      · intro _; rfl
  | mulp wd fa pb =>
    obtain ⟨a, k, q, -, -, hf, rfl⟩ := (body_wide hb).2.2.2.2.1 _ _ _ rfl
    exact inv_writeW h _ (wide_of_fits (by simp) hf)
  | carry fd wa =>
    obtain ⟨w, y, ha, hy, rfl⟩ := (body_narrow hb).2.1 _ _ rfl
    exact inv_writeF h _ (carryLimbs_ok W (wide_length (holdsW_wide h ha)) hy).1
  | reduce fd fa =>
    obtain ⟨a, ha, rfl⟩ := (body_narrow hb).2.2.1 _ _ rfl
    exact inv_writeF h _ (tight_narrow W (reduceLimbs_spec W (holdsF_narrow h ha)).1)
  | zero fd =>
    obtain rfl := (body_narrow hb).2.2.2 _ rfl
    exact inv_writeF h _ ((bounded_zeros s.cfg s.cfg.W).narrow (le_refl _))
  | zerow wd =>
    obtain rfl := (body_wide hb).2.2.2.2.2 _ rfl
    exact inv_writeW h _ (wide_of_fits (bounded_zeros s.cfg 0).1 (bounded_zeros s.cfg (2 * s.cfg.W)).2)
  | unpack fd idx =>
    obtain ⟨b, hbb, rfl⟩ := (body_data hb).1 _ _ rfl
    have := leNat_lt b
    rw [readKeySlot_length hbb] at this
    exact inv_writeF h _ (reduced_narrow W (splitInt_reduced W this))
  | encb fd =>
    obtain ⟨m, hrem, hm, rfl⟩ := (body_data hb).2.1 _ rfl
    have := inv_writeF h fd (tight_narrow W (encodeFullAt_tight hw hm))
    refine inv_mptr this ?_
    show (BitVec.ofNat 64 _).toNat ≤ s.INLEN.toNat
    have hlt := s.INLEN.isLt
    have hp := W.blockPos
    rw [remaining] at hrem
    rw [BitVec.toNat_ofNat]
    exact (Nat.mod_le _ _).trans (by omega)
  | encl fd =>
    obtain ⟨m, hrem, hm, rfl⟩ := (body_data hb).2.2.1 _ rfl
    have := inv_writeF h fd (tight_narrow W (encodeLastAt_tight hw hrem hm))
    exact inv_mptr this (le_refl _)
  | pack fa idx =>
    obtain ⟨a, -, -, rfl⟩ := (body_data hb).2.2.2.1 _ _ rfl
    have hi := pack_ready hr
    refine inv_out h ?_
    rw [hook_packBytes_length, W.outSize, ← Nat.succ_mul]
    exact Nat.mul_le_mul_right _ hi
  | mrst =>
    obtain rfl := (body_data hb).2.2.2.2 rfl
    exact inv_mptr h (by simp)
  | dkey fd idx =>
    obtain ⟨b, hbb, rfl⟩ := (body_key hb).1 _ _ rfl
    exact inv_writeF h _ (reduced_narrow W (splitInt_reduced W (masked_lt W _)))
  | dpow fd fa n =>
    obtain ⟨k, ks, hk, hks, rfl⟩ := (body_key hb).2.1 _ _ _ rfl
    have hkn := holdsF_narrow h hk
    refine inv_narrowFile h (by simp) fun reg hreg => ?_
    rcases mem_setConsecutive hreg with h' | ⟨v, hv, rfl⟩
    · exact h.narrow _ h'
    · show s.cfg.narrow v = true
      cases hn : n.toNat with
      | zero => rw [hn] at hks; cases hks; simp at hv
      | succ m =>
        rw [hn] at hks
        obtain ⟨rest, hrest, hks⟩ := bind_eq_ok.1 hks
        cases hks
        rcases List.mem_cons.1 hv with rfl | hv
        · exact hkn
        · obtain ⟨j, hj⟩ := List.mem_iff_getElem?.1 hv
          exact reduced_narrow W ((powersAfter_value W hkn m hkn hrest).2 j v hj).1
  | dpow2 fd fa n =>
    obtain ⟨k, ks, hk, hks, rfl⟩ := (body_key hb).2.2 _ _ _ rfl
    have hkn := holdsF_narrow h hk
    refine inv_narrowFile h (by simp) fun reg hreg => ?_
    rcases mem_setConsecutive hreg with h' | ⟨v, hv, rfl⟩
    · exact h.narrow _ h'
    · show s.cfg.narrow v = true
      cases hn : n.toNat with
      | zero => rw [hn] at hks; cases hks; simp at hv
      | succ m =>
        rw [hn] at hks
        obtain ⟨rest, hrest, hks⟩ := bind_eq_ok.1 hks
        cases hks
        rcases List.mem_cons.1 hv with rfl | hv
        · exact hkn
        · obtain ⟨j, hj⟩ := List.mem_iff_getElem?.1 hv
          exact reduced_narrow W ((squaresAfter_value W m hkn hrest).2 j v hj).1
  | hash =>
    obtain ⟨tag, ht, rfl⟩ := (body_engine hb).1 rfl
    have hl := tagBytes_length hw ht
    refine inv_reachDone h hr.1 (vok := false) ⟨writeRun_wf _ _ _ h.outSpace.1,
      writeRun_addressesBelow _ _ _ _ (by omega) h.outSpace.2⟩ (fun _ => ?_) (fun _ => rfl)
    have := readRun_writeRun s.OUT 0 tag
    rw [hl] at this; rw [this]; rfl
  | verify =>
    obtain ⟨c, tag, -, -, -, rfl⟩ := (body_engine hb).2 rfl
    have hv : s.cfg.HAS_VERIFY = true := by
      have := wf_iff_check.1 hr.2
      simp only [Instr.check] at this
      split at this
      · assumption
      · cases this
    exact inv_reachDone h hr.1 (OUT := s.OUT) (ov := false) h.outSpace (by simp) (by simp [hv])

/-- Fault entry keeps the invariant (60_exceptions.md R226). -/
theorem raiseFault_inv {s : State} (h : s.Inv) (kind : CommandKind) (e : FaultCode)
    (w : Word) : (raiseFault kind e w s).Inv := by
  by_cases hf : s.FAULT = none
  swap
  · rw [raiseFault_sticky _ _ _ _ hf]; exact h
  obtain ⟨a, b, c, d, f, g, k, l, m, n, o, p, q, r, t, u⟩ := h
  have c' : ∀ reg ∈ s.F.map unmark, s.cfg.narrow reg.limbs = true := by
    intro reg hr; simp only [List.mem_map] at hr; obtain ⟨x, hx, rfl⟩ := hr; exact c x hx
  have d' : ∀ reg ∈ s.Wd.map unmark, s.cfg.wide reg.limbs = true := by
    intro reg hr; simp only [List.mem_map] at hr; obtain ⟨x, hx, rfl⟩ := hr; exact d x hx
  have f' : ∀ reg ∈ s.P.map unmarkFactor, s.cfg.narrow reg.k = true ∧ reg.s.length + 1 = s.cfg.N ∧ fits s.cfg.W reg.s =
    true := by
    intro reg hr; simp only [List.mem_map] at hr; obtain ⟨x, hx, rfl⟩ := hr; exact f x hx
  have g' : ∀ reg ∈ s.P.map unmarkFactor, reg.written = true → reg.s = scaledLimbs s.cfg reg.k := by
    intro reg hr; simp only [List.mem_map] at hr; obtain ⟨x, hx, rfl⟩ := hr; intro h; simp [unmarkFactor] at h
  cases kind with
  | single =>
    rw [raiseFault_single _ _ _ hf]
    exact inv_faulted ⟨a, b, c, d, f, g, k, l, m, n, o, p, q, r, t, u⟩ e w
  | hash =>
    rw [raiseFault, if_neg (by simp [hf])]
    refine ⟨a, by simpa [faultEffects] using b, c', d', f', g', k, l, ⟨rfl, rfl⟩, by simp [faultEffects], o,
      by simp, by simp, by simp, by simp, by simp [faultEffects]⟩
  | verify =>
    rw [raiseFault, if_neg (by simp [hf])]
    have m' : Memory.wf (verifyFaultOut s.OUT) = true ∧ addressesBelow (verifyFaultOut s.OUT) s.cfg.OUTPUTSIZE = true := by
      rcases verifyFaultOut_cases s.OUT with h | h <;> rw [h]
      · exact m
      · exact ⟨rfl, rfl⟩
    refine ⟨a, by simpa [faultEffects] using b, c', d', f', g', k, l, m', by simp [faultEffects], o,
      by simp, by simp, by simp, by simp, by simp [faultEffects]⟩

/-- Every command keeps the invariant. -/
theorem exec_inv {s t : State} {i : Instr} (h : s.Inv) (he : exec i s = .next t) : t.Inv := by
  rcases exec_cases i s with ⟨-, h'⟩ | ⟨hf, -, h'⟩ | ⟨hr, t', hb, h'⟩ | ⟨hr, e, -, h'⟩ <;> rw [h'] at he <;> cases he
  · exact h
  · exact inv_faulted h _ _
  · exact body_inv h hr hb
  · exact raiseFault_inv h _ _ _

end Sys2Proof.Machine
end

