-- ==== Sys2Proof/Laws/Schedules.lean ====
section
/-! SUPPORT. What each schedule computes on a stream of readable, tight blocks (43_hash_engine.md R184 to R188): no
storage check fails (R200) and the accumulator has the value of the recurrence of R172 (R196). -/

namespace Sys2Proof.Machine

/-- The stream of blocks that can all be read. -/
def readable (ms : List Limbs) : Blocks := ms.map .ok

/-- Every vector of a list is tight. -/
def AllTight (c : Config) (ms : List Limbs) : Prop := ∀ m ∈ ms, c.tight m = true

/-- The residues of a list of vectors. -/
def residues (c : Config) (ms : List Limbs) : List (ZMod c.p) := ms.map (residue c)

@[simp] theorem readable_nil : readable [] = [] := rfl
@[simp] theorem readable_cons (m : Limbs) (ms : List Limbs) : readable (m :: ms) = .ok m :: readable ms := rfl
@[simp] theorem readable_length (ms : List Limbs) : (readable ms).length = ms.length := by simp [readable]
@[simp] theorem readable_take (n : Nat) (ms : List Limbs) : (readable ms).take n = readable (ms.take n) := by
  simp [readable, List.map_take]
@[simp] theorem readable_drop (n : Nat) (ms : List Limbs) : (readable ms).drop n = readable (ms.drop n) := by
  simp [readable, List.map_drop]
@[simp] theorem residues_nil (c : Config) : residues c [] = [] := rfl
@[simp] theorem residues_cons (c : Config) (m : Limbs) (ms : List Limbs) :
    residues c (m :: ms) = residue c m :: residues c ms := rfl
@[simp] theorem residues_length (c : Config) (ms : List Limbs) : (residues c ms).length = ms.length := by
  simp [residues]
theorem residues_append (c : Config) (xs ys : List Limbs) : residues c (xs ++ ys) = residues c xs ++ residues c ys := by
  simp [residues]

theorem AllTight.take {c : Config} {ms : List Limbs} (h : AllTight c ms) (n : Nat) : AllTight c (ms.take n) :=
  fun m hm => h m (List.mem_of_mem_take hm)
theorem AllTight.drop {c : Config} {ms : List Limbs} (h : AllTight c ms) (n : Nat) : AllTight c (ms.drop n) :=
  fun m hm => h m (List.mem_of_mem_drop hm)

/-- The recurrence started from `x` in front: the first term gets the power of the whole length. -/
theorem hornerZ_cons {p : Nat} (k x : ZMod p) (xs : List (ZMod p)) :
    hornerZ k 0 (x :: xs) = x * k ^ (xs.length + 1) + hornerZ k 0 xs := by
  rw [hornerZ, hornerZ_acc]; ring

/-! ## CHAIN -/

/-- CHAIN absorbs every block (R184). -/
theorem chain_spec {c : Config} (h : WfFacts c) {k : Limbs} (hk : c.tight k = true) (ms : List Limbs) :
    ∀ {acc : Limbs}, AllTight c ms → Bounded c (c.W - 1) acc → ∃ y, chain c k acc (readable ms) = .ok y ∧
      Bounded c (c.W - 1) y ∧ residue c y = hornerZ (residue c k) (residue c acc) (residues c ms) := by
  have hr := headroom h
  induction ms with
  | nil => intro acc _ ha; exact ⟨acc, rfl, ha, rfl⟩
  | cons m ms ih =>
    intro acc ht ha
    obtain ⟨x, hx, hxb, hxv⟩ := hstep_bounded h ha (ht m (by simp)) hk
    obtain ⟨y, hy, hyb, hyv⟩ := ih (fun m' hm' => ht m' (by simp [hm'])) (hxb.mono (by omega))
    refine ⟨y, ?_, hyb, by rw [hyv, hxv]; rfl⟩
    rw [readable_cons, chain]
    exact bind_eq_ok.2 ⟨m, rfl, bind_eq_ok.2 ⟨x, hx, hy⟩⟩

/-- CHAIN from a short accumulator ends short, unless it absorbs nothing. -/
theorem chain_bounded {c : Config} (h : WfFacts c) {k : Limbs} (hk : c.tight k = true) (ms : List Limbs) {acc y : Limbs}
    (ht : AllTight c ms) (ha : Bounded c (c.r + 1) acc) (hy : chain c k acc (readable ms) = .ok y) :
    Bounded c (c.r + 1) y := by
  have hr := headroom h
  induction ms generalizing acc with
  | nil => cases hy; exact ha
  | cons m ms ih =>
    obtain ⟨x, hx, hxb, -⟩ := hstep_bounded h (ha.mono (by omega)) (ht m (by simp)) hk
    rw [readable_cons, chain, ok_bind, hx, ok_bind] at hy
    exact ih (fun m' hm' => ht m' (by simp [hm'])) hxb hy

/-! ## Windows -/

/-- Folding windows: if one window of `size` blocks folds like the recurrence within a bound, so do `q` of them. -/
theorem windows_spec {c : Config} {k : Limbs} {A size : Nat} {f : Limbs → Blocks → Except FaultCode Limbs}
    (hf : ∀ (ms : List Limbs) (acc : Limbs), ms.length = size → AllTight c ms → Bounded c A acc →
      ∃ y, f acc (readable ms) = .ok y ∧ Bounded c A y ∧
        residue c y = hornerZ (residue c k) (residue c acc) (residues c ms)) (q : Nat) :
    ∀ (ms : List Limbs) (acc : Limbs), q * size ≤ ms.length → AllTight c ms → Bounded c A acc →
      ∃ y, windows f size q acc (readable ms) = .ok (y, readable (ms.drop (q * size))) ∧ Bounded c A y ∧
        residue c y = hornerZ (residue c k) (residue c acc) (residues c (ms.take (q * size))) := by
  induction q with
  | zero => intro ms acc _ _ ha; exact ⟨acc, by simp [windows], ha, by simp [hornerZ]⟩
  | succ q ih =>
    intro ms acc hl ht ha
    rw [Nat.add_mul, Nat.one_mul] at hl
    obtain ⟨x, hx, hxb, hxv⟩ := hf (ms.take size) acc (by simp; omega) (ht.take _) ha
    obtain ⟨y, hy, hyb, hyv⟩ := ih (ms.drop size) x (by simp; omega) (ht.drop _) hxb
    refine ⟨y, ?_, hyb, ?_⟩
    · rw [windows, readable_take, readable_drop]
      refine bind_eq_ok.2 ⟨x, hx, ?_⟩
      rw [hy, List.drop_drop]
      congr 4
      rw [Nat.add_mul]; omega
    · have : ms.take ((q + 1) * size) = ms.take size ++ (ms.drop size).take (q * size) := by
        rw [← List.take_add, Nat.add_mul, Nat.one_mul, Nat.add_comm]
      rw [this, residues_append, hornerZ_append, hyv, hxv]

/-! ## NESTED -/

/-- One inner group folds like the recurrence (R188). -/
theorem nestedGroup_spec {c : Config} (h : WfFacts c) {k : Limbs} (hk : c.tight k = true) {L : Nat} {K : List Limbs}
    (hKt : c.tight (K.getD (L - 1) []) = true) (hKv : residue c (K.getD (L - 1) []) = residue c k ^ L)
    (ms : List Limbs) (acc : Limbs) (hl : ms.length = L) (ht : AllTight c ms) (ha : Bounded c (c.r + 2) acc) :
    ∃ y, nestedGroup c L K k acc (readable ms) = .ok y ∧ Bounded c (c.r + 2) y ∧
      residue c y = hornerZ (residue c k) (residue c acc) (residues c ms) := by
  have hr := headroom h
  obtain ⟨s, hs, -, hsv⟩ := chain_spec h hk ms ht (bounded_zeros c _)
  have hsb := chain_bounded h hk ms ht (bounded_zeros c _) hs
  obtain ⟨x, hx, hxb, hxv⟩ := mulCarry_bounded h (ha.narrow (by omega)) hKt
  obtain ⟨y, hy, hyb, hyv⟩ := addLimbs_bounded (A := c.r + 1) (by omega) hxb hsb
  refine ⟨y, bind_eq_ok.2 ⟨s, hs, bind_eq_ok.2 ⟨x, hx, hy⟩⟩, hyb, ?_⟩
  rw [hyv, hxv, hsv, hKv, hornerZ_acc _ (residue c acc), residues_length, hl]
  simp

/-! ## Wide sums -/

/-- A wide sum inside `2W` passes the check of ADDW (R93). -/
theorem addwLimbs_lt {c : Config} {u v : Limbs} {X Y : Nat} (hu : u.length = c.N) (hv : v.length = c.N)
    (hux : ∀ l ∈ u, l < X) (hvy : ∀ l ∈ v, l < Y) (h : X + Y ≤ 2 ^ (2 * c.W)) :
    ∃ w, addwLimbs c u v = .ok w ∧ w.length = c.N ∧ (∀ l ∈ w, l < X + Y) ∧
      residue c w = residue c u + residue c v := by
  have hfit : ∀ l ∈ sumLimbs u v, l < X + Y := by
    intro l hl
    simp only [sumLimbs, List.mem_iff_getElem?, List.getElem?_zipWith] at hl
    obtain ⟨i, hi⟩ := hl
    cases h1 : u[i]? with
    | none => simp [h1] at hi
    | some x =>
      cases h2 : v[i]? with
      | none => simp [h1, h2] at hi
      | some y =>
        have hx := hux x (List.mem_of_getElem? h1)
        have hy := hvy y (List.mem_of_getElem? h2)
        simp [h1, h2] at hi
        omega
  refine ⟨sumLimbs u v, mustFit_eq_ok.2 ⟨fits_iff.2 (fun l hl => lt_of_lt_of_le (hfit l hl) h), rfl⟩,
    by simp [hu, hv], hfit, ?_⟩
  simp [residue, val_sumLimbs c u v (hu.trans hv.symm)]

/-- The product of a multiplicand within `2^A` and a tight multiplier, with its value and its bound. -/
theorem mulLimbs_bounded {c : Config} (h : WfFacts c) {a K : Limbs} {A : Nat} (hA : A ≤ c.W) (ha : Bounded c A a)
    (hK : c.tight K = true) : ∃ w, mulLimbs c a K = .ok w ∧ w.length = c.N ∧
      (∀ l ∈ w, l < c.N * c.fold * 2 ^ (A + c.r)) ∧ residue c w = residue c a * residue c K := by
  obtain ⟨w, hw, hwl, hwb⟩ := mulLimbs_tight h hA ha.2 hK
  refine ⟨w, hw, hwl, hwb, ?_⟩
  have h2 := val_mulcore h ha.1 (tight_length h hK)
  rw [← (mulLimbs_eq_ok.1 hw).2.1] at h2
  simp only [residue]
  rw [← Nat.cast_mul]
  exact residue_eq_of_mod h2

/-- CARRY with its value on a wide vector within `2^(3r-15)`. -/
theorem carryLimbs_bounded {c : Config} (h : WfFacts c) {w : Limbs} (hl : w.length = c.N)
    (hw : ∀ l ∈ w, l < 2 ^ (3 * c.r - 15)) :
    ∃ y, carryLimbs c w = .ok y ∧ Bounded c (c.r + 1) y ∧ residue c y = residue c w := by
  obtain ⟨y, hy, hyb⟩ := carryLimbs_total h hl hw
  exact ⟨y, hy, ⟨(bounded_of_narrow (carryLimbs_ok h hl hy).1).1, hyb⟩, residue_eq_of_mod (val_carryLimbs h hl hy)⟩

/-- The room of the schedules: 64 products of two vectors of radix size stay within the bound of CARRY and within a
wide limb (R201). -/
theorem wide_room {c : Config} (h : WfFacts c) :
    64 * (c.N * c.fold * 2 ^ (c.r + c.r)) ≤ 2 ^ (3 * c.r - 15) ∧ (2 : Nat) ^ (3 * c.r - 15) ≤ 2 ^ (2 * c.W) := by
  rcases h.geometry with hg | hg
  · rw [(r26_geometry hg).2.1, hg.2.2.1, hg.2.2.2.1, hg.2.2.2.2]; norm_num
  · rw [(r44_geometry hg).2.1, hg.2.2.1, hg.2.2.2.1, hg.2.2.2.2]; norm_num

/-! ## Descending powers -/

/-- The multipliers of a group or of a last round: tight, and the residue of the `j`-th is `k^(n-j)`. -/
def DescendingPowers (c : Config) (k : Limbs) (pws : List Limbs) : Prop :=
  ∀ j (hj : j < pws.length), c.tight pws[j] = true ∧ residue c pws[j] = residue c k ^ (pws.length - j)

theorem DescendingPowers.tail {c : Config} {k pw : Limbs} {pws : List Limbs}
    (h : DescendingPowers c k (pw :: pws)) : DescendingPowers c k pws := by
  intro j hj
  have := h (j + 1) (by simpa using hj)
  simpa using this

theorem DescendingPowers.head {c : Config} {k pw : Limbs} {pws : List Limbs}
    (h : DescendingPowers c k (pw :: pws)) :
    c.tight pw = true ∧ residue c pw = residue c k ^ (pws.length + 1) := by
  have := h 0 (by simp)
  simpa using this

/-- `K[1..n]` reversed is a list of descending powers. -/
theorem descending_reverse {c : Config} {k : Limbs} {K : List Limbs}
    (hK : ∀ i (hi : i < K.length), c.tight K[i] = true ∧ residue c K[i] = residue c k ^ (i + 1)) :
    DescendingPowers c k K.reverse := by
  intro j hj
  rw [List.length_reverse] at hj ⊢
  rw [List.getElem_reverse]
  obtain ⟨h1, h2⟩ := hK (K.length - 1 - j) (by omega)
  exact ⟨h1, by rw [h2]; congr 1; omega⟩

/-- The powers of a group of `g` blocks (R186). -/
theorem groupPowers_spec {c : Config} {k : Limbs} {K : List Limbs}
    (hK : ∀ i (hi : i < K.length), c.tight K[i] = true ∧ residue c K[i] = residue c k ^ (i + 1)) {g : Nat}
    (hg : g ≤ K.length) : DescendingPowers c k (groupPowers K g) ∧ (groupPowers K g).length = g := by
  refine ⟨descending_reverse (fun i hi => ?_), by simp [groupPowers, hg]⟩
  have hi' : i < K.length := by simp at hi; omega
  simpa using hK i hi'

/-! ## DELAY -/

/-- The accumulation of a group after its first product (R186). -/
theorem delayAccumulate_spec {c : Config} (h : WfFacts c) {k : Limbs} (ms : List Limbs) :
    ∀ (pws : List Limbs) (w : Limbs) (n : Nat), pws.length = ms.length → DescendingPowers c k pws → AllTight c ms →
      w.length = c.N → n + ms.length ≤ 64 → (∀ l ∈ w, l < n * (c.N * c.fold * 2 ^ (c.r + c.r))) →
      ∃ w', delayAccumulate c w (readable ms) pws = .ok w' ∧ w'.length = c.N ∧
        (∀ l ∈ w', l < (n + ms.length) * (c.N * c.fold * 2 ^ (c.r + c.r))) ∧
        residue c w' = residue c w + hornerZ (residue c k) 0 (residues c ms) := by
  obtain ⟨hroom1, hroom2⟩ := wide_room h
  have hr := headroom h
  induction ms with
  | nil =>
    intro pws w n hl _ _ hw _ hb
    cases pws with
    | nil => exact ⟨w, rfl, hw, by simpa using hb, by simp [hornerZ]⟩
    | cons pw pws => simp at hl
  | cons m ms ih =>
    intro pws w n hl hp ht hw hn hb
    cases pws with
    | nil => simp at hl
    | cons pw pws =>
      simp only [List.length_cons, Nat.add_right_cancel_iff] at hl hn
      obtain ⟨hpt, hpv⟩ := hp.head
      obtain ⟨v, hv, hvl, hvb, hvv⟩ := mulLimbs_bounded h (A := c.r) (by omega)
        (bounded_of_tight h (ht m (by simp))) hpt
      have hsum : n * (c.N * c.fold * 2 ^ (c.r + c.r)) + c.N * c.fold * 2 ^ (c.r + c.r) ≤ 2 ^ (2 * c.W) := by
        have : (n + 1) * (c.N * c.fold * 2 ^ (c.r + c.r)) ≤ 64 * (c.N * c.fold * 2 ^ (c.r + c.r)) :=
          Nat.mul_le_mul_right _ (by omega)
        rw [Nat.add_mul, Nat.one_mul] at this
        exact this.trans (hroom1.trans hroom2)
      obtain ⟨w1, hw1, hw1l, hw1b, hw1v⟩ := addwLimbs_lt hw hvl hb hvb hsum
      obtain ⟨w', hw', hl', hb', hv'⟩ := ih pws w1 (n + 1) hl hp.tail (fun m' hm' => ht m' (by simp [hm'])) hw1l
        (by omega) (by rw [Nat.add_mul, Nat.one_mul]; exact hw1b)
      refine ⟨w', ?_, hl', ?_, ?_⟩
      · rw [readable_cons, delayAccumulate]
        exact bind_eq_ok.2 ⟨m, rfl, bind_eq_ok.2 ⟨v, hv, bind_eq_ok.2 ⟨w1, hw1, hw'⟩⟩⟩
      · rw [List.length_cons, show n + (ms.length + 1) = n + 1 + ms.length by omega]
        exact hb'
      · rw [hv', hw1v, hvv, hpv, residues_cons, hornerZ_cons, residues_length, hl]
        ring

/-- One group folds like the recurrence (R186). -/
theorem delayGroup_spec {c : Config} (h : WfFacts c) {k : Limbs} {K : List Limbs}
    (hK : ∀ i (hi : i < K.length), c.tight K[i] = true ∧ residue c K[i] = residue c k ^ (i + 1))
    (hKl : K.length ≤ 16) (ms : List Limbs) (acc : Limbs) (hl : ms.length ≤ K.length) (ht : AllTight c ms)
    (ha : Bounded c (c.r + 1) acc) :
    ∃ y, delayGroup c K acc (readable ms) = .ok y ∧ Bounded c (c.r + 1) y ∧
      residue c y = hornerZ (residue c k) (residue c acc) (residues c ms) := by
  obtain ⟨hroom1, hroom2⟩ := wide_room h
  have hr := headroom h
  cases ms with
  | nil => exact ⟨acc, rfl, ha, rfl⟩
  | cons m ms =>
    simp only [List.length_cons] at hl
    obtain ⟨hd, hdl⟩ := groupPowers_spec (c := c) (k := k) hK (g := ms.length + 1) hl
    cases hgp : groupPowers K (ms.length + 1) with
    | nil => rw [hgp] at hdl; simp at hdl
    | cons pw pws =>
      rw [hgp] at hd hdl
      simp only [List.length_cons, Nat.add_right_cancel_iff] at hdl
      obtain ⟨hpt, hpv⟩ := hd.head
      obtain ⟨x, hx, hxb, hxv⟩ := addLimbs_bounded (A := c.r + 1) (by omega) ha
        ((bounded_of_tight h (ht m (by simp))).mono (by omega))
      obtain ⟨w, hw, hwl, hwb, hwv⟩ := mulLimbs_bounded h (by omega) hxb hpt
      have hwb' : ∀ l ∈ w, l < 4 * (c.N * c.fold * 2 ^ (c.r + c.r)) := by
        intro l hl'
        have := hwb l hl'
        have heq : c.N * c.fold * 2 ^ (c.r + 1 + 1 + c.r) = 4 * (c.N * c.fold * 2 ^ (c.r + c.r)) := by
          rw [show c.r + 1 + 1 + c.r = (c.r + c.r) + 2 by omega, pow_add]; ring
        rwa [heq] at this
      obtain ⟨w', hw', hw'l, hw'b, hw'v⟩ := delayAccumulate_spec h ms pws w 4 hdl hd.tail
        (fun m' hm' => ht m' (by simp [hm'])) hwl (by omega) hwb'
      obtain ⟨y, hy, hyb, hyv⟩ := carryLimbs_bounded h hw'l (by
        intro l hl'
        refine lt_of_lt_of_le (hw'b l hl') (le_trans (Nat.mul_le_mul_right _ ?_) hroom1)
        omega)
      refine ⟨y, ?_, hyb, ?_⟩
      · rw [readable_cons, delayGroup, readable_length, hgp]
        exact bind_eq_ok.2 ⟨m, rfl, bind_eq_ok.2 ⟨x, hx, bind_eq_ok.2 ⟨w, hw, bind_eq_ok.2 ⟨w', hw', hy⟩⟩⟩⟩
      · rw [hyv, hw'v, hwv, hxv, hpv, residues_cons, hornerZ,
          hornerZ_acc _ ((residue c acc + residue c m) * residue c k), residues_length, hdl, pow_succ]
        ring

/-! ## TREE -/

/-- The multiply-then-add evaluation of a list of nodes: `sum of x[u] * q^(n-u)` (R187). -/
def polyZ {p : Nat} (q : ZMod p) : List (ZMod p) → ZMod p
  | [] => 0
  | x :: xs => x * q ^ xs.length + polyZ q xs

/-- The recurrence in terms of the root: `acc*k^n + R*k` (R187). -/
theorem hornerZ_polyZ {p : Nat} (k acc : ZMod p) (xs : List (ZMod p)) :
    hornerZ k acc xs = acc * k ^ xs.length + polyZ k xs * k := by
  rw [hornerZ_acc]
  congr 1
  induction xs with
  | nil => simp [hornerZ, polyZ]
  | cons x xs ih => rw [hornerZ_cons, ih, polyZ]; ring

/-- One level halves the nodes and squares the point (R187). -/
theorem treeLevel_spec {c : Config} (h : WfFacts c) {Q : Limbs} (hQ : c.tight Q = true) {A : Nat} (hA1 : c.r + 1 ≤ A)
    (hA2 : A + 1 ≤ c.W) : ∀ (n : Nat) (nodes : List Limbs), nodes.length = 2 * n → (∀ x ∈ nodes, Bounded c A x) →
      ∃ nodes', treeLevel c Q nodes = .ok nodes' ∧ nodes'.length = n ∧ (∀ x ∈ nodes', Bounded c (A + 1) x) ∧
        polyZ (residue c Q ^ 2) (residues c nodes') = polyZ (residue c Q) (residues c nodes) := by
  intro n
  induction n with
  | zero =>
    intro nodes hl _
    cases nodes with
    | nil => exact ⟨[], rfl, rfl, fun x hx => by simp at hx, rfl⟩
    | cons _ _ => simp at hl
  | succ n ih =>
    intro nodes hl hb
    match nodes, hl with
    | left :: right :: rest, hl =>
      obtain ⟨rest', hr1, hr2, hr3, hr4⟩ := ih rest (by simp at hl; omega) (fun x hx => hb x (by simp [hx]))
      obtain ⟨y, hy, hyb, hyv⟩ := mulCarry_bounded h ((hb left (by simp)).narrow (by omega)) hQ
      obtain ⟨node, hn, hnb, hnv⟩ := addLimbs_bounded (A := A) hA2 (hyb.mono hA1) (hb right (by simp))
      refine ⟨node :: rest', ?_, by simp [hr2], ?_, ?_⟩
      · rw [treeLevel]
        exact bind_eq_ok.2 ⟨y, hy, bind_eq_ok.2 ⟨node, hn, bind_eq_ok.2 ⟨rest', hr1, rfl⟩⟩⟩
      · intro x hx
        rcases List.mem_cons.1 hx with rfl | hx
        · exact hnb
        · exact hr3 x hx
      · have hlen : rest.length = 2 * n := by simp at hl; omega
        simp only [residues_cons, polyZ, hr4, hnv, hyv, List.length_cons, residues_length, hr2, hlen, ← pow_mul]
        ring

/-- The levels from point `k^(2^l)` down to the root (R187). -/
theorem treeLevels_spec {c : Config} (h : WfFacts c) (Qs : List Limbs) :
    ∀ (q : ZMod c.p) (A : Nat) (nodes : List Limbs), c.r + 1 ≤ A → A + Qs.length ≤ c.W →
      nodes.length = 2 ^ Qs.length → (∀ x ∈ nodes, Bounded c A x) →
      (∀ i (hi : i < Qs.length), c.tight Qs[i] = true ∧ residue c Qs[i] = q ^ 2 ^ i) →
      ∃ R, treeLevels c Qs nodes = .ok R ∧ Bounded c (A + Qs.length) R ∧
        residue c R = polyZ q (residues c nodes) := by
  induction Qs with
  | nil =>
    intro q A nodes _ _ hl hb _
    match nodes, hl with
    | [x], _ => exact ⟨x, rfl, hb x (by simp), by simp [polyZ]⟩
    | [], hl => simp at hl
    | _ :: _ :: _, hl => simp at hl
  | cons Q Qs ih =>
    intro q A nodes hA1 hA2 hl hb hQ
    simp only [List.length_cons] at hA2 hl ⊢
    obtain ⟨hQt, hQv⟩ := hQ 0 (by simp)
    simp only [List.getElem_cons_zero, pow_zero, pow_one] at hQt hQv
    obtain ⟨nodes', hn1, hn2, hn3, hn4⟩ := treeLevel_spec h hQt hA1 (by omega) (2 ^ Qs.length) nodes
      (by rw [hl, pow_succ]; ring) hb
    obtain ⟨R, hR1, hR2, hR3⟩ := ih (q ^ 2) (A + 1) nodes' (by omega) (by omega) hn2 hn3 (by
      intro i hi
      obtain ⟨h1, h2⟩ := hQ (i + 1) (by simpa using hi)
      refine ⟨by simpa using h1, ?_⟩
      simp only [List.getElem_cons_succ] at h2
      rw [h2, ← pow_mul, pow_succ']
      )
    refine ⟨R, ?_, by rw [show A + (Qs.length + 1) = A + 1 + Qs.length by omega]; exact hR2, ?_⟩
    · rw [treeLevels]
      exact bind_eq_ok.2 ⟨nodes', hn1, hR1⟩
    · rw [hR3, ← hQv, hn4]

/-- A window of readable blocks is taken whole. -/
theorem takeBlocks_readable (ms : List Limbs) : takeBlocks (readable ms) = .ok ms := by
  induction ms with
  | nil => rfl
  | cons m ms ih => rw [readable_cons, takeBlocks, ok_bind, ih]; rfl

/-- One window folds like the recurrence (R187). -/
theorem treeWindow_spec {c : Config} (h : WfFacts c) {k : Limbs} {H : Nat} {Q : List Limbs} (hH1 : 1 ≤ H) (hH : H ≤ 4)
    (hQl : Q.length = H + 1)
    (hQ : ∀ i (hi : i < Q.length), c.tight Q[i] = true ∧ residue c Q[i] = residue c k ^ 2 ^ i) (ms : List Limbs)
    (acc : Limbs) (hl : ms.length = 2 ^ H) (ht : AllTight c ms) (ha : Bounded c (c.r + 1) acc) :
    ∃ y, treeWindow c H Q acc (readable ms) = .ok y ∧ Bounded c (c.r + 1) y ∧
      residue c y = hornerZ (residue c k) (residue c acc) (residues c ms) := by
  obtain ⟨hroom1, hroom2⟩ := wide_room h
  have hr := headroom h
  have hTl : (Q.take H).length = H := by simp; omega
  obtain ⟨R, hR1, hR2, hR3⟩ := treeLevels_spec h (Q.take H) (residue c k) (c.r + 1) ms (le_refl _) (by omega)
    (by rw [hTl, hl]) (fun x hx => (bounded_of_tight h (ht x hx)).mono (by omega)) (by
      intro i hi
      have hi' : i < Q.length := by simp at hi; omega
      simpa using hQ i hi')
  rw [hTl] at hR2
  obtain ⟨hQHt, hQHv⟩ := hQ H (by omega)
  obtain ⟨hQ0t, hQ0v⟩ := hQ 0 (by omega)
  have gH : Q.getD H [] = Q[H] := by
    rw [List.getD_eq_getElem?_getD, List.getElem?_eq_getElem (by omega)]; rfl
  have g0 : Q.getD 0 [] = Q[0] := by
    rw [List.getD_eq_getElem?_getD, List.getElem?_eq_getElem (by omega)]; rfl
  obtain ⟨wA, hwA, hwAl, hwAb, hwAv⟩ := mulLimbs_bounded h (A := c.r + 1) (by omega) ha hQHt
  obtain ⟨wR, hwR, hwRl, hwRb, hwRv⟩ := mulLimbs_bounded h (A := c.r + 5) (by omega) (hR2.mono (by omega)) hQ0t
  have e1 : c.N * c.fold * 2 ^ (c.r + 1 + c.r) = 2 * (c.N * c.fold * 2 ^ (c.r + c.r)) := by
    rw [show c.r + 1 + c.r = (c.r + c.r) + 1 by omega, pow_add]; ring
  have e2 : c.N * c.fold * 2 ^ (c.r + 5 + c.r) = 32 * (c.N * c.fold * 2 ^ (c.r + c.r)) := by
    rw [show c.r + 5 + c.r = (c.r + c.r) + 5 by omega, pow_add]; ring
  rw [e1] at hwAb
  rw [e2] at hwRb
  have hle : 2 * (c.N * c.fold * 2 ^ (c.r + c.r)) + 32 * (c.N * c.fold * 2 ^ (c.r + c.r)) ≤ 2 ^ (3 * c.r - 15) := by
    refine le_trans ?_ hroom1
    rw [← Nat.add_mul]
    exact Nat.mul_le_mul_right _ (by norm_num)
  obtain ⟨w, hw, hwl, hwb, hwv⟩ := addwLimbs_lt hwAl hwRl hwAb hwRb (hle.trans hroom2)
  obtain ⟨y, hy, hyb, hyv⟩ := carryLimbs_bounded h hwl (fun l hl' => lt_of_lt_of_le (hwb l hl') hle)
  refine ⟨y, ?_, hyb, ?_⟩
  · unfold treeWindow
    rw [takeBlocks_readable, gH, g0]
    exact bind_eq_ok.2 ⟨ms, rfl, bind_eq_ok.2 ⟨R, hR1, bind_eq_ok.2 ⟨wA, hwA, bind_eq_ok.2 ⟨wR, hwR,
      bind_eq_ok.2 ⟨w, hw, hy⟩⟩⟩⟩⟩
  · rw [hyv, hwv, hwAv, hwRv, hR3, hQHv, hQ0v, hornerZ_polyZ, residues_length, hl]
    simp

/-! ## BRANCH -/

/-- The branches and the blocks of a round, added pairwise, as terms of the recurrence. -/
theorem hornerZ_zipAdd {p : Nat} (k : ZMod p) : ∀ (xs ys : List (ZMod p)), xs.length = ys.length →
    hornerZ k 0 (List.zipWith (· + ·) xs ys) = hornerZ k 0 xs + hornerZ k 0 ys
  | [], [], _ => by simp [hornerZ]
  | x :: xs, y :: ys, h => by
    have hl : xs.length = ys.length := by simpa using h
    rw [List.zipWith_cons_cons, hornerZ_cons, hornerZ_cons, hornerZ_cons, hornerZ_zipAdd k xs ys hl]
    simp [hl]
    ring

theorem hornerZ_mulMap {p : Nat} (k a : ZMod p) (xs : List (ZMod p)) :
    hornerZ k 0 (xs.map (· * a)) = hornerZ k 0 xs * a := by
  induction xs with
  | nil => simp [hornerZ]
  | cons x xs ih => rw [List.map_cons, hornerZ_cons, hornerZ_cons, ih, List.length_map]; ring

/-- The residues after a round: `(A[j] + m[j]) * pw[j]` (R185). -/
def roundZ {p : Nat} (as ms pws : List (ZMod p)) : List (ZMod p) :=
  List.zipWith (· * ·) (List.zipWith (· + ·) as ms) pws

/-- One round on tight blocks and tight multipliers (R185). -/
theorem branchRound_spec {c : Config} (h : WfFacts c) : ∀ (as ms pws : List Limbs), as.length = ms.length →
    pws.length = ms.length → AllTight c ms → AllTight c pws → (∀ a ∈ as, Bounded c (c.r + 1) a) →
    ∃ as', branchRound c as (readable ms) pws = .ok as' ∧ as'.length = ms.length ∧
      (∀ a ∈ as', Bounded c (c.r + 1) a) ∧
      residues c as' = roundZ (residues c as) (residues c ms) (residues c pws)
  | [], [], [], _, _, _, _, _ => ⟨[], rfl, rfl, fun a ha => by simp at ha, rfl⟩
  | a :: as, m :: ms, pw :: pws, h1, h2, h3, h4, h5 => by
    have hr := headroom h
    obtain ⟨x, hx, hxb, hxv⟩ := hstep_bounded h ((h5 a (by simp)).mono (by omega)) (h3 m (by simp)) (h4 pw (by simp))
    obtain ⟨as', ha1, ha2, ha3, ha4⟩ := branchRound_spec h as ms pws (by simpa using h1) (by simpa using h2)
      (fun m' hm' => h3 m' (by simp [hm'])) (fun m' hm' => h4 m' (by simp [hm'])) (fun m' hm' => h5 m' (by simp [hm']))
    refine ⟨x :: as', ?_, by simp [ha2], ?_, ?_⟩
    · rw [readable_cons, branchRound]
      exact bind_eq_ok.2 ⟨m, rfl, bind_eq_ok.2 ⟨x, hx, bind_eq_ok.2 ⟨as', ha1, rfl⟩⟩⟩
    · intro b hb
      rcases List.mem_cons.1 hb with rfl | hb
      · exact hxb
      · exact ha3 b hb
    · simp [roundZ, hxv] at ha4 ⊢
      exact ha4

/-- A round with one multiplier for every branch scales the recurrence of the sums. -/
theorem roundZ_replicate {p : Nat} (k q : ZMod p) (as ms : List (ZMod p)) (h : as.length = ms.length) :
    hornerZ k 0 (roundZ as ms (List.replicate ms.length q)) = (hornerZ k 0 as + hornerZ k 0 ms) * q := by
  have : roundZ as ms (List.replicate ms.length q) = (List.zipWith (· + ·) as ms).map (· * q) := by
    induction as generalizing ms with
    | nil => cases ms <;> simp [roundZ]
    | cons a as ih =>
      cases ms with
      | nil => simp at h
      | cons m ms =>
        have := ih ms (by simpa using h)
        simp only [roundZ, List.length_cons, List.replicate_succ, List.zipWith_cons_cons, List.map_cons] at this ⊢
        rw [this]
  rw [this, hornerZ_mulMap, hornerZ_zipAdd _ _ _ h]

/-- A round with descending powers: its sum is the recurrence of the sums. -/
theorem roundZ_descending {c : Config} {k : Limbs} : ∀ (as ms : List (ZMod c.p)) (pws : List Limbs),
    as.length = ms.length → pws.length = ms.length → DescendingPowers c k pws →
    (roundZ as ms (residues c pws)).sum = hornerZ (residue c k) 0 as + hornerZ (residue c k) 0 ms
  | [], [], [], _, _, _ => by simp [roundZ, hornerZ]
  | a :: as, m :: ms, pw :: pws, h1, h2, h3 => by
    have ih := roundZ_descending as ms pws (by simpa using h1) (by simpa using h2) h3.tail
    have hl1 : as.length = ms.length := by simpa using h1
    have hl2 : pws.length = ms.length := by simpa using h2
    simp only [roundZ, residues_cons, List.zipWith_cons_cons, List.sum_cons] at ih ⊢
    rw [ih, h3.head.2, hornerZ_cons, hornerZ_cons, hl1, hl2]
    ring

/-- The full rounds (R185): with `q >= 1` rounds the branches sum to the recurrence from the branches. -/
theorem branchRounds_spec {c : Config} (h : WfFacts c) {k : Limbs} {B : Nat} {K : List Limbs} (hB : 1 ≤ B)
    (hKl : K.length = B)
    (hK : ∀ i (hi : i < K.length), c.tight K[i] = true ∧ residue c K[i] = residue c k ^ (i + 1)) (q : Nat) :
    ∀ (as ms : List Limbs), as.length = B → (q + 1) * B ≤ ms.length → AllTight c ms →
      (∀ a ∈ as, Bounded c (c.r + 1) a) →
      ∃ as', branchRounds c B K (q + 1) as (readable ms) = .ok (as', readable (ms.drop ((q + 1) * B))) ∧
        as'.length = B ∧ (∀ a ∈ as', Bounded c (c.r + 1) a) ∧
        (residues c as').sum = hornerZ (residue c k) 0 (residues c as) * residue c k ^ (B * q) +
          hornerZ (residue c k) 0 (residues c (ms.take ((q + 1) * B))) := by
  have hKtight : AllTight c K := by
    intro x hx
    obtain ⟨i, hi, rfl⟩ := List.getElem_of_mem hx
    exact (hK i hi).1
  induction q with
  | zero =>
    intro as ms hal hml ht hb
    rw [Nat.zero_add, Nat.one_mul] at *
    have hmt : (ms.take B).length = B := by simp; omega
    obtain ⟨as', h1, h2, h3, h4⟩ := branchRound_spec h as (ms.take B) K.reverse (by rw [hal, hmt]) (by simp [hKl, hmt])
      (ht.take _) (fun x hx => hKtight x (List.mem_reverse.1 hx)) hb
    refine ⟨as', ?_, by rw [h2, hmt], h3, ?_⟩
    · simp only [branchRounds, roundPowers, if_pos, readable_take, readable_drop]
      exact bind_eq_ok.2 ⟨as', h1, rfl⟩
    · rw [h4, roundZ_descending _ _ _ (by simp [hal, hmt]) (by simp [hKl, hmt]) (descending_reverse hK)]
      simp
  | succ q ih =>
    intro as ms hal hml ht hb
    have hml' : B + (q + 1) * B ≤ ms.length := by rw [Nat.add_mul (q + 1)] at hml; omega
    have hmt : (ms.take B).length = B := by simp; omega
    have hlast : B - 1 < K.length := by omega
    have gB : K.getD (B - 1) [] = K[B - 1] := by simp [List.getD_eq_getElem?_getD, hlast]
    obtain ⟨as1, h1, h2, h3, h4⟩ := branchRound_spec h as (ms.take B) (List.replicate B K[B - 1]) (by rw [hal, hmt])
      (by simp [hmt]) (ht.take _) (by
        intro x hx
        rw [List.eq_of_mem_replicate hx]
        exact (hK _ hlast).1) hb
    obtain ⟨as', i1, i2, i3, i4⟩ := ih as1 (ms.drop B) (by rw [h2, hmt]) (by simp; omega) (ht.drop _) h3
    refine ⟨as', ?_, i2, i3, ?_⟩
    · rw [branchRounds]
      simp only [roundPowers, Nat.add_eq_zero_iff, one_ne_zero, and_false, if_false, gB, readable_take, readable_drop]
      refine bind_eq_ok.2 ⟨as1, h1, ?_⟩
      rw [i1, List.drop_drop]
      congr 4
      rw [Nat.add_mul (q + 1)]; omega
    · have htake : ms.take ((q + 1 + 1) * B) = ms.take B ++ (ms.drop B).take ((q + 1) * B) := by
        rw [← List.take_add, Nat.add_mul (q + 1), Nat.one_mul, Nat.add_comm]
      have hrep : residues c (List.replicate B K[B - 1]) =
          List.replicate (residues c (ms.take B)).length (residue c k ^ B) := by
        rw [residues_length, hmt, residues, List.map_replicate, (hK _ hlast).2, show B - 1 + 1 = B by omega]
      have hdl : ((ms.drop B).take ((q + 1) * B)).length = (q + 1) * B := by simp; omega
      rw [i4, h4, hrep, roundZ_replicate _ _ _ _ (by simp [hal, hmt]), htake, residues_append, hornerZ_append,
        hornerZ_acc _ (hornerZ (residue c k) 0 (residues c (ms.take B))), residues_length, hdl,
        show (q + 1) * B = B + B * q by ring, show B * (q + 1) = B + B * q by ring, pow_add]
      ring

/-- The merge adds the branches (R185): at most 16 short branches fit. -/
theorem mergeBranches_spec {c : Config} (h : WfFacts c) : ∀ (as : List Limbs) (acc : Limbs) (n : Nat),
    (∀ a ∈ as, Bounded c (c.r + 1) a) → acc.length = c.N → (∀ l ∈ acc, l < n * 2 ^ (c.r + 1)) →
    n + as.length ≤ 16 → ∃ y, mergeBranches c acc as = .ok y ∧ y.length = c.N ∧
      (∀ l ∈ y, l < (n + as.length) * 2 ^ (c.r + 1)) ∧ residue c y = residue c acc + (residues c as).sum
  | [], acc, n, _, h2, h3, _ => ⟨acc, rfl, h2, by simpa using h3, by simp⟩
  | a :: as, acc, n, h1, h2, h3, h4 => by
    have hr := headroom h
    have ha := h1 a (by simp)
    simp only [List.length_cons] at h4
    have hbound : ∀ l ∈ sumLimbs acc a, l < (n + 1) * 2 ^ (c.r + 1) := by
      intro l hl
      simp only [sumLimbs, List.mem_iff_getElem?, List.getElem?_zipWith] at hl
      obtain ⟨i, hi⟩ := hl
      cases e1 : acc[i]? with
      | none => simp [e1] at hi
      | some x =>
        cases e2 : a[i]? with
        | none => simp [e1, e2] at hi
        | some y =>
          have hx := h3 x (List.mem_of_getElem? e1)
          have hy := fits_iff.1 ha.2 y (List.mem_of_getElem? e2)
          simp [e1, e2] at hi
          rw [Nat.add_mul, Nat.one_mul]; omega
    have hfit : fits c.W (sumLimbs acc a) = true := by
      rw [fits_iff]
      intro l hl
      calc l < (n + 1) * 2 ^ (c.r + 1) := hbound l hl
        _ ≤ 16 * 2 ^ (c.r + 1) := Nat.mul_le_mul_right _ (by omega)
        _ = 2 ^ (c.r + 5) := by rw [show c.r + 5 = c.r + 1 + 4 by omega, pow_add]; ring
        _ ≤ 2 ^ c.W := Nat.pow_le_pow_right (by norm_num) (by omega)
    obtain ⟨y, i1, i2, i3, i4⟩ := mergeBranches_spec h as (sumLimbs acc a) (n + 1)
      (fun a' ha' => h1 a' (by simp [ha'])) (by simp [h2, ha.1]) hbound (by omega)
    refine ⟨y, ?_, i2, ?_, ?_⟩
    · rw [mergeBranches]
      exact bind_eq_ok.2 ⟨_, mustFit_eq_ok.2 ⟨hfit, rfl⟩, i1⟩
    · rw [List.length_cons, show n + (as.length + 1) = n + 1 + as.length by omega]
      exact i3
    · rw [i4, residues_cons, List.sum_cons, ← add_assoc]
      simp [residue, val_sumLimbs c acc a (h2.trans ha.1.symm)]

/-! ## Every strategy -/

/-- `Init` derives its powers without a fault, and the schedule that uses them computes the recurrence of R172 without
failing a storage check, for every strategy R200 supports (R196, R200). -/
theorem schedule_spec {c : Config} (hc : c.wf = true) {k : Limbs} (hk : c.tight k = true) (ms : List Limbs)
    (ht : AllTight c ms) : ∃ pw acc, initPowers c k = .ok pw ∧ schedule c k pw (readable ms) = .ok acc ∧
      c.narrow acc = true ∧ residue c acc = hornerZ (residue c k) 0 (residues c ms) := by
  have h := wfFacts hc
  have hr := headroom h
  have hs := h.strategy
  have finish : ∀ (acc : Limbs), Bounded c (c.W - 1) acc → ∀ (n : Nat),
      residue c acc = hornerZ (residue c k) 0 (residues c (ms.take n)) →
      ∃ y, chain c k acc (readable (ms.drop n)) = .ok y ∧ c.narrow y = true ∧
        residue c y = hornerZ (residue c k) 0 (residues c ms) := by
    intro acc hb n hv
    obtain ⟨y, hy, hyb, hyv⟩ := chain_spec h hk (ms.drop n) (ht.drop n) hb
    refine ⟨y, hy, hyb.narrow (by omega), ?_⟩
    rw [hyv, hv, ← hornerZ_append, ← residues_append, List.take_append_drop]
  cases hS : c.STRATEGY with
  | chain =>
    obtain ⟨y, hy, hyb, hyv⟩ := chain_spec h hk ms ht (bounded_zeros c _)
    refine ⟨[], y, by rw [initPowers, hS], by rw [schedule, hS]; exact hy, hyb.narrow (by omega), ?_⟩
    rw [hyv, residue_zeros]
  | branch B =>
    rw [hS] at hs
    simp only [Strategy.supported, decide_eq_true_eq] at hs
    obtain ⟨K, hK1, hK2, hK3⟩ := powers_spec h hk B
    cases hq : ms.length / B with
    | zero =>
      obtain ⟨y, hy, hyb, hyv⟩ := finish c.zeros (bounded_zeros c _) 0 (by simp [hornerZ])
      refine ⟨K, y, by rw [initPowers, hS]; exact hK1, ?_, hyb, hyv⟩
      rw [schedule, hS]
      simp only [branchSchedule, readable_length, hq, branchRounds, ok_bind, if_true]
      simpa using hy
    | succ q =>
      have hle : (q + 1) * B ≤ ms.length := by rw [← hq]; exact Nat.div_mul_le_self _ _
      obtain ⟨as, h1, h2, h3, h4⟩ := branchRounds_spec h (by omega) hK2 hK3 q (List.replicate B c.zeros) ms (by simp)
        hle ht (fun a ha => by rw [List.eq_of_mem_replicate ha]; exact bounded_zeros c _)
      cases has : as with
      | nil => rw [has] at h2; simp at h2; omega
      | cons a0 as0 =>
        rw [has] at h2 h3 h4
        simp only [List.length_cons] at h2
        obtain ⟨acc, m1, m2, m3, m4⟩ := mergeBranches_spec h as0 a0 1 (fun a ha => h3 a (by simp [ha]))
          (h3 a0 (by simp)).1 (by rw [Nat.one_mul]; exact fits_iff.1 (h3 a0 (by simp)).2) (by omega)
        have haccb : Bounded c (c.W - 1) acc := by
          refine ⟨m2, fits_iff.2 (fun l hl => ?_)⟩
          calc l < (1 + as0.length) * 2 ^ (c.r + 1) := m3 l hl
            _ ≤ 16 * 2 ^ (c.r + 1) := Nat.mul_le_mul_right _ (by omega)
            _ = 2 ^ (c.r + 5) := by rw [show c.r + 5 = c.r + 1 + 4 by omega, pow_add]; ring
            _ ≤ 2 ^ (c.W - 1) := Nat.pow_le_pow_right (by norm_num) (by omega)
        have hzero : hornerZ (residue c k) 0 (residues c (List.replicate B c.zeros)) = 0 := by
          have : ∀ n, hornerZ (residue c k) 0 (residues c (List.replicate n c.zeros)) = 0 := by
            intro n
            induction n with
            | zero => simp [hornerZ]
            | succ n ih => rw [List.replicate_succ, residues_cons, hornerZ_cons, ih]; simp
          exact this B
        obtain ⟨y, hy, hyb, hyv⟩ := finish acc haccb ((q + 1) * B) (by
          rw [m4, ← List.sum_cons, ← residues_cons, h4, hzero]; simp)
        refine ⟨K, y, by rw [initPowers, hS]; exact hK1, ?_, hyb, hyv⟩
        rw [schedule, hS]
        simp only [branchSchedule, readable_length, hq, h1, ok_bind, Nat.add_eq_zero_iff, one_ne_zero, and_false,
          if_false, has, List.headD_cons, List.tail_cons, m1]
        exact hy
  | delay D =>
    rw [hS] at hs
    simp only [Strategy.supported, decide_eq_true_eq] at hs
    obtain ⟨K, hK1, hK2, hK3⟩ := powers_spec h hk D
    have hle : ms.length / D * D ≤ ms.length := Nat.div_mul_le_self _ _
    obtain ⟨acc, w1, w2, w3⟩ := windows_spec (c := c) (k := k) (A := c.r + 1) (size := D) (f := delayGroup c K)
      (fun xs a hl hxt hab => delayGroup_spec h hK3 (by omega) xs a (by omega) hxt hab) (ms.length / D) ms c.zeros hle ht
      (bounded_zeros c _)
    have hrest : (ms.drop (ms.length / D * D)).length ≤ K.length := by
      have := Nat.mod_lt ms.length (show D > 0 by omega)
      have := Nat.div_add_mod ms.length D
      rw [Nat.mul_comm] at this
      simp; omega
    obtain ⟨y, hy, hyb, hyv⟩ := delayGroup_spec h hK3 (by omega) (ms.drop (ms.length / D * D)) acc hrest (ht.drop _) w2
    refine ⟨K, y, by rw [initPowers, hS]; exact hK1, ?_, hyb.narrow (by omega), ?_⟩
    · rw [schedule, hS]
      simp only [delaySchedule, readable_length, w1, ok_bind]
      exact hy
    · rw [hyv, w3, residue_zeros, ← hornerZ_append, ← residues_append, List.take_append_drop]
  | tree H =>
    rw [hS] at hs
    simp only [Strategy.supported, decide_eq_true_eq] at hs
    obtain ⟨Q, hQ1, hQ2, hQ3⟩ := squares_spec h hk (H + 1)
    have hle : ms.length / 2 ^ H * 2 ^ H ≤ ms.length := Nat.div_mul_le_self _ _
    obtain ⟨acc, w1, w2, w3⟩ := windows_spec (c := c) (k := k) (A := c.r + 1) (size := 2 ^ H) (f := treeWindow c H Q)
      (fun xs a hl hxt hab => treeWindow_spec h hs.1 hs.2 hQ2 hQ3 xs a hl hxt hab) (ms.length / 2 ^ H) ms c.zeros hle ht
      (bounded_zeros c _)
    obtain ⟨y, hy, hyb, hyv⟩ := finish acc (w2.mono (by omega)) _ (by rw [w3, residue_zeros])
    refine ⟨Q, y, by rw [initPowers, hS]; exact hQ1, ?_, hyb, hyv⟩
    rw [schedule, hS]
    simp only [treeSchedule, readable_length, w1, ok_bind]
    exact hy
  | nested L =>
    rw [hS] at hs
    simp only [Strategy.supported, decide_eq_true_eq] at hs
    obtain ⟨K, hK1, hK2, hK3⟩ := powers_spec h hk L
    have hlast : L - 1 < K.length := by omega
    have gL : K.getD (L - 1) [] = K[L - 1] := by simp [List.getD_eq_getElem?_getD, hlast]
    obtain ⟨hLt, hLv⟩ := hK3 _ hlast
    have hle : ms.length / L * L ≤ ms.length := Nat.div_mul_le_self _ _
    obtain ⟨acc, w1, w2, w3⟩ := windows_spec (c := c) (k := k) (A := c.r + 2) (size := L) (f := nestedGroup c L K k)
      (fun xs a hl hxt hab => nestedGroup_spec h hk (by rw [gL]; exact hLt)
        (by rw [gL, hLv, show L - 1 + 1 = L by omega]) xs a hl hxt hab) (ms.length / L) ms c.zeros hle ht
      (bounded_zeros c _)
    obtain ⟨y, hy, hyb, hyv⟩ := finish acc (w2.mono (by omega)) _ (by rw [w3, residue_zeros])
    refine ⟨K, y, by rw [initPowers, hS]; exact hK1, ?_, hyb, hyv⟩
    rw [schedule, hS]
    simp only [nestedSchedule, readable_length, w1, ok_bind]
    exact hy

end Sys2Proof.Machine
end

