-- ==== Sys2Proof/Laws/Streams.lean ====
section
/-! SUPPORT. Schedules on a stream with blocks that cannot be read (43_hash_engine.md R176, 60_exceptions.md R230): a
schedule answers as it would on readable blocks or is `E_UNINIT` (`Sim`), and when it answers it has read every block
(`AllOk`). -/

namespace Sys2Proof.Machine

/-- The left outcome is `E_UNINIT`, or it is the right one. -/
def Sim {α : Type} (x y : Except FaultCode α) : Prop := x = .error .uninit ∨ x = y

theorem Sim.refl {α : Type} (x : Except FaultCode α) : Sim x x := .inr rfl

/-- Sequencing keeps the relation. -/
theorem Sim.bind {α β : Type} {x y : Except FaultCode α} {f g : α → Except FaultCode β} (h : Sim x y)
    (hf : ∀ a, Sim (f a) (g a)) :
    Sim (x >>= f) (y >>= g) := by
  rcases h with rfl | rfl
  · exact .inl rfl
  · cases x with
    | error e => exact .inr rfl
    | ok a => exact hf a

/-- Block by block. -/
abbrev SimB (xs ys : Blocks) : Prop := List.Forall₂ Sim xs ys

theorem SimB.take {xs ys : Blocks} (h : SimB xs ys) (n : Nat) : SimB (xs.take n) (ys.take n) := List.forall₂_take n h

theorem SimB.drop {xs ys : Blocks} (h : SimB xs ys) (n : Nat) : SimB (xs.drop n) (ys.drop n) := List.forall₂_drop n h

theorem SimB.length {xs ys : Blocks} (h : SimB xs ys) : xs.length = ys.length := List.Forall₂.length_eq h

/-- CHAIN (R184). -/
theorem chain_sim {c : Config} {k : Limbs} : ∀ {xs ys acc}, SimB xs ys → Sim (chain c k acc xs)
    (chain c k acc ys) := by
  intro xs ys acc h
  induction h generalizing acc with
  | nil => exact .refl _
  | cons hx _ ih => exact hx.bind fun m => (Sim.refl _).bind fun a => ih

/-- A run of windows, with the blocks left over. -/
theorem windows_sim {f : Limbs → Blocks → Except FaultCode Limbs} {size : Nat}
    (hf : ∀ {acc xs ys}, SimB xs ys → Sim (f acc xs) (f acc ys)) :
    ∀ {q acc xs ys}, SimB xs ys → windows f size q acc xs = .error .uninit ∨
      (∃ e, windows f size q acc xs = .error e ∧ windows f size q acc ys = .error e) ∨
      (∃ acc', windows f size q acc xs = .ok (acc', xs.drop (q * size)) ∧ windows f size q acc ys = .ok (acc',
        ys.drop (q * size))) := by
  intro q
  induction q with
  | zero => intro acc xs ys h; right; right; exact ⟨acc, by simp [windows], by simp [windows]⟩
  | succ q ih =>
    intro acc xs ys h
    simp only [windows]
    rcases hf (acc := acc) (h.take size) with h1 | h1
    · left; rw [h1]; rfl
    · rw [h1]
      cases f acc (ys.take size) with
      | error e => right; left; exact ⟨e, rfl, rfl⟩
      | ok a =>
        simp only [ok_bind]
        have := ih (acc := a) (h.drop size)
        simp only [List.drop_drop] at this
        rw [show size + q * size = (q + 1) * size by ring] at this
        exact this

/-- What follows a run of windows. -/
theorem after_windows {β : Type} {f : Limbs → Blocks → Except FaultCode Limbs} {size : Nat}
    (hf : ∀ {acc xs ys}, SimB xs ys → Sim (f acc xs) (f acc ys))
    {q acc xs ys} (h : SimB xs ys) {g g' : Limbs × Blocks → Except FaultCode β}
    (hg : ∀ a zs ws, SimB zs ws → Sim (g (a, zs)) (g' (a, ws))) :
    Sim (windows f size q acc xs >>= g) (windows f size q acc ys >>= g') := by
  rcases windows_sim (f := f) (fun h => hf h) (size := size) (q := q) (acc := acc) h with h1 | ⟨e, h1, h2⟩ | ⟨a, h1, h2⟩
  · left; rw [h1]; rfl
  · right; rw [h1, h2]; rfl
  · rw [h1, h2]; exact hg _ _ _ (h.drop _)

/-- A round of BRANCH (R185). -/
theorem branchRound_sim {c : Config} : ∀ {as pws xs ys}, SimB xs ys → Sim (branchRound c as xs pws)
    (branchRound c as ys pws) := by
  intro as pws xs ys h
  induction h generalizing as pws with
  | nil => exact .inr (by cases as <;> rfl)
  | cons hx _ ih =>
    cases as with
    | nil => exact .inr rfl
    | cons a as =>
      cases pws with
      | nil => exact .inr rfl
      | cons p ps => exact hx.bind fun m => (Sim.refl _).bind fun a => ih.bind fun _ => .refl _

/-- The full rounds of BRANCH (R185). -/
theorem branchRounds_sim {c : Config} {B : Nat} {K : List Limbs} : ∀ {q A xs ys}, SimB xs ys →
    branchRounds c B K q A xs = .error .uninit ∨
      (∃ e, branchRounds c B K q A xs = .error e ∧ branchRounds c B K q A ys = .error e) ∨
      (∃ A', branchRounds c B K q A xs = .ok (A', xs.drop (q * B)) ∧ branchRounds c B K q A ys = .ok (A',
        ys.drop (q * B))) := by
  intro q
  induction q with
  | zero => intro acc xs ys h; right; right; exact ⟨acc, by simp [branchRounds], by simp [branchRounds]⟩
  | succ q ih =>
    intro A xs ys h
    simp only [branchRounds]
    rcases branchRound_sim (c := c) (as := A) (pws := roundPowers B K q) (h.take B) with h1 | h1
    · left; rw [h1]; rfl
    · rw [h1]
      cases branchRound c A (ys.take B) (roundPowers B K q) with
      | error e => right; left; exact ⟨e, rfl, rfl⟩
      | ok a =>
        simp only [ok_bind]
        have := ih (A := a) (h.drop B)
        simp only [List.drop_drop] at this
        rw [show B + q * B = (q + 1) * B by ring] at this
        exact this

/-- BRANCH (R185). -/
theorem branchSchedule_sim {c : Config} {B : Nat} {K : List Limbs} {k : Limbs} {xs ys}
    (h : SimB xs ys) : Sim (branchSchedule c B K k xs) (branchSchedule c B K k ys) := by
  rw [branchSchedule, branchSchedule, h.length]
  rcases branchRounds_sim (c := c) (B := B) (K := K) (q := ys.length / B) (A :=
    List.replicate B c.zeros) h with h1 | ⟨e, h1, h2⟩ | ⟨a, h1, h2⟩
  · left; rw [h1]; rfl
  · right; rw [h1, h2]
    try rfl
  · rw [h1, h2]; simp only [ok_bind]; split
    · exact chain_sim (h.drop _)
    · exact (Sim.refl _).bind fun acc => chain_sim (h.drop _)

/-- The wide accumulation of DELAY (R186). -/
theorem delayAccumulate_sim {c : Config} : ∀ {w pws xs ys}, SimB xs ys → Sim (delayAccumulate c w xs pws)
    (delayAccumulate c w ys pws) := by
  intro w pws xs ys h
  induction h generalizing w pws with
  | nil => exact .refl _
  | cons hx _ ih =>
    cases pws with
    | nil => exact .inr rfl
    | cons p ps => exact hx.bind fun m => (Sim.refl _).bind fun a => (Sim.refl _).bind fun _ => ih

/-- A group of DELAY (R186). -/
theorem delayGroup_sim {c : Config} {K : List Limbs} : ∀ {acc xs ys}, SimB xs ys → Sim (delayGroup c K acc xs)
    (delayGroup c K acc ys) := by
  intro acc xs ys h
  cases h with
  | nil => exact .refl _
  | cons hx ht =>
    simp only [delayGroup, ht.length_eq]
    exact hx.bind fun m => (Sim.refl _).bind fun _ => (Sim.refl _).bind fun _ => (delayAccumulate_sim ht).bind
      fun _ => .refl _

/-- DELAY (R186). -/
theorem delaySchedule_sim {c : Config} {D : Nat} {K : List Limbs} {xs ys}
    (h : SimB xs ys) : Sim (delaySchedule c D K xs) (delaySchedule c D K ys) := by
  rw [delaySchedule, delaySchedule, h.length]
  exact after_windows (f := delayGroup c K) (g := fun o => delayGroup c K o.1 o.2) (g' :=
    fun o => delayGroup c K o.1 o.2) delayGroup_sim h fun a zs ws hz => delayGroup_sim hz

/-- The blocks of a window of TREE (R187). -/
theorem takeBlocks_sim {xs ys} (h : SimB xs ys) : Sim (takeBlocks xs) (takeBlocks ys) := by
  induction h with
  | nil => exact .refl _
  | cons hx _ ih => exact hx.bind fun m => ih.bind fun _ => .refl _

/-- TREE (R187). -/
theorem treeSchedule_sim {c : Config} {H : Nat} {Q : List Limbs} {k : Limbs} {xs ys}
    (h : SimB xs ys) : Sim (treeSchedule c H Q k xs) (treeSchedule c H Q k ys) := by
  rw [treeSchedule, treeSchedule, h.length]
  exact after_windows (fun h => (takeBlocks_sim h).bind fun _ => .refl _) h fun a zs ws hz => chain_sim hz

/-- NESTED (R188). -/
theorem nestedSchedule_sim {c : Config} {L : Nat} {K : List Limbs} {k : Limbs} {xs ys}
    (h : SimB xs ys) : Sim (nestedSchedule c L K k xs) (nestedSchedule c L K k ys) := by
  rw [nestedSchedule, nestedSchedule, h.length]
  exact after_windows (fun h => (chain_sim h).bind fun _ => .refl _) h fun a zs ws hz => chain_sim hz

/-- Every schedule. -/
theorem schedule_sim {c : Config} {k : Limbs} {pw : List Limbs} {xs ys}
    (h : SimB xs ys) : Sim (schedule c k pw xs) (schedule c k pw ys) := by
  unfold schedule
  split
  · exact chain_sim h
  · exact branchSchedule_sim h
  · exact delaySchedule_sim h
  · exact treeSchedule_sim h
  · exact nestedSchedule_sim h

/-! A schedule that answers has read every block -/

/-- Every block of the stream can be read. -/
def AllOk (xs : Blocks) : Prop := ∀ x ∈ xs, ∃ m, x = Except.ok m

/-- In two parts. -/
theorem AllOk.split {xs : Blocks} (n : Nat) (h1 : AllOk (xs.take n)) (h2 : AllOk (xs.drop n)) : AllOk xs := by
  intro x hx
  rw [← List.take_append_drop n xs] at hx
  rcases List.mem_append.1 hx with h | h
  · exact h1 x h
  · exact h2 x h

/-- CHAIN (R184). -/
theorem chain_allOk {c : Config} {k : Limbs} : ∀ {xs acc y}, chain c k acc xs = .ok y → AllOk xs := by
  intro xs
  induction xs with
  | nil => intro acc y _ x hx; simp at hx
  | cons x xs ih =>
    intro acc y h
    obtain ⟨m, hm, h⟩ := bind_eq_ok.1 h
    obtain ⟨a, -, h⟩ := bind_eq_ok.1 h
    intro z hz
    rcases List.mem_cons.1 hz with rfl | hz
    · exact ⟨m, hm⟩
    · exact ih h z hz

/-- A window of TREE (R187). -/
theorem takeBlocks_allOk : ∀ {xs y}, takeBlocks xs = .ok y → AllOk xs := by
  intro xs
  induction xs with
  | nil => intro y _ x hx; simp at hx
  | cons x xs ih =>
    intro y h
    obtain ⟨m, hm, h⟩ := bind_eq_ok.1 h
    obtain ⟨a, ha, h⟩ := bind_eq_ok.1 h
    intro z hz
    rcases List.mem_cons.1 hz with rfl | hz
    · exact ⟨m, hm⟩
    · exact ih ha z hz

/-- A run of windows. -/
theorem windows_allOk {f : Limbs → Blocks → Except FaultCode Limbs} {size : Nat}
    (hf : ∀ {acc xs y}, xs.length ≤ size → f acc xs = .ok y → AllOk xs) :
    ∀ {q acc xs out}, windows f size q acc xs = .ok out → AllOk out.2 → AllOk xs := by
  intro q
  induction q with
  | zero => intro acc xs out h ho; cases h; exact ho
  | succ q ih =>
    intro acc xs out h ho
    obtain ⟨a, ha, h⟩ := bind_eq_ok.1 h
    exact AllOk.split size (hf (by simp) ha) (ih h ho)

/-- A round of BRANCH (R185). -/
theorem branchRound_allOk {c : Config} : ∀ {as xs pws y}, as.length = xs.length → pws.length = xs.length →
    branchRound c as xs pws = .ok y → AllOk xs ∧ y.length = xs.length := by
  intro as
  induction as with
  | nil =>
    intro xs pws y h1 h2 h; cases xs with
    | nil => cases h; exact ⟨fun x hx => by simp at hx, rfl⟩
    | cons => simp at h1
  | cons a as ih =>
    intro xs pws y h1 h2 h
    cases xs with
    | nil => simp at h1
    | cons x xs =>
      cases pws with
      | nil => simp at h2
      | cons p ps =>
        obtain ⟨m, hm, h⟩ := bind_eq_ok.1 h
        obtain ⟨a', -, h⟩ := bind_eq_ok.1 h
        obtain ⟨as', has, h⟩ := bind_eq_ok.1 h
        cases h
        obtain ⟨i1, i2⟩ := ih (by simpa using h1) (by simpa using h2) has
        refine ⟨?_, by simp [i2]⟩
        intro z hz
        rcases List.mem_cons.1 hz with rfl | hz
        · exact ⟨m, hm⟩
        · exact i1 z hz

/-- The full rounds of BRANCH (R185). -/
theorem branchRounds_allOk {c : Config} {B : Nat} {K : List Limbs}
    (hK : K.length = B) : ∀ {q A xs out}, A.length = B → q * B ≤ xs.length →
    branchRounds c B K q A xs = .ok out → AllOk out.2 → AllOk xs := by
  intro q
  induction q with
  | zero => intro A xs out _ _ h ho; cases h; exact ho
  | succ q ih =>
    intro A xs out hA hl h ho
    obtain ⟨a, ha, h⟩ := bind_eq_ok.1 h
    rw [Nat.succ_mul] at hl
    have ht : (xs.take B).length = B := by simp; omega
    obtain ⟨h1, h2⟩ := branchRound_allOk (by rw [ht, hA]) (by
      rw [ht, roundPowers]; split
      · simpa using hK
      · simp) ha
    exact AllOk.split B h1 (ih (h2.trans ht) (by simp; omega) h ho)

/-- The wide accumulation of DELAY (R186). -/
theorem delayAccumulate_allOk {c : Config} : ∀ {xs w pws y}, xs.length ≤ pws.length → delayAccumulate c w xs pws =
    .ok y → AllOk xs := by
  intro xs
  induction xs with
  | nil => intro _ _ _ _ _ x hx; simp at hx
  | cons x xs ih =>
    intro w pws y hl h
    cases pws with
    | nil => simp at hl
    | cons p ps =>
      obtain ⟨m, hm, h⟩ := bind_eq_ok.1 h
      obtain ⟨_, -, h⟩ := bind_eq_ok.1 h
      obtain ⟨_, -, h⟩ := bind_eq_ok.1 h
      intro z hz
      rcases List.mem_cons.1 hz with rfl | hz
      · exact ⟨m, hm⟩
      · exact ih (by simpa using hl) h z hz

/-- A group of DELAY (R186). -/
theorem delayGroup_allOk {c : Config} {K : List Limbs} {acc xs y} (hl : xs.length ≤ K.length)
    (h : delayGroup c K acc xs = .ok y) : AllOk xs := by
  cases xs with
  | nil => intro x hx; simp at hx
  | cons x xs =>
    obtain ⟨m, hm, h⟩ := bind_eq_ok.1 h
    obtain ⟨_, -, h⟩ := bind_eq_ok.1 h
    obtain ⟨_, -, h⟩ := bind_eq_ok.1 h
    obtain ⟨_, hd, h⟩ := bind_eq_ok.1 h
    have := delayAccumulate_allOk (by simp [groupPowers]; simp at hl; omega) hd
    intro z hz
    rcases List.mem_cons.1 hz with rfl | hz
    · exact ⟨m, hm⟩
    · exact this z hz

/-- Every schedule with the powers of its `Init`. -/
theorem schedule_allOk {c : Config} {k : Limbs} {pw : List Limbs} {xs y} (hs : c.STRATEGY.supported = true)
    (hpw : initPowers c k = .ok pw) (h : schedule c k pw xs = .ok y) : AllOk xs := by
  unfold schedule at h; unfold initPowers at hpw
  cases hS : c.STRATEGY with
  | chain => simp only [hS] at h; exact chain_allOk h
  | branch B =>
    simp only [hS] at h hpw hs
    obtain ⟨out, ho, h⟩ := bind_eq_ok.1 h
    refine branchRounds_allOk (powers_length hpw) (by simp) (Nat.div_mul_le_self _ _) ho ?_
    simp only at h
    split at h
    · exact chain_allOk h
    · obtain ⟨acc, -, h⟩ := bind_eq_ok.1 h
      exact chain_allOk h
  | delay D =>
    simp only [hS] at h hpw hs
    have hD : 2 ≤ D ∧ D ≤ 16 := by simpa [Strategy.supported] using hs
    obtain ⟨out, ho, h⟩ := bind_eq_ok.1 h
    have hl := powers_length hpw
    refine windows_allOk (fun hl2 h => delayGroup_allOk (by omega) h) ho (delayGroup_allOk ?_ h)
    -- remainder length
    have : out.2 = xs.drop (xs.length / D * D) := by
      rcases windows_sim (f := delayGroup c pw) (size := D) delayGroup_sim (q := xs.length / D) (acc := c.zeros) (xs :=
        xs) (ys := xs) (List.forall₂_same.2 fun x _ => .refl x) with h1 | ⟨e, h1, h2⟩ | ⟨a, h1, h2⟩
      · rw [h1] at ho; cases ho
      · rw [h1] at ho; cases ho
      · rw [h1] at ho; cases ho; rfl
    rw [this, hl, List.length_drop]
    have := Nat.mod_lt xs.length (show D > 0 by omega)
    have := Nat.div_add_mod' xs.length D
    omega
  | tree H =>
    simp only [hS] at h hpw hs
    obtain ⟨out, ho, h⟩ := bind_eq_ok.1 h
    refine windows_allOk (fun _ h => ?_) ho (chain_allOk h)
    obtain ⟨n, hn, -⟩ := bind_eq_ok.1 h
    exact takeBlocks_allOk hn
  | nested L =>
    simp only [hS] at h hpw hs
    obtain ⟨out, ho, h⟩ := bind_eq_ok.1 h
    refine windows_allOk (fun _ h => ?_) ho (chain_allOk h)
    obtain ⟨n, hn, -⟩ := bind_eq_ok.1 h
    exact chain_allOk hn

end Sys2Proof.Machine
end

