-- ==== Sys2Proof/Laws/Tag.lean ====
section
/-! SUPPORT. The tag by the formula: on a written key and message every evaluation answers the sub-tag of
43_hash_engine.md R175, and with a byte missing the tag is `E_UNINIT`. -/

namespace Sys2Proof.Machine

/-- The accumulator of every schedule, reduced, is the target value (R170, R196). -/
theorem schedule_reduced {c : Config} (hw : c.wf = true) {k : Limbs} (hk : c.tight k = true) {ms : List Limbs}
    (hm : AllTight c ms) : ∃ pw acc, initPowers c k = .ok pw ∧ schedule c k pw (readable ms) = .ok acc ∧
      reduceLimbs c acc = splitInt c (target c.p (c.val k) (ms.map c.val)) := by
  obtain ⟨pw, acc, h1, h2, h3, h4⟩ := schedule_spec hw hk ms hm
  refine ⟨pw, acc, h1, h2, ?_⟩
  have hz : (c.val acc : ZMod c.p) = (target c.p (c.val k) (ms.map c.val) : ZMod c.p) := by
    rw [target_cast]
    simp only [residue, residues] at h4
    rw [h4, List.map_map]; rfl
  have hmod := (ZMod.natCast_eq_natCast_iff' _ _ _).1 hz
  have ht : target c.p (c.val k) (ms.map c.val) % c.p = target c.p (c.val k) (ms.map c.val) := by
    rw [target, Nat.mod_mod]
  rw [reduceLimbs_eq (wfFacts hw) h3, hmod, ht]

/-- The blocks of a written message (R171, R174). -/
theorem messageBlocks_ok {s : State} {msg : List Byte} (hw : s.cfg.wf = true) (hm : Message s msg) :
    messageBlocks s = readable ((messageInts s.cfg msg).map (splitInt s.cfg)) := by
  have W := wfFacts hw
  have hl := readRun_length hm
  have hB := W.blockPos
  unfold messageBlocks messageInts
  have hc : blockCount s = (msg.length + s.cfg.BLOCKSIZE - 1) / s.cfg.BLOCKSIZE := by rw [blockCount, hl]
  rw [hc]
  cases hn : (msg.length + s.cfg.BLOCKSIZE - 1) / s.cfg.BLOCKSIZE with
  | zero => rfl
  | succ n =>
    have h1 : (n + 1) * s.cfg.BLOCKSIZE ≤ msg.length + s.cfg.BLOCKSIZE - 1 := by rw [← hn]; exact Nat.div_mul_le_self _ _
    have h2 : msg.length + s.cfg.BLOCKSIZE - 1 < (n + 1 + 1) * s.cfg.BLOCKSIZE := by
      rw [← hn]; exact Nat.lt_mul_of_div_lt (Nat.lt_succ_self _) hB
    simp only [Nat.succ_mul] at h1 h2
    simp only [readable, List.map_append, List.map_map, List.map_cons, List.map_nil]
    congr 1
    · apply List.map_congr_left
      intro i hi
      rw [List.mem_range] at hi
      have hi2 : (i + 1) * s.cfg.BLOCKSIZE ≤ n * s.cfg.BLOCKSIZE := Nat.mul_le_mul_right _ hi
      rw [Nat.succ_mul] at hi2
      have := readRun_sub hm (i * s.cfg.BLOCKSIZE) s.cfg.BLOCKSIZE (by omega)
      rw [Nat.zero_add] at this
      simp only [encodeFullAt, readBytes_eq_ok.2 this, ok_bind, pure_eq_ok, Function.comp]
    · congr 1
      have := readRun_sub hm (n * s.cfg.BLOCKSIZE) (s.INLEN.toNat - n * s.cfg.BLOCKSIZE) (by omega)
      rw [Nat.zero_add, List.take_of_length_le (by simp; omega)] at this
      simp only [encodeLastAt, readBytes_eq_ok.2 this, ok_bind, pure_eq_ok]

/-- The block integers are small and not zero (41_data_format.md R136). -/
theorem messageInts_lt {c : Config} (hw : c.wf = true) (msg : List Byte) :
    ∀ x ∈ messageInts c msg, x < 2 ^ (8 * c.BLOCKSIZE + 1) ∧ x ≠ 0 := by
  intro x hx
  have hB := (wfFacts hw).blockPos
  have last : ∀ d : List Byte, d.length ≤ c.BLOCKSIZE →
      lastBlockInt c d < 2 ^ (8 * c.BLOCKSIZE + 1) ∧ lastBlockInt c d ≠ 0 :=
    fun d hd => ⟨lastBlockInt_lt hd, (lastBlockInt_pos c d).ne'⟩
  unfold messageInts at hx
  cases hn : (msg.length + c.BLOCKSIZE - 1) / c.BLOCKSIZE with
  | zero => rw [hn] at hx; simp at hx
  | succ n =>
    rw [hn] at hx
    have h1 : (n + 1) * c.BLOCKSIZE ≤ msg.length + c.BLOCKSIZE - 1 := by rw [← hn]; exact Nat.div_mul_le_self _ _
    have h2 : msg.length + c.BLOCKSIZE - 1 < (n + 1 + 1) * c.BLOCKSIZE := by
      rw [← hn]; exact Nat.lt_mul_of_div_lt (Nat.lt_succ_self _) hB
    simp only [Nat.succ_mul] at h1 h2
    rcases List.mem_append.1 hx with hx | hx
    · obtain ⟨i, hi, rfl⟩ := List.mem_map.1 hx
      rw [List.mem_range] at hi
      have hi2 : (i + 1) * c.BLOCKSIZE ≤ n * c.BLOCKSIZE := Nat.mul_le_mul_right _ hi
      rw [Nat.succ_mul] at hi2
      have hl : ((msg.drop (i * c.BLOCKSIZE)).take c.BLOCKSIZE).length = c.BLOCKSIZE := by simp; omega
      rw [← lastBlockInt_full hl]
      exact last _ hl.le
    · simp only [List.mem_singleton] at hx
      subst hx
      exact last _ (by simp; omega)

/-- The point of a written key (42_key.md R157). -/
theorem deriveKey_ok {s : State} {key : List Byte} (hw : s.cfg.wf = true)
    (hk : KeyGiven s key) {j : Nat} (hj : j < s.cfg.NTAGS) :
    deriveKey s j = .ok (evalPoint s.cfg (subKey s.cfg key j)) := by
  have W := wfFacts hw
  have hb : (j + 1) * s.cfg.SUBKEYSIZE ≤ s.cfg.NTAGS * s.cfg.SUBKEYSIZE := Nat.mul_le_mul_right _ hj
  rw [Nat.succ_mul] at hb
  have := readRun_sub hk.2 (j * s.cfg.SUBKEYSIZE) s.cfg.SUBKEYSIZE (by rw [W.keySize]; exact hb)
  rw [Nat.zero_add] at this
  rw [deriveKey, readKeySlot_ok hk.1 this]; rfl

/-- An evaluation on a written key and message (R175, R178). -/
theorem evaluate_ok {s : State} {key msg : List Byte} (hw : s.cfg.wf = true) (hk : KeyGiven s key)
    (hm : Message s msg) {j : Nat} (hj : j < s.cfg.NTAGS) :
    evaluate s j = .ok (subTagOf s.cfg key msg j) := by
  have W := wfFacts hw
  rw [evaluate, deriveKey_ok hw hk hj]
  have hms : ∀ m ∈ (messageInts s.cfg msg).map (splitInt s.cfg), s.cfg.tight m = true := by
    intro m h
    obtain ⟨x, hx, rfl⟩ := List.mem_map.1 h
    exact splitInt_tight W ((messageInts_lt hw msg x hx).1.trans_le (Nat.pow_le_pow_right (by norm_num)
      (by have := W.blockBits; omega)))
  obtain ⟨pw, acc, h1, h2, h3⟩ := schedule_reduced hw (evalPoint_tight W (subKey s.cfg key j)) hms
  have hv : ((messageInts s.cfg msg).map (splitInt s.cfg)).map s.cfg.val = messageInts s.cfg msg := by
    rw [List.map_map]; conv_rhs => rw [← List.map_id (messageInts s.cfg msg)]
    apply List.map_congr_left; intro x _; simp [val_splitInt W]
  rw [hv] at h3
  have hp : s.cfg.val (evalPoint s.cfg (subKey s.cfg key j)) = pointInt s.cfg key j := val_splitInt W _
  rw [hp] at h3
  simp only [ok_bind, h1]
  split
  · rename_i h0
    have hl := readRun_length hm
    rw [h0] at hl
    have : messageInts s.cfg msg = [] := by
      unfold messageInts
      have hB := W.blockPos
      rw [hl, Nat.zero_add, Nat.div_eq_of_lt (by omega)]
    rw [pure_eq_ok, subTagOf, this]
    have hz : splitInt s.cfg (target s.cfg.p (pointInt s.cfg key j) []) = s.cfg.zeros := by
      rw [show target s.cfg.p (pointInt s.cfg key j) [] = 0 by simp [target]]
      rw [splitInt, Config.zeros, List.eq_replicate_iff]; simp
    rw [hz]
  · rw [messageBlocks_ok hw hm, h2]
    simp only [ok_bind, pure_eq_ok, h3]; rfl

/-- Consecutive evaluations that all answer. -/
theorem evaluateFrom_eq {s : State} {f : Nat → List Byte} : ∀ {n j}, (∀ i, j ≤ i → i < j + n → evaluate s i = .ok
    (f i)) →
    evaluateFrom s j n = .ok ((List.range n).flatMap (fun i => f (j + i))) := by
  intro n
  induction n with
  | zero => intro j _; rfl
  | succ n ih =>
    intro j h
    rw [evaluateFrom, h j (le_refl _) (by omega), ih (j := j + 1) (fun i h1 h2 => h i (by omega) (by omega))]
    simp only [ok_bind, pure_eq_ok, List.range_succ_eq_map, List.flatMap_cons, List.flatMap_map, Nat.add_zero,
      Except.ok.injEq, List.append_cancel_left_eq]
    congr 1; funext i; rw [show j + 1 + i = j + (i + 1) by omega]

/-- The tag of a written message under a written key (R175, R180). -/
theorem tagBytes_ok {s : State} {key msg : List Byte} (hw : s.cfg.wf = true) (hk : KeyGiven s key)
    (hm : Message s msg) :
    tagBytes s = .ok (tagOf s.cfg key msg) := by
  rw [tagBytes, requireKeylen, decide_eq_true hk.1]
  simp only [require_true, ok_bind]
  rw [evaluateFrom_eq (f := subTagOf s.cfg key msg) (fun i _ h => evaluate_ok hw hk hm (by omega))]
  simp [tagOf]

/-! A byte that was never written -/

/-- Some byte of KEY or of the message holds no value. -/
def Missing (s : State) : Prop := (∃ x, x < s.cfg.KEYSIZE ∧ Memory.read s.KEY x = none) ∨ (∃ x, x < s.INLEN.toNat ∧
  Memory.read s.MSG x = none)

/-- A stated key and the message are written, or a byte is missing. -/
theorem given_or_missing (s : State) (hk : s.KEYLEN.toNat = s.cfg.KEYSIZE) : (∃ key msg, KeyGiven s key ∧ Message s
    msg) ∨ Missing s := by
  cases h1 : Memory.readRun s.KEY 0 s.cfg.KEYSIZE with
  | none => obtain ⟨i, hi, h⟩ := readRun_none_exists h1; exact .inr (.inl ⟨i, hi, by simpa using h⟩)
  | some key =>
    cases h2 : Memory.readRun s.MSG 0 s.INLEN.toNat with
    | none => obtain ⟨i, hi, h⟩ := readRun_none_exists h2; exact .inr (.inr ⟨i, hi, by simpa using h⟩)
    | some msg => exact .inl ⟨key, msg, ⟨hk, h1⟩, h2⟩

/-- Not both. -/
theorem not_missing {s : State} {key msg} (hk : KeyGiven s key) (hm : Message s msg) : ¬ Missing s := by
  rintro (⟨x, hx, h⟩ | ⟨x, hx, h⟩)
  · have := readRun_none (a := 0) (Nat.zero_le x) (by simpa using hx) h
    rw [hk.2] at this; cases this
  · have := readRun_none (a := 0) (Nat.zero_le x) (by simpa using hx) h
    rw [hm] at this; cases this

/-- A full block is tight or `E_UNINIT`. -/
theorem encodeFullAt_cases {s : State} (hw : s.cfg.wf = true) (a : Nat) : (∃ m, encodeFullAt s a = .ok m ∧
    s.cfg.tight m = true) ∨ encodeFullAt s a = .error .uninit := by
  rcases readBytes_cases s.MSG a s.cfg.BLOCKSIZE with ⟨b, h⟩ | h
  · have : encodeFullAt s a = .ok (splitInt s.cfg (fullBlockInt s.cfg b)) := by rw [encodeFullAt, h]; rfl
    exact .inl ⟨_, this, encodeFullAt_tight hw this⟩
  · right; rw [encodeFullAt, h]; rfl

/-- A last block is tight or `E_UNINIT`. -/
theorem encodeLastAt_cases {s : State} (hw : s.cfg.wf = true) {a : Nat}
    (hr : s.INLEN.toNat - a ≤ s.cfg.BLOCKSIZE) : (∃ m, encodeLastAt s a = .ok m ∧ s.cfg.tight m = true) ∨
    encodeLastAt s a = .error .uninit := by
  rcases readBytes_cases s.MSG a (s.INLEN.toNat - a) with ⟨b, h⟩ | h
  · have : encodeLastAt s a = .ok (splitInt s.cfg (lastBlockInt s.cfg b)) := by rw [encodeLastAt, h]; rfl
    exact .inl ⟨_, this, encodeLastAt_tight hw hr this⟩
  · right; rw [encodeLastAt, h]; rfl

/-- The last block starts inside the message and is at most a block long (R171). -/
theorem blockCount_succ {s : State} (hw : s.cfg.wf = true) {n : Nat} (hn : blockCount s = n + 1) :
    n * s.cfg.BLOCKSIZE < s.INLEN.toNat ∧ s.INLEN.toNat ≤ n * s.cfg.BLOCKSIZE + s.cfg.BLOCKSIZE := by
  have hB := (wfFacts hw).blockPos
  rw [blockCount] at hn
  have h1 : (n + 1) * s.cfg.BLOCKSIZE ≤ s.INLEN.toNat + s.cfg.BLOCKSIZE - 1 := by rw [← hn]; exact Nat.div_mul_le_self _ _
  have h2 : s.INLEN.toNat + s.cfg.BLOCKSIZE - 1 < (n + 1 + 1) * s.cfg.BLOCKSIZE := by
    rw [← hn]; exact Nat.lt_mul_of_div_lt (Nat.lt_succ_self _) hB
  simp only [Nat.succ_mul] at h1 h2
  omega

/-- Every block is tight or `E_UNINIT`. -/
theorem messageBlocks_cases {s : State} (hw : s.cfg.wf = true) : ∀ x ∈ messageBlocks s, (∃ m, x = .ok m ∧
    s.cfg.tight m = true) ∨ x = .error .uninit := by
  intro x hx
  unfold messageBlocks at hx
  cases hn : blockCount s with
  | zero => rw [hn] at hx; simp at hx
  | succ n =>
    rw [hn] at hx
    obtain ⟨h1, h2⟩ := blockCount_succ hw hn
    rcases List.mem_append.1 hx with hx | hx
    · obtain ⟨i, hi, rfl⟩ := List.mem_map.1 hx; exact encodeFullAt_cases hw _
    · simp only [List.mem_singleton] at hx; subst hx; exact encodeLastAt_cases hw (by omega)

/-- A missing byte is in some block. -/
theorem messageBlocks_missing {s : State} (hw : s.cfg.wf = true) {x : Nat} (hx : x < s.INLEN.toNat)
    (h : Memory.read s.MSG x = none) :
    ∃ e ∈ messageBlocks s, e = .error .uninit := by
  have hB := (wfFacts hw).blockPos
  unfold messageBlocks
  cases hn : blockCount s with
  | zero =>
    rw [blockCount] at hn
    have := (Nat.div_eq_zero_iff).1 hn
    omega
  | succ n =>
    obtain ⟨h1, h2⟩ := blockCount_succ hw hn
    by_cases hxn : x < n * s.cfg.BLOCKSIZE
    · refine ⟨encodeFullAt s (x / s.cfg.BLOCKSIZE * s.cfg.BLOCKSIZE), ?_, ?_⟩
      · refine List.mem_append_left _ (List.mem_map.2 ⟨x / s.cfg.BLOCKSIZE, ?_, rfl⟩)
        rw [List.mem_range]; exact Nat.div_lt_of_lt_mul (by rw [Nat.mul_comm]; exact hxn)
      · rw [encodeFullAt, readBytes_none (Nat.div_mul_le_self x _) ?_ h]; rfl
        have := Nat.mod_lt x hB
        have := Nat.div_add_mod' x s.cfg.BLOCKSIZE
        omega
    · refine ⟨encodeLastAt s (n * s.cfg.BLOCKSIZE), List.mem_append_right _ (by simp), ?_⟩
      rw [encodeLastAt, readBytes_none (by omega) (by omega) h]; rfl

/-- Blocks that are tight or `E_UNINIT`, against a readable stream. -/
theorem sim_readable {c : Config} (W : WfFacts c) {xs : Blocks}
    (h : ∀ x ∈ xs, (∃ m, x = Except.ok m ∧ c.tight m = true) ∨ x = .error .uninit) :
    ∃ ms, AllTight c ms ∧ SimB xs (readable ms) := by
  induction xs with
  | nil => exact ⟨[], fun m hm => by simp at hm, .nil⟩
  | cons x xs ih =>
    obtain ⟨ms, h1, h2⟩ := ih (fun y hy => h y (by simp [hy]))
    rcases h x (by simp) with ⟨m, rfl, hm⟩ | rfl
    · exact ⟨m :: ms, fun y hy => by rcases List.mem_cons.1 hy with rfl | hy; exacts [hm, h1 _ hy], .cons (.inr rfl) h2⟩
    · exact ⟨c.zeros :: ms, fun y hy => by
        rcases List.mem_cons.1 hy with rfl | hy
        · have := splitInt_tight W (x := 0) (by positivity)
          rw [show splitInt c 0 = c.zeros by rw [splitInt, Config.zeros, List.eq_replicate_iff]; simp] at this
          exact this
        · exact h1 _ hy, .cons (.inl rfl) h2⟩

/-- A key slot with KEYLEN stated answers or is `E_UNINIT`. -/
theorem readKeySlot_cases {s : State} (hk : s.KEYLEN.toNat = s.cfg.KEYSIZE)
    (j : Nat) : (∃ b, readKeySlot s j = .ok b) ∨ readKeySlot s j = .error .uninit := by
  rw [readKeySlot, requireKeylen, decide_eq_true hk]
  simp only [require_true, ok_bind]
  exact readBytes_cases _ _ _

/-- An evaluation answers or is `E_UNINIT`: no storage check fails (R200). -/
theorem evaluate_cases {s : State} (hw : s.cfg.wf = true) (hk : s.KEYLEN.toNat = s.cfg.KEYSIZE) (j : Nat) :
    (∃ b, evaluate s j = .ok b) ∨ evaluate s j = .error .uninit := by
  have W := wfFacts hw
  rcases readKeySlot_cases hk j with ⟨raw, h⟩ | h
  · have hd : deriveKey s j = .ok (evalPoint s.cfg raw) := by rw [deriveKey, h]; rfl
    obtain ⟨ms, hms, hsim⟩ := sim_readable W (messageBlocks_cases hw)
    obtain ⟨pw, acc, h1, h2, h3⟩ := schedule_reduced hw (evalPoint_tight W raw) hms
    rw [evaluate, hd]
    simp only [ok_bind, h1]
    split
    · exact .inl ⟨_, rfl⟩
    · rcases schedule_sim (c := s.cfg) (k := evalPoint s.cfg raw) (pw := pw) hsim with h | h
      · right; rw [h]; rfl
      · left; rw [h, h2]; exact ⟨_, rfl⟩
  · right; rw [evaluate, deriveKey, h]; rfl

/-- An evaluation that needs a missing byte is `E_UNINIT`. -/
theorem evaluate_missing {s : State} (hw : s.cfg.wf = true) (hk : s.KEYLEN.toNat = s.cfg.KEYSIZE) (j : Nat) 
    (h : (∃ x, j * s.cfg.SUBKEYSIZE ≤ x ∧ x < j * s.cfg.SUBKEYSIZE + s.cfg.SUBKEYSIZE ∧ Memory.read s.KEY x = none)
    ∨ (∃ x, x < s.INLEN.toNat ∧ Memory.read s.MSG x = none)) :
    evaluate s j = .error .uninit := by
  rcases evaluate_cases hw hk j with ⟨b, hb⟩ | h2
  swap
  · exact h2
  exfalso
  obtain ⟨k, hk1, hb⟩ := bind_eq_ok.1 hb
  obtain ⟨pw, hpw, hb⟩ := bind_eq_ok.1 hb
  rcases h with ⟨x, h1, h2, h3⟩ | ⟨x, hx, hn⟩
  · obtain ⟨raw, hraw, -⟩ := bind_eq_ok.1 hk1
    obtain ⟨_, -, hraw⟩ := bind_eq_ok.1 hraw
    rw [readBytes_none h1 h2 h3] at hraw; cases hraw
  · rw [if_neg (by omega)] at hb
    obtain ⟨acc, hacc, -⟩ := bind_eq_ok.1 hb
    obtain ⟨e, he, rfl⟩ := messageBlocks_missing hw hx hn
    obtain ⟨m, hm⟩ := schedule_allOk (wfFacts hw).strategy hpw hacc _ he
    cases hm

/-- Consecutive evaluations answer or are `E_UNINIT`. -/
theorem evaluateFrom_cases {s : State} (hw : s.cfg.wf = true) (hk : s.KEYLEN.toNat = s.cfg.KEYSIZE) : ∀ {n j},
    (∃ b, evaluateFrom s j n = .ok b) ∨ evaluateFrom s j n = .error .uninit := by
  intro n
  induction n with
  | zero => intro j; exact .inl ⟨_, rfl⟩
  | succ n ih =>
    intro j
    rw [evaluateFrom]
    rcases evaluate_cases hw hk j with ⟨b, h⟩ | h
    · rw [h]; simp only [ok_bind]
      rcases ih (j := j + 1) with ⟨b2, h2⟩ | h2
      · rw [h2]; exact .inl ⟨_, rfl⟩
      · rw [h2]; exact .inr rfl
    · rw [h]; exact .inr rfl

/-- Consecutive evaluations answer only if each does. -/
theorem evaluateFrom_part {s : State} : ∀ {n j b}, evaluateFrom s j n = .ok b → ∀ i, j ≤ i → i < j + n → ∃ b',
    evaluate s i = .ok b' := by
  intro n
  induction n with
  | zero => intro j b _ i h1 h2; omega
  | succ n ih =>
    intro j b h i h1 h2
    obtain ⟨t, ht, h⟩ := bind_eq_ok.1 h
    obtain ⟨ts, hts, h⟩ := bind_eq_ok.1 h
    by_cases hi : i = j
    · subst hi; exact ⟨t, ht⟩
    · exact ih hts i (by omega) (by omega)

/-- With a byte missing the tag is `E_UNINIT`. -/
theorem tagBytes_missing {s : State} (hw : s.cfg.wf = true) (hk : s.KEYLEN.toNat = s.cfg.KEYSIZE)
    (h : Missing s) : tagBytes s = .error .uninit := by
  have W := wfFacts hw
  rw [tagBytes, requireKeylen, decide_eq_true hk]
  simp only [require_true, ok_bind]
  rcases evaluateFrom_cases hw hk (n := s.cfg.NTAGS) (j := 0) with ⟨b, hb⟩ | h2
  swap
  · exact h2
  exfalso
  rcases h with ⟨x, hx, hn⟩ | ⟨x, hx, hn⟩
  · have hS : 0 < s.cfg.SUBKEYSIZE := by
      rw [W.keySize] at hx
      rcases Nat.eq_zero_or_pos s.cfg.SUBKEYSIZE with h0 | h0
      · rw [h0] at hx; simp at hx
      · exact h0
    have hj : x / s.cfg.SUBKEYSIZE < s.cfg.NTAGS := Nat.div_lt_of_lt_mul (by rw [Nat.mul_comm, ← W.keySize]; exact hx)
    obtain ⟨b', hb'⟩ := evaluateFrom_part hb _ (Nat.zero_le _) (by simpa using hj)
    rw [evaluate_missing hw hk _ (.inl ⟨x, Nat.div_mul_le_self x _, ?_, hn⟩)] at hb'
    · cases hb'
    · have := Nat.mod_lt x hS
      have := Nat.div_add_mod' x s.cfg.SUBKEYSIZE
      omega
  · obtain ⟨b', hb'⟩ := evaluateFrom_part hb 0 (Nat.zero_le _) (by have := W.tagsPos; omega)
    rw [evaluate_missing hw hk _ (.inr ⟨x, hx, hn⟩)] at hb'
    cases hb'

/-! HASH and VERIFY by the outcome of the tag -/

/-- HASH when the tag faults. -/
theorem hash_error {s : State} (hf : s.FAULT = none) {e} (h : tagBytes s = .error e) : exec .hash s = .next
    (raiseFault .hash e (encode .hash) s) :=
  exec_error ⟨hf, rfl⟩ (bind_eq_error.2 (.inl h))

/-- HASH when the tag answers (R175). -/
theorem hash_ok {s : State} (hf : s.FAULT = none) {tag} (h : tagBytes s = .ok tag) : exec .hash s = .next {
    reachDone s with OUT := Memory.writeRun s.OUT 0 tag, OUTVALID := true, VOK := false } :=
  exec_ok ⟨hf, rfl⟩ (bind_eq_ok.2 ⟨tag, h, rfl⟩)

/-- HASH on a given key and message gives the tag of the formula (R175). -/
theorem hash_gives {c : Config} (hw : c.wf = true) {s : State} {key msg : List Byte} (h : InputsGiven c key msg s) :
    HashGives s (tagOf c key msg) := by
  obtain ⟨rfl, hf, hk, hm⟩ := h
  have ht := tagBytes_ok hw hk hm
  refine ⟨_, hash_ok hf ht, hf, rfl, ?_⟩
  have hr := readRun_writeRun s.OUT 0 (tagOf s.cfg key msg)
  rw [tagBytes_length hw ht] at hr
  exact hr

/-- VERIFY is legal with HAS_VERIFY (30_encoding.md R76). -/
theorem verify_ready {s : State} (hf : s.FAULT = none) (hv : s.cfg.HAS_VERIFY = true) : Ready .verify s := ⟨hf, by
    simp [Instr.wf, Instr.check, hv]⟩

/-- The KEYLEN check passes (60_exceptions.md R222). -/
theorem requireKeylen_ok {s : State} (hk : s.KEYLEN.toNat = s.cfg.KEYSIZE) : requireKeylen s = .ok () := by simp
    [requireKeylen, hk]

/-- The KEYLEN check comes first (60_exceptions.md R222, R230). -/
theorem tagBytes_keylen {s : State} (hk : s.KEYLEN.toNat ≠ s.cfg.KEYSIZE) : tagBytes s = .error .keylen := by simp
    [tagBytes, requireKeylen, hk]

/-- VERIFY when the candidate cannot be read (R205). -/
theorem verify_out {s : State} (hf : s.FAULT = none) (hv : s.cfg.HAS_VERIFY = true)
    (hk : s.KEYLEN.toNat = s.cfg.KEYSIZE) {e} (h : readBytes s.OUT 0 s.cfg.OUTPUTSIZE = .error e) :
    exec .verify s = .next (raiseFault .verify e (encode .verify) s) :=
  exec_error (verify_ready hf hv) (bind_eq_error.2 (.inr ⟨(), requireKeylen_ok hk, bind_eq_error.2 (.inl h)⟩))

/-- VERIFY when the tag faults. -/
theorem verify_tag {s : State} (hf : s.FAULT = none) (hv : s.cfg.HAS_VERIFY = true)
    (hk : s.KEYLEN.toNat = s.cfg.KEYSIZE) {c e} (h : readBytes s.OUT 0 s.cfg.OUTPUTSIZE = .ok c) 
    (ht : tagBytes s = .error e) : exec .verify s = .next (raiseFault .verify e (encode .verify) s) :=
  exec_error (verify_ready hf hv) (bind_eq_error.2 (.inr ⟨(), requireKeylen_ok hk, bind_eq_error.2 (.inr ⟨c, h,
    bind_eq_error.2 (.inl ht)⟩)⟩))

/-- VERIFY when the tag answers (R205). -/
theorem verify_ok {s : State} (hf : s.FAULT = none) (hv : s.cfg.HAS_VERIFY = true)
    (hk : s.KEYLEN.toNat = s.cfg.KEYSIZE) {c tag} (h : readBytes s.OUT 0 s.cfg.OUTPUTSIZE = .ok c) 
    (ht : tagBytes s = .ok tag) : exec .verify s = .next { reachDone s with VOK := sameBytes c tag, OUTVALID :=
    false } :=
  exec_ok (verify_ready hf hv) (bind_eq_ok.2 ⟨(), requireKeylen_ok hk, bind_eq_ok.2 ⟨c, h, bind_eq_ok.2 ⟨tag, ht, rfl⟩⟩⟩)

/-! The tag as a function -/

/-- The tag does not depend on the strategy (R196). -/
theorem tagOf_strategy (c : Config) (st : Strategy) (key msg : List Byte) : tagOf { c with STRATEGY := st } key msg
    = tagOf c key msg := by
  have hv : ∀ x, Config.val { c with STRATEGY := st } x = c.val x := by
    intro x; induction x with
    | nil => rfl
    | cons y ys ih => simp only [val_cons, ih]
  have : subTagOf { c with STRATEGY := st } key msg = subTagOf c key msg := by
    funext j; simp only [subTagOf, subTagBytes, packBytes, hv]; rfl
  rw [tagOf, this]; rfl

/-- A sub-tag has SUBTAGSIZE bytes. -/
theorem subTagOf_length (c : Config) (key msg : List Byte) (j : Nat) : (subTagOf c key msg j).length = c.SUBTAGSIZE
    := subTagBytes_length _ _

/-- A slot of a concatenation of equal lengths. -/
theorem flatMap_slot {f : Nat → List Byte} {n L j : Nat} (hf : ∀ i, (f i).length = L) (hj : j < n) :
    (((List.range n).flatMap f).drop (j * L)).take L = f j := by
  induction n generalizing j f with
  | zero => omega
  | succ n ih =>
    rw [List.range_succ_eq_map, List.flatMap_cons, List.flatMap_map]
    cases j with
    | zero => rw [Nat.zero_mul, List.drop_zero, List.take_append_of_le_length (by rw [hf]),
      List.take_of_length_le (by rw [hf])]
    | succ j =>
      rw [show (j + 1) * L = L + j * L by ring, ← List.drop_drop, List.drop_left' (hf 0)]
      exact ih (f := fun a => f a.succ) (fun i => hf _) (by omega)

/-- The empty message. -/
theorem message_empty {s : State} (h : s.INLEN = 0) : Message s [] := by rw [Message, h]; rfl

/-- At the point 0 the target is 0 (R173). -/
theorem target_zero (p : Nat) (ms : List Nat) : target p 0 ms = 0 := by
  rw [target]
  have : ((List.range ms.length).map (fun i => ms.getD i 0 * 0 ^ (ms.length - i))).sum = 0 := by
    apply List.sum_eq_zero
    intro x hx
    obtain ⟨i, hi, rfl⟩ := List.mem_map.1 hx
    rw [List.mem_range] at hi
    rw [zero_pow (by omega), Nat.mul_zero]
  rw [this, Nat.zero_mod]

/-- The sum of a list by position. -/
theorem sum_getD (ms : List Nat) : ((List.range ms.length).map (fun i => ms.getD i 0)).sum = ms.sum := by
  induction ms with
  | nil => rfl
  | cons m ms ih => rw [List.length_cons, List.range_succ_eq_map, List.map_cons, List.sum_cons, List.map_map,
    List.sum_cons, ← ih]; rfl

/-- Strings that agree block by block and in the rest are equal. -/
theorem list_eq_of_blocks {x y : List Byte} {B n : Nat} (hx : n * B ≤ x.length) (hy : n * B ≤ y.length)
    (h : ∀ i, i < n → (x.drop (i * B)).take B = (y.drop (i * B)).take B)
    (ht : x.drop (n * B) = y.drop (n * B)) : x = y := by
  induction n generalizing x y with
  | zero => simpa using ht
  | succ n ih =>
    have h0 := h 0 (by omega)
    simp only [Nat.zero_mul, List.drop_zero] at h0
    rw [Nat.succ_mul] at hx hy
    have : x.drop B = y.drop B := by
      apply ih (by simp; omega) (by simp; omega)
      · intro i hi
        have := h (i + 1) (by omega)
        rw [Nat.succ_mul, Nat.add_comm, ← List.drop_drop, ← List.drop_drop] at this; exact this
      · rw [Nat.succ_mul, Nat.add_comm, ← List.drop_drop, ← List.drop_drop] at ht; exact ht
    rw [← List.take_append_drop B x, h0, this, List.take_append_drop]

/-- Different messages have different block integers (identity hook). -/
theorem messageInts_injective {c : Config} (hw : c.wf = true) (hT : c.TM = .identity)
    {x y : List Byte} (h : messageInts c x = messageInts c y) : x = y := by
  have hB := (wfFacts hw).blockPos
  have hlen : ∀ z : List Byte, (messageInts c z).length = (z.length + c.BLOCKSIZE - 1) / c.BLOCKSIZE := by
    intro z; unfold messageInts; cases (z.length + c.BLOCKSIZE - 1) / c.BLOCKSIZE <;> simp
  have hn : (x.length + c.BLOCKSIZE - 1) / c.BLOCKSIZE = (y.length + c.BLOCKSIZE - 1) / c.BLOCKSIZE := by rw [← hlen,
    ← hlen, h]
  unfold messageInts at h
  rw [← hn] at h
  cases hx : (x.length + c.BLOCKSIZE - 1) / c.BLOCKSIZE with
  | zero =>
    have hy := hx; rw [hn] at hy
    have a := (Nat.div_eq_zero_iff).1 hx
    have b := (Nat.div_eq_zero_iff).1 hy
    have e1 : x.length = 0 := by omega
    have e2 : y.length = 0 := by omega
    rw [List.length_eq_zero_iff.1 e1, List.length_eq_zero_iff.1 e2]
  | succ n =>
    have hy := hx; rw [hn] at hy
    have bound : ∀ z : List Byte, (z.length + c.BLOCKSIZE - 1) / c.BLOCKSIZE = n + 1 → n * c.BLOCKSIZE ≤ z.length := by
      intro z hz
      have h1 : (n + 1) * c.BLOCKSIZE ≤ z.length + c.BLOCKSIZE - 1 := by rw [← hz]; exact Nat.div_mul_le_self _ _
      rw [Nat.succ_mul] at h1; omega
    rw [hx] at h
    simp only at h
    have hl := List.append_inj h (by simp)
    obtain ⟨h1, h2⟩ := hl
    have bx := bound x hx
    have bY := bound y hy
    refine list_eq_of_blocks bx bY ?_ ?_
    · intro i hi
      have h3 := congrArg (fun l => l[i]?) h1
      simp only [List.getElem?_map, List.getElem?_range hi, Option.map_some, Option.some.injEq] at h3
      have hi2 : (i + 1) * c.BLOCKSIZE ≤ n * c.BLOCKSIZE := Nat.mul_le_mul_right _ hi
      rw [Nat.succ_mul] at hi2
      exact fullBlockInt_injective hT (by simp; omega) h3
    · simp only [List.cons.injEq, and_true] at h2
      rw [lastBlockInt_identity hT, lastBlockInt_identity hT] at h2
      exact marker_inj h2

/-- The polynomial by its digits in base `k` (R170). -/
theorem blockPolynomial_digits (k : Nat) (ms : List Nat) : blockPolynomial k ms = k * Nat.ofDigits k ms.reverse := by
  induction ms with
  | nil => simp [blockPolynomial]
  | cons m ms ih =>
    rw [blockPolynomial, List.length_cons, List.range_succ_eq_map, List.map_cons, List.sum_cons, List.map_map]
    have : ((List.range ms.length).map ((fun i => (m :: ms).getD i 0 * k ^ (ms.length + 1 - i)) ∘ Nat.succ)).sum =
      blockPolynomial k ms := by
      rw [blockPolynomial]; congr 1
      apply List.map_congr_left; intro i _
      simp [Function.comp, Nat.succ_eq_add_one, Nat.add_sub_add_right]
    rw [this, ih, List.reverse_cons, Nat.ofDigits_append]
    simp [Nat.ofDigits_singleton, pow_succ]; ring

/-- In a base above every coefficient the polynomial determines them. -/
theorem blockPolynomial_injective {xs ys : List Nat} {K : Nat} (hK : 1 < K) (hx : ∀ x ∈ xs, x < K ∧ x ≠ 0)
    (hy : ∀ x ∈ ys, x < K ∧ x ≠ 0)
    (h : blockPolynomial K xs = blockPolynomial K ys) : xs = ys := by
  rw [blockPolynomial_digits, blockPolynomial_digits] at h
  have h := Nat.eq_of_mul_eq_mul_left (by omega) h
  have d : ∀ zs : List Nat, (∀ x ∈ zs, x < K ∧ x ≠ 0) → Nat.digits K (Nat.ofDigits K zs.reverse) = zs.reverse := by
    intro zs hz
    apply Nat.digits_ofDigits K hK
    · intro l hl; exact (hz l (by simpa using hl)).1
    · intro hne; exact (hz _ (by have := List.getLast_mem hne; simp only [List.mem_reverse] at this; exact this)).2
  have := congrArg (Nat.digits K) h
  rw [d _ hx, d _ hy] at this
  exact List.reverse_injective this

end Sys2Proof.Machine
end

