-- ==== Sys2Proof/Laws/Absorb.lean ====
section
/-! SUPPORT. Handing the blocks of a stream to the strategy one after another (43_hash_engine.md R176) gives the
accumulator of the strategy's schedule (R184 to R188), with no more blocks in flight than 20_memory.md R67 allows. -/

namespace Sys2Proof.Machine

/-- Read the blocks of the stream and hand them over, one after another, up to the first fault. -/
def absorb (c : Config) (k : Limbs) (pw : List Limbs) : Evaluation → Blocks → Except FaultCode Evaluation
  | ev, [] => .ok ev
  | ev, x :: xs => do
    let m ← x
    let ev' ← handBlock c k pw (xs.length + 1) ev m
    absorb c k pw ev' xs

/-- The accumulator an absorbed stream leaves. -/
def absorbAcc (c : Config) (k : Limbs) (pw : List Limbs) (ev : Evaluation) (xs : Blocks) : Except FaultCode Limbs := do
  let ev' ← absorb c k pw ev xs
  return ev'.acc

theorem absorb_cons {c : Config} {k : Limbs} {pw : List Limbs} (ev : Evaluation) (x : Except FaultCode Limbs)
    (xs : Blocks) : absorb c k pw ev (x :: xs) =
      (x >>= fun m => handBlock c k pw (xs.length + 1) ev m >>= fun ev' => absorb c k pw ev' xs) := rfl

theorem bind_assoc_except {α β γ : Type} (x : Except FaultCode α) (f : α → Except FaultCode β)
    (g : β → Except FaultCode γ) : (x >>= f) >>= g = x >>= fun a => f a >>= g := by
  cases x <;> rfl

/-! ## Blocks in flight (R67) -/

/-- Every block in flight belongs to a group that is not complete. -/
def Evaluation.Within (ev : Evaluation) (st : Strategy) : Prop := ev.inFlight.length < inFlightLimit st

theorem limit_pos {st : Strategy} (h : st.supported = true) : 0 < inFlightLimit st := by
  cases st <;> simp_all [inFlightLimit, Strategy.supported] <;> omega

theorem groupSize_le {st : Strategy} (h : st.supported = true) (left : Nat) :
    groupSize st left ≤ inFlightLimit st := by
  have := limit_pos h
  cases st <;> simp only [groupSize, inFlightLimit] at this ⊢ <;> first | omega | (split <;> omega)

theorem chainGroup_flight {c : Config} {k : Limbs} {ev ev' : Evaluation} {ms : List Limbs}
    (h : chainGroup c k ev ms = .ok ev') : ev'.inFlight = ev.inFlight := by
  obtain ⟨a, _, h⟩ := bind_eq_ok.1 h
  cases h; rfl

theorem branchGroup_flight {c : Config} {B : Nat} {K : List Limbs} {left : Nat} {ev ev' : Evaluation} {ms : List Limbs}
    (h : branchGroup c B K left ev ms = .ok ev') : ev'.inFlight = ev.inFlight := by
  obtain ⟨a, _, h⟩ := bind_eq_ok.1 h
  split at h
  · obtain ⟨b, _, h⟩ := bind_eq_ok.1 h
    cases h; rfl
  · cases h; rfl

theorem nestedBlock_flight {c : Config} {L : Nat} {K : List Limbs} {k : Limbs} {ev ev' : Evaluation} {ms : List Limbs}
    (h : nestedBlock c L K k ev ms = .ok ev') : ev'.inFlight = ev.inFlight := by
  obtain ⟨a, _, h⟩ := bind_eq_ok.1 h
  split at h
  · obtain ⟨y, _, h⟩ := bind_eq_ok.1 h
    obtain ⟨b, _, h⟩ := bind_eq_ok.1 h
    cases h; rfl
  · cases h; rfl

/-- Processing a group leaves what is in flight alone. -/
theorem processGroup_flight {c : Config} {k : Limbs} {pw : List Limbs} {left : Nat} {ev ev' : Evaluation}
    {ms : List Limbs} (h : processGroup c k pw left ev ms = .ok ev') : ev'.inFlight = ev.inFlight := by
  unfold processGroup at h
  split at h
  · exact chainGroup_flight h
  · split at h
    · exact branchGroup_flight h
    · exact chainGroup_flight h
  · obtain ⟨a, _, h⟩ := bind_eq_ok.1 h
    cases h; rfl
  · split at h
    · obtain ⟨a, _, h⟩ := bind_eq_ok.1 h
      cases h; rfl
    · exact chainGroup_flight h
  · split at h
    · exact chainGroup_flight h
    · exact nestedBlock_flight h

/-- After a block is handed over the blocks in flight are within the limit, whatever they were before (R67). -/
theorem handBlock_within {c : Config} (hs : c.STRATEGY.supported = true) {k : Limbs} {pw : List Limbs} {left : Nat}
    {ev ev' : Evaluation} {m : Limbs} (h : handBlock c k pw left ev m = .ok ev') : ev'.Within c.STRATEGY := by
  unfold handBlock at h
  split at h
  · cases h
    have := groupSize_le hs (left + ev.inFlight.length)
    simp only [Evaluation.Within, List.length_append, List.length_singleton]; omega
  · rw [Evaluation.Within, processGroup_flight h]; exact limit_pos hs

/-- A group is no longer than what is left. -/
theorem groupSize_left {st : Strategy} (left : Nat) : groupSize st left ≤ max 1 left := by
  cases st <;> simp only [groupSize] <;> first | omega | (split <;> omega)

/-- The last block completes its group: nothing stays in flight (R176). -/
theorem handBlock_last {c : Config} {k : Limbs} {pw : List Limbs} {left : Nat} (hl : left ≤ 1) {ev ev' : Evaluation}
    {m : Limbs} (h : handBlock c k pw left ev m = .ok ev') : ev'.inFlight = [] := by
  have := groupSize_left (st := c.STRATEGY) (left + ev.inFlight.length)
  rw [handBlock, if_neg (by omega)] at h
  exact processGroup_flight h

/-! ## Groups -/

/-- The blocks `pre` in flight and the next blocks `ms` make one group: it is processed as a whole. -/
theorem absorb_group {c : Config} {k : Limbs} {pw : List Limbs} {rest : Blocks} : ∀ {ms pre : List Limbs}
    {ev : Evaluation}, ms ≠ [] → ev.inFlight = pre →
    groupSize c.STRATEGY (pre.length + ms.length + rest.length) = pre.length + ms.length →
    absorb c k pw ev (readable ms ++ rest) =
      (processGroup c k pw (pre.length + ms.length + rest.length) { ev with inFlight := [] } (pre ++ ms) >>=
        fun ev' => absorb c k pw ev' rest) := by
  intro ms
  induction ms with
  | nil => intro pre ev h; exact absurd rfl h
  | cons m ms ih =>
    intro pre ev _ hp hg
    rw [readable_cons, List.cons_append, absorb_cons, ok_bind]
    have hl : (readable ms ++ rest).length + 1 + pre.length = pre.length + (m :: ms).length + rest.length := by
      simp; omega
    rw [handBlock, hp, hl, hg]
    cases ms with
    | nil => rw [if_neg (by simp)]; rfl
    | cons m' ms =>
      rw [if_pos (by simp), ok_bind, ih (pre := pre ++ [m]) (by simp) rfl]
      · congr 2
        · simp; omega
        · simp
      · rw [← show pre.length + (m :: m' :: ms).length = (pre ++ [m]).length + (m' :: ms).length by simp; omega]
        exact hg

/-- Between two groups: nothing is in flight and no inner group is under way. -/
structure Evaluation.Fresh (c : Config) (ev : Evaluation) : Prop where
  flight : ev.inFlight = []
  inner : ev.inner = c.zeros
  innerCount : ev.innerCount = 0

theorem start_fresh (c : Config) : (Evaluation.start c).Fresh c := ⟨rfl, rfl, rfl⟩

theorem Evaluation.Fresh.withAcc {c : Config} {ev : Evaluation} (h : ev.Fresh c) (a : Limbs) :
    Evaluation.Fresh c { ev with acc := a } := ⟨h.flight, h.inner, h.innerCount⟩

theorem Evaluation.Fresh.clear {c : Config} {ev : Evaluation} (h : ev.Fresh c) : { ev with inFlight := [] } = ev := by
  have := h.flight
  cases ev; simp_all

/-- A complete group met between two groups. -/
theorem absorb_whole {c : Config} {k : Limbs} {pw : List Limbs} {rest : Blocks} {ms : List Limbs} {ev : Evaluation}
    (hms : ms ≠ []) (hf : ev.Fresh c) (hg : groupSize c.STRATEGY (ms.length + rest.length) = ms.length) :
    absorb c k pw ev (readable ms ++ rest) =
      (processGroup c k pw (ms.length + rest.length) ev ms >>= fun ev' => absorb c k pw ev' rest) := by
  have := absorb_group (k := k) (pw := pw) (rest := rest) hms hf.flight (by simpa using hg)
  simpa [hf.clear] using this

/-- Blocks taken one by one on `acc`: CHAIN, and the remainder path (R184). -/
theorem absorb_chain {c : Config} {k : Limbs} {pw : List Limbs} : ∀ {ms : List Limbs} {ev : Evaluation},
    ev.Fresh c → (∀ l, 1 ≤ l → l ≤ ms.length → groupSize c.STRATEGY l = 1 ∧ ∀ (ev : Evaluation) (m : Limbs),
      ev.innerCount = 0 → processGroup c k pw l ev [m] = chainGroup c k ev [m]) →
    absorbAcc c k pw ev (readable ms) = chain c k ev.acc (readable ms) := by
  intro ms
  induction ms with
  | nil => intro ev _ _; rfl
  | cons m ms ih =>
    intro ev hf h
    obtain ⟨h1, h2⟩ := h (ms.length + 1) (by omega) (by simp)
    have e : [m].length + (readable ms).length = ms.length + 1 := by simp; omega
    rw [absorbAcc, show readable (m :: ms) = readable [m] ++ readable ms from rfl,
      absorb_whole (by simp) hf (by rw [e]; exact h1), e, h2 _ _ hf.innerCount, chainGroup]
    show _ = (Except.ok m >>= fun m => hstep c ev.acc m k >>= fun a => chain c k a (readable ms))
    simp only [List.map_cons, List.map_nil, chain, ok_bind]
    cases hstep c ev.acc m k with
    | error e => rfl
    | ok a => exact ih (hf.withAcc a) fun l a b => h l a (by simp; omega)

/-- Windows of `S` blocks folded by `f`, then `g` on the blocks left over: a strategy that absorbs a window as `f` does
and the rest as `g` does absorbs the stream as its schedule does. -/
theorem absorb_windows {c : Config} {k : Limbs} {pw : List Limbs} {S : Nat} (hS : 0 < S)
    {f g : Limbs → Blocks → Except FaultCode Limbs}
    (hf : ∀ (ev : Evaluation) (ms : List Limbs) (rest : Blocks), ev.Fresh c → ms.length = S →
      absorb c k pw ev (readable ms ++ rest) =
        (f ev.acc (readable ms) >>= fun a => absorb c k pw { ev with acc := a } rest))
    (hg : ∀ (ev : Evaluation) (ms : List Limbs), ev.Fresh c → ms.length < S →
      absorbAcc c k pw ev (readable ms) = g ev.acc (readable ms)) : ∀ (q : Nat) {ms : List Limbs} {ev : Evaluation},
    ev.Fresh c → ms.length / S = q → absorbAcc c k pw ev (readable ms) =
      (windows f S q ev.acc (readable ms) >>= fun out => g out.1 out.2) := by
  intro q
  induction q with
  | zero =>
    intro ms ev he hq
    exact hg ev ms he (by rcases (Nat.div_eq_zero_iff).1 hq with h | h <;> omega)
  | succ q ih =>
    intro ms ev he hq
    have hl : S ≤ ms.length := by
      by_contra h
      rw [Nat.div_eq_of_lt (by omega)] at hq; omega
    have hd : (ms.drop S).length / S = q := by 
      rw [List.length_drop, ← Nat.add_right_cancel_iff (n := 1), ← hq, ← Nat.add_div_right _ hS, Nat.sub_add_cancel hl]
    conv_lhs => rw [absorbAcc, ← List.take_append_drop S ms,
      show readable (ms.take S ++ ms.drop S) = readable (ms.take S) ++ readable (ms.drop S) by simp [readable]]
    rw [hf ev _ _ he (by simp; omega), windows, readable_take, readable_drop]
    cases f ev.acc (readable (ms.take S)) with
    | error e => rfl
    | ok a => exact ih (he.withAcc a) hd

/-! ## The strategies -/

/-- CHAIN (R184). -/
theorem absorb_eq_chain {c : Config} (hs : c.STRATEGY = .chain) {k : Limbs} {pw ms : List Limbs} {ev : Evaluation}
    (he : ev.Fresh c) : absorbAcc c k pw ev (readable ms) = chain c k ev.acc (readable ms) :=
  absorb_chain he fun l _ _ => ⟨by rw [hs]; rfl, fun ev m _ => by rw [processGroup, hs]⟩

/-- TREE (R187). -/
theorem absorb_eq_tree {c : Config} {H : Nat} (hs : c.STRATEGY = .tree H) {k : Limbs} {pw ms : List Limbs}
    {ev : Evaluation} (he : ev.Fresh c) : absorbAcc c k pw ev (readable ms) =
      (windows (treeWindow c H pw) (2 ^ H) (ms.length / 2 ^ H) ev.acc (readable ms) >>= fun out =>
        chain c k out.1 out.2) := by
  have hS : 0 < 2 ^ H := by positivity
  refine absorb_windows hS (fun ev ms rest he hl => ?_) (fun ev ms he hl => ?_) _ he rfl
  · rw [absorb_whole (List.ne_nil_of_length_pos (by omega)) he
      (by rw [hs]; simp only [groupSize]; rw [if_pos (by omega), hl]), processGroup, hs]
    simp only
    rw [if_pos (by omega), bind_assoc_except]; rfl
  · refine absorb_chain he fun l h1 h2 => ⟨?_, fun ev m _ => ?_⟩
    · rw [hs]; simp only [groupSize]; rw [if_neg (by omega)]
    · rw [processGroup, hs]; simp only; rw [if_neg (by omega)]

/-- DELAY (R186). -/
theorem absorb_eq_delay {c : Config} {D : Nat} (hD : 0 < D) (hs : c.STRATEGY = .delay D) {k : Limbs}
    {pw ms : List Limbs} {ev : Evaluation} (he : ev.Fresh c) : absorbAcc c k pw ev (readable ms) =
      (windows (delayGroup c pw) D (ms.length / D) ev.acc (readable ms) >>= fun out =>
        delayGroup c pw out.1 out.2) := by
  have hp : ∀ (l : Nat) (ev : Evaluation) (ms : List Limbs), processGroup c k pw l ev ms =
      (delayGroup c pw ev.acc (readable ms) >>= fun a => .ok { ev with acc := a }) := by
    intro l ev ms; rw [processGroup, hs]; rfl
  refine absorb_windows hD (fun ev ms rest he hl => ?_) (fun ev ms he hl => ?_) _ he rfl
  · rw [absorb_whole (List.ne_nil_of_length_pos (by omega)) he
      (by rw [hs]; simp only [groupSize]; omega), hp, bind_assoc_except]; rfl
  · cases ms with
    | nil => rfl
    | cons m ms =>
      have h := absorb_whole (k := k) (pw := pw) (rest := []) (ms := m :: ms) (by simp) he
        (by rw [hs]; simp only [groupSize, List.length_nil]; omega)
      rw [List.append_nil, hp] at h
      rw [absorbAcc, h]
      cases delayGroup c pw ev.acc (readable (m :: ms)) <;> rfl

/-- The blocks that complete an inner group of NESTED (R188). -/
theorem absorb_inner {c : Config} {L : Nat} (hs : c.STRATEGY = .nested L) {k : Limbs} {pw : List Limbs}
    {rest : Blocks} : ∀ {ms : List Limbs} {ev : Evaluation}, ms ≠ [] → ev.inFlight = [] →
    ev.innerCount + ms.length = L →
    absorb c k pw ev (readable ms ++ rest) =
      (chain c k ev.inner (readable ms) >>= fun s => mulCarry c ev.acc (pw.getD (L - 1) []) >>= fun y =>
        addLimbs c y s >>= fun a =>
          absorb c k pw { ev with acc := a, inner := c.zeros, innerCount := 0 } rest) := by
  intro ms
  induction ms with
  | nil => intro ev h; exact absurd rfl h
  | cons m ms ih =>
    intro ev _ hf hc
    simp only [List.length_cons] at hc
    rw [readable_cons, List.cons_append, absorb_cons, ok_bind, handBlock, hf, hs]
    have hl : (readable ms ++ rest).length + 1 + ([] : List Limbs).length = ms.length + rest.length + 1 := by simp
    rw [if_neg (by simp [groupSize]), processGroup, hs, hl]
    simp only [List.nil_append]
    rw [if_neg (by omega), nestedBlock]
    show _ = ((hstep c ev.inner m k >>= fun a => chain c k a (readable ms)) >>= _)
    simp only [List.map_cons, List.map_nil, chain, ok_bind]
    cases hstep c ev.inner m k with
    | error e => rfl
    | ok s =>
      simp only [ok_bind]
      cases ms with
      | nil =>
        rw [if_pos (by simpa using hc)]
        simp only [readable_nil, chain, ok_bind, List.nil_append]
        cases mulCarry c ev.acc (pw.getD (L - 1) []) with
        | error e => rfl
        | ok y =>
          simp only [ok_bind]
          cases addLimbs c y s with
          | error e => rfl
          | ok a => simp only [ok_bind]; rfl
      | cons m' ms =>
        simp only [List.length_cons] at hc
        rw [if_neg (by omega)]
        exact ih (ev := { ev with inner := s, innerCount := ev.innerCount + 1, inFlight := [] }) (by simp) rfl
          (by simp only [List.length_cons]; omega)

/-- NESTED (R188). -/
theorem absorb_eq_nested {c : Config} {L : Nat} (hL : 0 < L) (hs : c.STRATEGY = .nested L) {k : Limbs}
    {pw ms : List Limbs} {ev : Evaluation} (he : ev.Fresh c) : absorbAcc c k pw ev (readable ms) =
      (windows (nestedGroup c L pw k) L (ms.length / L) ev.acc (readable ms) >>= fun out =>
        chain c k out.1 out.2) := by
  refine absorb_windows hL (fun ev ms rest he hl => ?_) (fun ev ms he hl => ?_) _ he rfl
  · obtain ⟨acc, lanes, inner, count, flight⟩ := ev
    obtain ⟨rfl, rfl, rfl⟩ := he
    rw [absorb_inner hs (List.ne_nil_of_length_pos (by omega)) rfl (by simpa using hl), nestedGroup, bind_assoc_except]
    simp only [bind_assoc_except]
  · refine absorb_chain he fun l h1 h2 => ⟨by rw [hs]; rfl, fun ev m hi => ?_⟩
    rw [processGroup, hs]; simp only; rw [if_pos ⟨hi, by omega⟩]

/-- BRANCH (R185): the rounds, the merge after the last of them, the remainder. -/
theorem absorb_eq_branch {c : Config} {B : Nat} (hB : 0 < B) (hs : c.STRATEGY = .branch B) {k : Limbs}
    {pw : List Limbs} : ∀ (q : Nat) {ms : List Limbs} {ev : Evaluation}, ev.Fresh c → ms.length / B = q →
    absorbAcc c k pw ev (readable ms) =
      (branchRounds c B pw q ev.lanes (readable ms) >>= fun out =>
        (if q = 0 then .ok ev.acc else mergeBranches c (out.1.headD []) out.1.tail) >>= fun a =>
          chain c k a out.2) := by
  intro q
  induction q with
  | zero =>
    intro ms ev he hq
    have hl : ms.length < B := by rcases (Nat.div_eq_zero_iff).1 hq with h | h <;> omega
    refine absorb_chain he fun l h1 h2 => ⟨?_, fun ev m _ => ?_⟩
    · rw [hs]; simp only [groupSize]; rw [if_neg (by omega)]
    · rw [processGroup, hs]; simp only; rw [if_neg (by omega)]
  | succ q ih =>
    intro ms ev he hq
    have hl : B ≤ ms.length := by
      by_contra h
      rw [Nat.div_eq_of_lt (by omega)] at hq; omega
    have hd : (ms.drop B).length / B = q := by
      rw [List.length_drop, ← Nat.add_right_cancel_iff (n := 1), ← hq, ← Nat.add_div_right _ hB, Nat.sub_add_cancel hl]
    conv_lhs => rw [absorbAcc, ← List.take_append_drop B ms,
      show readable (ms.take B ++ ms.drop B) = readable (ms.take B) ++ readable (ms.drop B) by simp [readable]]
    have e : (ms.take B).length + (readable (ms.drop B)).length = ms.length := by simp; omega
    rw [absorb_whole (List.ne_nil_of_length_pos (by simp; omega)) he
      (by rw [e, hs]; simp only [groupSize]; rw [if_pos hl]; simp; omega), e, processGroup, hs]
    simp only
    rw [if_pos hl, branchGroup, branchRounds, readable_take, readable_drop, hq, Nat.add_sub_cancel]
    simp only [Nat.add_eq_zero_iff, one_ne_zero, and_false, if_false]
    show ((branchRound c ev.lanes (readable (ms.take B)) (roundPowers B pw q) >>= _) >>= _) >>= _ = _
    cases branchRound c ev.lanes (readable (ms.take B)) (roundPowers B pw q) with
    | error e => rfl
    | ok A =>
      simp only [ok_bind]
      by_cases h0 : q = 0
      · rw [if_pos h0]
        cases hm : mergeBranches c (A.headD []) A.tail with
        | error e => subst h0; simp only [branchRounds, ok_bind, hm]; rfl
        | ok a =>
          simp only [ok_bind]
          have := ih (ms := ms.drop B) (ev := { ev with acc := a, lanes := A }) ⟨he.flight, he.inner, he.innerCount⟩ hd
          simp only [if_pos h0] at this
          refine this.trans ?_
          subst h0; simp only [branchRounds, ok_bind, hm]
      · rw [if_neg h0]
        have := ih (ms := ms.drop B) (ev := { ev with lanes := A }) ⟨he.flight, he.inner, he.innerCount⟩ hd
        simp only [if_neg h0] at this
        exact this

/-- Absorbing a stream that can be read is the schedule of the strategy (R184 to R188). -/
theorem absorb_readable {c : Config} (hs : c.STRATEGY.supported = true) (k : Limbs) (pw ms : List Limbs) :
    absorbAcc c k pw (Evaluation.start c) (readable ms) = schedule c k pw (readable ms) := by
  have he := start_fresh c
  unfold schedule
  cases h : c.STRATEGY with
  | chain => exact absorb_eq_chain h he
  | branch B =>
    rw [h] at hs
    simp only [Strategy.supported, decide_eq_true_eq] at hs
    rw [absorb_eq_branch (by omega) h _ he rfl]
    simp only [Evaluation.start, h, branchSchedule, readable_length]
    by_cases h0 : ms.length / B = 0 <;> simp only [h0, if_true, if_false]
  | delay D =>
    rw [h] at hs
    simp only [Strategy.supported, decide_eq_true_eq] at hs
    rw [absorb_eq_delay (by omega) h he]
    simp only [delaySchedule, readable_length]; rfl
  | tree H =>
    rw [absorb_eq_tree h he]
    simp only [treeSchedule, readable_length]; rfl
  | nested L =>
    rw [h] at hs
    simp only [Strategy.supported, decide_eq_true_eq] at hs
    rw [absorb_eq_nested (by omega) h he]
    simp only [nestedSchedule, readable_length]; rfl

/-! ## Streams with blocks that cannot be read -/

theorem absorb_sim {c : Config} {k : Limbs} {pw : List Limbs} : ∀ {xs ys : Blocks} {ev : Evaluation}, SimB xs ys →
    Sim (absorb c k pw ev xs) (absorb c k pw ev ys) := by
  intro xs ys ev h
  induction h generalizing ev with
  | nil => exact .refl _
  | cons hx ht ih =>
    rw [absorb_cons, absorb_cons, SimB.length ht]
    exact hx.bind fun m => (Sim.refl _).bind fun ev' => ih

theorem absorb_allOk {c : Config} {k : Limbs} {pw : List Limbs} : ∀ {xs : Blocks} {ev ev' : Evaluation},
    absorb c k pw ev xs = .ok ev' → AllOk xs := by
  intro xs
  induction xs with
  | nil => intro ev ev' _ x hx; simp at hx
  | cons x xs ih =>
    intro ev ev' h
    obtain ⟨m, hm, h⟩ := bind_eq_ok.1 h
    obtain ⟨e1, _, h⟩ := bind_eq_ok.1 h
    intro y hy
    rcases List.mem_cons.1 hy with rfl | hy
    · exact ⟨m, hm⟩
    · exact ih h y hy

theorem allOk_readable {xs : Blocks} (h : AllOk xs) : ∃ ms, xs = readable ms := by
  induction xs with
  | nil => exact ⟨[], rfl⟩
  | cons x xs ih =>
    obtain ⟨m, rfl⟩ := h x (by simp)
    obtain ⟨ms, rfl⟩ := ih fun y hy => h y (by simp [hy])
    exact ⟨m :: ms, rfl⟩

/-- Absorbing the blocks of the message is the schedule of the strategy, with the same fault where a byte is missing
(R176, 60_exceptions.md R230). -/
theorem absorb_message {s : State} (hw : s.cfg.wf = true) {k : Limbs} (hk : s.cfg.tight k = true) {pw : List Limbs}
    (hp : initPowers s.cfg k = .ok pw) :
    absorbAcc s.cfg k pw (Evaluation.start s.cfg) (messageBlocks s) = schedule s.cfg k pw (messageBlocks s) := by
  have W := wfFacts hw
  by_cases ho : AllOk (messageBlocks s)
  · obtain ⟨ms, h⟩ := allOk_readable ho
    rw [h]; exact absorb_readable W.strategy k pw ms
  · obtain ⟨ms, hms, hsim⟩ := sim_readable W (messageBlocks_cases hw)
    obtain ⟨pw', acc, h1, h2, -⟩ := schedule_reduced hw hk hms
    obtain rfl : pw = pw' := by rw [hp] at h1; exact Except.ok.inj h1
    have a1 : schedule s.cfg k pw (messageBlocks s) = .error .uninit := by
      rcases schedule_sim (c := s.cfg) (k := k) (pw := pw) hsim with h | h
      · exact h
      · exact absurd (schedule_allOk W.strategy hp (h.trans h2)) ho
    have a2 := absorb_readable W.strategy k pw ms
    rw [h2] at a2
    obtain ⟨ev, a3, -⟩ := bind_eq_ok.1 a2
    rw [a1, absorbAcc]
    rcases absorb_sim (c := s.cfg) (k := k) (pw := pw) (ev := Evaluation.start s.cfg) hsim with h | h
    · rw [h]; rfl
    · exact absurd (absorb_allOk (h.trans a3)) ho

end Sys2Proof.Machine
end

