-- ==== Sys2Proof/Laws/Encoding.lean ====
section
/-! SUPPORT. The fields of a command word (30_encoding.md R71): a word is its four fields, field by field, and a mask
acts field by field (R75). -/

namespace Sys2Proof

/-- The fields of an assembled word are its parts (R71). -/
theorem field_assemble (op a b c : BitVec 8) : fieldOp (assemble op a b c) = op ∧ fieldA (assemble op a b c) = a ∧
   fieldB (assemble op a b c) = b ∧ fieldC (assemble op a b c) = c := by
  refine ⟨?_, ?_, ?_, ?_⟩ <;>
  · apply BitVec.eq_of_getLsbD_eq
    intro i hi
    simp only [fieldOp, fieldA, fieldB, fieldC, assemble, BitVec.getLsbD_extractLsb', BitVec.getLsbD_append, hi]
    interval_cases i <;> simp

/-- A word is assembled from its fields (R71). -/
theorem assemble_fields (w : Word) : assemble (fieldOp w) (fieldA w) (fieldB w) (fieldC w) = w := by
  apply BitVec.eq_of_getLsbD_eq
  intro i hi
  simp only [fieldOp, fieldA, fieldB, fieldC, assemble, BitVec.getLsbD_extractLsb', BitVec.getLsbD_append]
  interval_cases i <;> simp

/-- A mask acts on each field (R75). -/
theorem and_assemble (w : Word) (a b c d : BitVec 8) : w &&& assemble a b c d = assemble (fieldOp w &&& a)
    (fieldA w &&& b) (fieldB w &&& c) (fieldC w &&& d) := by
  apply BitVec.eq_of_getLsbD_eq
  intro i hi
  simp only [fieldOp, fieldA, fieldB, fieldC, assemble, BitVec.getLsbD_extractLsb', BitVec.getLsbD_append,
    BitVec.getLsbD_and]
  interval_cases i <;> simp

/-- Assembled words are equal only if their fields are. -/
theorem assemble_inj {a b c d a' b' c' d' : BitVec 8} : assemble a b c d = assemble a' b' c' d' ↔ a = a' ∧ b = b' ∧
    c = c' ∧ d = d' := by
  constructor
  · intro h
    obtain ⟨h1, h2, h3, h4⟩ := field_assemble a b c d
    obtain ⟨g1, g2, g3, g4⟩ := field_assemble a' b' c' d'
    rw [h] at h1 h2 h3 h4; exact ⟨h1.symm.trans g1, h2.symm.trans g2, h3.symm.trans g3, h4.symm.trans g4⟩
  · rintro ⟨rfl, rfl, rfl, rfl⟩; rfl

/-- The check of the unused fields accepts exactly when they are 0 (R72). -/
theorem whenUnused_ok {b : Bool} {i j : Instr} : whenUnused b i = .ok j ↔ b = true ∧ i = j := by
  cases b <;> simp [whenUnused]

end Sys2Proof
end

