-- ==== Sys2Proof/Laws/Inputs.lean ====
section
/-! SUPPORT. A command depends only on the bytes of KEY and MSG it may read (20_memory.md R51, R55, R56, R66): with
other bytes elsewhere its body answers the same state over the other spaces. -/

namespace Sys2Proof.Machine

/-- The state with other KEY and MSG spaces. -/
def swapInputs (K M : Memory) (t : State) : State := { t with KEY := K, MSG := M }

/-- Sequencing over the swapped spaces. -/
theorem bind_swap {α : Type} {K M} {x : Except FaultCode α} {f g : α → Except FaultCode State}
    (h : ∀ a, g a = (f a).map (swapInputs K M)) :
    (x >>= g) = (x >>= f).map (swapInputs K M) := by
  cases x with
  | error e => rfl
  | ok a => exact h a

/-- An address of a run. -/
theorem mem_runOf {sp : Space} {a n i : Nat} (hi : i < n) : (sp, a + i) ∈ runOf sp a n := List.mem_map.2 ⟨i,
    List.mem_range.2 hi, rfl⟩

/-- The tag reads only the key and the message. -/
theorem tagBytes_swap {s : State} {K M : Memory} (hw : s.cfg.wf = true)
    (hK : ∀ x, x < s.cfg.KEYSIZE → Memory.read K x = Memory.read s.KEY x)
    (hM : ∀ x, x < s.INLEN.toNat → Memory.read M x = Memory.read s.MSG x) : tagBytes (swapInputs K M s) = tagBytes
    s := by
  have W := wfFacts hw
  have hslot : ∀ j, j < s.cfg.NTAGS → readKeySlot (swapInputs K M s) j = readKeySlot s j := by
    intro j hj
    have hb : (j + 1) * s.cfg.SUBKEYSIZE ≤ s.cfg.NTAGS * s.cfg.SUBKEYSIZE := Nat.mul_le_mul_right _ hj
    rw [Nat.succ_mul, ← W.keySize] at hb
    rw [readKeySlot, readKeySlot]
    show (requireKeylen s >>= fun _ => readBytes K (j * s.cfg.SUBKEYSIZE) s.cfg.SUBKEYSIZE) = _
    rw [readBytes_congr (m' := s.KEY) fun i hi => hK _ (by omega)]
  have hblocks : messageBlocks (swapInputs K M s) = messageBlocks s := by
    unfold messageBlocks
    show (match blockCount s with | 0 => _ | n + 1 => _) = _
    cases hn : blockCount s with
    | zero => rfl
    | succ n =>
      obtain ⟨h1, h2⟩ := blockCount_succ hw hn
      simp only
      congr 1
      · apply List.map_congr_left
        intro i hi; rw [List.mem_range] at hi
        have hi2 : (i + 1) * s.cfg.BLOCKSIZE ≤ n * s.cfg.BLOCKSIZE := Nat.mul_le_mul_right _ hi
        rw [Nat.succ_mul] at hi2
        show (readBytes M (i * s.cfg.BLOCKSIZE) s.cfg.BLOCKSIZE >>= _) = _
        rw [readBytes_congr (m' := s.MSG) fun i hi => hM _ (by omega)]; rfl
      · congr 1
        show (readBytes M (n * s.cfg.BLOCKSIZE) (s.INLEN.toNat - n * s.cfg.BLOCKSIZE) >>= _) = _
        rw [readBytes_congr (m' := s.MSG) fun i hi => hM _ (by omega)]; rfl
  have heval : ∀ j, j < s.cfg.NTAGS → evaluate (swapInputs K M s) j = evaluate s j := by
    intro j hj
    rw [evaluate, evaluate, hblocks, deriveKey, deriveKey, hslot j hj]; rfl
  have hfrom : ∀ n j, j + n ≤ s.cfg.NTAGS → evaluateFrom (swapInputs K M s) j n = evaluateFrom s j n := by
    intro n; induction n with
    | zero => intro j _; rfl
    | succ n ih => intro j hj; rw [evaluateFrom, evaluateFrom, heval j (by omega), ih (j + 1) (by omega)]
  rw [tagBytes, tagBytes]
  show (requireKeylen s >>= fun _ => evaluateFrom (swapInputs K M s) 0 s.cfg.NTAGS) = _
  rw [hfrom _ _ (by omega)]

/-- A body reads only the bytes its command may read. -/
theorem body_swap {s : State} {K M : Memory} {i : Instr} (hw : s.cfg.wf = true)
    (h : ∀ x ∈ i.reads s.cfg s.INLEN.toNat s.MPTR.toNat,
      ({ s with KEY := K, MSG := M } : State).byteAt x = s.byteAt x) : body (swapInputs K M s) i =
        (body s i).map (swapInputs K M) := by
  have W := wfFacts hw
  have slot : ∀ j : Nat, (∀ x ∈ runOf .key (j * s.cfg.SUBKEYSIZE) s.cfg.SUBKEYSIZE, ({ s with KEY := K, MSG :=
    M } : State).byteAt x = s.byteAt x) →
      readKeySlot (swapInputs K M s) j = readKeySlot s j := by
    intro j h
    rw [readKeySlot, readKeySlot]
    show (requireKeylen s >>= fun _ => readBytes K (j * s.cfg.SUBKEYSIZE) s.cfg.SUBKEYSIZE) = _
    rw [readBytes_congr (m' := s.KEY) fun i hi => h _ (mem_runOf hi)]
  have hash : (∀ x ∈ runOf .key 0 s.cfg.KEYSIZE ++ runOf .msg 0 s.INLEN.toNat, ({ s with KEY := K, MSG :=
    M } : State).byteAt x = s.byteAt x) → tagBytes (swapInputs K M s) = tagBytes s := by
    intro h
    refine tagBytes_swap hw (fun x hx => ?_) (fun x hx => ?_)
    · have := h _ (List.mem_append_left _ (mem_runOf (sp := .key) (a := 0) hx)); rw [Nat.zero_add] at this; exact this
    · have := h _ (List.mem_append_right _ (mem_runOf (sp := .msg) (a := 0) hx)); rw [Nat.zero_add] at this; exact this
  cases i with
  | add => exact bind_swap fun _ => bind_swap fun _ => bind_swap fun _ => rfl
  | addw => exact bind_swap fun _ => bind_swap fun _ => bind_swap fun _ => rfl
  | mul => exact bind_swap fun _ => bind_swap fun _ => bind_swap fun _ => rfl
  | sqr => exact bind_swap fun _ => bind_swap fun _ => rfl
  | precomp => exact bind_swap fun _ => bind_swap fun _ => rfl
  | mulp => exact bind_swap fun _ => bind_swap fun _ => bind_swap fun _ => rfl
  | carry => exact bind_swap fun _ => bind_swap fun _ => rfl
  | reduce => exact bind_swap fun _ => rfl
  | zero => rfl
  | zerow => rfl
  | unpack fd idx =>
    show (readKeySlot (swapInputs K M s) idx.toNat >>= _) = _
    rw [slot _ h]; exact bind_swap fun _ => rfl
  | encb fd =>
    refine bind_swap fun _ => ?_
    have : encodeFullAt (swapInputs K M s) s.MPTR.toNat = encodeFullAt s s.MPTR.toNat := by
      show (readBytes M _ s.cfg.BLOCKSIZE >>= _) = _
      rw [readBytes_congr (m' := s.MSG) fun i hi => h _ (mem_runOf hi)]; rfl
    show (encodeFullAt (swapInputs K M s) s.MPTR.toNat >>= _) = _
    rw [this]; exact bind_swap fun _ => rfl
  | encl fd =>
    refine bind_swap fun _ => ?_
    have : encodeLastAt (swapInputs K M s) s.MPTR.toNat = encodeLastAt s s.MPTR.toNat := by
      show (readBytes M _ (s.INLEN.toNat - s.MPTR.toNat) >>= _) = _
      rw [readBytes_congr (m' := s.MSG) fun i hi => h _ (mem_runOf hi)]; rfl
    show (encodeLastAt (swapInputs K M s) s.MPTR.toNat >>= _) = _
    rw [this]; exact bind_swap fun _ => rfl
  | pack => exact bind_swap fun _ => bind_swap fun _ => rfl
  | mrst => rfl
  | dkey fd idx =>
    have : deriveKey (swapInputs K M s) idx.toNat = deriveKey s idx.toNat := by rw [deriveKey, deriveKey, slot _ h]; rfl
    show (deriveKey (swapInputs K M s) idx.toNat >>= _) = _
    rw [this]; exact bind_swap fun _ => rfl
  | dpow => exact bind_swap fun _ => bind_swap fun _ => rfl
  | dpow2 => exact bind_swap fun _ => bind_swap fun _ => rfl
  | hash =>
    show (tagBytes (swapInputs K M s) >>= _) = _
    rw [hash h]; exact bind_swap fun _ => rfl
  | verify =>
    refine bind_swap fun _ => bind_swap fun _ => ?_
    show (tagBytes (swapInputs K M s) >>= _) = _
    rw [hash fun x hx => h x (List.mem_append_left _ hx)]; exact bind_swap fun _ => rfl

/-- Fault entry reads no byte. -/
theorem raiseFault_swap (kind : CommandKind) (e : FaultCode) (w : Word) (s : State)
    (K M : Memory) : raiseFault kind e w (swapInputs K M s) = swapInputs K M (raiseFault kind e w s) := by
  by_cases hf : s.FAULT = none
  · cases kind <;> simp [raiseFault, hf, swapInputs, faultEffects, clearMarks]
  · rw [raiseFault_sticky _ _ _ _ hf, raiseFault_sticky _ (swapInputs K M s) _ _ hf]

/-- Swapping the spaces after the command changes nothing it can write. -/
theorem sameResult_swap (K M : Memory) (t : State) : SameResult (.next t)
    (.next (swapInputs K M t)) := by simp [SameResult, SameRegisters, swapInputs]

end Sys2Proof.Machine
end

