-- ==== Sys2Proof/Laws/PerInstr.lean ====
section
/-! SUPPORT. What holds of every command as syntax, one lemma per constructor (LAWS.json). `MaskMatch`: the word of
the command agrees with its row of the opcode table, that is, `word AND mask = match` (30_encoding.md R75), and its
opcode field is the row's opcode (R71, R74). -/

namespace Sys2Proof.Laws.MaskMatch

/-- The word of the command matches its own row (30_encoding.md R74, R75). -/
def Statement (i : Instr) : Prop := encode i &&& i.mask = i.matchBits ∧ fieldOp (encode i) = i.opcode

/-- Each field is either covered by the mask and 0, or outside the mask. -/
theorem of_fields {i : Instr} (hb : i.fields.1 &&& fixedBits i.usedFields.1 = 0)
    (hc : i.fields.2.1 &&& fixedBits i.usedFields.2.1 = 0) (hd : i.fields.2.2 &&& fixedBits i.usedFields.2.2 = 0) :
    Statement i := by
  obtain ⟨h1, h2, h3, h4⟩ := field_assemble i.opcode i.fields.1 i.fields.2.1 i.fields.2.2
  refine ⟨?_, h1⟩
  rw [Instr.mask, and_assemble, Instr.matchBits, encode, h1, h2, h3, h4, hb, hc, hd]
  congr 3
  exact BitVec.and_allOnes

/-- A field that the format uses is outside the mask. -/
theorem used (x : BitVec 8) : x &&& fixedBits true = 0 := BitVec.and_zero

/-- A field that the format does not use is 0. -/
theorem unused : (0 : BitVec 8) &&& fixedBits false = 0 := rfl

theorem add (fd fa fb : RegNo) : Statement (.add fd fa fb) := of_fields (used _) (used _) (used _)
theorem addw (wd wa wb : RegNo) : Statement (.addw wd wa wb) := of_fields (used _) (used _) (used _)
theorem mul (wd fa fb : RegNo) : Statement (.mul wd fa fb) := of_fields (used _) (used _) (used _)
theorem sqr (wd fa : RegNo) : Statement (.sqr wd fa) := of_fields (used _) (used _) unused
theorem precomp (pd fa : RegNo) : Statement (.precomp pd fa) := of_fields (used _) (used _) unused
theorem mulp (wd fa pb : RegNo) : Statement (.mulp wd fa pb) := of_fields (used _) (used _) (used _)
theorem carry (fd wa : RegNo) : Statement (.carry fd wa) := of_fields (used _) (used _) unused
theorem reduce (fd fa : RegNo) : Statement (.reduce fd fa) := of_fields (used _) (used _) unused
theorem zero (fd : RegNo) : Statement (.zero fd) := of_fields (used _) unused unused
theorem zerow (wd : RegNo) : Statement (.zerow wd) := of_fields (used _) unused unused
theorem unpack (fd : RegNo) (idx : Imm8) : Statement (.unpack fd idx) := of_fields (used _) unused (used _)
theorem encb (fd : RegNo) : Statement (.encb fd) := of_fields (used _) unused unused
theorem encl (fd : RegNo) : Statement (.encl fd) := of_fields (used _) unused unused
theorem pack (fa : RegNo) (idx : Imm8) : Statement (.pack fa idx) := of_fields (used _) unused (used _)
theorem mrst : Statement (.mrst) := of_fields unused unused unused
theorem dkey (fd : RegNo) (idx : Imm8) : Statement (.dkey fd idx) := of_fields (used _) unused (used _)
theorem dpow (fd fa : RegNo) (n : Imm8) : Statement (.dpow fd fa n) := of_fields (used _) (used _) (used _)
theorem dpow2 (fd fa : RegNo) (n : Imm8) : Statement (.dpow2 fd fa n) := of_fields (used _) (used _) (used _)
theorem hash : Statement (.hash) := of_fields unused unused unused
theorem verify : Statement (.verify) := of_fields unused unused unused

end Sys2Proof.Laws.MaskMatch
end

