-- ==== Sys2Proof/Laws/Required.lean ====
section
/-! SUPPORT. Which required fault a command raises: `Quiet` outcomes raise none of `E_ILLEGAL`, `E_KEYLEN`, `E_RANGE`,
and every body raises the required fault `requiredOf` names from public values, or is quiet (60_exceptions.md R220 to
R223, 70_reset_and_hazards.md R258). -/

namespace Sys2Proof.Machine

/-- The outcome is no required fault (60_exceptions.md R220). -/
def Quiet {α : Type} (x : Except FaultCode α) : Prop := ∀ e, x = .error e → e.required = false

theorem Quiet.ok {α : Type} (a : α) : Quiet (.ok a : Except FaultCode α) := by intro e h; cases h

/-- Sequencing quiet outcomes. -/
theorem Quiet.bind {α β : Type} {x : Except FaultCode α} {f : α → Except FaultCode β} (h : Quiet x)
    (hf : ∀ a, Quiet (f a)) : Quiet (x >>= f) := by
  intro e he
  rcases bind_eq_error.1 he with h' | ⟨a, _, h'⟩
  · exact h e h'
  · exact hf a e h'

theorem quiet_bytes (m : Memory) (a n : Nat) : Quiet (readBytes m a n) := by
  intro e h; rw [(readBytes_error h).1]; rfl

theorem quiet_fit (w : Nat) (x : Limbs) : Quiet (mustFit w x) := by
  intro e h; rw [(mustFit_eq_error.1 h).2]; rfl

theorem quiet_mul (c : Config) (a b : Limbs) : Quiet (mulLimbs c a b) := by intro e h; rw [mulLimbs_error h]; rfl

theorem quiet_carry (c : Config) (a : Limbs) : Quiet (carryLimbs c a) := by intro e h; rw [carryLimbs_error h]; rfl

theorem quiet_add (c : Config) (a b : Limbs) : Quiet (addLimbs c a b) := quiet_fit _ _

theorem quiet_addw (c : Config) (a b : Limbs) : Quiet (addwLimbs c a b) := quiet_fit _ _

theorem quiet_readLimbs (f : List LimbReg) (i : RegNo) : Quiet (readLimbs f i) := by
  intro e h; rw [readLimbs_error h]; rfl

theorem quiet_readP (s : State) (i : RegNo) : Quiet (readP s i) := by
  intro e h; unfold readP at h; split at h
  · split at h <;> cases h; rfl
  · cases h; rfl

theorem quiet_powers (c : Config) (k : Limbs) (n : Nat) : Quiet (powers c k n) := by
  cases n with
  | zero => exact .ok _
  | succ n => exact Quiet.bind (fun e h => by rw [powersAfter_error h]; rfl) fun _ => .ok _

theorem quiet_squares (c : Config) (k : Limbs) (n : Nat) : Quiet (squares c k n) := by
  cases n with
  | zero => exact .ok _
  | succ n => exact Quiet.bind (fun e h => by rw [squaresAfter_error h]; rfl) fun _ => .ok _

theorem quiet_init (c : Config) (k : Limbs) : Quiet (initPowers c k) := by
  unfold initPowers; split
  · exact .ok _
  all_goals first | exact quiet_powers _ _ _ | exact quiet_squares _ _ _

/-- Every block of a stream is quiet. -/
def QuietB (xs : Blocks) : Prop := ∀ x ∈ xs, Quiet x

theorem QuietB.tail {x} {xs : Blocks} (h : QuietB (x :: xs)) : QuietB xs := fun y hy => h y (by simp [hy])

theorem QuietB.head {x} {xs : Blocks} (h : QuietB (x :: xs)) : Quiet x := h x (by simp)

theorem QuietB.take {xs : Blocks} (h : QuietB xs) (n) : QuietB (xs.take n) := fun y hy => h y (List.mem_of_mem_take
    hy)

theorem QuietB.drop {xs : Blocks} (h : QuietB xs) (n) : QuietB (xs.drop n) := fun y hy => h y (List.mem_of_mem_drop
    hy)

theorem quiet_hstep (c : Config) (a m k : Limbs) : Quiet (hstep c a m k) := (quiet_add _ _ _).bind fun _ =>
    (quiet_mul _ _ _).bind fun _ => quiet_carry _ _

theorem quiet_mulCarry (c : Config) (a k : Limbs) : Quiet (mulCarry c a k) := (quiet_mul _ _ _).bind fun _ =>
    quiet_carry _ _

theorem quiet_chain {c : Config} {k : Limbs} : ∀ {xs acc}, QuietB xs → Quiet (chain c k acc xs) := by
  intro xs; induction xs with
  | nil => intro _ _; exact .ok _
  | cons x xs ih => intro acc h; exact h.head.bind fun _ => (quiet_hstep _ _ _ _).bind fun _ => ih h.tail

/-- A run of windows is quiet, and so are the blocks it leaves. -/
def QuietW (x : Except FaultCode (Limbs × Blocks)) : Prop := Quiet x ∧ ∀ o, x = .ok o → QuietB o.2

theorem quiet_windows {f : Limbs → Blocks → Except FaultCode Limbs} {size : Nat}
    (hf : ∀ a xs, QuietB xs → Quiet (f a xs)) :
    ∀ {q acc xs}, QuietB xs → QuietW (windows f size q acc xs) := by
  intro q; induction q with
  | zero => intro acc xs h; exact ⟨.ok _, fun o ho => by cases ho; exact h⟩
  | succ q ih =>
    intro acc xs h
    refine ⟨(hf _ _ (h.take _)).bind fun _ => (ih (h.drop _)).1, fun o ho => ?_⟩
    obtain ⟨a, -, ho⟩ := bind_eq_ok.1 ho
    exact (ih (h.drop _)).2 o ho

theorem QuietW.bind {β : Type} {x} (h : QuietW x) {g : Limbs × Blocks → Except FaultCode β}
    (hg : ∀ o, QuietB o.2 → Quiet (g o)) : Quiet (x >>= g) := by
  intro e he
  rcases bind_eq_error.1 he with h' | ⟨a, ha, h'⟩
  · exact h.1 e h'
  · exact hg a (h.2 a ha) e h'

theorem quiet_branchRound {c : Config} : ∀ {xs as pws}, QuietB xs → Quiet (branchRound c as xs pws) := by
  intro xs; induction xs with
  | nil => intro as pws _; cases as <;> exact .ok _
  | cons x xs ih =>
    intro as pws h
    cases as with
    | nil => exact .ok _
    | cons a as =>
      cases pws with
      | nil => exact .ok _
      | cons p ps => exact h.head.bind fun _ => (quiet_hstep _ _ _ _).bind fun _ => (ih h.tail).bind fun _ => .ok _

theorem quiet_branchRounds {c : Config} {B : Nat} {K : List Limbs} : ∀ {q A xs}, QuietB xs → Quiet (branchRounds c
    B K q A xs) ∧ ∀ o, branchRounds c B K q A xs = .ok o → QuietB o.2 := by
  intro q; induction q with
  | zero => intro acc xs h; exact ⟨.ok _, fun o ho => by cases ho; exact h⟩
  | succ q ih =>
    intro acc xs h
    refine ⟨(quiet_branchRound (h.take _)).bind fun _ => (ih (h.drop _)).1, fun o ho => ?_⟩
    obtain ⟨a, -, ho⟩ := bind_eq_ok.1 ho
    exact (ih (h.drop _)).2 o ho

theorem quiet_merge {c : Config} : ∀ {as acc}, Quiet (mergeBranches c acc as) := by
  intro as; induction as with
  | nil => intro _; exact .ok _
  | cons a as ih => intro acc; exact (quiet_add _ _ _).bind fun _ => ih

theorem quiet_delayAcc {c : Config} : ∀ {xs w pws}, QuietB xs → Quiet (delayAccumulate c w xs pws) := by
  intro xs; induction xs with
  | nil => intro _ _ _; exact .ok _
  | cons x xs ih =>
    intro w pws h
    cases pws with
    | nil => exact .ok _
    | cons p ps => exact h.head.bind fun _ => (quiet_mul _ _ _).bind fun _ => (quiet_addw _ _ _).bind fun _ => ih h.tail

theorem quiet_delayGroup {c : Config} {K : List Limbs} {acc xs} (h : QuietB xs) : Quiet (delayGroup c K acc xs) := by
  cases xs with
  | nil => exact .ok _
  | cons x xs => exact h.head.bind fun _ => (quiet_add _ _ _).bind fun _ => (quiet_mul _ _ _).bind fun _ => (quiet_delayAcc h.tail).bind fun _ => quiet_carry _ _

theorem quiet_take : ∀ {xs}, QuietB xs → Quiet (takeBlocks xs) := by
  intro xs; induction xs with
  | nil => intro _; exact .ok _
  | cons x xs ih => intro h; exact h.head.bind fun _ => (ih h.tail).bind fun _ => .ok _

theorem quiet_level {c : Config} {Q : Limbs} : ∀ (n : Nat) {ns : List Limbs}, ns.length ≤ n → Quiet (treeLevel c Q
    ns) := by
  intro n; induction n with
  | zero => intro ns h; obtain rfl := List.length_eq_zero_iff.1 (Nat.le_zero.1 h); exact .ok _
  | succ n ih =>
    intro ns h
    match ns, h with
    | [], _ => exact .ok _
    | [_], _ => exact .ok _
    | a :: b :: r, h => exact (quiet_mulCarry _ _ _).bind fun _ => (quiet_add _ _ _).bind fun _ => (ih (by simp at h; omega)).bind fun _ => .ok _

theorem quiet_levels {c : Config} : ∀ {Qs ns}, Quiet (treeLevels c Qs ns) := by
  intro Qs; induction Qs with
  | nil => intro _; exact .ok _
  | cons Q Qs ih => intro ns; exact (quiet_level _ (le_refl _)).bind fun _ => ih

/-- Every schedule on quiet blocks is quiet. -/
theorem quiet_schedule {c : Config} {k pw xs} (h : QuietB xs) : Quiet (schedule c k pw xs) := by
  unfold schedule; split
  · exact quiet_chain h
  · intro e he
    rcases bind_eq_error.1 he with h' | ⟨o, ho, h'⟩
    · exact (quiet_branchRounds h).1 e h'
    · have hq := (quiet_branchRounds h).2 o ho
      simp only at h'
      split at h'
      · exact quiet_chain hq e h'
      · exact (quiet_merge.bind fun _ => quiet_chain hq) e h'
  · exact (quiet_windows (fun _ _ h => quiet_delayGroup h) h).bind fun o ho => quiet_delayGroup ho
  · exact (quiet_windows (fun _ _ h => (quiet_take h).bind fun _ => quiet_levels.bind
      fun _ => (quiet_mul _ _ _).bind fun _ => (quiet_mul _ _ _).bind fun _ => (quiet_addw _ _ _).bind fun _ => quiet_carry _ _) h).bind fun o ho => quiet_chain ho
  · exact (quiet_windows (fun _ _ h => (quiet_chain h).bind fun _ => (quiet_mulCarry _ _ _).bind
      fun _ => quiet_add _ _ _) h).bind fun o ho => quiet_chain ho

theorem quiet_full (s : State) (a : Nat) : Quiet (encodeFullAt s a) := (quiet_bytes _ _ _).bind fun _ => .ok _

theorem quiet_last (s : State) (a : Nat) : Quiet (encodeLastAt s a) := (quiet_bytes _ _ _).bind fun _ => .ok _

theorem quiet_blocks (s : State) : QuietB (messageBlocks s) := by
  intro x hx; unfold messageBlocks at hx; split at hx
  · simp at hx
  · rcases List.mem_append.1 hx with hx | hx
    · obtain ⟨i, -, rfl⟩ := List.mem_map.1 hx; exact quiet_full _ _
    · simp only [List.mem_singleton] at hx; subst hx; exact quiet_last _ _

theorem quiet_slot {s : State} (hk : s.KEYLEN.toNat = s.cfg.KEYSIZE) (j : Nat) : Quiet (readKeySlot s j) := by
  rw [readKeySlot, requireKeylen_ok hk]; exact quiet_bytes _ _ _

/-- With KEYLEN stated the tag raises no required fault. -/
theorem quiet_tag {s : State} (hk : s.KEYLEN.toNat = s.cfg.KEYSIZE) : Quiet (tagBytes s) := by
  rw [tagBytes, requireKeylen_ok hk]
  have he : ∀ j, Quiet (evaluate s j) := by
    intro j
    refine Quiet.bind ((quiet_slot hk j).bind fun _ => .ok _) fun k => (quiet_init _ _).bind fun pw => ?_
    split
    · exact .ok _
    · exact (quiet_schedule (quiet_blocks s)).bind fun _ => .ok _
  have : ∀ n j, Quiet (evaluateFrom s j n) := by
    intro n; induction n with
    | zero => intro _; exact .ok _
    | succ n ih => intro j; exact (he j).bind fun _ => (ih _).bind fun _ => .ok _
  exact this _ _

/-- The required fault of a ready command, from public values alone (R222, R223). -/
def requiredOf (s : State) : Instr → Option FaultCode
  | .unpack .. => if s.KEYLEN.toNat = s.cfg.KEYSIZE then none else some .keylen
  | .dkey .. => if s.KEYLEN.toNat = s.cfg.KEYSIZE then none else some .keylen
  | .hash => if s.KEYLEN.toNat = s.cfg.KEYSIZE then none else some .keylen
  | .verify => if s.KEYLEN.toNat = s.cfg.KEYSIZE then none else some .keylen
  | .encb _ => if s.cfg.BLOCKSIZE ≤ remaining s then none else some .range
  | .encl _ => if remaining s ≤ s.cfg.BLOCKSIZE then none else some .range
  | _ => none

/-- A body raises the required fault of its command, or is quiet. -/
theorem body_required (s : State) (i : Instr) : (∃ e, requiredOf s i = some e ∧ body s i = .error e) ∨ (requiredOf
    s i = none ∧ Quiet (body s i)) := by
  have key : ∀ {α} (f : List Byte → Except FaultCode α) j, (∀ b, Quiet (f b)) → 
     (∃ e, (if s.KEYLEN.toNat = s.cfg.KEYSIZE then none else some FaultCode.keylen) =
       some e ∧ (readKeySlot s j >>= f) = .error e) ∨ ((if s.KEYLEN.toNat = s.cfg.KEYSIZE then none else some FaultCode.keylen) = none ∧ Quiet (readKeySlot s j >>= f)) := by
    intro α f j hf
    by_cases hk : s.KEYLEN.toNat = s.cfg.KEYSIZE
    · right; exact ⟨by simp [hk], (quiet_slot hk j).bind hf⟩
    · left; exact ⟨.keylen, by simp [hk], by rw [readKeySlot_keylen hk]; rfl⟩
  cases i with
  | add => exact .inr ⟨rfl, (quiet_readLimbs _ _).bind fun _ => (quiet_readLimbs _ _).bind
    fun _ => (quiet_add _ _ _).bind fun _ => .ok _⟩
  | addw => exact .inr ⟨rfl, (quiet_readLimbs _ _).bind fun _ => (quiet_readLimbs _ _).bind
    fun _ => (quiet_addw _ _ _).bind fun _ => .ok _⟩
  | mul => exact .inr ⟨rfl, (quiet_readLimbs _ _).bind fun _ => (quiet_readLimbs _ _).bind
    fun _ => (quiet_mul _ _ _).bind fun _ => .ok _⟩
  | sqr => exact .inr ⟨rfl, (quiet_readLimbs _ _).bind fun _ => (quiet_mul _ _ _).bind fun _ => .ok _⟩
  | precomp => exact .inr ⟨rfl, (quiet_readLimbs _ _).bind fun _ => (quiet_fit _ _).bind fun _ => .ok _⟩
  | mulp => exact .inr ⟨rfl, (quiet_readLimbs _ _).bind
    fun _ => (quiet_readP _ _).bind fun _ => (quiet_fit _ _).bind fun _ => .ok _⟩
  | carry => exact .inr ⟨rfl, (quiet_readLimbs _ _).bind fun _ => (quiet_carry _ _).bind fun _ => .ok _⟩
  | reduce => exact .inr ⟨rfl, (quiet_readLimbs _ _).bind fun _ => .ok _⟩
  | zero => exact .inr ⟨rfl, .ok _⟩
  | zerow => exact .inr ⟨rfl, .ok _⟩
  | unpack fd idx => exact key _ _ fun _ => .ok _
  | encb fd =>
    by_cases h : s.cfg.BLOCKSIZE ≤ remaining s
    · refine .inr ⟨if_pos h, ?_⟩
      show Quiet (require (decide (s.cfg.BLOCKSIZE ≤ remaining s)) .range >>= _)
      rw [decide_eq_true h]; exact (quiet_full _ _).bind fun _ => .ok _
    · refine .inl ⟨.range, if_neg h, ?_⟩
      exact bind_eq_error.2 (.inl (by rw [decide_eq_false h]; rfl))
  | encl fd =>
    by_cases h : remaining s ≤ s.cfg.BLOCKSIZE
    · refine .inr ⟨if_pos h, ?_⟩
      show Quiet (require (decide (remaining s ≤ s.cfg.BLOCKSIZE)) .range >>= _)
      rw [decide_eq_true h]; exact (quiet_last _ _).bind fun _ => .ok _
    · refine .inl ⟨.range, if_neg h, ?_⟩
      exact bind_eq_error.2 (.inl (by rw [decide_eq_false h]; rfl))
  | pack =>
    refine .inr ⟨rfl, (quiet_readLimbs _ _).bind fun _ => Quiet.bind ?_ fun _ => .ok _⟩
    intro e h; rw [(require_eq_error.1 h).2]; rfl
  | mrst => exact .inr ⟨rfl, .ok _⟩
  | dkey fd idx =>
    have := key (fun raw => (do let k ← (pure (evalPoint s.cfg raw) : Except FaultCode Limbs); return writeF s fd k)) idx.toNat fun _ => .ok _
    have e : body s (.dkey fd idx) = (readKeySlot s idx.toNat >>=
      fun raw => (do let k ← (pure (evalPoint s.cfg raw) : Except FaultCode Limbs); return writeF s fd k)) := by
      simp only [body, deriveKey]; cases readKeySlot s idx.toNat <;> rfl
    rw [e]; exact this
  | dpow => exact .inr ⟨rfl, (quiet_readLimbs _ _).bind fun _ => (quiet_powers _ _ _).bind fun _ => .ok _⟩
  | dpow2 => exact .inr ⟨rfl, (quiet_readLimbs _ _).bind fun _ => (quiet_squares _ _ _).bind fun _ => .ok _⟩
  | hash =>
    by_cases hk : s.KEYLEN.toNat = s.cfg.KEYSIZE
    · exact .inr ⟨if_pos hk, (quiet_tag hk).bind fun _ => .ok _⟩
    · exact .inl ⟨.keylen, if_neg hk, bind_eq_error.2 (.inl (tagBytes_keylen hk))⟩
  | verify =>
    by_cases hk : s.KEYLEN.toNat = s.cfg.KEYSIZE
    · refine .inr ⟨if_pos hk, ?_⟩
      show Quiet (requireKeylen s >>= _)
      rw [requireKeylen_ok hk]; exact (quiet_bytes _ _ _).bind fun _ => (quiet_tag hk).bind fun _ => .ok _
    · refine .inl ⟨.keylen, if_neg hk, ?_⟩
      have : requireKeylen s = .error .keylen := by simp [requireKeylen, hk]
      exact bind_eq_error.2 (.inl this)

/-- The required fault depends on public values alone (70_reset_and_hazards.md R258). -/
theorem requiredOf_public {s t : State} (h : SamePublic s t) (i : Instr) : requiredOf s i = requiredOf t i := by
  obtain ⟨h1, h2, h3, h4, -⟩ := h
  have hk : (if s.KEYLEN.toNat = s.cfg.KEYSIZE then none else some FaultCode.keylen) = (if t.KEYLEN.toNat =
    t.cfg.KEYSIZE then none else some FaultCode.keylen) := by rw [h1, h2]
  have hr : remaining s = remaining t := by rw [remaining, remaining, h3, h4]
  cases i with
  | unpack => exact hk
  | dkey => exact hk
  | hash => exact hk
  | verify => exact hk
  | encb => show ite _ _ _ = ite _ _ _; rw [h1, hr]
  | encl => show ite _ _ _ = ite _ _ _; rw [h1, hr]
  | _ => rfl

/-- When a command that is not refused raises a required fault. -/
theorem required_iff {s s' : State} {i : Instr} {code : FaultCode} (hf : s.FAULT = none) (h : exec i s = .next s')
    (hc : code.required = true) :
    s'.FAULT = some code ↔ (i.wf s.cfg = false ∧ code = .illegal) ∨ (i.wf s.cfg = true ∧ requiredOf s i = some
    code) := by
  rcases exec_cases i s with ⟨h', -⟩ | ⟨-, hw, h'⟩ | ⟨hr, t', hb, h'⟩ | ⟨hr, e, hb, h'⟩
  · exact absurd hf h'
  · rw [h'] at h; cases h; simp [hw, eq_comm]
  · rw [h'] at h; cases h
    rw [(body_inputs hb).2.2.2.2.2.2.1, hf]
    rcases body_required s i with ⟨e, -, h2⟩ | ⟨h1, -⟩
    · rw [hb] at h2; cases h2
    · simp [hr.2, h1]
  · rw [h'] at h; cases h; rw [raiseFault_code hf]
    rcases body_required s i with ⟨e', h1, h2⟩ | ⟨h1, h2⟩
    · rw [hb] at h2; cases h2; simp [hr.2, h1]
    · have := h2 e hb
      simp [hr.2, h1]; rintro rfl; rw [hc] at this; cases this

end Sys2Proof.Machine
end

