-- ==== Sys2Proof/Laws/SmallSteps.lean ====
section
/-! SUPPORT. The internal steps of HASH in sequence (43_hash_engine.md R176): the steps of a sub-tag hand exactly the
blocks of the message to the strategy and end as the evaluation of that sub-tag does; between two steps no more blocks
are in flight than 20_memory.md R67 allows. -/

namespace Sys2Proof.Machine

/-- Steps in two parts. -/
theorem phaseSteps_add (a b : Nat) (r : HashRun) : phaseSteps (a + b) r = (phaseSteps a r >>= phaseSteps b) := by
  induction a generalizing r with
  | zero => rw [Nat.zero_add]; rfl
  | succ a ih =>
    rw [Nat.succ_add, phaseSteps, phaseSteps]
    cases phaseStep r with
    | error e => rfl
    | ok r' => simp only [ok_bind]; exact ih r'

/-- One step. -/
theorem phaseSteps_one (r : HashRun) : phaseSteps 1 r = phaseStep r := by
  rw [phaseSteps]; cases phaseStep r <;> rfl

/-! ## Blocks in flight (R67) -/

/-- What holds between two steps: the limit on blocks in flight, at most one block's bytes left in `AbsorbLast`, no
block in flight in `Combine`. -/
structure HashRun.Within (r : HashRun) : Prop where
  flight : r.eval.Within r.core.cfg.STRATEGY
  last : r.core.PHASE = .absorbLast → remaining r.core ≤ r.core.cfg.BLOCKSIZE
  combine : r.core.PHASE = .combine → r.eval.inFlight = []

/-- One step keeps it, and the configuration. -/
theorem phaseStep_within {r r' : HashRun} (hc : r.core.cfg.wf = true) (hr : r.Within) (h : phaseStep r = .ok r') :
    r'.core.cfg = r.core.cfg ∧ r'.Within := by
  have hs := (wfFacts hc).strategy
  have hB := (wfFacts hc).blockPos
  have done : ∀ (x : HashRun) (b : List Byte), x.eval.Within x.core.cfg.STRATEGY →
      (subTagDone x b).core.cfg = x.core.cfg ∧ (subTagDone x b).Within := by
    intro x b hx
    unfold subTagDone
    split
    · exact ⟨rfl, hx, fun h => (by cases h), fun h => (by cases h)⟩
    · exact ⟨rfl, hx, fun h => (by cases h), fun h => (by cases h)⟩
  unfold phaseStep at h
  split at h
  · obtain ⟨k, _, h⟩ := bind_eq_ok.1 h
    obtain ⟨pw, _, h⟩ := bind_eq_ok.1 h
    split at h
    · cases h
      exact done _ _ (limit_pos hs)
    · cases h
      exact ⟨rfl, limit_pos hs, fun h => (by cases h), fun h => (by cases h)⟩
  · rename_i hp
    unfold absorbPhase at h
    split at h
    · obtain ⟨m, _, h⟩ := bind_eq_ok.1 h
      obtain ⟨ev, hev, h⟩ := bind_eq_ok.1 h
      cases h
      exact ⟨rfl, handBlock_within hs hev, fun h => (by rw [hp] at h; cases h), fun h => (by rw [hp] at h; cases h)⟩
    · rename_i hle
      cases h
      exact ⟨rfl, hr.flight, fun _ => Nat.le_of_not_lt hle, fun h => (by cases h)⟩
  · rename_i hp
    have hl : blocksLeft r.core ≤ 1 := by
      have := hr.last hp
      exact Nat.le_of_lt_succ (Nat.div_lt_of_lt_mul (by omega))
    obtain ⟨m, _, h⟩ := bind_eq_ok.1 h
    obtain ⟨ev, hev, h⟩ := bind_eq_ok.1 h
    cases h
    exact ⟨rfl, handBlock_within hs hev, fun h => (by cases h), fun _ => handBlock_last hl hev⟩
  · cases h
    exact done _ _ hr.flight
  · cases h; exact ⟨rfl, hr⟩
  · cases h; exact ⟨rfl, hr⟩
  · cases h; exact ⟨rfl, hr⟩

/-- Any number of steps does. -/
theorem phaseSteps_within : ∀ {n : Nat} {r r' : HashRun}, r.core.cfg.wf = true → r.Within → phaseSteps n r = .ok r' →
    r'.core.cfg = r.core.cfg ∧ r'.Within := by
  intro n
  induction n with
  | zero => intro r r' _ hr h; cases h; exact ⟨rfl, hr⟩
  | succ n ih =>
    intro r r' hc hr h
    obtain ⟨r1, h1, h⟩ := bind_eq_ok.1 h
    obtain ⟨e, hw⟩ := phaseStep_within hc hr h1
    obtain ⟨e2, hw2⟩ := ih (by rw [e]; exact hc) hw h
    exact ⟨e2.trans e, hw2⟩

/-! ## The result -/

/-- The core of a running HASH that started at `s`. -/
def runCore (s : State) (ph : Phase) (m : BitVec 64) : State :=
  { s with PHASE := ph, MPTR := m, OUTVALID := false, VOK := false }

/-- With `MPTR` on block `i` there are `n + 1 - i` blocks left. -/
theorem blocksLeft_at {s : State} (hw : s.cfg.wf = true) {n d i : Nat} (hn : blockCount s = n + 1) (hi : i + d = n)
    (ph : Phase) : (BitVec.ofNat 64 (i * s.cfg.BLOCKSIZE)).toNat = i * s.cfg.BLOCKSIZE ∧
      blocksLeft (runCore s ph (BitVec.ofNat 64 (i * s.cfg.BLOCKSIZE))) = d + 1 := by
  obtain ⟨h1, h2⟩ := blockCount_succ hw hn
  have hB := (wfFacts hw).blockPos
  have hlt := s.INLEN.isLt
  have e : n * s.cfg.BLOCKSIZE = i * s.cfg.BLOCKSIZE + d * s.cfg.BLOCKSIZE := by rw [← hi, Nat.add_mul]
  have hm : (BitVec.ofNat 64 (i * s.cfg.BLOCKSIZE)).toNat = i * s.cfg.BLOCKSIZE := by
    rw [BitVec.toNat_ofNat]; exact Nat.mod_eq_of_lt (by omega)
  refine ⟨hm, ?_⟩
  show (s.INLEN.toNat - (BitVec.ofNat 64 (i * s.cfg.BLOCKSIZE)).toNat + s.cfg.BLOCKSIZE - 1) / s.cfg.BLOCKSIZE = _
  rw [hm]
  refine Nat.div_eq_of_lt_le ?_ ?_ <;> simp only [Nat.succ_mul] <;> omega

/-- From block `i` on, `Absorb` and `AbsorbLast` hand over the blocks of the message that are left. -/
theorem absorb_steps {s : State} (hw : s.cfg.wf = true) {n : Nat} (hn : blockCount s = n + 1) (j : Nat)
    (k : Limbs) (pw : List Limbs) (tag : List Byte) : ∀ (d i : Nat) (ev : Evaluation), i + d = n →
    phaseSteps (d + 2) ⟨runCore s .absorb (BitVec.ofNat 64 (i * s.cfg.BLOCKSIZE)), j, k, pw, ev, tag⟩ =
      (absorb s.cfg k pw ev ((messageBlocks s).drop i) >>= fun ev' =>
        .ok ⟨runCore s .combine s.INLEN, j, k, pw, ev', tag⟩) := by
  obtain ⟨h1, h2⟩ := blockCount_succ hw hn
  have hB := (wfFacts hw).blockPos
  have hmb : messageBlocks s = (List.range n).map (fun i => encodeFullAt s (i * s.cfg.BLOCKSIZE)) ++
      [encodeLastAt s (n * s.cfg.BLOCKSIZE)] := by
    unfold messageBlocks; rw [hn]
  intro d
  induction d with
  | zero =>
    intro i ev hi
    obtain rfl : i = n := by omega
    obtain ⟨hm, hl⟩ := blocksLeft_at hw hn (d := 0) rfl .absorbLast
    rw [phaseSteps_add 1 1, phaseSteps_one]
    have e1 : phaseStep ⟨runCore s .absorb (BitVec.ofNat 64 (i * s.cfg.BLOCKSIZE)), j, k, pw, ev, tag⟩ =
        .ok ⟨runCore s .absorbLast (BitVec.ofNat 64 (i * s.cfg.BLOCKSIZE)), j, k, pw, ev, tag⟩ := by
      show absorbPhase _ = _
      rw [absorbPhase, if_neg (by
        show ¬ s.cfg.BLOCKSIZE < s.INLEN.toNat - (BitVec.ofNat 64 (i * s.cfg.BLOCKSIZE)).toNat
        rw [hm]; omega)]
      rfl
    rw [e1, ok_bind, phaseSteps_one, hmb, List.drop_left' (by simp), absorb_cons]
    show (encodeLastAt s (BitVec.ofNat 64 (i * s.cfg.BLOCKSIZE)).toNat >>= fun m =>
      handBlock s.cfg k pw (blocksLeft (runCore s .absorbLast (BitVec.ofNat 64 (i * s.cfg.BLOCKSIZE)))) ev m >>= _) = _
    rw [hm, hl, bind_assoc_except]
    cases encodeLastAt s (i * s.cfg.BLOCKSIZE) with
    | error e => rfl
    | ok m => simp only [ok_bind, bind_assoc_except, List.length_nil]; rfl
  | succ d ih =>
    intro i ev hi
    obtain ⟨hm, hl⟩ := blocksLeft_at hw hn hi .absorb
    have hle : (i + 1) * s.cfg.BLOCKSIZE ≤ n * s.cfg.BLOCKSIZE := Nat.mul_le_mul_right _ (by omega)
    rw [Nat.succ_mul] at hle
    have hdrop : (messageBlocks s).drop i = encodeFullAt s (i * s.cfg.BLOCKSIZE) :: (messageBlocks s).drop (i + 1) := by
      rw [List.drop_eq_getElem_cons (by rw [hmb]; simp; omega)]
      congr 1
      simp only [hmb]
      rw [List.getElem_append_left (by simp; omega)]; simp
    have hlen : ((messageBlocks s).drop (i + 1)).length + 1 = d + 1 + 1 := by rw [hmb]; simp; omega
    rw [show d + 1 + 2 = (d + 2) + 1 from rfl, phaseSteps, hdrop, absorb_cons, hlen]
    have e1 : phaseStep ⟨runCore s .absorb (BitVec.ofNat 64 (i * s.cfg.BLOCKSIZE)), j, k, pw, ev, tag⟩ =
        (encodeFullAt s (i * s.cfg.BLOCKSIZE) >>= fun m => handBlock s.cfg k pw (d + 1 + 1) ev m >>= fun ev' =>
          .ok ⟨runCore s .absorb (BitVec.ofNat 64 ((i + 1) * s.cfg.BLOCKSIZE)), j, k, pw, ev', tag⟩) := by
      show absorbPhase _ = _
      rw [absorbPhase, if_pos (by
        show s.cfg.BLOCKSIZE < s.INLEN.toNat - (BitVec.ofNat 64 (i * s.cfg.BLOCKSIZE)).toNat
        rw [hm]; omega), hl]
      simp only [runCore, hm, Nat.succ_mul]
      rfl
    rw [e1]
    simp only [bind_assoc_except, ok_bind]
    cases encodeFullAt s (i * s.cfg.BLOCKSIZE) with
    | error e => rfl
    | ok m =>
      simp only [ok_bind]
      cases handBlock s.cfg k pw (d + 1 + 1) ev m with
      | error e => rfl
      | ok ev' => exact ih (i + 1) ev' (by omega)

/-- The steps of one sub-tag. -/
theorem subTag_steps {s : State} (hw : s.cfg.wf = true) (m : BitVec 64) (j : Nat) (k : Limbs) (pw : List Limbs)
    (ev : Evaluation) (tag : List Byte) :
    (∃ e n, evaluate s j = .error e ∧ phaseSteps n ⟨runCore s .init m, j, k, pw, ev, tag⟩ = .error e) ∨
    (∃ bytes n k' pw' ev', evaluate s j = .ok bytes ∧ phaseSteps n ⟨runCore s .init m, j, k, pw, ev, tag⟩ =
      .ok (if j + 1 < s.cfg.NTAGS then ⟨runCore s .init s.INLEN, j + 1, k', pw', ev', tag ++ bytes⟩
        else ⟨runCore s .done s.INLEN, j, k', pw', ev', tag ++ bytes⟩)) := by
  have hstart : phaseStep ⟨runCore s .init m, j, k, pw, ev, tag⟩ = initPhase ⟨runCore s .init m, j, k, pw, ev, tag⟩ :=
    rfl
  have hd : deriveKey (runCore s .init m) j = deriveKey s j := rfl
  cases hk : deriveKey s j with
  | error e => left; exact ⟨e, 1, by rw [evaluate, hk]; rfl, by rw [phaseSteps_one, hstart, initPhase, hd, hk]; rfl⟩
  | ok k1 =>
    have hkt : s.cfg.tight k1 = true := by
      obtain ⟨raw, -, h⟩ := bind_eq_ok.1 hk
      cases h; exact evalPoint_tight (wfFacts hw) raw
    cases hp : initPowers s.cfg k1 with
    | error e =>
      left; refine ⟨e, 1, by rw [evaluate, hk, ok_bind, hp]; rfl, ?_⟩
      rw [phaseSteps_one, hstart, initPhase, hd, hk, ok_bind]
      show (initPowers s.cfg k1 >>= _) = _
      rw [hp]; rfl
    | ok pw1 =>
      have hinit : phaseStep ⟨runCore s .init m, j, k, pw, ev, tag⟩ =
          if s.INLEN.toNat = 0 then
            .ok (subTagDone ⟨runCore s .init 0, j, k1, pw1, Evaluation.start s.cfg, tag⟩
              (subTagBytes s.cfg s.cfg.zeros))
          else .ok ⟨runCore s .absorb 0, j, k1, pw1, Evaluation.start s.cfg, tag⟩ := by
        rw [hstart, initPhase, hd, hk, ok_bind]
        show (initPowers s.cfg k1 >>= _) = _
        rw [hp]; rfl
      have hev : evaluate s j = if s.INLEN.toNat = 0 then .ok (subTagBytes s.cfg s.cfg.zeros) else
          (schedule s.cfg k1 pw1 (messageBlocks s) >>= fun acc => .ok (subTagBytes s.cfg (reduceLimbs s.cfg acc))) := by
        rw [evaluate, hk, ok_bind, hp, ok_bind]; rfl
      by_cases h0 : s.INLEN.toNat = 0
      · right
        rw [if_pos h0] at hinit hev
        refine ⟨_, 1, k1, pw1, Evaluation.start s.cfg, hev, ?_⟩
        rw [phaseSteps_one, hinit]
        have hz : s.INLEN = 0 := BitVec.eq_of_toNat_eq (by simpa using h0)
        simp only [subTagDone, runCore, hz]
      · rw [if_neg h0] at hinit hev
        have hB := (wfFacts hw).blockPos
        obtain ⟨n, hn⟩ : ∃ n, blockCount s = n + 1 := by
          have : blockCount s ≠ 0 := by
            rw [blockCount]; intro h
            have := (Nat.div_eq_zero_iff).1 h
            omega
          exact ⟨blockCount s - 1, by omega⟩
        have key := absorb_message hw hkt hp
        have run := absorb_steps hw hn j k1 pw1 tag n 0 (Evaluation.start s.cfg) (by omega)
        rw [Nat.zero_mul, List.drop_zero] at run
        rw [absorbAcc] at key
        cases ha : absorb s.cfg k1 pw1 (Evaluation.start s.cfg) (messageBlocks s) with
        | error e =>
          rw [ha] at key run
          left; refine ⟨e, 1 + (n + 2), by rw [hev, ← key]; rfl, ?_⟩
          rw [phaseSteps_add, phaseSteps_one, hinit, ok_bind]; exact run
        | ok ev' =>
          rw [ha] at key run
          right; refine ⟨_, 1 + (n + 2) + 1, k1, pw1, ev', by rw [hev, ← key]; rfl, ?_⟩
          rw [phaseSteps_add, phaseSteps_add, phaseSteps_one, hinit, ok_bind]
          refine (congrArg (· >>= phaseSteps 1) run).trans ?_
          rw [ok_bind, ok_bind, phaseSteps_one]
          rfl

/-- The steps of all the sub-tags that remain. -/
theorem tag_steps {s : State} (hw : s.cfg.wf = true) : ∀ (d j : Nat), j + d + 1 = s.cfg.NTAGS → ∀ (m : BitVec 64)
    (k : Limbs) (pw : List Limbs) (ev : Evaluation) (tag : List Byte),
    (∃ e n, evaluateFrom s j (d + 1) = .error e ∧ phaseSteps n ⟨runCore s .init m, j, k, pw, ev, tag⟩ = .error e) ∨
    (∃ bytes n j' k' pw' ev', evaluateFrom s j (d + 1) = .ok bytes ∧
      phaseSteps n ⟨runCore s .init m, j, k, pw, ev, tag⟩ =
        .ok ⟨runCore s .done s.INLEN, j', k', pw', ev', tag ++ bytes⟩) := by
  intro d
  induction d with
  | zero =>
    intro j hj m k pw ev tag
    rcases subTag_steps hw m j k pw ev tag with ⟨e, n, h1, h2⟩ | ⟨b, n, k', pw', ev', h1, h2⟩
    · left; exact ⟨e, n, by rw [evaluateFrom, h1]; rfl, h2⟩
    · right
      rw [if_neg (by omega)] at h2
      exact ⟨b, n, j, k', pw', ev', by rw [evaluateFrom, h1, ok_bind]; simp [evaluateFrom], h2⟩
  | succ d ih =>
    intro j hj m k pw ev tag
    rcases subTag_steps hw m j k pw ev tag with ⟨e, n, h1, h2⟩ | ⟨b, n, k', pw', ev', h1, h2⟩
    · left; exact ⟨e, n, by rw [evaluateFrom, h1]; rfl, h2⟩
    · rw [if_pos (by omega)] at h2
      rcases ih (j + 1) (by omega) s.INLEN k' pw' ev' (tag ++ b) with
        ⟨e, n2, g1, g2⟩ | ⟨b2, n2, j', k'', pw'', ev'', g1, g2⟩
      · left; exact ⟨e, n + n2, by rw [evaluateFrom, h1, ok_bind, g1]; rfl, by rw [phaseSteps_add, h2, ok_bind, g2]⟩
      · right
        refine ⟨b ++ b2, n + n2, j', k'', pw'', ev'', by rw [evaluateFrom, h1, ok_bind, g1]; rfl, ?_⟩
        rw [phaseSteps_add, h2, ok_bind, g2, List.append_assoc]

end Sys2Proof.Machine
end

