-- ==== Sys2Proof/Tests/Slice0.lean ====
section
/-! SUPPORT. Tests of one step on small states. Expected words and results are the vectors of 95_test_vectors.md, named
by their ids. The `witness_` theorems show, for each obligation with hypotheses, a state and operands that meet them,
clause by clause, at the boundary values. -/

namespace Sys2Proof.Tests

open Sys2Proof Sys2Proof.Machine

/-! ## Helpers -/

/-- A state with a narrow register written. -/
def withF (i : Nat) (v : Limbs) (s : State) : State := { s with F := s.F.set i ⟨v, true⟩ }

/-- A state with a wide register written. -/
def withW (i : Nat) (v : Limbs) (s : State) : State := { s with Wd := s.Wd.set i ⟨v, true⟩ }

/-- A state with a factor register written. -/
def withP (i : Nat) (k t : Limbs) (s : State) : State := { s with P := s.P.set i ⟨k, t, true⟩ }

/-- The next state of an outcome. -/
def after : Out → State
  | .next t => t
  | .fault _ => State.reset
  | .refused _ => State.reset

/-- The next state, as data that can be compared. -/
def nextOf : Out → Option State
  | .next t => some t
  | .fault _ => none
  | .refused _ => none

/-- The fault that stopped the model, as data that can be compared. -/
def stopOf : Out → Option Fault
  | .next _ => none
  | .fault e => some e
  | .refused _ => none

/-- What a narrow register holds after a command. -/
def resultF (i : Instr) (s : State) (j : Nat) : Option LimbReg := (after (exec i s)).F[j]?

/-- What a wide register holds after a command. -/
def resultW (i : Instr) (s : State) (j : Nat) : Option LimbReg := (after (exec i s)).Wd[j]?

/-- The fault code after a command. -/
def faultOf (i : Instr) (s : State) : Option FaultCode := (after (exec i s)).FAULT

/-- The reset state of a configuration with a key and a message written by the host. -/
def loaded (c : Config) (key msg : List Byte) : State :=
  { State.resetOf c with
    KEY := Memory.writeRun [] 0 key, KEYLEN := BitVec.ofNat 32 key.length,
    MSG := Memory.writeRun [] 0 msg, INLEN := BitVec.ofNat 64 msg.length }

/-- `KEY_A` of 95_test_vectors.md. -/
def keyA : List Byte :=
  [0x85, 0xd6, 0xbe, 0x78, 0x57, 0x55, 0x6d, 0x33, 0x7f, 0x44, 0x52, 0xfe, 0x42, 0xd5, 0x06, 0xa8]

/-- `MSG_A` of 95_test_vectors.md. -/
def msgA : List Byte :=
  [0x43, 0x72, 0x79, 0x70, 0x74, 0x6f, 0x67, 0x72, 0x61, 0x70, 0x68, 0x69, 0x63, 0x20, 0x46, 0x6f, 0x72, 0x75, 0x6d,
    0x20, 0x52, 0x65, 0x73, 0x65, 0x61, 0x72, 0x63, 0x68, 0x20, 0x47, 0x72, 0x6f, 0x75, 0x70]

/-- The tag of V32. -/
def tagV32 : List Byte :=
  [0x8f, 0x5b, 0x95, 0xc7, 0x5c, 0xa9, 0xc2, 0x70, 0x7f, 0xc0, 0x96, 0x60, 0x4e, 0x15, 0xdc, 0x0e]

/-- The bytes `01 02 .. 10` of V27. -/
def oneToSixteen : List Byte := (List.range 16).map (fun i => BitVec.ofNat 8 (i + 1))

/-- `N` equal limbs for `R26`. -/
def all5 (x : Nat) : Limbs := List.replicate 5 x

/-- The reference instance with VERIFY and a bounded message space. -/
def cfgV : Config := { Config.r26 with HAS_VERIFY := true, MSGMAX := some 64 }

/-- A core with one host action pending. -/
def hosted (act : HostAction) : State := { State.resetOf cfgV with port := [act] }

/-! ## Well-formedness (30_encoding.md R73, R76) -/

theorem test_wf_refuses_narrow : (Instr.add 64 0 0).check Config.r26 = some .registerRange := by decide
theorem test_wf_refuses_wide : (Instr.addw 0 0 4).check Config.r26 = some .registerRange := by decide
theorem test_wf_refuses_factor : (Instr.mulp 0 0 4).check Config.r26 = some .registerRange := by decide
theorem test_wf_refuses_slot : (Instr.pack 0 1).check Config.r26 = some .slotRange := by decide
theorem test_wf_refuses_count_zero : (Instr.dpow 0 0 0).check Config.r26 = some .countRange := by decide
theorem test_wf_refuses_count_past : (Instr.dpow2 62 0 3).check Config.r26 = some .countRange := by decide
theorem test_wf_refuses_verify : Instr.verify.check Config.r26 = some .verifyAbsent := by decide
theorem test_wf_accepts_boundaries : (Instr.add 63 63 63).wf Config.r26 = true ∧ (Instr.pack 63 0).wf Config.r26 = true ∧
    (Instr.dpow 61 0 3).wf Config.r26 = true ∧ Instr.verify.wf cfgV = true := by decide
theorem test_config_refuses : ({ Config.r26 with KEYSIZE := 17 } : Config).wf = false ∧
    ({ Config.r26 with STRATEGY := .tree 5 } : Config).wf = false ∧
    ({ Config.r26 with NF := 257 } : Config).wf = false ∧ ({ Config.r26 with BLOCKSIZE := 17 } : Config).wf = false := by
  decide

/-! ## Words (V1 to V20) -/

theorem test_decode_add : decode 0x01020001 = .ok (.add 2 0 1) := by decide
theorem test_decode_addw : decode 0x02000001 = .ok (.addw 0 0 1) := by decide
theorem test_decode_mul : decode 0x03000109 = .ok (.mul 0 1 9) := by decide
theorem test_decode_sqr : decode 0x04010500 = .ok (.sqr 1 5) := by decide
theorem test_decode_precomp : decode 0x05000000 = .ok (.precomp 0 0) := by decide
theorem test_decode_mulp : decode 0x06000100 = .ok (.mulp 0 1 0) := by decide
theorem test_decode_carry : decode 0x07010000 = .ok (.carry 1 0) := by decide
theorem test_decode_reduce : decode 0x08030100 = .ok (.reduce 3 1) := by decide
theorem test_decode_zero : decode 0x09010000 = .ok (.zero 1) := by decide
theorem test_decode_zerow : decode 0x0A030000 = .ok (.zerow 3) := by decide
theorem test_decode_unpack : decode 0x10000000 = .ok (.unpack 0 0) := by decide
theorem test_decode_encb : decode 0x11030000 = .ok (.encb 3) := by decide
theorem test_decode_encl : decode 0x12020000 = .ok (.encl 2) := by decide
theorem test_decode_pack : decode 0x13030000 = .ok (.pack 3 0) := by decide
theorem test_decode_mrst : decode 0x14000000 = .ok .mrst := by decide
theorem test_decode_dkey : decode 0x18000000 = .ok (.dkey 0 0) := by decide
theorem test_decode_dpow : decode 0x19080002 = .ok (.dpow 8 0 2) := by decide
theorem test_decode_dpow2 : decode 0x1A080304 = .ok (.dpow2 8 3 4) := by decide
theorem test_decode_hash : decode 0x20000000 = .ok .hash := by decide
theorem test_decode_verify : decodeFor cfgV 0x21000000 = .ok .verify := by decide

/-- V20a to V20k. -/
theorem test_illegal_words : decodeFor Config.r26 0x00000000 = .error .unknownOpcode ∧
    decodeFor Config.r26 0xFFFFFFFF = .error .unknownOpcode ∧ decodeFor Config.r26 0x0B000000 = .error .unknownOpcode ∧
    decodeFor Config.r26 0x04000001 = .error .unusedField ∧ decodeFor Config.r26 0x20000001 = .error .unusedField ∧
    decodeFor Config.r26 0x01400000 = .error .registerRange ∧ decodeFor Config.r26 0x03040000 = .error .registerRange ∧
    decodeFor Config.r26 0x19000000 = .error .countRange ∧ decodeFor Config.r26 0x193E0003 = .error .countRange ∧
    decodeFor Config.r26 0x193D0003 = .ok (.dpow 61 0 3) ∧ decodeFor Config.r26 0x10000001 = .error .slotRange ∧
    decodeFor Config.r26 0x21000000 = .error .verifyAbsent := by decide

/-- The lines R79 gives as examples. -/
theorem test_assembler : (Instr.add 2 0 1).text = "ADD F2, F0, F1" ∧ (Instr.dpow 8 3 4).text = "DPOW F8, F3, 4" ∧
    Instr.hash.text = "HASH" := by decide

/-- A placed word is the next command. -/
theorem test_step_runs_placed : (after (step (State.reset.withFetchWord 32 0x09010000))).F[1]? = some ⟨all5 0, true⟩ := by
  decide

/-! ## Field arithmetic (V21 to V26) -/

/-- V21a: no carry between limbs. -/
theorem test_add : resultF (.add 2 0 1) (withF 1 (all5 0x3ffffff) (withF 0 [1, 2, 3, 4, 5] State.reset)) 2 =
    some ⟨[0x4000000, 0x4000001, 0x4000002, 0x4000003, 0x4000004], true⟩ := by decide

/-- V21b. -/
theorem test_add_overflow : faultOf (.add 0 0 0) (withF 0 [0xffffffc0, 0, 0, 0, 0] State.reset) = some .overflow := by
  decide

/-- V21c. -/
theorem test_addw : resultW (.addw 2 0 1) (withW 1 [2 ^ 63 - 1, 1, 2, 3, 4] (withW 0 [2 ^ 63, 0, 0, 0, 0] State.reset)) 2 =
    some ⟨[0xffffffffffffffff, 1, 2, 3, 4], true⟩ := by decide

/-- V21d. -/
theorem test_addw_overflow : faultOf (.addw 0 0 0) (withW 0 [2 ^ 63, 0, 0, 0, 0] State.reset) = some .overflow := by
  decide

/-- V22d: the operands are not interchangeable, only the second is scaled. -/
theorem test_mul : resultW (.mul 0 0 1) (withF 1 (all5 0x3ffffff) (withF 0 (all5 0x7ffffff) State.reset)) 0 =
    some ⟨[0x29fffff04000015, 0x21fffff34000011, 0x19fffff6400000d, 0x11fffff94000009, 0x9fffffc4000005], true⟩ := by
  decide

/-- V22e, V22f: the boundary of the scaling check. -/
theorem test_mul_scaling :
    resultW (.mul 0 0 1) (withF 1 [0, 0x33333333, 0, 0, 0] (withF 0 [1, 0, 0, 0, 0] State.reset)) 0 =
      some ⟨[0, 0x33333333, 0, 0, 0], true⟩ ∧
    faultOf (.mul 0 0 1) (withF 1 [0, 0x33333334, 0, 0, 0] (withF 0 [1, 0, 0, 0, 0] State.reset)) = some .overflow := by
  decide

/-- V22c. -/
theorem test_sqr : resultW (.sqr 1 0) (withF 0 (all5 0x3ffffff) State.reset) 1 =
    some ⟨[0x14fffff58000015, 0x10fffff78000011, 0xcfffff9800000d, 0x8fffffb8000009, 0x4fffffd8000005], true⟩ := by
  decide

/-- V23a. -/
theorem test_precomp :
    (after (exec (.precomp 3 0) (withF 0 [0x0bed685, 0x3555502, 0x047c036, 0x1003949, 0x00806d5] State.reset))).P[3]? =
      some ⟨[0x0bed685, 0x3555502, 0x047c036, 0x1003949, 0x00806d5], [0x10aaa90a, 0x166c10e, 0x5011e6d, 0x282229],
        true⟩ := by decide

/-- V22b with the factor precomputed (R98). -/
theorem test_mulp :
    resultW (.mulp 0 0 1) (withP 1 [5, 7, 0, 0, 0] [35, 0, 0, 0] (withF 0 [2, 3, 0, 0, 0] State.reset)) 0 =
      some ⟨[10, 29, 21, 0, 0], true⟩ := by decide

/-- V24e: the fold carries into limb 1, which is then not tight. -/
theorem test_carry : resultF (.carry 1 0)
    (withW 0 [0x3fffffe, 0x3ffffff, 0x3ffffff, 0x3ffffff, 0x7ffffff] State.reset) 1 =
    some ⟨[3, 0x4000000, 0x3ffffff, 0x3ffffff, 0x3ffffff], true⟩ := by decide

/-- V26g: the `R44` geometry. -/
theorem test_carry_r44 : resultF (.carry 1 0)
    (withW 0 [2 ^ 100 + 7, 2 ^ 90 + 1, 2 ^ 88 + 3] (State.resetOf Config.r44)) 1 = some ⟨[0x57, 0x15, 0x1003], true⟩ := by
  decide

/-- V25e. -/
theorem test_reduce : resultF (.reduce 2 0) (withF 0 (all5 0xffffffff) State.reset) 2 =
    some ⟨[0x13f, 0x3f, 0x3f, 0x3f, 0x3f], true⟩ := by decide

/-- V25a, V25b: at p and at p - 1. -/
theorem test_reduce_at_p :
    resultF (.reduce 0 0) (withF 0 [0x3fffffb, 0x3ffffff, 0x3ffffff, 0x3ffffff, 0x3ffffff] State.reset) 0 =
      some ⟨all5 0, true⟩ ∧
    resultF (.reduce 0 0) (withF 0 [0x3fffffa, 0x3ffffff, 0x3ffffff, 0x3ffffff, 0x3ffffff] State.reset) 0 =
      some ⟨[0x3fffffa, 0x3ffffff, 0x3ffffff, 0x3ffffff, 0x3ffffff], true⟩ := by decide

theorem test_zero : resultF (.zero 63) (withF 63 (all5 7) State.reset) 63 = some ⟨all5 0, true⟩ := by decide
theorem test_zerow : resultW (.zerow 3) State.reset 3 = some ⟨all5 0, true⟩ := by decide

/-! ## Data format (V27, V28) -/

/-- V29b: no mask. -/
theorem test_unpack : resultF (.unpack 0 0) (loaded Config.r26 keyA []) 0 =
    some ⟨[0x0bed685, 0x35555de, 0x047f336, 0x10bf949, 0x0a806d5], true⟩ := by decide

/-- V27b; the pointer advances by a block. -/
theorem test_encb : resultF (.encb 3) (loaded Config.r26 [] oneToSixteen) 3 =
      some ⟨[0x0030201, 0x1c18141, 0x0a09080, 0x034302c, 0x1100f0e], true⟩ ∧
    (after (exec (.encb 3) (loaded Config.r26 [] oneToSixteen))).MPTR = 16 := by decide

/-- V27l, first half. -/
theorem test_encb_range : faultOf (.encb 3) (loaded Config.r26 [] (oneToSixteen.take 15)) = some .range := by decide

/-- V27h; the pointer ends at INLEN. -/
theorem test_encl : resultF (.encl 0) (loaded Config.r26 [] [0xaa, 0xbb, 0xcc]) 0 = some ⟨[0x1ccbbaa, 0, 0, 0, 0], true⟩ ∧
    (after (exec (.encl 0) (loaded Config.r26 [] [0xaa, 0xbb, 0xcc]))).MPTR = 3 := by decide

/-- V27l, second half, and V27e. -/
theorem test_encl_range : faultOf (.encl 0) (loaded Config.r26 [] (oneToSixteen ++ [0])) = some .range ∧
    resultF (.encl 0) (loaded Config.r26 [] []) 0 = some ⟨[1, 0, 0, 0, 0], true⟩ := by decide

/-- V28a. -/
theorem test_pack :
    Memory.readRun (after (exec (.pack 0 0) (withF 0 [0x13f, 0x3f, 0x3f, 0x3f, 0x3f] State.reset))).OUT 0 16 =
      some [0x3f, 0x01, 0x00, 0xfc, 0x00, 0x00, 0xf0, 0x03, 0x00, 0xc0, 0x0f, 0x00, 0x00, 0x3f, 0x00, 0x00] := by decide

/-- V28g. -/
theorem test_pack_not_tight : faultOf (.pack 0 0) (withF 0 [0x4000000, 0, 0, 0, 0] State.reset) = some .notTight := by
  decide

theorem test_mrst : (after (exec .mrst { loaded Config.r26 [] oneToSixteen with MPTR := 16 })).MPTR = 0 := by decide

/-! ## Key derivation (V29) -/

/-- V29a. -/
theorem test_dkey : resultF (.dkey 0 0) (loaded Config.r26 keyA []) 0 =
    some ⟨[0x0bed685, 0x3555502, 0x047c036, 0x1003949, 0x00806d5], true⟩ := by decide

/-- V29e: a key one byte short. -/
theorem test_dkey_keylen : faultOf (.dkey 0 0) (loaded Config.r26 (keyA.take 15) []) = some .keylen := by decide

/-- `k^3` of section 5, `R26`; the source is the first destination. -/
theorem test_dpow : resultF (.dpow 0 0 4)
    (withF 0 [0x0bed685, 0x3555502, 0x047c036, 0x1003949, 0x00806d5] State.reset) 2 =
    some ⟨[0x3e4f5fc, 0x389a874, 0x167c3a6, 0x06d5073, 0x18fe844], true⟩ := by decide

/-- `k^8` of section 5, `R44`. -/
theorem test_dpow2 : resultF (.dpow2 8 0 4)
    (withF 0 [0x55408bed685, 0x52447c036d5, 0x806d5400e] (State.resetOf Config.r44)) 11 =
    some ⟨[0x7d48ebf0423, 0xc69dc604477, 0x3f9b12e1ddb], true⟩ := by decide

/-! ## HASH and VERIFY -/

/-- V40, with TREE(1) on `R44`. -/
theorem test_hash :
    Memory.readRun (after (exec .hash (loaded { Config.r44 with STRATEGY := .tree 1 } keyA msgA))).OUT 0 16 =
      some [0xa7, 0x03, 0x9d, 0x36, 0x35, 0x43, 0x84, 0xc8, 0x77, 0x6c, 0x94, 0xff, 0xca, 0xb7, 0x31, 0x8d] := by decide

/-- V43: a key one byte short; the code, the phase and the valid bit. -/
theorem test_hash_keylen : faultOf .hash (loaded Config.r26 (keyA.take 15) msgA) = some .keylen ∧
    (after (exec .hash (loaded Config.r26 (keyA.take 15) msgA))).PHASE = .faulted ∧
    (after (exec .hash (loaded Config.r26 (keyA.take 15) msgA))).OUTVALID = false := by decide

/-- VERIFY accepts the tag of V32 and refuses it with its last byte changed (43_hash_engine.md R205). -/
theorem test_verify :
    (after (exec .verify { loaded cfgV keyA [1] with OUT := Memory.writeRun [] 0 tagV32 })).VOK = true ∧
    (after (exec .verify { loaded cfgV keyA [1] with OUT := Memory.writeRun [] 0 (tagV32.set 15 0x0f) })).VOK = false := by
  decide

/-- Without HAS_VERIFY the word of VERIFY is illegal (30_encoding.md R76). -/
theorem test_verify_absent : faultOf .verify State.reset = some .illegal := by decide

/-! ## Witnesses: encoding and the host -/

theorem witness_DecoderFollowsRows : decodeFor Config.r26 0x01020001 = .ok (.add 2 0 1) ∧
    Config.r26.NF = Config.r44.NF ∧ Config.r26.NW = Config.r44.NW ∧ Config.r26.NP = Config.r44.NP ∧
    Config.r26.NTAGS = Config.r44.NTAGS ∧ Config.r26.HAS_VERIFY = Config.r44.HAS_VERIFY ∧
    (0x01020001 : Word) &&& (Instr.add 0 0 0).mask = (Instr.add 0 0 0).matchBits := by decide

/-- The opcodes of R74. -/
def opcodesOfR74 : List (BitVec 8) :=
  [0x01, 0x02, 0x03, 0x04, 0x05, 0x06, 0x07, 0x08, 0x09, 0x0A, 0x10, 0x11, 0x12, 0x13, 0x14, 0x18, 0x19, 0x1A,
    0x20, 0x21]

theorem test_opcode_mem (i : Instr) : i.opcode ∈ opcodesOfR74 := by
  cases i <;> simp [Instr.opcode, opcodesOfR74]

theorem test_opcode_hash (i : Instr) (h : (0x20 : BitVec 8) = i.opcode) : i = .hash := by
  cases i <;> first | rfl | exact absurd h (by simp [Instr.opcode])

theorem witness_IllegalWordsFault : State.reset.FAULT = none ∧ IllegalWord Config.r26 0x0B000000 ∧
    IllegalWord Config.r26 0x21000000 ∧ IllegalWord Config.r26 0x04000001 ∧ IllegalWord Config.r26 0x01400000 ∧
    IllegalWord Config.r26 0x10000001 ∧ IllegalWord Config.r26 0x193E0003 := by
  refine ⟨rfl, .inl ?_, .inr (.inl (by decide)), .inr (.inr (.inl ⟨.sqr 0 0, by decide⟩)), ?_, ?_, ?_⟩
  · intro i h
    have hm := test_opcode_mem i
    rw [← h] at hm
    revert hm
    decide
  · exact .inr (.inr (.inr ⟨.add 64 0 0, by decide, by decide, fun h => absurd h.1 (by decide)⟩))
  · exact .inr (.inr (.inr ⟨.unpack 0 1, by decide, by decide, fun h => absurd h.2 (by decide)⟩))
  · exact .inr (.inr (.inr ⟨.dpow 62 0 3, by decide, by decide, fun h => absurd h.2.2.2 (by decide)⟩))

/-- The other clause: HASH is not an illegal word. -/
theorem witness_IllegalWordsFault_legal : ¬ IllegalWord Config.r26 0x20000000 := by
  have hop : ∀ i : Instr, fieldOp (encode i) = i.opcode := fun i => (field_assemble _ _ _ _).1
  rintro (h | ⟨h, -⟩ | ⟨i, h, hm⟩ | ⟨i, h, -, hc⟩)
  · exact h .hash (by decide)
  · exact absurd h (by decide)
  · obtain rfl := test_opcode_hash i ((by decide : (0x20 : BitVec 8) = fieldOp 0x20000000).trans h)
    exact hm (by decide)
  · have h2 := hop i
    rw [h] at h2
    obtain rfl := test_opcode_hash i h2
    exact hc trivial

/-- The ranges at their ends (R73): the last register of each file, a count that ends at NF - 1; and one past them. -/
theorem witness_OperandsInRange : (Instr.mulp 3 63 3).OperandsInRange Config.r26 ∧
    (Instr.dpow 62 63 2).OperandsInRange Config.r26 ∧ (Instr.pack 63 0).OperandsInRange Config.r26 ∧
    ¬ (Instr.mulp 3 63 4).OperandsInRange Config.r26 ∧ ¬ (Instr.dpow2 0 0 0).OperandsInRange Config.r26 ∧
    ¬ Instr.verify.OperandsInRange Config.r26 :=
  ⟨⟨by decide, by decide, by decide⟩, ⟨by decide, by decide, by decide, by decide⟩, ⟨by decide, by decide⟩,
    fun h => absurd h.2.2 (by decide), fun h => absurd h.2.2.1 (by decide),
    fun h : false = true => absurd h (by decide)⟩

theorem witness_StepRunsDecodedCommand : Config.r26.wf = true ∧
    ({ State.reset with port := [.command 0x09010000] } : State).port = .command 0x09010000 :: [] ∧
    decodeFor Config.r26 0x09010000 = .ok (.zero 1) ∧ State.reset.port = [] := by decide

theorem witness_IllFormedConfigRefused : ({ Config.r26 with N := 1 } : Config).wf = false := by decide

theorem witness_ResetIsTheOnlyWayOut : (hosted .reset).cfg.wf = true ∧ (hosted .reset).port = .reset :: [] ∧
    ({ hosted (.command 0x14000000) with FAULT := some .range, PHASE := .faulted } : State).FAULT ≠ none ∧
    (hosted (.command 0x14000000)).port.head? ≠ some .reset ∧
    nextOf (step { hosted (.command 0x14000000) with FAULT := some .range, PHASE := .faulted }) =
      some { State.resetOf cfgV with FAULT := some .range, PHASE := .faulted } := by decide

theorem witness_HostActions : cfgV.wf = true ∧
    (hosted (.writeKey 15 7)).port = .writeKey 15 7 :: [] ∧ 15 < cfgV.KEYSIZE ∧
    (hosted (.writeKeylen 16)).port = .writeKeylen 16 :: [] ∧
    (hosted (.writeMsg 63 7)).port = .writeMsg 63 7 :: [] ∧ (∀ m, cfgV.MSGMAX = some m → 63 < m) ∧
    (hosted (.writeInlen 64)).port = .writeInlen 64 :: [] ∧ (∀ m, cfgV.MSGMAX = some m → (64 : BitVec 64).toNat ≤ m) ∧
    (hosted (.writeOut 15 7)).port = .writeOut 15 7 :: [] ∧ cfgV.HAS_VERIFY = true ∧ 15 < cfgV.OUTPUTSIZE ∧
    (hosted (.read (.out 15))).port = .read (.out 15) :: [] ∧ (hosted (.read .vok)).port = .read .vok :: [] ∧
    (hosted (.command 0x21000000)).port = .command 0x21000000 :: [] ∧ decodeFor cfgV 0x21000000 = .ok .verify ∧
    decodeFor cfgV 0x20000001 = .error .unusedField ∧ (hosted (.command 0x21000000)).FAULT = none ∧
    (hosted .reset).port = .reset :: [] := by
  refine ⟨by decide, rfl, by decide, rfl, rfl, ?_, rfl, ?_, rfl, rfl, by decide, rfl, rfl, rfl, by decide, by decide,
    rfl, rfl⟩
  · rintro m h; cases h; decide
  · rintro m h; cases h; decide

theorem witness_InlenAboveMsgmaxRefused : cfgV.wf = true ∧ (hosted (.writeInlen 65)).port = .writeInlen 65 :: [] ∧
    cfgV.MSGMAX = some 64 ∧ 64 < (65 : BitVec 64).toNat ∧ (hosted (.writeInlen 64)).INLEN.toNat ≤ 64 ∧
    nextOf (step (hosted (.writeInlen 64))) = some { State.resetOf cfgV with INLEN := 64 } := by decide

/-- Each move that stops the model, at the first address outside the space. -/
theorem witness_OnlyHostMovesStop : cfgV.wf = true ∧ stopOf (step (hosted (.writeKey 16 0))) = some (.hostAddress .key 16) ∧
    stopOf (step (hosted (.writeMsg 64 0))) = some (.hostAddress .msg 64) ∧
    stopOf (step (hosted (.writeOut 16 0))) = some (.hostAddress .out 16) ∧
    stopOf (step { State.reset with port := [.writeOut 0 0] }) = some .outNotWritable ∧
    stopOf (step (hosted (.read (.out 16)))) = some (.hostAddress .out 16) ∧
    stopOf (step { State.reset with port := [.read .vok] }) = some .vokAbsent := by decide

/-! ## Witnesses: invariants -/

/-- A state after HASH and the start of another sequence: registers of every file written, a valid tag, the pointer
inside the message, and a command pending. -/
def busy : State :=
  { withP 2 [5, 7, 0, 0, 0] [35, 0, 0, 0] (withW 3 [2 ^ 63, 1, 2, 3, 2 ^ 64 - 1]
      (withF 1 (all5 0x3ffffff) (withF 0 [1, 2, 3, 4, 5] (loaded cfgV keyA msgA)))) with
    OUT := Memory.writeRun [] 0 tagV32, OUTVALID := true, PHASE := .done, MPTR := 16, port := [.command 0x14000000] }

theorem busy_inv : busy.Inv where
  cfgWf := by decide
  sizes := by decide
  narrow := by decide
  wide := by decide
  factor := by decide
  scaled := by decide
  keySpace := by decide
  msgSpace := by decide
  outSpace := by decide
  pointer := by decide
  inlen := by decide
  phase := by decide
  fault := by decide
  finfo := by decide
  outvalid := by decide
  vok := by decide

theorem witness_StepKeepsInv : busy.Inv ∧ nextOf (step busy) = some { busy with MPTR := 0, port := [] } :=
  ⟨busy_inv, by decide⟩

theorem witness_ResetMeetsInv : Config.r26.wf = true ∧ Config.r44.wf = true ∧ cfgV.wf = true := by decide

/-! ## Witnesses: faults -/

theorem witness_FaultEntry : State.reset.FAULT = none ∧
    nextOf (exec (.reduce 0 0) State.reset) = some (faultedState State.reset .uninit 0x08000000) ∧
    faultOf .hash (loaded cfgV keyA []) = none ∧ faultOf .hash (State.resetOf cfgV) = some .keylen ∧
    nextOf (exec .hash (State.resetOf cfgV)) = some (after (exec .hash (State.resetOf cfgV))) ∧
    faultOf .verify (State.resetOf cfgV) = some .keylen ∧
    nextOf (exec .verify (State.resetOf cfgV)) = some (after (exec .verify (State.resetOf cfgV))) ∧
    decodeFor State.reset.cfg 0x0B000000 = .error .unknownOpcode ∧
    (faultedState State.reset .uninit 0x08000000).FAULT ≠ none :=
  ⟨rfl, by decide, by decide, by decide, by decide, by decide, rfl, by decide, by decide⟩

theorem witness_KeylenFault : (loaded cfgV (keyA.take 15) []).KEYLEN.toNat ≠ cfgV.KEYSIZE ∧
    Ready (.unpack 63 0) (loaded cfgV (keyA.take 15) []) ∧ Ready (.dkey 63 0) (loaded cfgV (keyA.take 15) []) ∧
    (loaded cfgV (keyA.take 15) []).FAULT = none ∧ cfgV.HAS_VERIFY = true :=
  ⟨by decide, ⟨rfl, by decide⟩, ⟨rfl, by decide⟩, rfl, rfl⟩

theorem witness_RangeFault :
    (Ready (.encb 3) (loaded Config.r26 [] (oneToSixteen.take 15)) ∧
      remaining (loaded Config.r26 [] (oneToSixteen.take 15)) < Config.r26.BLOCKSIZE) ∧
    (Ready (.encl 3) (loaded Config.r26 [] (oneToSixteen ++ [0])) ∧
      Config.r26.BLOCKSIZE < remaining (loaded Config.r26 [] (oneToSixteen ++ [0]))) ∧
    (Ready (.encl 3) (loaded Config.r26 [] []) ∧ remaining (loaded Config.r26 [] []) = 0) :=
  ⟨⟨⟨rfl, by decide⟩, by decide⟩, ⟨⟨rfl, by decide⟩, by decide⟩, ⟨rfl, by decide⟩, by decide⟩

/-- One unwritten source of two; the only source; a wide and a factor source. -/
theorem witness_UnwrittenSourceFaults :
    (Ready (.add 0 0 63) busy ∧ SomeSourceUnwritten busy (.add 0 0 63)) ∧
    (Ready (.dpow 0 63 1) busy ∧ SomeSourceUnwritten busy (.dpow 0 63 1)) ∧
    (Ready (.carry 0 0) busy ∧ SomeSourceUnwritten busy (.carry 0 0)) ∧
    (Ready (.mulp 0 0 3) busy ∧ SomeSourceUnwritten busy (.mulp 0 0 3)) :=
  ⟨⟨⟨rfl, by decide⟩, .inr ⟨_, rfl⟩⟩, ⟨⟨rfl, by decide⟩, ⟨_, rfl⟩⟩, ⟨⟨rfl, by decide⟩, ⟨_, rfl⟩⟩,
    ⟨⟨rfl, by decide⟩, .inr ⟨_, _, rfl⟩⟩⟩

/-- The last byte of the key, of a full block and of the last block missing. -/
theorem witness_UnwrittenByteFaults :
    (let s := { loaded Config.r26 (keyA.take 15) [] with KEYLEN := 16 };
      s.KEYLEN.toNat = s.cfg.KEYSIZE ∧ 15 < 0 * s.cfg.SUBKEYSIZE + s.cfg.SUBKEYSIZE ∧ Memory.read s.KEY 15 = none ∧
      Ready (.unpack 0 0) s ∧ Ready (.dkey 0 0) s) ∧
    (let s := { loaded Config.r26 [] (oneToSixteen.take 15) with INLEN := 16 };
      s.cfg.BLOCKSIZE ≤ remaining s ∧ remaining s ≤ s.cfg.BLOCKSIZE ∧ 15 < s.MPTR.toNat + s.cfg.BLOCKSIZE ∧
      15 < s.INLEN.toNat ∧ Memory.read s.MSG 15 = none ∧ Ready (.encb 0) s ∧ Ready (.encl 0) s) :=
  ⟨⟨by decide, by decide, by decide, ⟨rfl, by decide⟩, ⟨rfl, by decide⟩⟩,
    ⟨by decide, by decide, by decide, by decide, by decide, ⟨rfl, by decide⟩, ⟨rfl, by decide⟩⟩⟩

/-! ## Witnesses: field arithmetic -/

/-- Two narrow registers written. -/
def pair (c : Config) (a b : Limbs) : State := withF 1 b (withF 0 a (State.resetOf c))

/-- Two wide registers written. -/
def wpair (c : Config) (a b : Limbs) : State := withW 1 b (withW 0 a (State.resetOf c))

theorem witness_AddResult : Ready (.add 63 0 1) (pair Config.r26 (all5 0x80000000) (all5 0x7fffffff)) ∧
    HoldsF (pair Config.r26 (all5 0x80000000) (all5 0x7fffffff)) 0 (all5 0x80000000) ∧
    HoldsF (pair Config.r26 (all5 0x80000000) (all5 0x7fffffff)) 1 (all5 0x7fffffff) ∧
    (∀ i, i < 5 → (all5 0x80000000).getD i 0 + (all5 0x7fffffff).getD i 0 < 2 ^ 32) ∧
    (∃ i, i < 5 ∧ 2 ^ 32 ≤ (all5 0x80000000).getD i 0 + (all5 0x80000000).getD i 0) :=
  ⟨⟨rfl, by decide⟩, rfl, rfl, by decide, 0, by decide⟩

theorem witness_AddwResult : Ready (.addw 3 0 1) (wpair Config.r26 (all5 (2 ^ 63)) (all5 (2 ^ 63 - 1))) ∧
    HoldsW (wpair Config.r26 (all5 (2 ^ 63)) (all5 (2 ^ 63 - 1))) 0 (all5 (2 ^ 63)) ∧
    HoldsW (wpair Config.r26 (all5 (2 ^ 63)) (all5 (2 ^ 63 - 1))) 1 (all5 (2 ^ 63 - 1)) ∧
    (∀ i, i < 5 → (all5 (2 ^ 63)).getD i 0 + (all5 (2 ^ 63 - 1)).getD i 0 < 2 ^ 64) ∧
    (∃ i, i < 5 ∧ 2 ^ 64 ≤ (all5 (2 ^ 63)).getD i 0 + (all5 (2 ^ 63)).getD i 0) :=
  ⟨⟨rfl, by decide⟩, rfl, rfl, by decide, 0, by decide⟩

/-- The boundary of the scaling check (V22e, V22f) and a product past the wide check (V22g). -/
theorem witness_MulResult : Config.r26.wf = true ∧
    Ready (.mul 3 0 1) (pair Config.r26 [1, 0, 0, 0, 0] [0, 0x33333333, 0, 0, 0]) ∧
    HoldsF (pair Config.r26 [1, 0, 0, 0, 0] [0, 0x33333333, 0, 0, 0]) 0 [1, 0, 0, 0, 0] ∧
    HoldsF (pair Config.r26 [1, 0, 0, 0, 0] [0, 0x33333333, 0, 0, 0]) 1 [0, 0x33333333, 0, 0, 0] ∧
    (∀ j, j < 5 → 1 ≤ j → Config.r26.fold * [0, 0x33333333, 0, 0, 0].getD j 0 < 2 ^ 32) ∧
    (∀ k, k < 5 → productLimb Config.r26 [1, 0, 0, 0, 0] [0, 0x33333333, 0, 0, 0] k < 2 ^ 64) ∧
    2 ^ 32 ≤ Config.r26.fold * [0, 0x33333334, 0, 0, 0].getD 1 0 ∧
    2 ^ 64 ≤ productLimb Config.r26 (all5 0xffffffff) (all5 0x33333333) 0 :=
  ⟨by decide, ⟨rfl, by decide⟩, rfl, rfl, by decide, by decide, by decide, by decide⟩

theorem witness_SqrResult : Config.r26.wf = true ∧ Ready (.sqr 3 0) (pair Config.r26 (all5 0x3ffffff) []) ∧
    (after (exec (.sqr 3 0) (pair Config.r26 (all5 0x3ffffff) []))).FAULT = none ∧
    HoldsF (pair Config.r26 (all5 0x3ffffff) []) 0 (all5 0x3ffffff) ∧
    (∀ j, j < 5 → 1 ≤ j → Config.r26.fold * (all5 0x3ffffff).getD j 0 < 2 ^ 32) ∧
    (∀ k, k < 5 → productLimb Config.r26 (all5 0x3ffffff) (all5 0x3ffffff) k < 2 ^ 64) :=
  ⟨by decide, ⟨rfl, by decide⟩, by decide, rfl, by decide, by decide⟩

theorem witness_PrecompResult : Ready (.precomp 3 0) (pair Config.r26 [0, 0x33333333, 0, 0, 0] []) ∧
    HoldsF (pair Config.r26 [0, 0x33333333, 0, 0, 0] []) 0 [0, 0x33333333, 0, 0, 0] ∧
    (∀ j, j < 5 → 1 ≤ j → Config.r26.fold * [0, 0x33333333, 0, 0, 0].getD j 0 < 2 ^ 32) ∧
    2 ^ 32 ≤ Config.r26.fold * [0, 0x33333334, 0, 0, 0].getD 1 0 :=
  ⟨⟨rfl, by decide⟩, rfl, by decide, by decide⟩

theorem witness_MulpResult :
    Ready (.mulp 3 0 2) busy ∧ HoldsF busy 0 [1, 2, 3, 4, 5] ∧ HoldsP busy 2 [5, 7, 0, 0, 0] [35, 0, 0, 0] ∧
    fits 64 (mulcore 5 [1, 2, 3, 4, 5] [5, 7, 0, 0, 0] [35, 0, 0, 0]) = true ∧
    [35, 0, 0, 0] = scaledLimbs Config.r26 [5, 7, 0, 0, 0] ∧
    fits 64 (mulcore 5 (all5 0xffffffff) (all5 0xffffffff) (List.replicate 4 0xffffffff)) = false :=
  ⟨⟨rfl, by decide⟩, rfl, rfl, by decide, by decide, by decide⟩

theorem witness_PrecompMulpIsMul : Ready (.precomp 3 1) busy ∧ Ready (.mulp 0 0 3) busy ∧ 3 < busy.P.length :=
  ⟨⟨rfl, by decide⟩, ⟨rfl, by decide⟩, by decide⟩

/-- The clauses on a source not written, at the last register of each file. -/
theorem witness_uninit_clauses :
    UnwrittenF State.reset 63 ∧ UnwrittenW State.reset 3 ∧ UnwrittenP State.reset 3 ∧
    Ready (.add 0 0 63) State.reset ∧ Ready (.addw 0 0 3) State.reset ∧ Ready (.mul 0 63 0) State.reset ∧
    Ready (.precomp 0 63) State.reset ∧ Ready (.mulp 0 0 3) State.reset ∧ Ready (.carry 0 3) State.reset ∧
    Ready (.reduce 0 63) State.reset ∧ Ready (.pack 63 0) State.reset ∧ Ready (.dpow 0 63 1) State.reset ∧
    Ready (.dpow2 0 63 1) State.reset :=
  ⟨⟨_, rfl⟩, ⟨_, rfl⟩, ⟨_, _, rfl⟩, ⟨rfl, by decide⟩, ⟨rfl, by decide⟩, ⟨rfl, by decide⟩, ⟨rfl, by decide⟩,
    ⟨rfl, by decide⟩, ⟨rfl, by decide⟩, ⟨rfl, by decide⟩, ⟨rfl, by decide⟩, ⟨rfl, by decide⟩, ⟨rfl, by decide⟩⟩

/-- The all-ones vector, and one it dominates (the carry out of the pass is `C1MAX`). -/
theorem witness_CarryPass : Config.r26.wf = true ∧ (all5 0xffffffff).length = Config.r26.N ∧
    (∀ i, i < 5 → (all5 0x3ffffff).getD i 0 ≤ (all5 0xffffffff).getD i 0) ∧
    Config.r26.narrow (all5 0xffffffff) = true ∧ (Config.r26.pass (all5 0xffffffff)).carry = 64 := by decide

/-- V24e meets the three checks, V24h fails the first; a tight vector (V24d) is left alone. -/
theorem witness_CarryResult : Config.r26.wf = true ∧
    Ready (.carry 63 0) (wpair Config.r26 [0x3fffffe, 0x3ffffff, 0x3ffffff, 0x3ffffff, 0x7ffffff] []) ∧
    HoldsW (wpair Config.r26 [0x3fffffe, 0x3ffffff, 0x3ffffff, 0x3ffffff, 0x7ffffff] []) 0
      [0x3fffffe, 0x3ffffff, 0x3ffffff, 0x3ffffff, 0x7ffffff] ∧
    (∀ t ∈ (Config.r26.pass [0x3fffffe, 0x3ffffff, 0x3ffffff, 0x3ffffff, 0x7ffffff]).t, t < 2 ^ 64) ∧
    (∃ t ∈ (Config.r26.pass (all5 (2 ^ 64 - 1))).t, 2 ^ 64 ≤ t) ∧
    Config.r26.tight [0x3fffffb, 0x3ffffff, 0x3ffffff, 0x3ffffff, 0x3ffffff] = true :=
  ⟨by decide, ⟨rfl, by decide⟩, rfl, by decide, by decide, by decide⟩

theorem witness_CarryOutputClass :
    nextOf (exec (.carry 63 0) (wpair Config.r26 [0x3fffffe, 0x3ffffff, 0x3ffffff, 0x3ffffff, 0x7ffffff] [])) =
      some (withF 63 [3, 0x4000000, 0x3ffffff, 0x3ffffff, 0x3ffffff]
        (wpair Config.r26 [0x3fffffe, 0x3ffffff, 0x3ffffff, 0x3ffffff, 0x7ffffff] [])) := by decide

theorem witness_ReduceResult : Config.r26.wf = true ∧ Ready (.reduce 63 0) (pair Config.r26 (all5 0xffffffff) []) ∧
    HoldsF (pair Config.r26 (all5 0xffffffff) []) 0 (all5 0xffffffff) ∧ Config.r26.narrow (all5 0xffffffff) = true :=
  ⟨by decide, ⟨rfl, by decide⟩, rfl, by decide⟩

/-- One below p, and p itself. -/
theorem witness_ConditionalSubtraction : Config.r26.wf = true ∧
    Config.r26.tight [0x3fffffa, 0x3ffffff, 0x3ffffff, 0x3ffffff, 0x3ffffff] = true ∧
    Config.r26.val [0x3fffffa, 0x3ffffff, 0x3ffffff, 0x3ffffff, 0x3ffffff] + 1 = Config.r26.p ∧
    Config.r26.tight [0x3fffffb, 0x3ffffff, 0x3ffffff, 0x3ffffff, 0x3ffffff] = true ∧
    Config.r26.val [0x3fffffb, 0x3ffffff, 0x3ffffff, 0x3ffffff, 0x3ffffff] = Config.r26.p := by decide

theorem witness_ReducerLaws : busy.Inv ∧ HoldsF busy 0 [1, 2, 3, 4, 5] ∧ HoldsF busy 1 (all5 0x3ffffff) ∧
    HoldsW (withW 0 (all5 0x3ffffff) busy) 0 (all5 0x3ffffff) ∧
    (after (runCommands [.reduce 2 1, .reduce 2 2] busy)).FAULT = none ∧
    (after (runCommands [.carry 2 0, .reduce 2 2] (withW 0 (all5 0x3ffffff) busy))).FAULT = none ∧
    (after (runCommands [.mul 1 0 1, .carry 2 1, .reduce 2 2] busy)).FAULT = none ∧
    (after (runCommands [.add 2 0 1, .reduce 2 2] busy)).FAULT = none :=
  ⟨busy_inv, rfl, rfl, rfl, by decide, by decide, by decide, by decide⟩

theorem witness_PseudoCommands : busy.Inv ∧ (2 : RegNo) ≠ 1 ∧ HoldsF (withF 2 (all5 0) busy) 2 (all5 0) ∧
    HoldsF busy 0 [1, 2, 3, 4, 5] ∧ HoldsF busy 1 (all5 0x3ffffff) ∧
    (after (runCommands (hstepCommands 2 0 1 0) (withF 2 (all5 0) busy))).FAULT = none ∧
    (after (runCommands (hstepCommands 1 0 1 0) busy)).FAULT = none :=
  ⟨busy_inv, by decide, rfl, rfl, rfl, by decide, by decide⟩

theorem witness_ZeroResult : Ready (.zero 63) State.reset ∧ Ready (.zerow 3) State.reset ∧ State.reset.cfg.wf = true :=
  ⟨⟨rfl, by decide⟩, ⟨rfl, by decide⟩, by decide⟩

/-! ## Witnesses: data format and key -/

/-- The clauses on a run with a byte never written. -/
theorem witness_missing_runs :
    (let s := { loaded Config.r26 (keyA.take 15) [] with KEYLEN := 16 };
      s.KEYLEN.toNat = s.cfg.KEYSIZE ∧
      Memory.readRun s.KEY (0 * s.cfg.SUBKEYSIZE) s.cfg.SUBKEYSIZE = none) ∧
    (let s := { loaded Config.r26 [] (oneToSixteen.take 15) with INLEN := 16 };
      remaining s = s.cfg.BLOCKSIZE ∧ Memory.readRun s.MSG s.MPTR.toNat s.cfg.BLOCKSIZE = none ∧
      Memory.readRun s.MSG s.MPTR.toNat (remaining s) = none) := by decide

theorem witness_UnpackResult : Ready (.unpack 63 0) (loaded Config.r26 keyA []) ∧
    (loaded Config.r26 keyA []).KEYLEN.toNat = Config.r26.KEYSIZE ∧
    Memory.readRun (loaded Config.r26 keyA []).KEY (0 * Config.r26.SUBKEYSIZE) Config.r26.SUBKEYSIZE = some keyA ∧
    Config.r26.wf = true :=
  ⟨⟨rfl, by decide⟩, by decide, by decide, by decide⟩

theorem witness_EncbResult : Ready (.encb 63) (loaded Config.r26 [] oneToSixteen) ∧
    Config.r26.BLOCKSIZE ≤ remaining (loaded Config.r26 [] oneToSixteen) ∧
    Memory.readRun (loaded Config.r26 [] oneToSixteen).MSG 0 Config.r26.BLOCKSIZE = some oneToSixteen :=
  ⟨⟨rfl, by decide⟩, by decide, by decide⟩

/-- A full last block and an empty one. -/
theorem witness_EnclResult : Ready (.encl 63) (loaded Config.r26 [] oneToSixteen) ∧
    remaining (loaded Config.r26 [] oneToSixteen) = Config.r26.BLOCKSIZE ∧
    Memory.readRun (loaded Config.r26 [] oneToSixteen).MSG 0 16 = some oneToSixteen ∧
    remaining (loaded Config.r26 [] []) ≤ Config.r26.BLOCKSIZE ∧
    Memory.readRun (loaded Config.r26 [] []).MSG 0 0 = some [] ∧ Config.r26.TM = .identity :=
  ⟨⟨rfl, by decide⟩, by decide, by decide, by decide, by decide, by decide⟩

theorem witness_EncbEnclAgree : Ready (.encb 63) busy ∧
    (let s := { busy with INLEN := 32 };
      remaining s = s.cfg.BLOCKSIZE ∧ s.MPTR.toNat ≤ s.INLEN.toNat ∧
      Memory.readRun s.MSG s.MPTR.toNat s.cfg.BLOCKSIZE = some ((msgA.drop 16).take 16)) :=
  ⟨⟨rfl, by decide⟩, by decide, by decide, by decide⟩

theorem witness_EncoderProperties : Config.r26.wf = true ∧ oneToSixteen.length = Config.r26.BLOCKSIZE ∧
    ([] : List Byte).length ≤ Config.r26.BLOCKSIZE ∧ Config.r26.TM = .identity := by decide

/-- The tight maximum (V28f) and a limb one past tight (V28g). -/
theorem witness_PackResult : Ready (.pack 0 0) (pair Config.r26 (all5 0x3ffffff) []) ∧
    HoldsF (pair Config.r26 (all5 0x3ffffff) []) 0 (all5 0x3ffffff) ∧ Config.r26.tight (all5 0x3ffffff) = true ∧
    HoldsF (pair Config.r26 [0x4000000, 0, 0, 0, 0] []) 0 [0x4000000, 0, 0, 0, 0] ∧
    Config.r26.tight [0x4000000, 0, 0, 0, 0] = false :=
  ⟨⟨rfl, by decide⟩, rfl, by decide, rfl, by decide⟩

theorem witness_MrstResult : busy.FAULT = none ∧ busy.MPTR ≠ 0 := by decide

theorem witness_DkeyResult : Ready (.dkey 63 0) (loaded Config.r26 keyA []) ∧
    (loaded Config.r26 keyA []).KEYLEN.toNat = Config.r26.KEYSIZE ∧
    Memory.readRun (loaded Config.r26 keyA []).KEY (0 * Config.r26.SUBKEYSIZE) Config.r26.SUBKEYSIZE = some keyA :=
  ⟨⟨rfl, by decide⟩, by decide, by decide⟩

theorem witness_ClampBounds : Config.r26.wf = true ∧ Config.r44.wf = true ∧ Config.r26.SUBKEYSIZE = 16 ∧
    keyA.length = 16 ∧ Config.r26.CLAMP = .classic ∧ Config.r26.r = 26 ∧ Config.r44.r = 44 ∧
    ({ Config.r26 with CLAMP := .unclamped } : Config).wf = true := by decide

/-- A tight base, and the largest base below `2^29`. -/
theorem witness_DpowResult : Config.r26.wf = true ∧ Ready (.dpow 61 0 3) (pair Config.r26 (all5 0x3ffffff) []) ∧
    HoldsF (pair Config.r26 (all5 0x3ffffff) []) 0 (all5 0x3ffffff) ∧ Config.r26.tight (all5 0x3ffffff) = true ∧
    (pair Config.r26 (all5 0x3ffffff) []).F.length = Config.r26.NF ∧ Config.r26.narrow (all5 (2 ^ 29 - 1)) = true ∧
    (∀ l ∈ all5 (2 ^ 29 - 1), l < 2 ^ 29) :=
  ⟨by decide, ⟨rfl, by decide⟩, rfl, by decide, by decide, by decide, by decide⟩

theorem witness_Dpow2Result : Config.r26.wf = true ∧ Ready (.dpow2 61 0 3) (pair Config.r26 (all5 0x3ffffff) []) ∧
    HoldsF (pair Config.r26 (all5 0x3ffffff) []) 0 (all5 0x3ffffff) ∧ Config.r26.tight (all5 0x3ffffff) = true ∧
    (pair Config.r26 (all5 0x3ffffff) []).F.length = Config.r26.NF :=
  ⟨by decide, ⟨rfl, by decide⟩, rfl, by decide, by decide⟩

/-- A base whose first product overflows. -/
theorem witness_MulCarryOverflows : MulCarryOverflows Config.r26 (all5 0xffffffff) (all5 0xffffffff) :=
  .inl (by decide)

/-- V42d: a key that differs from `KEY_A` in the clamped bit 127 alone. -/
theorem witness_ClampedBitsIgnored : Config.r26.TK = .identity ∧ KeyGiven (loaded Config.r26 keyA msgA) keyA ∧
    KeyGiven { loaded Config.r26 keyA msgA with KEY := Memory.writeRun [] 0 (keyA.set 15 0x28) } (keyA.set 15 0x28) ∧
    (∀ b, Config.r26.clampMask.testBit b = true →
      (leNat (subKey Config.r26 keyA 0)).testBit b = (leNat (subKey Config.r26 (keyA.set 15 0x28) 0)).testBit b) := by
  refine ⟨rfl, ⟨by decide, by decide⟩, ⟨by decide, by decide⟩, fun b hb => ?_⟩
  have h : leNat (subKey Config.r26 keyA 0) &&& Config.r26.clampMask =
      leNat (subKey Config.r26 (keyA.set 15 0x28) 0) &&& Config.r26.clampMask := by decide
  have h2 := congrArg (fun x => Nat.testBit x b) h
  simpa only [Nat.testBit_and, hb, Bool.and_true] using h2

theorem witness_ClampedBitsIgnored_masks : Config.r26.CLAMP = .classic ∧
    ({ Config.r26 with CLAMP := .unclamped } : Config).CLAMP = .unclamped ∧
    ({ Config.r26 with CLAMP := .other 5 } : Config).CLAMP = .other 5 := ⟨rfl, rfl, rfl⟩

/-! ## Witnesses: the evaluator -/

theorem witness_HashWritesTheTag : Config.r26.wf = true ∧ (loaded Config.r26 keyA msgA).FAULT = none ∧
    KeyGiven (loaded Config.r26 keyA msgA) keyA ∧ Message (loaded Config.r26 keyA msgA) msgA ∧ 0 < Config.r26.NTAGS :=
  ⟨by decide, rfl, ⟨by decide, by decide⟩, (by decide : Memory.readRun _ 0 34 = _), by decide⟩

/-- The last byte of the key, of the message, of the candidate missing. -/
theorem witness_HashFaults : cfgV.wf = true ∧ cfgV.HAS_VERIFY = true ∧
    (let s := { loaded cfgV (keyA.take 15) msgA with KEYLEN := 16 };
      s.KEYLEN.toNat = s.cfg.KEYSIZE ∧ 15 < s.cfg.KEYSIZE ∧ Memory.read s.KEY 15 = none) ∧
    (let s := { loaded cfgV keyA msgA with INLEN := 35 };
      s.KEYLEN.toNat = s.cfg.KEYSIZE ∧ 34 < s.INLEN.toNat ∧ Memory.read s.MSG 34 = none) ∧
    (let s := { loaded cfgV keyA msgA with OUT := Memory.writeRun [] 0 (tagV32.take 15) };
      15 < s.cfg.OUTPUTSIZE ∧ Memory.read s.OUT 15 = none) := by decide

/-- A mask of 128 bits; and a core that stands in `E_OVERFLOW`, which HASH leaves there. -/
theorem witness_HashNeverOverflows : 2 ^ 128 - 1 < 2 ^ 128 ∧
    (let s := faultedState State.reset .overflow 0x01000000;
      s.cfg.wf = true ∧ nextOf (exec .hash s) = some s ∧ s.FAULT = some .overflow) := by decide

theorem witness_StrategiesAgree : Config.r26.wf = true ∧ ({ Config.r26 with STRATEGY := .branch 16 } : Config).wf = true ∧
    ({ Config.r26 with STRATEGY := .delay 2 } : Config).wf = true ∧
    ({ Config.r26 with STRATEGY := .tree 4 } : Config).wf = true ∧
    ({ Config.r26 with STRATEGY := .nested 16 } : Config).wf = true := by decide

theorem witness_ScheduleReachesTarget : Config.r26.wf = true ∧ Config.r26.tight (all5 0x3ffffff) = true ∧
    (∀ m ∈ [all5 0x3ffffff, all5 0], Config.r26.tight m = true) := by decide

/-- The all-zero key has the point 0; two messages that differ in length alone. -/
theorem witness_TargetConsequences : Config.r26.wf = true ∧ Config.r26.TF = .identity ∧ Config.r26.TM = .identity ∧
    (∀ j, j < Config.r26.NTAGS → pointInt Config.r26 (List.replicate 16 0) j = 0) ∧ ([0] : List Byte) ≠ [0, 0] := by decide

/-- The premises of the laws of R206: two states with one key and message, another strategy, a key that differs in the
clamped bit 127 alone, a narrow and a wide vector. -/
theorem witness_HashLaws : InputsGiven cfgV keyA msgA busy ∧ InputsGiven cfgV keyA msgA (loaded cfgV keyA msgA) ∧
    ({ cfgV with STRATEGY := .delay 2 } : Config).wf = true ∧
    InputsGiven { cfgV with STRATEGY := .delay 2 } keyA msgA (loaded { cfgV with STRATEGY := .delay 2 } keyA msgA) ∧
    SameClampedKey Config.r26 keyA (keyA.set 15 0x28) ∧ Config.r26.narrow (all5 0xffffffff) = true ∧
    carryLimbs Config.r26 (all5 0x3ffffff) = .ok (all5 0x3ffffff) ∧ Config.r26.TM = .identity ∧
    Config.r26.TF = .identity ∧ Config.r26.TK = .identity := by
  refine ⟨⟨by decide, by decide, ⟨by decide, by decide⟩, (by decide : Memory.readRun _ 0 34 = _)⟩,
    ⟨rfl, rfl, ⟨by decide, by decide⟩, (by decide : Memory.readRun _ 0 34 = _)⟩, by decide,
    ⟨rfl, rfl, ⟨by decide, by decide⟩, (by decide : Memory.readRun _ 0 34 = _)⟩, fun j hj b hb => ?_, by decide,
    by decide, rfl, rfl, rfl⟩
  obtain rfl : j = 0 := Nat.lt_one_iff.1 hj
  exact witness_ClampedBitsIgnored.2.2.2 b hb

theorem witness_EmptyMessageTag : KeyGiven (loaded Config.r26 keyA []) keyA ∧ (loaded Config.r26 keyA []).INLEN = 0 ∧
    (loaded Config.r26 keyA []).FAULT = none :=
  ⟨⟨by decide, by decide⟩, by decide, rfl⟩

/-- Two cores with different registers, OUT, pointer and phase. -/
theorem witness_HashIsPure :
    busy.FAULT = none ∧ (loaded cfgV keyA msgA).FAULT = none ∧ busy.cfg = (loaded cfgV keyA msgA).cfg ∧
    busy.KEYLEN = (loaded cfgV keyA msgA).KEYLEN ∧ busy.INLEN = (loaded cfgV keyA msgA).INLEN ∧
    busy.KEY = (loaded cfgV keyA msgA).KEY ∧ busy.MSG = (loaded cfgV keyA msgA).MSG ∧ busy.F ≠ (loaded cfgV keyA msgA).F ∧
    busy.cfg.wf = true := by decide

theorem witness_SmallStepsAgree : busy.cfg.wf = true ∧ busy.FAULT = none := by decide

/-- The phase, the blocks in flight and the blocks of the open inner group after `n` internal steps on the three blocks
of `MSG_A`. -/
def phaseAfter (st : Strategy) (n : Nat) : Option (Phase × Nat × Nat) :=
  match phaseSteps n (hashStart (loaded { Config.r26 with STRATEGY := st } keyA msgA)) with
  | .ok run => some (run.core.PHASE, run.eval.inFlight.length, run.eval.innerCount)
  | .error _ => none

/-- DELAY(2): the first block waits, the group is processed with the second; the group that holds `m[3]` in `AbsorbLast`
(20_memory.md R67, 43_hash_engine.md R176, R186). -/
theorem test_phases_delay : phaseAfter (.delay 2) 2 = some (.absorb, 1, 0) ∧
    phaseAfter (.delay 2) 3 = some (.absorb, 0, 0) ∧ phaseAfter (.delay 2) 4 = some (.absorbLast, 0, 0) ∧
    phaseAfter (.delay 2) 5 = some (.combine, 0, 0) := by decide

/-- NESTED(3): no block waits, the inner group holds one, then two, and is closed in `AbsorbLast` (R188). -/
theorem test_phases_nested : phaseAfter (.nested 3) 2 = some (.absorb, 0, 1) ∧
    phaseAfter (.nested 3) 3 = some (.absorb, 0, 2) ∧ phaseAfter (.nested 3) 5 = some (.combine, 0, 0) := by decide

theorem witness_VerifyResult : cfgV.wf = true ∧ cfgV.HAS_VERIFY = true ∧ busy.FAULT = none ∧ KeyGiven busy keyA ∧
    Message busy msgA ∧ Memory.readRun busy.OUT 0 cfgV.OUTPUTSIZE = some tagV32 :=
  ⟨by decide, rfl, rfl, ⟨by decide, by decide⟩, (by decide : Memory.readRun _ 0 34 = _), by decide⟩

/-! ## Witnesses: frames and secrets -/

theorem witness_RegisterFrame : nextOf (exec (.dpow 62 0 2) busy) = some (after (exec (.dpow 62 0 2) busy)) ∧
    (61 : Nat) ∉ (Instr.dpow 62 0 2).destF ∧ (Instr.dpow 62 0 2) ≠ .hash := by decide

/-- PACK into its slot, HASH without a fault. -/
theorem witness_ByteFrame : nextOf (exec (.pack 1 0) busy) = some (after (exec (.pack 1 0) busy)) ∧
    0 * cfgV.SUBTAGSIZE + cfgV.SUBTAGSIZE ≤ 16 ∧ nextOf (exec .hash busy) = some (after (exec .hash busy)) ∧
    (after (exec .hash busy)).FAULT = none ∧ cfgV.OUTPUTSIZE ≤ 16 ∧
    (after (exec .verify busy)).FAULT = none ∧ nextOf (exec .verify busy) = some (after (exec .verify busy)) := by decide

theorem witness_ControlFrame : nextOf (exec (.zero 5) busy) = some (after (exec (.zero 5) busy)) ∧
    (after (exec (.zero 5) busy)).FAULT = busy.FAULT := by decide

/-- Another key, and another message outside the block at the pointer. -/
theorem witness_ReadsOnlyItsBytes : busy.cfg.wf = true ∧
    (∀ x ∈ (Instr.encb 0).reads busy.cfg busy.INLEN.toNat busy.MPTR.toNat,
      ({ busy with KEY := [], MSG := Memory.write busy.MSG 32 0 } : State).byteAt x = busy.byteAt x) ∧
    Memory.write busy.MSG 32 0 ≠ busy.MSG := by decide

/-- Two cores that differ in KEY alone, both one byte short. -/
theorem witness_RequiredFaultsArePublic : SamePublic (loaded cfgV (keyA.take 15) msgA) (loaded cfgV (msgA.take 15) msgA) ∧
    FaultCode.keylen.required = true ∧
    nextOf (exec .hash (loaded cfgV (keyA.take 15) msgA)) = some (after (exec .hash (loaded cfgV (keyA.take 15) msgA))) ∧
    faultOf .hash (loaded cfgV (keyA.take 15) msgA) = some .keylen :=
  ⟨by rw [SamePublic]; decide, rfl, by decide, by decide⟩

end Sys2Proof.Tests
end

section
/-! PROOFS. Well-formed configurations (00_scope.md R9). -/

namespace Sys2Proof.Machine

/-- R9(f) for `R26`: the carry out of five limbs of `2^32 - 1`. -/
theorem r26_c1max : Config.r26.c1max = 64 := by decide

/-- R9(f) for `R44`: the carry out of three limbs of `2^64 - 1`. -/
theorem r44_c1max : Config.r44.c1max = 4194304 := by decide

/-- Without a well-formed configuration there is no core to step, whatever the host presents (R9). -/
theorem step_of_not_wf {s : State} (h : s.cfg.wf = false) : step s = .refused .illFormedConfig := by
  simp [step, h]

/-- Settles O6, from the model's `r26_wf` and `r44_wf`, the two carry bounds and the guard of `step`. -/
theorem illFormedConfigRefused : Obligations.IllFormedConfigRefused :=
  ⟨r26_wf, r44_wf, r26_c1max, r44_c1max, fun _ => step_of_not_wf⟩

end Sys2Proof.Machine
end

section
/-! PROOFS. The invariant of the state (10_state.md R20 to R32): it holds after reset, and every step keeps it. -/

namespace Sys2Proof.Machine

/-! ## Reset (R37) -/

/-- After reset no register is marked written. -/
theorem resetOf_noneWritten (c : Config) : NoneWritten (State.resetOf c) := by
  refine ⟨?_, ?_, ?_⟩ <;> intro reg hreg <;> rw [List.eq_of_mem_replicate hreg]

/-- Settles O7: the marks by `resetOf_noneWritten`, the bytes and the other registers by the definition of reset. -/
theorem resetValues : Obligations.ResetValues := fun c =>
  ⟨resetOf_noneWritten c, fun _ => ⟨rfl, rfl, rfl⟩, rfl, rfl, rfl, rfl, rfl, rfl, rfl, rfl⟩

/-- An empty message fits every message space (60_exceptions.md R224). -/
theorem inlenAccepted_zero (c : Config) : inlenAccepted c 0 = true := by
  unfold inlenAccepted
  split <;> simp

/-- Every register of the reset state holds zero limbs, which can be stored, and no tag is valid. -/
theorem resetOf_inv {c : Config} (hw : c.wf = true) : (State.resetOf c).Inv where
  cfgWf := hw
  sizes := ⟨List.length_replicate, List.length_replicate, List.length_replicate⟩
  narrow := fun reg hreg => by
    rw [List.eq_of_mem_replicate hreg]
    exact (bounded_zeros c c.W).narrow le_rfl
  wide := fun reg hreg => by
    obtain ⟨hl, hf⟩ := bounded_zeros c (2 * c.W)
    rw [List.eq_of_mem_replicate hreg]
    exact wide_of_fits hl hf
  factor := fun reg hreg => by
    have hN := (wfFacts hw).twoLimbs
    rw [List.eq_of_mem_replicate hreg]
    refine ⟨(bounded_zeros c c.W).narrow le_rfl, ?_, fits_iff.2 fun l hl => ?_⟩
    · rw [List.length_replicate, resetOf_cfg]
      omega
    · rw [List.eq_of_mem_replicate hl]
      positivity
  scaled := fun reg hreg hwritten => by
    rw [(resetOf_noneWritten c).2.2 reg hreg] at hwritten
    cases hwritten
  keySpace := ⟨rfl, rfl⟩
  msgSpace := ⟨rfl, by unfold addressesIn; split <;> rfl⟩
  outSpace := ⟨rfl, rfl⟩
  pointer := le_rfl
  inlen := inlenAccepted_zero c
  phase := .inl rfl
  fault := by simp
  finfo := fun _ => rfl
  outvalid := by simp
  vok := fun _ => rfl

/-- Settles O13, from `resetOf_inv` and `r26_wf`. -/
theorem resetMeetsInv : Obligations.ResetMeetsInv :=
  ⟨fun _ => resetOf_inv, rfl, resetOf_inv r26_wf⟩

/-! ## The host's actions (20_memory.md R59) -/

/-- A write of a byte of MSG inside the space keeps every address inside it (20_memory.md R50). -/
theorem write_addressesIn {m : Memory} {a : Nat} (b : Byte) {size : Option Nat} (ha : inSpace a size = true)
    (h : addressesIn m size = true) : addressesIn (Memory.write m a b) size = true := by
  cases size with
  | none => rfl
  | some n => exact write_addressesBelow m a b n (of_decide_eq_true ha) h

theorem hostWriteKey_inv {s t : State} (h : s.Inv) {a : Nat} {b : Byte} (he : hostWriteKey s a b = .next t) :
    t.Inv := by
  unfold hostWriteKey at he
  split at he <;> cases he
  next ha =>
    obtain ⟨hwf, hbelow⟩ := h.keySpace
    exact { h with keySpace := ⟨write_wf _ _ _ hwf, write_addressesBelow _ _ _ _ ha hbelow⟩ }

theorem hostWriteMsg_inv {s t : State} (h : s.Inv) {a : Nat} {b : Byte} (he : hostWriteMsg s a b = .next t) :
    t.Inv := by
  unfold hostWriteMsg at he
  split at he <;> cases he
  next ha =>
    obtain ⟨hwf, hin⟩ := h.msgSpace
    exact { h with msgSpace := ⟨write_wf _ _ _ hwf, write_addressesIn _ ha hin⟩ }

/-- KEYLEN is no part of the invariant. -/
theorem inv_keylen {s : State} (h : s.Inv) (v : BitVec 32) : ({ s with KEYLEN := v } : State).Inv := { h with }

/-- A write of INLEN is accepted with `MPTR` 0, or changes nothing (10_state.md R27, 60_exceptions.md R224). -/
theorem hostWriteInlen_inv {s t : State} (h : s.Inv) {v : BitVec 64} (he : hostWriteInlen s v = .next t) : t.Inv := by
  unfold hostWriteInlen at he
  split at he <;> cases he
  next hv => exact { h with pointer := Nat.zero_le _, inlen := hv }
  next => exact h

theorem hostWriteOut_inv {s t : State} (h : s.Inv) {a : Nat} {b : Byte} (he : hostWriteOut s a b = .next t) :
    t.Inv := by
  unfold hostWriteOut at he
  split at he
  · split at he <;> cases he
    next ha =>
      obtain ⟨hwf, hbelow⟩ := h.outSpace
      exact { h with
        outSpace := ⟨write_wf _ _ _ hwf, write_addressesBelow _ _ _ _ ha hbelow⟩
        outvalid := nofun }
  · cases he

/-- A host read changes nothing (20_memory.md R58). -/
theorem hostReadStep_eq {s t : State} {r : HostReg} (he : hostReadStep s r = .next t) : t = s := by
  unfold hostReadStep at he
  split at he
  · split at he <;> cases he
    rfl
  · split at he <;> cases he
    rfl
  · cases he
    rfl

/-- A presented word keeps the invariant: it runs its command or enters the fault of an illegal word. -/
theorem present_inv {s t : State} (h : s.Inv) {w : Word} (he : present exec w s = .next t) : t.Inv := by
  unfold present at he
  split at he
  · exact exec_inv h he
  · cases he
    exact raiseFault_inv h _ _ _

theorem hostStep_inv {s t : State} (h : s.Inv) {act : HostAction} (he : hostStep (present exec) act s = .next t) :
    t.Inv := by
  cases act with
  | writeKey a b => exact hostWriteKey_inv h he
  | writeKeylen v =>
    cases he
    exact inv_keylen h v
  | writeMsg a b => exact hostWriteMsg_inv h he
  | writeInlen v => exact hostWriteInlen_inv h he
  | writeOut a b => exact hostWriteOut_inv h he
  | read r =>
    obtain rfl := hostReadStep_eq he
    exact h
  | command w => exact present_inv h he
  | reset =>
    cases he
    exact inv_port (resetOf_inv h.cfgWf) s.port

/-- Settles O12: the core waits, or takes the first action of the host, which `hostStep_inv` covers. -/
theorem stepKeepsInv : Obligations.StepKeepsInv := by
  intro s t h he
  cases hp : s.port with
  | nil =>
    simp only [step, h.cfgWf, if_true, takeAction, hp] at he
    cases he
    exact h
  | cons act rest =>
    rw [step_action h.cfgWf hp] at he
    exact hostStep_inv (inv_port h rest) he

end Sys2Proof.Machine
end

section
/-! PROOFS. Reads of what nothing has written are `E_UNINIT` (10_state.md R38, 60_exceptions.md R227, R230). -/

namespace Sys2Proof.Machine

/-! ## Registers -/

/-- Only single-operation commands name source registers (30_encoding.md R72). -/
theorem commandKind_of_source {i : Instr} {s : State} (h : SomeSourceUnwritten s i) : commandKind i = .single := by
  refine commandKind_single ?_ ?_ <;> rintro rfl <;> exact h

/-- A body reads its sources before it computes, so an unwritten one is `E_UNINIT` before any overflow (R230). -/
theorem body_unwritten {i : Instr} {s : State} (h : SomeSourceUnwritten s i) : body s i = .error .uninit := by
  cases i with
  | add fd fa fb => exact two_reads readF_error (h.imp readF_unwritten readF_unwritten)
  | addw wd wa wb => exact two_reads readW_error (h.imp readW_unwritten readW_unwritten)
  | mul wd fa fb => exact two_reads readF_error (h.imp readF_unwritten readF_unwritten)
  | mulp wd fa pb => exact two_reads readF_error (h.imp readF_unwritten readP_unwritten)
  | sqr wd fa => exact bind_eq_error.2 (.inl (readF_unwritten h))
  | precomp pd fa => exact bind_eq_error.2 (.inl (readF_unwritten h))
  | carry fd wa => exact bind_eq_error.2 (.inl (readW_unwritten h))
  | reduce fd fa => exact bind_eq_error.2 (.inl (readF_unwritten h))
  | pack fa idx => exact bind_eq_error.2 (.inl (readF_unwritten h))
  | dpow fd fa n => exact bind_eq_error.2 (.inl (readF_unwritten h))
  | dpow2 fd fa n => exact bind_eq_error.2 (.inl (readF_unwritten h))
  | zero | zerow | unpack | encb | encl | mrst | dkey | hash | verify => exact h.elim

/-- Settles O17, from `body_unwritten`. -/
theorem unwrittenSourceFaults : Obligations.UnwrittenSourceFaults :=
  fun _ _ hr h => exec_error_single hr (commandKind_of_source h) (body_unwritten h)

/-! ## Bytes -/

/-- A key slot with KEYLEN stated and a byte that holds no value. -/
theorem readKeySlot_missing {s : State} {j x : Nat} (hk : s.KEYLEN.toNat = s.cfg.KEYSIZE)
    (h1 : j * s.cfg.SUBKEYSIZE ≤ x) (h2 : x < j * s.cfg.SUBKEYSIZE + s.cfg.SUBKEYSIZE)
    (h : Memory.read s.KEY x = none) : readKeySlot s j = .error .uninit :=
  bind_eq_error.2 (.inr ⟨(), requireKeylen_ok hk, readBytes_none h1 h2 h⟩)

/-- A full block with a byte that holds no value. -/
theorem encodeFullAt_missing {s : State} {a x : Nat} (h1 : a ≤ x) (h2 : x < a + s.cfg.BLOCKSIZE)
    (h : Memory.read s.MSG x = none) : encodeFullAt s a = .error .uninit :=
  bind_eq_error.2 (.inl (readBytes_none h1 h2 h))

/-- A last block with a byte that holds no value. -/
theorem encodeLastAt_missing {s : State} {a x : Nat} (h1 : a ≤ x) (h2 : x < s.INLEN.toNat)
    (h : Memory.read s.MSG x = none) : encodeLastAt s a = .error .uninit :=
  bind_eq_error.2 (.inl (readBytes_none h1 (by omega) h))

/-- Settles O18: the check of KEYLEN or of the range passes, and the read that follows it faults. -/
theorem unwrittenByteFaults : Obligations.UnwrittenByteFaults := by
  intro s fd idx
  refine ⟨?_, ?_, ?_⟩
  · rintro hk ⟨x, h1, h2, hx⟩
    have hslot := readKeySlot_missing hk h1 h2 hx
    have hkey : deriveKey s idx.toNat = .error .uninit := bind_eq_error.2 (.inl hslot)
    exact ⟨fun hr => exec_error_single hr rfl (bind_eq_error.2 (.inl hslot)),
      fun hr => exec_error_single hr rfl (bind_eq_error.2 (.inl hkey))⟩
  · rintro hrem ⟨x, h1, h2, hx⟩ hr
    exact exec_error_single hr rfl (bind_eq_error.2 (.inr ⟨(), require_eq_ok.2 (decide_eq_true hrem),
      bind_eq_error.2 (.inl (encodeFullAt_missing h1 h2 hx))⟩))
  · rintro hrem ⟨x, h1, h2, hx⟩ hr
    exact exec_error_single hr rfl (bind_eq_error.2 (.inr ⟨(), require_eq_ok.2 (decide_eq_true hrem),
      bind_eq_error.2 (.inl (encodeLastAt_missing h1 h2 hx))⟩))

end Sys2Proof.Machine
end

section
/-! PROOFS. The result of HASH depends on its inputs alone (10_state.md R36, 43_hash_engine.md R181). -/

namespace Sys2Proof.Machine

/-- Two states with the same configuration, lengths, key bytes and message bytes: the inputs of HASH (R181). -/
structure SameHashInputs (s t : State) : Prop where
  cfg : s.cfg = t.cfg
  keylen : s.KEYLEN = t.KEYLEN
  inlen : s.INLEN = t.INLEN
  key : ∀ x, x < s.cfg.KEYSIZE → Memory.read s.KEY x = Memory.read t.KEY x
  msg : ∀ x, x < s.INLEN.toNat → Memory.read s.MSG x = Memory.read t.MSG x

namespace SameHashInputs

variable {s t : State} (h : SameHashInputs s t)
include h

theorem keyGiven {key : List Byte} (hk : KeyGiven s key) : KeyGiven t key := by
  obtain ⟨hlen, hrun⟩ := hk
  refine ⟨by rw [← h.keylen, ← h.cfg, hlen], ?_⟩
  rw [← h.cfg, ← hrun]
  exact readRun_congr fun i hi => by rw [Nat.zero_add, h.key i hi]

theorem message {msg : List Byte} (hm : Message s msg) : Message t msg := by
  rw [Message, ← h.inlen, ← hm]
  exact readRun_congr fun i hi => by rw [Nat.zero_add, h.msg i hi]

theorem missing (hm : Missing s) : Missing t := by
  rcases hm with ⟨x, hx, hn⟩ | ⟨x, hx, hn⟩
  · exact .inl ⟨x, by rwa [← h.cfg], by rw [← h.key x hx, hn]⟩
  · exact .inr ⟨x, by rwa [← h.inlen], by rw [← h.msg x hx, hn]⟩

/-- The tag is the formula's (R175), or `E_KEYLEN`, or `E_UNINIT`: which of them, the inputs say. -/
theorem tagBytes_eq (hw : s.cfg.wf = true) : tagBytes s = tagBytes t := by
  have hwt : t.cfg.wf = true := h.cfg ▸ hw
  by_cases hk : s.KEYLEN.toNat = s.cfg.KEYSIZE
  · rcases given_or_missing s hk with ⟨key, msg, hkey, hmsg⟩ | hmiss
    · rw [tagBytes_ok hw hkey hmsg, tagBytes_ok hwt (h.keyGiven hkey) (h.message hmsg), h.cfg]
    · have hkt : t.KEYLEN.toNat = t.cfg.KEYSIZE := by rw [← h.keylen, ← h.cfg, hk]
      rw [tagBytes_missing hw hk hmiss, tagBytes_missing hwt hkt (h.missing hmiss)]
  · have hkt : t.KEYLEN.toNat ≠ t.cfg.KEYSIZE := by rwa [← h.keylen, ← h.cfg]
    rw [tagBytes_keylen hk, tagBytes_keylen hkt]

end SameHashInputs

/-- The fault entry of HASH: every mark, `MPTR` and VOK 0, no byte of OUT with a value (60_exceptions.md R226). -/
theorem raiseFault_hash {s : State} (hf : s.FAULT = none) (e : FaultCode) (w : Word) :
    raiseFault .hash e w s = faultedState { clearMarks s with OUT := [], MPTR := 0, VOK := false } e w := by
  rw [raiseFault, hf]
  rfl

/-- Settles O53: the tags agree, so both HASHes write the same bytes, or both enter the same fault. -/
theorem hashIsPure : Obligations.HashIsPure := by
  intro s t hfs hft hcfg hkeylen hinlen hkey hmsg hw
  have htag := SameHashInputs.tagBytes_eq ⟨hcfg, hkeylen, hinlen, hkey, hmsg⟩ hw
  cases hs : tagBytes s with
  | ok tag =>
    refine ⟨_, _, hash_ok hfs hs, hash_ok hft (htag ▸ hs), by simp [hfs, hft], rfl, rfl, hinlen, ?_,
      clearMarks_noneWritten s, clearMarks_noneWritten t⟩
    rw [← tagBytes_length hw hs, readRun_writeRun, readRun_writeRun]
  | error e =>
    refine ⟨_, _, hash_error hfs hs, hash_error hft (htag ▸ hs), ?_⟩
    rw [raiseFault_hash hfs, raiseFault_hash hft]
    exact ⟨rfl, rfl, rfl, rfl, rfl, clearMarks_noneWritten s, clearMarks_noneWritten t⟩

end Sys2Proof.Machine
end

section
/-! PROOFS. Which commands leave the pointer, VOK, the phase and the fault registers alone (10_state.md R28 to R32). -/

namespace Sys2Proof.Machine

/-- A command that leaves `FAULT` as it was had no effect, or its body answered. -/
theorem exec_noFault_cases {i : Instr} {s t : State} (he : exec i s = .next t) (hf : t.FAULT = s.FAULT) :
    t = s ∨ body s i = .ok t := by
  rcases exec_cases i s with ⟨-, h⟩ | ⟨hn, -, h⟩ | ⟨-, u, hb, h⟩ | ⟨⟨hn, -⟩, e, -, h⟩ <;>
    rw [h] at he <;> cases he
  · exact .inl rfl
  · rw [faultedState_FAULT, hn] at hf
    cases hf
  · exact .inr hb
  · rw [raiseFault_code hn, hn] at hf
    cases hf

/-- A single-operation command has no effect, enters a fault that touches the fault registers, `PHASE` and `OUTVALID`
alone, or does what its body answers. -/
theorem exec_single_cases {i : Instr} {s t : State} (h1 : i ≠ .hash) (h2 : i ≠ .verify) (he : exec i s = .next t) :
    t = s ∨ (∃ e, t = faultedState s e (encode i)) ∨ body s i = .ok t := by
  rcases exec_cases i s with ⟨-, h⟩ | ⟨-, -, h⟩ | ⟨-, u, hb, h⟩ | ⟨⟨hn, -⟩, e, -, h⟩ <;>
    rw [h] at he <;> cases he
  · exact .inl rfl
  · exact .inr (.inl ⟨_, rfl⟩)
  · exact .inr (.inr hb)
  · exact .inr (.inl ⟨e, by rw [commandKind_single h1 h2, raiseFault_single _ _ _ hn]⟩)

/-- Only ENCB, ENCL, MRST, HASH and VERIFY move the message pointer (R29). -/
theorem exec_mptr {i : Instr} {s t : State} (he : exec i s = .next t) (h1 : i ≠ .hash) (h2 : i ≠ .verify)
    (h3 : i ≠ .mrst) (h4 : ∀ fd, i ≠ .encb fd) (h5 : ∀ fd, i ≠ .encl fd) : t.MPTR = s.MPTR := by
  rcases exec_single_cases h1 h2 he with rfl | ⟨e, rfl⟩ | hb
  · rfl
  · rfl
  · obtain ⟨-, -, -, -, -, -, -, hmptr, -⟩ := body_frame h1 h2 hb
    exact hmptr h3 h4 h5

/-- Only HASH and VERIFY change VOK (R32). -/
theorem exec_vok {i : Instr} {s t : State} (he : exec i s = .next t) (h1 : i ≠ .hash) (h2 : i ≠ .verify) :
    t.VOK = s.VOK := by
  rcases exec_single_cases h1 h2 he with rfl | ⟨e, rfl⟩ | hb
  · rfl
  · rfl
  · obtain ⟨-, -, -, -, -, -, -, -, hvok, -⟩ := body_frame h1 h2 hb
    exact hvok

/-- A command that raises no fault leaves FINFO (R31). -/
theorem exec_finfo {i : Instr} {s t : State} (he : exec i s = .next t) (hf : t.FAULT = s.FAULT) :
    t.FINFO = s.FINFO := by
  rcases exec_noFault_cases he hf with rfl | hb
  · rfl
  · obtain ⟨-, -, -, -, -, -, -, hfinfo⟩ := body_inputs hb
    exact hfinfo

/-- A single-operation command that raises no fault leaves PHASE and OUTVALID (R28, R30). -/
theorem exec_phase {i : Instr} {s t : State} (he : exec i s = .next t) (h1 : i ≠ .hash) (h2 : i ≠ .verify)
    (hf : t.FAULT = s.FAULT) : t.PHASE = s.PHASE ∧ t.OUTVALID = s.OUTVALID := by
  rcases exec_noFault_cases he hf with rfl | hb
  · exact ⟨rfl, rfl⟩
  · obtain ⟨-, -, -, -, -, -, -, -, -, hphase⟩ := body_frame h1 h2 hb
    exact hphase

/-- Settles O58, from `exec_inputs` and the frame of each register. -/
theorem controlFrame : Obligations.ControlFrame := by
  intro i s t he
  obtain ⟨hcfg, -, hkeylen, -, hinlen, hport⟩ := exec_inputs he
  exact ⟨hcfg, hkeylen, hinlen, hport, exec_mptr he, exec_vok he, exec_finfo he, exec_phase he⟩

end Sys2Proof.Machine
end

section
/-! PROOFS. The word of a decoded command is its encoding, and when a word is legal for a configuration (30_encoding.md
R72, R74, R75, R78). -/

namespace Sys2Proof

section rows

variable {op k a b c : BitVec 8} {i j : Instr} {rest : Except Illegal Instr} {unused : Bool}

/-- A row that uses all three fields. -/
theorem encode_of_row (hj : encode j = assemble k a b c)
    (hrest : rest = .ok i → encode i = assemble op a b c) :
    (if op = k then .ok j else rest) = .ok i → encode i = assemble op a b c := by
  split
  next hop => rintro ⟨⟩; rw [hop, hj]
  next => exact hrest

/-- A row with unused fields, which the decoder finds 0. -/
theorem encode_of_shortRow (hj : unused = true → encode j = assemble k a b c)
    (hrest : rest = .ok i → encode i = assemble op a b c) :
    (if op = k then whenUnused unused j else rest) = .ok i → encode i = assemble op a b c := by
  split
  next hop => intro h; obtain ⟨hz, rfl⟩ := whenUnused_ok.1 h; rw [hop, hj hz]
  next => exact hrest

/-- The command the table gives for an opcode and fields encodes to them, row by row (R74). -/
theorem encode_of_decodeRow : decodeRow op a b c = .ok i → encode i = assemble op a b c := by
  refine encode_of_row rfl <| encode_of_row rfl <| encode_of_row rfl <| encode_of_shortRow ?_ <|
    encode_of_shortRow ?_ <| encode_of_row rfl <| encode_of_shortRow ?_ <| encode_of_shortRow ?_ <|
    encode_of_shortRow ?_ <| encode_of_shortRow ?_ <| encode_of_shortRow ?_ <| encode_of_shortRow ?_ <|
    encode_of_shortRow ?_ <|
    encode_of_shortRow ?_ <| encode_of_shortRow ?_ <| encode_of_shortRow ?_ <| encode_of_row rfl <|
    encode_of_row rfl <| encode_of_shortRow ?_ <| encode_of_shortRow ?_ nofun
  all_goals
    simp only [Bool.and_eq_true, beq_iff_eq]
    intro hz
    simp only [hz, encode, Instr.opcode, Instr.fields]

end rows

/-- A word that decodes to a command is the command's encoding (R75). -/
theorem encode_of_decode {w : Word} {i : Instr} (h : decode w = .ok i) : encode i = w :=
  (encode_of_decodeRow h).trans (assemble_fields w)

/-- A word is a legal command exactly when a row reads it and its operands are in range (R75). -/
theorem decodeFor_eq_ok {c : Config} {w : Word} {i : Instr} :
    decodeFor c w = .ok i ↔ decode w = .ok i ∧ i.wf c = true := by
  cases hd : decode w with
  | error e => simp [decodeFor, hd]
  | ok j =>
    cases hc : j.check c with
    | none =>
      have hw : j.wf c = true := Machine.wf_iff_check.2 hc
      simp only [decodeFor, hd, hc, Except.ok.injEq]
      exact ⟨fun h => ⟨h, h ▸ hw⟩, And.left⟩
    | some e =>
      have hw : j.wf c = false := by simp [Instr.wf, hc]
      simp only [decodeFor, hd, hc, Except.ok.injEq, reduceCtorEq, false_iff, not_and]
      rintro rfl
      simp [hw]

/-- A word is illegal when no row reads it, or the operands of the command it encodes are out of range (R78). -/
theorem decodeFor_eq_error {c : Config} {w : Word} {e : Illegal} (h : decodeFor c w = .error e) :
    decode w = .error e ∨ ∃ i, decode w = .ok i ∧ i.wf c = false := by
  cases hd : decode w with
  | error e' =>
    simp only [decodeFor, hd] at h
    exact .inl h
  | ok i =>
    refine .inr ⟨i, rfl, Bool.eq_false_iff.2 fun hw => ?_⟩
    rw [decodeFor_eq_ok.2 ⟨hd, hw⟩] at h
    cases h

end Sys2Proof
end

section
/-! PROOFS. The host's actions (20_memory.md R59): what each does, and that only a move R59 does not offer stops the
machine. -/

namespace Sys2Proof.Machine

/-! ## A presented word (30_encoding.md R70) -/

/-- A word that is legal for the configuration runs its command. -/
theorem present_legal {run : Instr → State → Out} {s : State} {w : Word} {i : Instr}
    (h : decodeFor s.cfg w = .ok i) : present run w s = run i s := by
  obtain ⟨hd, -⟩ := decodeFor_eq_ok.1 h
  simp only [present, hd]

/-- A word that is illegal for the configuration raises `E_ILLEGAL`, by the decoder or by the command's own check of its
operands (60_exceptions.md R221). -/
theorem present_illegal {s : State} {w : Word} {e : Illegal} (hf : s.FAULT = none)
    (h : decodeFor s.cfg w = .error e) : present exec w s = .next (faultedState s .illegal w) := by
  rcases decodeFor_eq_error h with hd | ⟨i, hd, hw⟩
  · simp only [present, hd, illegalWord, raiseFault_single _ _ _ hf]
  · simp only [present, hd, exec_illegal i s hf hw, encode_of_decode hd]

/-- While `FAULT` is not 0 every word is refused (60_exceptions.md R226). -/
theorem present_faulted {s : State} (hf : s.FAULT ≠ none) (w : Word) : present exec w s = .next s := by
  cases hd : decode w with
  | ok i => simp only [present, hd, exec_faulted i s hf]
  | error e => simp only [present, hd, illegalWord, raiseFault_sticky _ _ _ _ hf]

/-- No word stops the machine. -/
theorem present_next (w : Word) (s : State) : ∃ t, present exec w s = .next t := by
  unfold present
  split
  · exact exec_next _ s
  · exact ⟨_, rfl⟩

/-! ## Moves that R59 does not offer -/

/-- The moves R59 does not offer: an address outside its space, a write of OUT or a read of VOK without HAS_VERIFY. -/
def NotOffered (c : Config) : HostAction → Prop
  | .writeKey x _ => c.KEYSIZE ≤ x
  | .writeMsg x _ => ∃ m, c.MSGMAX = some m ∧ m ≤ x
  | .writeOut x _ => c.HAS_VERIFY = false ∨ c.OUTPUTSIZE ≤ x
  | .read (.out x) => c.OUTPUTSIZE ≤ x
  | .read .vok => c.HAS_VERIFY = false
  | _ => False

/-- An address is outside a space only if the space has a size, at or below it (20_memory.md R50). -/
theorem inSpace_eq_false {x : Nat} {size : Option Nat} : inSpace x size = false ↔ ∃ m, size = some m ∧ m ≤ x := by
  cases size <;> simp [inSpace]

/-- An address below every bound of a space is inside it. -/
theorem inSpace_of_lt {x : Nat} {size : Option Nat} (h : ∀ m, size = some m → x < m) : inSpace x size = true := by
  cases size with
  | none => rfl
  | some m => exact decide_eq_true (h m rfl)

/-- A read of what R59 offers changes nothing (R58). -/
theorem hostReadStep_offered {s : State} {r : HostReg} (h : ¬ NotOffered s.cfg (.read r)) :
    hostReadStep s r = .next s := by
  cases r with
  | out x => exact if_pos (Nat.lt_of_not_le h)
  | vok => exact if_pos (Bool.eq_true_of_not_eq_false h)
  | outvalid | mptr | phase | fault | finfo => rfl

/-- A host action that R59 offers has a next state. -/
theorem hostStep_offered {s : State} {act : HostAction} (h : ¬ NotOffered s.cfg act) :
    ∃ t, hostStep (present exec) act s = .next t := by
  cases act with
  | writeKey x b => exact ⟨_, if_pos (Nat.lt_of_not_le h)⟩
  | writeKeylen v => exact ⟨_, rfl⟩
  | writeMsg x b => exact ⟨_, if_pos (Bool.eq_true_of_not_eq_false fun hx => h (inSpace_eq_false.1 hx))⟩
  | writeInlen v =>
    by_cases hv : inlenAccepted s.cfg v = true
    · exact ⟨_, if_pos hv⟩
    · exact ⟨_, if_neg hv⟩
  | writeOut x b =>
    obtain ⟨hv, hx⟩ := not_or.1 h
    exact ⟨_, (if_pos (Bool.eq_true_of_not_eq_false hv)).trans (if_pos (Nat.lt_of_not_le hx))⟩
  | read r => exact ⟨_, hostReadStep_offered h⟩
  | command w => exact present_next w s
  | reset => exact ⟨_, rfl⟩

/-- A host action that R59 does not offer stops the machine (log entry 9). -/
theorem hostStep_notOffered {s : State} {act : HostAction} (h : NotOffered s.cfg act) :
    ∃ a, hostStep (present exec) act s = .fault a := by
  cases act with
  | writeKey x b => exact ⟨_, if_neg (Nat.not_lt.2 h)⟩
  | writeMsg x b => exact ⟨_, if_neg (by simp [inSpace_eq_false.2 h])⟩
  | writeOut x b =>
    by_cases hv : s.cfg.HAS_VERIFY = true
    · have hx : s.cfg.OUTPUTSIZE ≤ x := h.resolve_left (by simp [hv])
      exact ⟨_, (if_pos hv).trans (if_neg (Nat.not_lt.2 hx))⟩
    · exact ⟨_, if_neg hv⟩
  | read r =>
    cases r with
    | out x => exact ⟨_, if_neg (Nat.not_lt.2 h)⟩
    | vok => exact ⟨_, if_neg (Bool.eq_false_iff.1 h)⟩
    | outvalid | mptr | phase | fault | finfo => exact h.elim
  | writeKeylen v | writeInlen v | command w | reset => exact h.elim

/-- Settles O11: the core waits, or takes an action that R59 offers (`hostStep_offered`) or not
(`hostStep_notOffered`). -/
theorem onlyHostMovesStop : Obligations.OnlyHostMovesStop := by
  intro s hw
  cases hp : s.port with
  | nil => exact .inl ⟨s, by simp [step, hw, takeAction, hp]⟩
  | cons act rest =>
    rw [step_action hw hp]
    by_cases h : NotOffered s.cfg act
    · refine .inr ⟨hostStep_notOffered h, ?_⟩
      cases act with
      | writeKey x b => exact .inl ⟨x, b, rest, rfl, h⟩
      | writeMsg x b =>
        obtain ⟨m, hm, hx⟩ := h
        exact .inr (.inl ⟨x, b, rest, m, rfl, hm, hx⟩)
      | writeOut x b => exact .inr (.inr (.inl ⟨x, b, rest, rfl, h⟩))
      | read r =>
        cases r with
        | out x => exact .inr (.inr (.inr (.inl ⟨x, rest, rfl, h⟩)))
        | vok => exact .inr (.inr (.inr (.inr ⟨rest, rfl, h⟩)))
        | outvalid | mptr | phase | fault | finfo => exact h.elim
      | writeKeylen v | writeInlen v | command w | reset => exact h.elim
    · exact .inl (hostStep_offered h)

/-! ## What each action does -/

/-- A value of INLEN within every bound of the message space is accepted (60_exceptions.md R224). -/
theorem inlenAccepted_of_le {c : Config} {v : BitVec 64} (h : ∀ m, c.MSGMAX = some m → v.toNat ≤ m) :
    inlenAccepted c v = true := by
  unfold inlenAccepted
  split
  next m hm => exact decide_eq_true (h m hm)
  next => rfl

/-- A written byte reads back and every other address keeps its byte (00_scope.md R14). -/
theorem write_readsBack (m : Memory) (a : Nat) (b : Byte) : Memory.read (Memory.write m a b) a = some b ∧
    ∀ x, x ≠ a → Memory.read (Memory.write m a b) x = Memory.read m x :=
  ⟨read_write_same m a b, fun _ => read_write_other m b⟩

/-- A byte of OUT that holds a value reads as that value. -/
theorem hostRead_out {s : State} {a : Nat} {b : Byte} (h : Memory.read s.OUT a = some b) :
    hostRead s (.out a) = some b.toNat := by
  rw [hostRead, h]
  rfl

/-- The host reads `PHASE` as its number (10_state.md R30). -/
theorem hostRead_phase {s : State} {ph : Phase} (h : s.PHASE = ph) : hostRead s .phase = some (phaseValue ph) := by
  rw [hostRead, h]

/-- The host reads `FAULT` as its code (60_exceptions.md R220). -/
theorem hostRead_fault {s : State} {f : Option FaultCode} (h : s.FAULT = f) :
    hostRead s .fault = some (faultValue f) := by
  rw [hostRead, h]

/-- What the host reads, register by register (R59). -/
theorem hostReads (s : State) : HostReads s :=
  ⟨fun _ _ => hostRead_out, congrArg some (Bool.cond_eq_ite _ _ _), rfl,
    ⟨hostRead_phase, hostRead_phase, hostRead_phase, hostRead_phase, hostRead_phase, hostRead_phase, hostRead_phase⟩,
    ⟨hostRead_fault, hostRead_fault, hostRead_fault, hostRead_fault, hostRead_fault, hostRead_fault, hostRead_fault⟩,
    rfl, congrArg some (Bool.cond_eq_ite _ _ _)⟩

/-- Settles O9: each clause is `step_action` and what that action does. -/
theorem hostActions : Obligations.HostActions := by
  intro s rest hw
  refine ⟨?writeKey, ?writeKeylen, ?writeMsg, ?writeInlen, ?writeOut, ?read, hostReads s, ?command, ?reset⟩
  case writeKey =>
    intro a b hp ha
    exact ⟨_, (step_action hw hp).trans (if_pos ha), write_readsBack s.KEY a b⟩
  case writeKeylen =>
    intro v hp
    exact step_action hw hp
  case writeMsg =>
    intro a b hp ha
    exact ⟨_, (step_action hw hp).trans (if_pos (inSpace_of_lt ha)), write_readsBack s.MSG a b⟩
  case writeInlen =>
    intro v hp hv
    exact (step_action hw hp).trans (if_pos (inlenAccepted_of_le hv))
  case writeOut =>
    intro a b hp hv ha
    exact ⟨_, (step_action hw hp).trans ((if_pos hv).trans (if_pos ha)), write_readsBack s.OUT a b⟩
  case read =>
    intro r hp hout hvok
    refine (step_action hw hp).trans (hostReadStep_offered fun hn => ?_)
    cases r with
    | out a => exact Nat.not_lt.2 hn (hout a rfl)
    | vok => exact Bool.eq_false_iff.1 hn (hvok rfl)
    | outvalid | mptr | phase | fault | finfo => exact hn
  case command =>
    intro w hp
    rw [step_action hw hp]
    exact ⟨fun i hd => present_legal hd, fun e he hf => present_illegal hf he,
      fun hf => present_faulted (s := { s with port := rest }) hf w⟩
  case reset =>
    intro hp
    exact ⟨_, step_action hw hp, resetValues s.cfg, rfl, rfl⟩

end Sys2Proof.Machine
end

section
/-! PROOFS. Which bytes a command can change (20_memory.md R51, R56, 41_data_format.md R138, R139). -/

namespace Sys2Proof.Machine

/-- Every command but PACK, HASH and VERIFY leaves every byte of OUT. -/
theorem exec_out_single {i : Instr} {s t : State} (he : exec i s = .next t) (h1 : i ≠ .hash) (h2 : i ≠ .verify)
    (h3 : ∀ fa idx, i ≠ .pack fa idx) (x : Nat) : Memory.read t.OUT x = Memory.read s.OUT x := by
  rcases exec_single_cases h1 h2 he with rfl | ⟨e, rfl⟩ | hb
  · rfl
  · rfl
  · obtain ⟨-, -, -, -, -, -, hout, -⟩ := body_frame h1 h2 hb
    exact hout x h3

/-- PACK leaves the bytes outside its slot of SUBTAGSIZE bytes (R138, R139). -/
theorem exec_pack_outside {fa : RegNo} {idx : Imm8} {s t : State} (he : exec (.pack fa idx) s = .next t) {x : Nat}
    (hx : x < idx.toNat * s.cfg.SUBTAGSIZE ∨ idx.toNat * s.cfg.SUBTAGSIZE + s.cfg.SUBTAGSIZE ≤ x) :
    Memory.read t.OUT x = Memory.read s.OUT x := by
  rcases exec_single_cases (by simp) (by simp) he with rfl | ⟨e, rfl⟩ | hb
  · rfl
  · rfl
  · obtain ⟨-, -, -, hpack, -⟩ := body_data hb
    obtain ⟨a, -, -, rfl⟩ := hpack _ _ rfl
    exact read_writeRun_outside _ _ _ _ (by rwa [hook_packBytes_length])

/-- VERIFY leaves OUT as it was, or executes and ends in a fault, with OUT as that fault entry leaves it
(43_hash_engine.md R205, log entry 22). -/
theorem exec_verify_out {s t : State} (he : exec .verify s = .next t) :
    t.OUT = s.OUT ∨ t.OUT = verifyFaultOut s.OUT ∧ Ready .verify s ∧ t.FAULT ≠ none := by
  rcases exec_cases .verify s with ⟨-, h⟩ | ⟨-, -, h⟩ | ⟨-, u, hb, h⟩ | ⟨hr, e, -, h⟩ <;>
    rw [h] at he <;> cases he
  · exact .inl rfl
  · exact .inl rfl
  · obtain ⟨cand, tag, -, -, -, rfl⟩ := (body_engine hb).2 rfl
    exact .inl rfl
  · refine .inr ⟨?_, hr, by simp [raiseFault_code hr.1]⟩
    rw [raiseFault, hr.1]
    rfl

/-- VERIFY is legal only with HAS_VERIFY (30_encoding.md R76). -/
theorem hasVerify_of_ready {s : State} (h : Ready .verify s) : s.cfg.HAS_VERIFY = true := by
  by_contra hv
  simpa [Instr.check, hv] using wf_iff_check.1 h.2

/-- HASH without a fault leaves the bytes of OUT from OUTPUTSIZE up (43_hash_engine.md R175). -/
theorem exec_hash_outside {s t : State} (hw : s.cfg.wf = true) (he : exec .hash s = .next t) (hf : t.FAULT = none)
    {x : Nat} (hx : s.cfg.OUTPUTSIZE ≤ x) : Memory.read t.OUT x = Memory.read s.OUT x := by
  rcases exec_cases .hash s with ⟨-, h⟩ | ⟨-, -, h⟩ | ⟨-, u, hb, h⟩ | ⟨⟨hn, -⟩, e, -, h⟩ <;>
    rw [h] at he <;> cases he
  · rfl
  · rfl
  · obtain ⟨tag, ht, rfl⟩ := (body_engine hb).1 rfl
    exact read_writeRun_outside _ _ _ _ (.inr (by rwa [Nat.zero_add, tagBytes_length hw ht]))
  · rw [raiseFault_code hn] at hf
    cases hf

/-- Settles O57: KEY and MSG by `exec_inputs`, OUT by the frame of each kind of command. -/
theorem byteFrame : Obligations.ByteFrame := by
  intro i s t he
  obtain ⟨-, hkey, -, hmsg, -⟩ := exec_inputs he
  refine ⟨fun x => by rw [hkey], fun x => by rw [hmsg], ?kept, ?verify, ?pack, ?hash⟩
  case kept =>
    intro h1 h3 hnofault x
    by_cases h2 : i = .verify
    · subst h2
      rcases exec_verify_out he with hout | ⟨-, hr, hf⟩
      · rw [hout]
      · exact absurd (hnofault rfl (hasVerify_of_ready hr) hr.1) hf
    · exact exec_out_single he h1 h2 h3 x
  case verify =>
    rintro rfl
    rcases exec_verify_out he with hout | ⟨hout, -⟩
    · exact .inl fun x => by rw [hout]
    · rcases verifyFaultOut_cases s.OUT with hkeep | hlost
      · exact .inl fun x => by rw [hout, hkeep]
      · exact .inr fun x => by rw [hout, hlost]; rfl
  case pack =>
    rintro fa idx rfl x hx
    exact exec_pack_outside he hx
  case hash =>
    rintro rfl hw hf x hx
    exact exec_hash_outside hw he hf hx

end Sys2Proof.Machine
end

section
/-! PROOFS. A command depends only on the bytes of KEY and MSG it may read (20_memory.md R51, R55, R56, R66). -/

namespace Sys2Proof.Machine

/-- With other bytes where the command does not read, it does the same and leaves those bytes: refused, illegal,
answered or faulted, the outcome is that of the first state over the other spaces. -/
theorem exec_swap {i : Instr} {s t : State} {K M : Memory} (hw : s.cfg.wf = true)
    (h : ∀ x ∈ i.reads s.cfg s.INLEN.toNat s.MPTR.toNat,
      ({ s with KEY := K, MSG := M } : State).byteAt x = s.byteAt x) (he : exec i s = .next t) :
    exec i (swapInputs K M s) = .next (swapInputs K M t) := by
  have hbody := body_swap hw h
  rcases exec_cases i s with ⟨hf, h'⟩ | ⟨hf, hi, h'⟩ | ⟨hr, u, hb, h'⟩ | ⟨hr, e, hb, h'⟩ <;>
    rw [h'] at he <;> cases he
  · exact exec_faulted i (swapInputs K M s) hf
  · exact exec_illegal i (swapInputs K M s) hf hi
  · rw [hb] at hbody
    exact exec_ok hr hbody
  · rw [hb] at hbody
    rw [← raiseFault_swap]
    exact exec_error hr hbody

/-- Settles O59: the two results are one state over two pairs of KEY and MSG. -/
theorem readsOnlyItsBytes : Obligations.ReadsOnlyItsBytes := by
  intro i s K M hw h
  obtain ⟨t, ht⟩ := exec_next i s
  have hswap : exec i { s with KEY := K, MSG := M } = .next (swapInputs K M t) := exec_swap hw h ht
  rw [ht, hswap]
  exact sameResult_swap K M t

end Sys2Proof.Machine
end

section
/-! PROOFS. The decoder is the inverse of the encoder, and it follows the rows of the opcode table (30_encoding.md R71
to R75). -/

namespace Sys2Proof

/-! ## Decoding an encoded command -/

/-- The table gives each command from its own opcode and fields, row by row (R74). -/
theorem decodeRow_fields (i : Instr) : decodeRow i.opcode i.fields.1 i.fields.2.1 i.fields.2.2 = .ok i := by
  cases i <;> rfl

/-- The fields of an encoded command are its opcode and operands (R71). -/
theorem fields_encode (i : Instr) : fieldOp (encode i) = i.opcode ∧ fieldA (encode i) = i.fields.1 ∧
    fieldB (encode i) = i.fields.2.1 ∧ fieldC (encode i) = i.fields.2.2 :=
  field_assemble _ _ _ _

theorem decode_encode (i : Instr) : decode (encode i) = .ok i := by
  obtain ⟨hop, ha, hb, hc⟩ := fields_encode i
  rw [decode, hop, ha, hb, hc, decodeRow_fields]

/-- The words that decode are the encodings, one for each command. -/
theorem decode_eq_ok {w : Word} {i : Instr} : decode w = .ok i ↔ encode i = w :=
  ⟨encode_of_decode, fun h => h ▸ decode_encode i⟩

/-- Settles O1, from `decode_encode`: the decoder of a configuration adds its ranges alone. -/
theorem decodeEncodeAgree : Obligations.DecodeEncodeAgree := fun c i =>
  ⟨decode_encode i, by rw [decodeFor_eq_ok, and_iff_right (decode_encode i)]⟩

/-! ## A word and the fields of a command -/

/-- A word is a command's encoding when its fields are the command's (R71). -/
theorem encode_eq_iff {w : Word} {i : Instr} : encode i = w ↔ fieldOp w = i.opcode ∧ fieldA w = i.fields.1 ∧
    fieldB w = i.fields.2.1 ∧ fieldC w = i.fields.2.2 := by
  constructor
  · rintro rfl
    exact fields_encode i
  · rintro ⟨hop, ha, hb, hc⟩
    rw [encode, ← hop, ← ha, ← hb, ← hc, assemble_fields]

/-- A field that the format does not use is 0 (R72). -/
theorem unusedFields_zero (i : Instr) : (i.usedFields.1 = false → i.fields.1 = 0) ∧
    (i.usedFields.2.1 = false → i.fields.2.1 = 0) ∧ (i.usedFields.2.2 = false → i.fields.2.2 = 0) := by
  cases i <;> simp [Instr.usedFields, Instr.fields]

/-- With an unused field 0 in the command, the two cases of the decoder's check are one equation. -/
theorem usedField_iff {used : Bool} {x f : BitVec 8} (h : used = false → f = 0) :
    (if used then x = f else x = 0) ↔ x = f := by
  cases used with
  | true => simp
  | false => simp [h rfl]

/-! ## The ranges (R73) -/

theorem registersThen_eq_none {ok : Bool} {rest : Option Illegal} :
    registersThen ok rest = none ↔ ok = true ∧ rest = none := by
  cases ok <;> simp [registersThen]

theorem inFile_iff {i : RegNo} {size : Nat} : i.inFile size = true ↔ i.toNat < size :=
  decide_eq_true_iff

theorem slotCheck_eq_none {c : Config} {idx : Imm8} : slotCheck c idx = none ↔ idx.toNat < c.NTAGS := by
  simp [slotCheck]

/-- A count is legal when it is not 0 and its last register is of the file. -/
theorem countCheck_eq_none {c : Config} {a : RegNo} {n : Imm8} :
    countCheck c a n = none ↔ 1 ≤ n.toNat ∧ a.toNat + n.toNat - 1 < c.NF := by
  rw [countCheck, ite_eq_left_iff]
  simp only [reduceCtorEq, imp_false, not_not]
  omega

/-- A command is legal exactly when its operands are in the ranges of R73, format by format. -/
theorem wf_iff_operandsInRange {c : Config} (i : Instr) : i.wf c = true ↔ i.OperandsInRange c := by
  rw [Machine.wf_iff_check]
  cases i with
  | mrst | hash | verify => simp [Instr.check, Instr.OperandsInRange]
  | _ => simp [Instr.check, Instr.OperandsInRange, registersThen_eq_none, inFile_iff, slotCheck_eq_none,
      countCheck_eq_none, and_assoc]

/-- The ranges depend on NF, NW, NP, NTAGS and HAS_VERIFY alone (R75). -/
theorem check_congr {c d : Config} (hF : c.NF = d.NF) (hW : c.NW = d.NW) (hP : c.NP = d.NP)
    (hT : c.NTAGS = d.NTAGS) (hV : c.HAS_VERIFY = d.HAS_VERIFY) (i : Instr) : i.check c = i.check d := by
  have hslot : slotCheck c = slotCheck d := by
    funext idx
    rw [slotCheck, slotCheck, hT]
  have hcount : countCheck c = countCheck d := by
    funext a n
    rw [countCheck, countCheck, hF]
  cases i <;> simp only [Instr.check, hF, hW, hP, hV, hslot, hcount]

theorem decodeFor_congr {c d : Config} (h : ∀ i : Instr, i.check c = i.check d) (w : Word) :
    decodeFor c w = decodeFor d w := by
  cases hd : decode w with
  | error e => simp only [decodeFor, hd]
  | ok i => simp only [decodeFor, hd, h i]

/-! ## Mask and match (R75) -/

/-- The opcode names the row, and the row says which fields are used (R72, R74). -/
theorem usedFields_of_opcode {i j : Instr} (h : i.opcode = j.opcode) : i.usedFields = j.usedFields := by
  have row : ∀ k : Instr, (decodeRow k.opcode 0 0 0).map Instr.usedFields = .ok k.usedFields := by
    intro k
    cases k <;> rfl
  exact Except.ok.inj ((row i).symm.trans (h ▸ row j))

/-- A field that a mask fixes at 0 is 0. -/
theorem and_fixedBits_eq_zero {used : Bool} {x : BitVec 8} : x &&& fixedBits used = 0 ↔ (used = false → x = 0) := by
  cases used with
  | true => simp [fixedBits]
  | false =>
    have hall : x &&& fixedBits false = x := BitVec.and_allOnes
    simp [hall]

/-- A word matches a row when it has the row's opcode and every unused field is 0. -/
theorem matches_iff {w : Word} {j : Instr} : w &&& j.mask = j.matchBits ↔ fieldOp w = j.opcode ∧
    (j.usedFields.1 = false → fieldA w = 0) ∧ (j.usedFields.2.1 = false → fieldB w = 0) ∧
    (j.usedFields.2.2 = false → fieldC w = 0) := by
  rw [Instr.mask, and_assemble, Instr.matchBits, assemble_inj, and_fixedBits_eq_zero, and_fixedBits_eq_zero,
    and_fixedBits_eq_zero, show fieldOp w &&& 0xFF = fieldOp w from BitVec.and_allOnes]

/-- The row of an opcode accepts any operands, once its unused fields are 0. -/
theorem decodeRow_of_unused (j : Instr) {a b c : BitVec 8} (ha : j.usedFields.1 = false → a = 0)
    (hb : j.usedFields.2.1 = false → b = 0) (hc : j.usedFields.2.2 = false → c = 0) :
    ∃ i, decodeRow j.opcode a b c = .ok i ∧ i.opcode = j.opcode := by
  cases j with
  | add | addw | mul | mulp | dpow | dpow2 => exact ⟨_, rfl, rfl⟩
  | sqr | precomp | carry | reduce =>
    obtain rfl := hc rfl
    exact ⟨_, rfl, rfl⟩
  | unpack | pack | dkey =>
    obtain rfl := hb rfl
    exact ⟨_, rfl, rfl⟩
  | zero | zerow | encb | encl =>
    obtain rfl := hb rfl
    obtain rfl := hc rfl
    exact ⟨_, rfl, rfl⟩
  | mrst | hash | verify =>
    obtain rfl := ha rfl
    obtain rfl := hb rfl
    obtain rfl := hc rfl
    exact ⟨_, rfl, rfl⟩

/-- A word matches a row exactly when the decoder reads that row's command from it (R75). -/
theorem matches_iff_decode {w : Word} {j : Instr} :
    w &&& j.mask = j.matchBits ↔ ∃ i, decode w = .ok i ∧ i.opcode = j.opcode := by
  rw [matches_iff]
  constructor
  · rintro ⟨hop, ha, hb, hc⟩
    rw [decode, hop]
    exact decodeRow_of_unused j ha hb hc
  · rintro ⟨i, hd, hij⟩
    obtain ⟨hop, ha, hb, hc⟩ := encode_eq_iff.1 (decode_eq_ok.1 hd)
    rw [← usedFields_of_opcode hij, hop, ha, hb, hc]
    exact ⟨hij, unusedFields_zero i⟩

/-- Settles O2: the decoder reads the encodings (`decode_eq_ok`) of the commands in range (`wf_iff_operandsInRange`),
and a mask acts field by field (`matches_iff_decode`). -/
theorem decoderFollowsRows : Obligations.DecoderFollowsRows := by
  refine ⟨?fields, fun c => wf_iff_operandsInRange, ?config, ?total, ?mask, fun w j => matches_iff_decode⟩
  case fields =>
    intro c w i
    obtain ⟨ha, hb, hc⟩ := unusedFields_zero i
    rw [decodeFor_eq_ok, decode_eq_ok, encode_eq_iff, wf_iff_operandsInRange, usedField_iff ha, usedField_iff hb,
      usedField_iff hc, and_assoc, and_assoc, and_assoc]
  case config =>
    intro c d w hF hW hP hT hV
    exact decodeFor_congr (check_congr hF hW hP hT hV) w
  case total =>
    intro c w
    cases decodeFor c w with
    | ok i => exact .inl ⟨i, rfl, fun j hj => (Except.ok.inj hj).symm⟩
    | error e => exact .inr ⟨e, rfl⟩
  case mask =>
    intro i
    obtain ⟨hop, ha, hb, hc⟩ := field_assemble 0xFF (fixedBits i.usedFields.1) (fixedBits i.usedFields.2.1)
      (fixedBits i.usedFields.2.2)
    exact ⟨hop, ha, hb, hc, rfl⟩

end Sys2Proof
end

section
/-! PROOFS. A presented word: legal words run their command, illegal words fault (30_encoding.md R70, R76 to R78,
60_exceptions.md R221). -/

namespace Sys2Proof.Machine

/-- Opcode 0x21 is VERIFY's alone (R74). -/
theorem opcode_eq_verify {i : Instr} : i.opcode = 0x21 ↔ i = .verify := by
  cases i <;> simp [Instr.opcode]

/-- A legal command is a word with none of the causes of R78. -/
theorem not_illegalWord_of_decodeFor {c : Config} {w : Word} {i : Instr} (h : decodeFor c w = .ok i) :
    ¬ IllegalWord c w := by
  obtain ⟨hd, hwf⟩ := decodeFor_eq_ok.1 h
  have henc := decode_eq_ok.1 hd
  have hrange := (wf_iff_operandsInRange i).1 hwf
  obtain ⟨hop, -⟩ := encode_eq_iff.1 henc
  rintro (hmap | ⟨h21, hv⟩ | ⟨j, hj, hmask⟩ | ⟨j, hj, -, hout⟩)
  · exact hmap i hop
  · obtain rfl := opcode_eq_verify.1 (hop.symm.trans h21)
    exact Bool.eq_false_iff.1 hv hrange
  · exact hmask (matches_iff_decode.2 ⟨i, hd, hop.symm.trans hj⟩)
  · have hji : decode w = .ok j := decode_eq_ok.2 hj
    obtain rfl : i = j := Except.ok.inj (hd.symm.trans hji)
    exact hout hrange

/-- A word with none of the causes of R78 is a legal command: its row reads it, and its operands are in range. -/
theorem decodeFor_of_not_illegalWord {c : Config} {w : Word} (h : ¬ IllegalWord c w) : ∃ i, decodeFor c w = .ok i := by
  obtain ⟨hmap, hverify, hunused, hout⟩ : (∃ i : Instr, fieldOp w = i.opcode) ∧
      (fieldOp w = 0x21 → c.HAS_VERIFY = true) ∧ (∀ i : Instr, fieldOp w = i.opcode → w &&& i.mask = i.matchBits) ∧
      ∀ i : Instr, encode i = w → i ≠ .verify → i.OperandsInRange c := by
    simpa [IllegalWord] using h
  obtain ⟨j, hj⟩ := hmap
  obtain ⟨i, hd, -⟩ := matches_iff_decode.1 (hunused j hj)
  have henc := decode_eq_ok.1 hd
  refine ⟨i, decodeFor_eq_ok.2 ⟨hd, (wf_iff_operandsInRange i).2 ?_⟩⟩
  by_cases hi : i = .verify
  · subst hi
    exact hverify (encode_eq_iff.1 henc).1
  · exact hout i henc hi

/-- Settles O3: the causes of R78 are exactly what makes the decoder reject a word. -/
theorem illegalWordsFault : Obligations.IllegalWordsFault := by
  intro s w hf
  constructor
  · intro h
    cases hd : decodeFor s.cfg w with
    | ok i => exact absurd h (not_illegalWord_of_decodeFor hd)
    | error e => exact present_illegal hf hd
  · intro h
    obtain ⟨i, hi⟩ := decodeFor_of_not_illegalWord h
    obtain ⟨hd, hwf⟩ := decodeFor_eq_ok.1 hi
    exact ⟨i, decode_eq_ok.1 hd, (wf_iff_operandsInRange i).1 hwf, present_legal hi⟩

/-- Settles O4: twelve closed words, each decoded. -/
theorem wordsOfTheSpec : Obligations.WordsOfTheSpec := by
  unfold Obligations.WordsOfTheSpec
  decide

/-- A presented encoding runs its command, legal or not: `exec` checks the operands itself. -/
theorem present_encode (run : Instr → State → Out) (i : Instr) (s : State) : present run (encode i) s = run i s := by
  simp only [present, decode_encode]

/-- The next word of `withFetchWord` is the word's own 32 bits. -/
theorem withFetchWord_port (s : State) (w : Word) : (s.withFetchWord 32 w.toNat).port = .command w :: s.port := by
  rw [State.withFetchWord, placeCommand_port, Nat.mod_eq_of_lt w.isLt, BitVec.ofNat_toNat, BitVec.setWidth_eq]

/-- Settles O5: a step takes the command off the port and presents it. -/
theorem stepRunsDecodedCommand : Obligations.StepRunsDecodedCommand := by
  refine ⟨?decoded, ?placed, ?waits⟩
  case decoded =>
    intro s w rest i hw hp hd
    exact (step_action hw hp).trans (present_legal (s := { s with port := rest }) hd)
  case placed =>
    intro s i hw
    exact (step_action (s := s.withFetchWord 32 (encode i).toNat) hw (withFetchWord_port s (encode i))).trans
      (present_encode exec i s)
  case waits =>
    intro s hw hp
    simp [step, hw, takeAction, hp]

end Sys2Proof.Machine
end

section
/-! PROOFS. The pseudo-commands (30_encoding.md R80): the values of ADD, MUL and CARRY, and HSTEP made of them. -/

namespace Sys2Proof.Machine

/-! ## Registers just written -/

/-- A narrow register reads as what was last written to it. -/
theorem holdsF_writeF {s : State} {i : RegNo} {v x : Limbs} (h : HoldsF (writeF s i v) i x) : x = v := by
  have hi : i.toNat < s.F.length := by simpa using List.getElem?_eq_some_iff.1 h |>.1
  exact register_unique h (writeF_holds s i v hi)

/-- A wide register reads as what was last written to it. -/
theorem holdsW_writeW {s : State} {i : RegNo} {v x : Limbs} (h : HoldsW (writeW s i v) i x) : x = v := by
  have hi : i.toNat < s.Wd.length := by simpa using List.getElem?_eq_some_iff.1 h |>.1
  exact register_unique h (writeW_holds s i v hi)

/-- Another narrow register keeps its limbs. -/
theorem holdsF_writeF_of_ne {s : State} {i j : RegNo} {v x : Limbs} (hij : i ≠ j) (h : HoldsF s j x) :
    HoldsF (writeF s i v) j x := by
  rw [HoldsF, writeF_other s i v j.toNat fun hj => hij (BitVec.eq_of_toNat_eq hj.symm)]
  exact h

/-! ## One command -/

/-- ADD without a fault writes the sum (40_field_arith.md R92). -/
theorem body_add {s u : State} {fd fa fb : RegNo} {a b : Limbs} (ha : HoldsF s fa a) (hb : HoldsF s fb b)
    (h : body s (.add fd fa fb) = .ok u) : u = writeF s fd (sumLimbs a b) := by
  obtain ⟨hadd, -⟩ := body_narrow h
  obtain ⟨x, y, hx, hy, -, rfl⟩ := hadd _ _ _ rfl
  rw [register_unique hx ha, register_unique hy hb]

/-- MUL without a fault writes the product, modulo p (R95). -/
theorem body_mul_val {s u : State} {wd fa fb : RegNo} {a : Limbs} (hs : s.Inv) (ha : HoldsF s fa a)
    (h : body s (.mul wd fa fb) = .ok u) : ∃ b w, HoldsF s fb b ∧ u = writeW s wd w ∧
      s.cfg.val w % s.cfg.p = s.cfg.val a * s.cfg.val b % s.cfg.p := by
  obtain ⟨-, hmul, -⟩ := body_wide h
  obtain ⟨x, b, w, hx, hb, hw, rfl⟩ := hmul _ _ _ rfl
  obtain rfl := register_unique hx ha
  obtain ⟨-, rfl, -⟩ := mulLimbs_eq_ok.1 hw
  exact ⟨b, _, hb, rfl, val_mulcore (wfFacts hs.cfgWf) (narrow_length (holdsF_narrow hs ha))
    (narrow_length (holdsF_narrow hs hb))⟩

/-- CARRY without a fault keeps the value, modulo p (R101). -/
theorem body_carry_val {s u : State} {fd wa : RegNo} (hs : s.Inv) (hr : Ready (.carry fd wa) s)
    (h : body s (.carry fd wa) = .ok u) : ∃ w z, HoldsW s wa w ∧ HoldsF u fd z ∧
      s.cfg.val z % s.cfg.p = s.cfg.val w % s.cfg.p := by
  obtain ⟨-, hcarry, -⟩ := body_narrow h
  obtain ⟨w, z, hw, hz, rfl⟩ := hcarry _ _ rfl
  obtain ⟨hfd, -⟩ := (wf_iff_operandsInRange _).1 hr.2
  exact ⟨w, z, hw, writeF_holds s fd z (by rwa [hs.sizes.1]),
    val_carryLimbs (wfFacts hs.cfgWf) (wide_length (holdsW_wide hs hw)) hz⟩

/-! ## HSTEP -/

/-- HSTEP multiplies the sum by what `Fk` holds after the ADD. -/
theorem hstepCommands_val {s t : State} {facc fm fk wt : RegNo} {acc m : Limbs} (hs : s.Inv) (hacc : HoldsF s facc acc)
    (hm : HoldsF s fm m) (h : runCommands (hstepCommands facc fm fk wt) s = .next t) (hf : t.FAULT = none) :
    ∃ k z, HoldsF (writeF s facc (sumLimbs acc m)) fk k ∧ HoldsF t facc z ∧
      s.cfg.val z % s.cfg.p = s.cfg.val (sumLimbs acc m) * s.cfg.val k % s.cfg.p := by
  obtain ⟨u, hadd, hbody, -, -, h⟩ := runCommands_step h hf
  have hu := body_inv hs hadd hbody
  obtain rfl := body_add hacc hm hbody
  have hsum : HoldsF (writeF s facc (sumLimbs acc m)) facc (sumLimbs acc m) :=
    writeF_holds s facc _ (List.getElem?_eq_some_iff.1 hacc).1
  obtain ⟨v, hmul, hbody, -, -, h⟩ := runCommands_step h hf
  have hv := body_inv hu hmul hbody
  obtain ⟨k, w, hk, rfl, hval⟩ := body_mul_val hu hsum hbody
  obtain ⟨_, hcarry, hbody, -, -, h⟩ := runCommands_step h hf
  cases h
  obtain ⟨w', z, hw', hz, hval'⟩ := body_carry_val hv hcarry hbody
  obtain rfl := holdsW_writeW hw'
  exact ⟨k, z, hk, hz, hval'.trans hval⟩

/-- Two stored vectors add limb by limb, so their values add (40_field_arith.md R92). -/
theorem val_sum_of_holdsF {s : State} {i j : RegNo} {a b : Limbs} (hs : s.Inv) (ha : HoldsF s i a)
    (hb : HoldsF s j b) : s.cfg.val (sumLimbs a b) = s.cfg.val a + s.cfg.val b :=
  val_sumLimbs _ _ _ ((narrow_length (holdsF_narrow hs ha)).trans (narrow_length (holdsF_narrow hs hb)).symm)

/-- Settles O32: `Fk` keeps its limbs over the ADD unless it is `Facc`, which holds the sum. -/
theorem pseudoCommands : Obligations.PseudoCommands := by
  refine ⟨fun _ _ _ _ => rfl, fun _ _ _ _ => rfl, ?distinct, ?same⟩
  case distinct =>
    intro s t facc fm fk wt acc m k hs hne hacc hm hk h hf
    obtain ⟨k', z, hk', hz, hval⟩ := hstepCommands_val hs hacc hm h hf
    obtain rfl := register_unique hk' (holdsF_writeF_of_ne hne hk)
    exact ⟨z, hz, by rw [hval, val_sum_of_holdsF hs hacc hm]⟩
  case same =>
    intro s t facc fm wt acc m hs hacc hm h hf
    obtain ⟨k, z, hk, hz, hval⟩ := hstepCommands_val hs hacc hm h hf
    obtain rfl := holdsF_writeF hk
    exact ⟨z, hz, by rw [hval, val_sum_of_holdsF hs hacc hm]⟩

end Sys2Proof.Machine
end

section
/-! PROOFS. A command that computes a vector, checks it, and only then writes (40_field_arith.md R90); the adder (R92,
R93), and ZERO and ZEROW (R109, R110). -/

namespace Sys2Proof.Machine

/-! ## Compute, check, write (R90) -/

/-- A ready single-operation command whose body ends in one computation writes what that answers, or enters its fault
and writes nothing. -/
theorem exec_compute {α : Type} {i : Instr} {s : State} {x : Except FaultCode α} {f : α → State} (hr : Ready i s)
    (hk : commandKind i = .single) (hb : body s i = x >>= fun v => .ok (f v)) :
    (∀ v, x = .ok v → exec i s = .next (f v)) ∧
      ∀ e, x = .error e → exec i s = .next (faultedState s e (encode i)) := by
  constructor
  · rintro v rfl
    exact exec_ok hr hb
  · rintro e rfl
    exact exec_error_single hr hk hb

/-- With a storage check for its computation: the checked vector, or `E_OVERFLOW` (00_scope.md R16). -/
theorem exec_mustFit {i : Instr} {s : State} {width : Nat} {x : Limbs} {f : Limbs → State} (hr : Ready i s)
    (hk : commandKind i = .single) (hb : body s i = mustFit width x >>= fun v => .ok (f v)) :
    (fits width x = true → exec i s = .next (f x)) ∧
      (fits width x = false → exec i s = .next (faultedState s .overflow (encode i))) := by
  obtain ⟨hok, herror⟩ := exec_compute hr hk hb
  exact ⟨fun h => hok x (mustFit_eq_ok.2 ⟨h, rfl⟩), fun h => herror .overflow (mustFit_eq_error.2 ⟨h, rfl⟩)⟩

/-! ## ADD and ADDW -/

theorem body_add_of_holds {s : State} {fd fa fb : RegNo} {a b : Limbs} (ha : HoldsF s fa a) (hb : HoldsF s fb b) :
    body s (.add fd fa fb) = mustFit s.cfg.W (sumLimbs a b) >>= fun v => .ok (writeF s fd v) := by
  rw [body, readF_holds ha, ok_bind, readF_holds hb, ok_bind]
  rfl

theorem body_addw_of_holds {s : State} {wd wa wb : RegNo} {a b : Limbs} (ha : HoldsW s wa a) (hb : HoldsW s wb b) :
    body s (.addw wd wa wb) = mustFit (2 * s.cfg.W) (sumLimbs a b) >>= fun v => .ok (writeW s wd v) := by
  rw [body, readW_holds ha, ok_bind, readW_holds hb, ok_bind]
  rfl

/-- A limb sum of `2^width` or more fails the storage check of the sum (R92, R93). -/
theorem sumLimbs_not_fits {a b : Limbs} {n width : Nat} (ha : a.length = n) (hb : b.length = n)
    (h : ∃ i, i < n ∧ 2 ^ width ≤ a.getD i 0 + b.getD i 0) : fits width (sumLimbs a b) = false := by
  obtain ⟨i, hi, hle⟩ := h
  exact Bool.eq_false_iff.2 fun hfits => Nat.not_lt.2 hle ((sumLimbs_fits_iff ha hb).1 hfits i hi)

/-- The sum of two vectors of N limbs: its length, its limbs, its value (R92, R93). -/
theorem sumLimbs_spec {c : Config} {a b : Limbs} (ha : a.length = c.N) (hb : b.length = c.N) :
    (sumLimbs a b).length = c.N ∧ (∀ i, i < c.N → (sumLimbs a b).getD i 0 = a.getD i 0 + b.getD i 0) ∧
      c.val (sumLimbs a b) = c.val a + c.val b :=
  ⟨by rw [sumLimbs_length, ha, hb, Nat.min_self], fun _ => sumLimbs_getD ha hb, val_sumLimbs c a b (ha.trans hb.symm)⟩

/-- A command that checks and writes a sum: the sum of the limbs, or `E_OVERFLOW` (R92, R93). -/
theorem exec_sum {i : Instr} {s : State} {width : Nat} {a b : Limbs} {f : Limbs → State} (hr : Ready i s)
    (hk : commandKind i = .single) (hbody : body s i = mustFit width (sumLimbs a b) >>= fun v => .ok (f v))
    (ha : a.length = s.cfg.N) (hb : b.length = s.cfg.N) :
    ((∀ j, j < s.cfg.N → a.getD j 0 + b.getD j 0 < 2 ^ width) →
      ∃ v, exec i s = .next (f v) ∧ v.length = s.cfg.N ∧
        (∀ j, j < s.cfg.N → v.getD j 0 = a.getD j 0 + b.getD j 0) ∧ s.cfg.val v = s.cfg.val a + s.cfg.val b) ∧
    ((∃ j, j < s.cfg.N ∧ 2 ^ width ≤ a.getD j 0 + b.getD j 0) →
      exec i s = .next (faultedState s .overflow (encode i))) := by
  obtain ⟨hok, hoverflow⟩ := exec_mustFit hr hk hbody
  exact ⟨fun h => ⟨_, hok ((sumLimbs_fits_iff ha hb).2 h), sumLimbs_spec ha hb⟩,
    fun h => hoverflow (sumLimbs_not_fits ha hb h)⟩

/-- Settles O19: the body is the storage check of the sum (`body_add_of_holds`). -/
theorem addResult : Obligations.AddResult :=
  ⟨fun _ _ _ => rfl, fun s fd fa fb hr h => unwrittenSourceFaults (.add fd fa fb) s hr h,
    fun _ _ _ _ _ _ hr ha hb => exec_sum hr rfl (body_add_of_holds ha hb)⟩

/-- Settles O20: as ADD, on wide registers with the check at 2W (`body_addw_of_holds`). -/
theorem addwResult : Obligations.AddwResult :=
  ⟨fun _ _ _ => rfl, fun s wd wa wb hr h => unwrittenSourceFaults (.addw wd wa wb) s hr h,
    fun _ _ _ _ _ _ hr ha hb => exec_sum hr rfl (body_addw_of_holds ha hb)⟩

/-! ## ZERO and ZEROW -/

/-- The zero vector is the split of 0 (R109, 41_data_format.md R130). -/
theorem splitInt_zero (c : Config) : splitInt c 0 = c.zeros := by
  simp [splitInt, Config.zeros]

theorem zeros_reduced {c : Config} (h : WfFacts c) : c.reduced c.zeros = true := by
  rw [← splitInt_zero]
  exact splitInt_reduced h (by positivity)

/-- Settles O33, from `zeros_reduced` and `val_zeros`. -/
theorem zeroResult : Obligations.ZeroResult :=
  ⟨fun _ => ⟨rfl, rfl⟩, fun s _ hr => ⟨exec_ok hr rfl, fun hw => ⟨zeros_reduced (wfFacts hw), val_zeros s.cfg⟩⟩,
    fun _ _ hr => exec_ok hr rfl⟩

end Sys2Proof.Machine
end

section
/-! PROOFS. The multiplier: MUL, SQR, PRECOMP and MULP (40_field_arith.md R94 to R99). -/

namespace Sys2Proof.Machine

/-! ## MUL (R95) -/

theorem body_mul_of_holds {s : State} {wd fa fb : RegNo} {a b : Limbs} (ha : HoldsF s fa a) (hb : HoldsF s fb b) :
    body s (.mul wd fa fb) = mulLimbs s.cfg a b >>= fun w => .ok (writeW s wd w) := by
  rw [body, readF_holds ha, ok_bind, readF_holds hb, ok_bind]
  rfl

/-- MUL passes both checks when the scaled limbs and the limbs of the double sum of R94 fit. -/
theorem mulLimbs_ok_of_limbs {c : Config} {a b : Limbs} (hb : b.length = c.N)
    (hscaled : ∀ j, 1 ≤ j → j < c.N → c.fold * b.getD j 0 < 2 ^ c.W)
    (hproduct : ∀ k, k < c.N → productLimb c a b k < 2 ^ (2 * c.W)) :
    mulLimbs c a b = .ok (mulcore c.N a b (scaledLimbs c b)) :=
  mulLimbs_eq_ok.2 ⟨(scaledLimbs_fits_iff hb).2 hscaled, rfl, mulcore_fits_iff.2 hproduct⟩

/-- MUL that does not answer its product is `E_OVERFLOW`. -/
theorem mulLimbs_eq_overflow {c : Config} {a b : Limbs} (h : ∀ w, mulLimbs c a b ≠ .ok w) :
    mulLimbs c a b = .error .overflow := by
  cases hm : mulLimbs c a b with
  | ok w => exact absurd hm (h w)
  | error e => rw [mulLimbs_error hm]

/-- MUL fails when a scaled limb or a limb of the double sum does not fit. -/
theorem mulLimbs_overflow_of_limbs {c : Config} {a b : Limbs} (hb : b.length = c.N)
    (h : (∃ j, 1 ≤ j ∧ j < c.N ∧ 2 ^ c.W ≤ c.fold * b.getD j 0) ∨
      ∃ k, k < c.N ∧ 2 ^ (2 * c.W) ≤ productLimb c a b k) : mulLimbs c a b = .error .overflow := by
  refine mulLimbs_eq_overflow fun w hw => ?_
  obtain ⟨hscaled, rfl, hproduct⟩ := mulLimbs_eq_ok.1 hw
  rcases h with ⟨j, h1, hj, hle⟩ | ⟨k, hk, hle⟩
  · exact Nat.not_lt.2 hle ((scaledLimbs_fits_iff hb).1 hscaled j h1 hj)
  · exact Nat.not_lt.2 hle (mulcore_fits_iff.1 hproduct k hk)

/-- Settles O21: the body is `mulLimbs`, and its limbs and value are `mulcore_productLimb`, `mul_exact` and
`val_mulcore`. -/
theorem mulResult : Obligations.MulResult := by
  refine ⟨fun _ _ _ => rfl, fun s wd fa fb hr h => unwrittenSourceFaults (.mul wd fa fb) s hr h, ?_⟩
  intro s wd fa fb a b hw hr ha hb hal hbl
  have hwf := wfFacts hw
  obtain ⟨hok, herror⟩ := exec_compute hr rfl (body_mul_of_holds ha hb)
  refine ⟨fun hscaled hproduct => ?_, fun h => herror _ (mulLimbs_overflow_of_limbs hbl h),
    productLimb_symm s.cfg a b⟩
  exact ⟨_, hok _ (mulLimbs_ok_of_limbs hbl hscaled hproduct), mulcore_length _ _ _ _,
    fun _ => mulcore_productLimb, mul_exact hwf hal hbl, val_mulcore hwf hal hbl⟩

/-! ## SQR (R96) -/

/-- SQR runs the body of MUL with both sources the same. -/
theorem body_sqr_eq_mul (s : State) (wd fa : RegNo) : body s (.sqr wd fa) = body s (.mul wd fa fa) := by
  rw [body, body]
  cases readF s fa <;> rfl

/-- SQR without a fault writes the square, modulo p. -/
theorem body_sqr_val {s t : State} {wd fa : RegNo} (h : body s (.sqr wd fa) = .ok t) :
    ∃ a w, HoldsF s fa a ∧ t = writeW s wd w ∧
      (s.cfg.wf = true → a.length = s.cfg.N → s.cfg.val w % s.cfg.p = s.cfg.val a ^ 2 % s.cfg.p) := by
  obtain ⟨-, -, hsqr, -⟩ := body_wide h
  obtain ⟨a, w, ha, hm, rfl⟩ := hsqr _ _ rfl
  obtain ⟨-, rfl, -⟩ := mulLimbs_eq_ok.1 hm
  exact ⟨a, _, ha, rfl, fun hw hl => by rw [val_mulcore (wfFacts hw) hl hl, sq]⟩

/-- Settles O22: SQR and MUL share the body (`body_sqr_eq_mul`), so they answer the same state, or enter the same fault
with their own words in `FINFO`. -/
theorem sqrResult : Obligations.SqrResult := by
  refine ⟨fun _ _ => rfl, ?same, ?completes⟩
  case same =>
    intro s wd fa hr
    have hmul := ready_sqr_mul hr
    cases hb : body s (.sqr wd fa) with
    | ok t =>
      refine ⟨t, t, exec_ok hr hb, exec_ok hmul (body_sqr_eq_mul s wd fa ▸ hb), rfl, fun _ => body_sqr_val hb⟩
    | error e =>
      exact ⟨_, _, exec_error_single hr rfl hb, exec_error_single hmul rfl (body_sqr_eq_mul s wd fa ▸ hb), rfl, nofun⟩
  case completes =>
    intro s wd fa a hr ha hal hscaled hproduct
    obtain ⟨hok, -⟩ := exec_compute hr rfl ((body_sqr_eq_mul s wd fa).trans (body_mul_of_holds ha ha))
    exact ⟨_, hok _ (mulLimbs_ok_of_limbs hal hscaled hproduct), mulcore_length _ _ _ _, fun _ => mulcore_productLimb⟩

/-! ## PRECOMP (R97) -/

theorem body_precomp_of_holds {s : State} {pd fa : RegNo} {a : Limbs} (ha : HoldsF s fa a) :
    body s (.precomp pd fa) = mustFit s.cfg.W (scaledLimbs s.cfg a) >>= fun t => .ok (writeP s pd a t) := by
  rw [body, readF_holds ha, ok_bind]
  rfl

theorem scaledLimbs_length {c : Config} {b : Limbs} (hb : b.length = c.N) : (scaledLimbs c b).length = c.N - 1 := by
  simp [scaledLimbs, hb]

/-- The entry of `s[j]`: the list of scaled limbs starts at `s[1]` (10_state.md R23). -/
theorem scaledLimbs_getD_pred (c : Config) (b : Limbs) {j : Nat} (hj : 1 ≤ j) :
    (scaledLimbs c b).getD (j - 1) 0 = c.fold * b.getD j 0 := by
  rw [scaledLimbs_getD, Nat.sub_add_cancel hj]

/-- Settles O23: the body is the storage check of the scaled limbs (`body_precomp_of_holds`). -/
theorem precompResult : Obligations.PrecompResult := by
  refine ⟨fun _ _ => rfl, fun s pd fa hr h => unwrittenSourceFaults (.precomp pd fa) s hr h, ?_⟩
  intro s pd fa a hr ha hal
  obtain ⟨hok, hoverflow⟩ := exec_mustFit hr rfl (body_precomp_of_holds ha)
  constructor
  · intro h
    exact ⟨_, hok ((scaledLimbs_fits_iff hal).2 h), scaledLimbs_length hal,
      fun _ hj _ => scaledLimbs_getD_pred s.cfg a hj⟩
  · rintro ⟨j, h1, hj, hle⟩
    exact hoverflow (Bool.eq_false_iff.2 fun hfits => Nat.not_lt.2 hle ((scaledLimbs_fits_iff hal).1 hfits j h1 hj))

/-! ## MULP (R98) -/

theorem body_mulp_of_holds {s : State} {wd fa pb : RegNo} {a k t : Limbs} (ha : HoldsF s fa a) (hp : HoldsP s pb k t) :
    body s (.mulp wd fa pb) =
      mustFit (2 * s.cfg.W) (mulcore s.cfg.N a k t) >>= fun w => .ok (writeW s wd w) := by
  rw [body, readF_holds ha, ok_bind, readP_holds hp, ok_bind]
  rfl

/-- Settles O24: the body is the storage check of `mulcore` with the stored factor (`body_mulp_of_holds`). -/
theorem mulpResult : Obligations.MulpResult := by
  refine ⟨fun _ _ _ => rfl, fun s wd fa pb hr h => unwrittenSourceFaults (.mulp wd fa pb) s hr h, ?_⟩
  intro s wd fa pb a k t hr ha hp
  obtain ⟨hok, hoverflow⟩ := exec_mustFit hr rfl (body_mulp_of_holds ha hp)
  refine ⟨hok, hoverflow, ?_⟩
  rintro - - rfl j hj
  exact mulcore_productLimb hj

/-! ## PRECOMP then MULP is MUL (R99) -/

/-- The operands of PRECOMP and MULP together are those of MUL. -/
theorem ready_mul_of_precomp_mulp {s : State} {wd fa fb pt : RegNo} (h1 : Ready (.precomp pt fb) s)
    (h2 : Ready (.mulp wd fa pt) s) : Ready (.mul wd fa fb) s := by
  obtain ⟨-, hfb⟩ := (wf_iff_operandsInRange _).1 h1.2
  obtain ⟨hwd, hfa, -⟩ := (wf_iff_operandsInRange _).1 h2.2
  exact ⟨h1.1, (wf_iff_operandsInRange _).2 ⟨hwd, hfa, hfb⟩⟩

/-- The faults of MUL and MULP are `E_UNINIT` and `E_OVERFLOW` (R95, R98). -/
theorem body_mul_error {s : State} {wd fa fb : RegNo} {e : FaultCode} (h : body s (.mul wd fa fb) = .error e) :
    e = .overflow ∨ e = .uninit := by
  rcases bind_eq_error.1 h with h | ⟨a, -, h⟩
  · exact .inr (readF_error _ h)
  rcases bind_eq_error.1 h with h | ⟨b, -, h⟩
  · exact .inr (readF_error _ h)
  rcases bind_eq_error.1 h with h | ⟨w, -, h⟩
  · exact .inl (mulLimbs_error h)
  · cases h

theorem body_precomp_error {s : State} {pd fa : RegNo} {e : FaultCode} (h : body s (.precomp pd fa) = .error e) :
    e = .overflow ∨ e = .uninit := by
  rcases bind_eq_error.1 h with h | ⟨a, -, h⟩
  · exact .inr (readF_error _ h)
  rcases bind_eq_error.1 h with h | ⟨t, -, h⟩
  · exact .inl (mustFit_eq_error.1 h).2
  · cases h

/-- Where PRECOMP faults, MUL of the same scaled operand does not answer. -/
theorem body_mul_of_precomp_error {s : State} {wd fa fb pt : RegNo} {e : FaultCode}
    (h : body s (.precomp pt fb) = .error e) (u : State) : body s (.mul wd fa fb) ≠ .ok u := by
  intro hu
  obtain ⟨-, hmul, -⟩ := body_wide hu
  obtain ⟨a, b, w, -, hb, hm, -⟩ := hmul _ _ _ rfl
  obtain ⟨hscaled, -, -⟩ := mulLimbs_eq_ok.1 hm
  rw [body_precomp_of_holds hb, mustFit_eq_ok.2 ⟨hscaled, rfl⟩, ok_bind] at h
  cases h

/-- Once PRECOMP has answered, MULP does what MUL does, beside the factor that PRECOMP wrote. -/
theorem body_mulp_of_precomp {s v : State} {wd fa fb pt : RegNo} (hpt : pt.toNat < s.P.length)
    (h : body s (.precomp pt fb) = .ok v) :
    (∃ q, v = { s with P := s.P.set pt.toNat q }) ∧
      body v (.mulp wd fa pt) = body s (.mul wd fa fb) >>= fun u => .ok { u with P := v.P } := by
  obtain ⟨-, -, -, hprecomp, -⟩ := body_wide h
  obtain ⟨b, hb, hscaled, rfl⟩ := hprecomp _ _ rfl
  refine ⟨⟨_, rfl⟩, ?_⟩
  cases ha : readF s fa with
  | error e =>
    obtain rfl := readF_error _ ha
    have hmulp : body (writeP s pt b (scaledLimbs s.cfg b)) (.mulp wd fa pt) = .error .uninit :=
      two_reads readF_error (.inl ha)
    have hmul : body s (.mul wd fa fb) = .error .uninit := two_reads readF_error (.inl ha)
    rw [hmulp, hmul, error_bind]
  | ok a =>
    have ha' : HoldsF s fa a := readF_eq_ok.1 ha
    rw [body_mulp_of_holds (s := writeP s pt b (scaledLimbs s.cfg b)) ha' (writeP_holds s pt b _ hpt),
      body_mul_of_holds ha' hb, mulLimbs, mustFit_eq_ok.2 ⟨hscaled, rfl⟩, ok_bind, mulWithFactor, writeP_cfg]
    cases mustFit (2 * s.cfg.W) (mulcore s.cfg.N a b (scaledLimbs s.cfg b)) <;> rfl

/-- Settles O25: PRECOMP faults and so does MUL, or MULP does the same as MUL (`body_mulp_of_precomp`). -/
theorem precompMulpIsMul : Obligations.PrecompMulpIsMul := by
  intro s wd fa fb pt hpre hmulp hpt
  have hmul := ready_mul_of_precomp_mulp hpre hmulp
  cases hp : body s (.precomp pt fb) with
  | error e =>
    have hpexec := exec_error_single hpre rfl hp
    cases hm : body s (.mul wd fa fb) with
    | ok u => exact absurd hm (body_mul_of_precomp_error hp u)
    | error e' =>
      refine ⟨_, _, runCommands_two hpexec (exec_faulted _ _ (by simp)), exec_error_single hmul rfl hm, .inr ⟨?_, ?_⟩⟩
      · simpa using body_precomp_error hp
      · simpa using body_mul_error hm
  | ok v =>
    have hpexec := exec_ok hpre hp
    obtain ⟨⟨q, rfl⟩, hbody⟩ := body_mulp_of_precomp (wd := wd) (fa := fa) hpt hp
    have hmulp' : Ready (.mulp wd fa pt) { s with P := s.P.set pt.toNat q } := hmulp
    obtain ⟨hok, herror⟩ := exec_compute hmulp' rfl hbody
    cases hm : body s (.mul wd fa fb) with
    | ok u =>
      obtain ⟨-, -, -, -, -, -, hfault, -⟩ := body_inputs hm
      have hf : u.FAULT = none := hfault.trans hmul.1
      exact ⟨_, u, runCommands_two hpexec (hok u hm), exec_ok hmul hm, .inl ⟨hf, hf, rfl, q, rfl⟩⟩
    | error e =>
      refine ⟨_, _, runCommands_two hpexec (herror e hm), exec_error_single hmul rfl hm, .inr ⟨?_, ?_⟩⟩ <;>
        simpa using body_mul_error hm

end Sys2Proof.Machine
end

section
/-! PROOFS. The carry pass and CARRY (40_field_arith.md R100 to R102), and two rounds of the narrow pass-and-fold (R103,
R104). -/

namespace Sys2Proof.Machine

/-! ## The pass (R100) and the normalisation (R103, R104) -/

/-- The recurrence of the pass over N limbs: each sum takes the carry of the sum before it. -/
theorem pass_rec {c : Config} (h : WfFacts c) {x : Limbs} (hl : x.length = c.N) :
    (c.pass x).t.length = c.N ∧ (c.pass x).t.getD 0 0 = x.getD 0 0 ∧
      (∀ i, i + 1 < c.N → (c.pass x).t.getD (i + 1) 0 = x.getD (i + 1) 0 + (c.pass x).t.getD i 0 / 2 ^ c.b i) ∧
      (∀ i, i < c.N → (c.pass x).y.getD i 0 = (c.pass x).t.getD i 0 % 2 ^ c.b i) ∧
      (c.pass x).carry = (c.pass x).t.getD (c.N - 1) 0 / 2 ^ c.b (c.N - 1) := by
  have hN := h.twoLimbs
  have hwl := widths_length h
  obtain ⟨hlen, hsum, hlimb, hcarry⟩ := carryPass_rec c.widths x 0 (hl.trans hwl.symm)
  rw [hwl] at hlen hsum hlimb hcarry
  rw [if_neg (by omega)] at hcarry
  exact ⟨hlen, hsum 0 (by omega), fun i hi => hsum (i + 1) hi, hlimb, hcarry⟩

/-- The sums and the carry of the pass never decrease when a limb grows. -/
theorem pass_mono {c : Config} (h : WfFacts c) {x z : Limbs} (hx : x.length = c.N) (hz : z.length = c.N)
    (hle : ∀ i, x.getD i 0 ≤ z.getD i 0) :
    (c.pass x).carry ≤ (c.pass z).carry ∧ ∀ i, (c.pass x).t.getD i 0 ≤ (c.pass z).t.getD i 0 :=
  carryPass_mono c.widths x z 0 0 (hx.trans (widths_length h).symm) (hz.trans (widths_length h).symm) hle le_rfl

/-- Settles O26, from `pass_rec`, `pass_spec`, `pass_mono`, `val_npf` and `npf_npf`. The model's function has the name
`carryPass` already. -/
theorem carryPass_laws : Obligations.CarryPass := by
  intro c x hw hl
  have h := wfFacts hw
  obtain ⟨htight, hval⟩ := pass_spec h hl
  obtain ⟨hdiv, hmod⟩ := pass_divmod h hl
  refine ⟨pass_rec h hl, ⟨htight, hval, hdiv, hmod⟩, fun z hz hle => pass_mono h hl hz hle, fun hn => ?_⟩
  obtain ⟨htight2, hmod2⟩ := npf_npf h hn
  exact ⟨pass_carry_le h hn, (val_npf h hl).1, htight2, tight_val_lt h htight2, hmod2⟩

/-! ## CARRY by the value of its source (R101)

The pass splits `val(w)` at bit PBITS; CARRY folds the part above into limb 0 and carries once into limb 1. -/

/-- `c`: the carry of the pass, the part of `val(w)` above bit PBITS. -/
def carryOf (c : Config) (w : Limbs) : Nat := c.val w / 2 ^ c.PBITS

/-- `y`: the limbs of the pass, the part of `val(w)` below bit PBITS. -/
def restOf (c : Config) (w : Limbs) : Limbs := splitInt c (c.val w % 2 ^ c.PBITS)

/-- `u = y[0] + DELTA*c`. -/
def foldOf (c : Config) (w : Limbs) : Nat := (restOf c w).getD 0 0 + c.DELTA * carryOf c w

/-- `c' = u div 2^b[0]`: the last carry step, into limb 1. -/
def lastCarryOf (c : Config) (w : Limbs) : Nat := foldOf c w / 2 ^ c.b 0

/-- The three storage checks of CARRY. -/
structure CarryChecks (c : Config) (w : Limbs) : Prop where
  sums : ∀ t ∈ (c.pass w).t, t < 2 ^ (2 * c.W)
  fold : foldOf c w < 2 ^ (2 * c.W)
  limb1 : (restOf c w).getD 1 0 + lastCarryOf c w < 2 ^ c.W

/-- The limbs CARRY answers. -/
def carryResultOf (c : Config) (w : Limbs) : Limbs :=
  foldOf c w % 2 ^ c.b 0 :: ((restOf c w).getD 1 0 + lastCarryOf c w) :: (restOf c w).drop 2

theorem restOf_tight {c : Config} (h : WfFacts c) (w : Limbs) : c.tight (restOf c w) = true :=
  splitInt_tight h (Nat.mod_lt _ (by positivity))

/-- The limbs of the pass, the first two apart. -/
theorem pass_y_cons {c : Config} (h : WfFacts c) {w : Limbs} (hl : w.length = c.N) :
    (c.pass w).y = (restOf c w).getD 0 0 :: (restOf c w).getD 1 0 :: (restOf c w).drop 2 := by
  obtain ⟨y0, y1, ys, hy⟩ := two_limbs h (tight_length h (restOf_tight h w))
  rw [(pass_eq h hl).1, ← restOf, hy]
  rfl

/-- CARRY answers its result exactly when its three checks pass. -/
theorem carryLimbs_eq_ok {c : Config} (h : WfFacts c) {w z : Limbs} (hl : w.length = c.N) :
    carryLimbs c w = .ok z ↔ CarryChecks c w ∧ z = carryResultOf c w := by
  obtain ⟨hpass, hfail⟩ := carryLimbs_cases (pass_y_cons h hl)
  rw [(pass_eq h hl).2, fits_iff] at hpass hfail
  by_cases hc : CarryChecks c w
  · rw [hpass ⟨hc.sums, hc.fold, hc.limb1⟩, Except.ok.injEq, and_iff_right hc]
    exact eq_comm
  · rw [hfail fun ⟨hsums, hfold, hlimb1⟩ => hc ⟨hsums, hfold, hlimb1⟩]
    simp [hc]

/-- CARRY with a check that fails is `E_OVERFLOW`. -/
theorem carryLimbs_eq_overflow {c : Config} (h : WfFacts c) {w : Limbs} (hl : w.length = c.N)
    (hc : ¬ CarryChecks c w) : carryLimbs c w = .error .overflow := by
  cases hm : carryLimbs c w with
  | ok z => exact absurd ((carryLimbs_eq_ok h hl).1 hm).1 hc
  | error e => rw [carryLimbs_error hm]

/-- From limb 2 on CARRY leaves the limbs of the pass. -/
theorem carryResultOf_getD (c : Config) (w : Limbs) {i : Nat} (hi : 2 ≤ i) :
    (carryResultOf c w).getD i 0 = (restOf c w).getD i 0 := by
  obtain ⟨j, rfl⟩ := Nat.exists_eq_add_of_le' hi
  simp [carryResultOf, List.getD_eq_getElem?_getD, Nat.add_comm 2 j]

/-- CARRY leaves a tight vector alone. -/
theorem carryLimbs_tight {c : Config} (h : WfFacts c) {w : Limbs} (hw : c.tight w = true) :
    carryLimbs c w = .ok w := by
  have hl := tight_length h hw
  have hpass : c.pass w = ⟨w, w, 0⟩ := carryPass_below c.widths w hw
  have hrW := h.radix
  obtain ⟨w0, w1, ws, rfl⟩ := two_limbs h hl
  have h0 : w0 < 2 ^ c.r := tight_getD hw 0
  have h1 : w1 < 2 ^ c.r := tight_getD hw 1
  have hr2W : 2 ^ c.r ≤ 2 ^ (2 * c.W) := Nat.pow_le_pow_right (by norm_num) (by omega)
  have hrW' : 2 ^ c.r ≤ 2 ^ c.W := Nat.pow_le_pow_right (by norm_num) hrW.le
  have hcases := (carryLimbs_cases (c := c) (w := w0 :: w1 :: ws) (by rw [hpass])).1
  simp only [hpass, Nat.mul_zero, Nat.add_zero, b_zero h, Nat.div_eq_of_lt h0, Nat.mod_eq_of_lt h0] at hcases
  exact hcases ⟨below_fits hw fun b hb => (widths_le c b hb).trans (by omega), by omega, by omega⟩

theorem body_carry_of_holds {s : State} {fd wa : RegNo} {w : Limbs} (hw : HoldsW s wa w) :
    body s (.carry fd wa) = carryLimbs s.cfg w >>= fun y => .ok (writeF s fd y) := by
  rw [body, readW_holds hw, ok_bind]
  rfl

/-- Settles O27: the body is `carryLimbs`, which `carryLimbs_eq_ok` gives by the value of the source. -/
theorem carryResult : Obligations.CarryResult := by
  refine ⟨fun _ _ => rfl, fun s fd wa hr h => unwrittenSourceFaults (.carry fd wa) s hr h, ?_⟩
  intro s fd wa w hwf hr hw hl
  have h := wfFacts hwf
  obtain ⟨hok, herror⟩ := exec_compute hr rfl (body_carry_of_holds hw)
  refine ⟨?passes, ?fails, fun ht => hok w (carryLimbs_tight h ht)⟩
  case passes =>
    rintro ⟨hsums, hfold, hlimb1⟩
    have hc : carryLimbs s.cfg w = .ok (carryResultOf s.cfg w) :=
      (carryLimbs_eq_ok h hl).2 ⟨⟨hsums, hfold, hlimb1⟩, rfl⟩
    obtain ⟨hnarrow, hval, -, -⟩ := carryLimbs_ok h hl hc
    rw [(pass_eq h hl).2] at hval
    exact ⟨_, hok _ hc, narrow_length hnarrow, rfl, rfl, fun i hi _ => carryResultOf_getD s.cfg w hi, hval,
      val_carryLimbs h hl hc⟩
  case fails =>
    intro hf
    refine herror _ (carryLimbs_eq_overflow h hl fun ⟨hsums, hfold, hlimb1⟩ => ?_)
    rcases hf with ⟨t, ht, hle⟩ | hle | hle
    · exact Nat.not_lt.2 hle (hsums t ht)
    · exact Nat.not_lt.2 hle hfold
    · exact Nat.not_lt.2 hle hlimb1

/-! ## The output class of CARRY (R102) -/

/-- A ready command that ends without a fault has answered from its body. -/
theorem body_of_exec {i : Instr} {s t : State} (hr : Ready i s) (he : exec i s = .next t) (hf : t.FAULT = none) :
    body s i = .ok t := by
  cases hb : body s i with
  | ok u =>
    rw [exec_ok hr hb] at he
    cases he
    rfl
  | error e =>
    rw [exec_error hr hb] at he
    cases he
    rw [raiseFault_code hr.1] at hf
    cases hf

/-- Another limb 0 below its radix leaves a vector tight. -/
theorem tight_set_limb0 {c : Config} {x y : Nat} {ys : Limbs} (hx : x < 2 ^ c.b 0) (h : c.tight (y :: ys) = true) :
    c.tight (x :: ys) = true := by
  rw [Config.tight] at h ⊢
  rw [Config.b] at hx
  cases hb : c.widths with
  | nil => rw [hb] at h; cases h
  | cons b bs =>
    simp only [hb, below, List.getD_cons_zero, Bool.and_eq_true, decide_eq_true_eq] at h hx ⊢
    exact ⟨hx, h.2⟩

/-- The value of the result of CARRY: a tight vector, and the last carry at limb 1. -/
theorem val_carryResultOf_lt {c : Config} (h : WfFacts c) (w : Limbs) :
    c.val (carryResultOf c w) < 2 ^ c.PBITS + lastCarryOf c w * 2 ^ c.r := by
  have ht := restOf_tight h w
  obtain ⟨y0, y1, ys, hy⟩ := two_limbs h (tight_length h ht)
  rw [hy] at ht
  have hlt := tight_val_lt h (tight_set_limb0 (x := foldOf c w % 2 ^ c.b 0) (Nat.mod_lt _ (by positivity)) ht)
  have hval : c.val (carryResultOf c w) =
      c.val (foldOf c w % 2 ^ c.b 0 :: y1 :: ys) + lastCarryOf c w * 2 ^ c.r := by
    simp only [carryResultOf, hy, List.getD_cons_succ, List.getD_cons_zero, List.drop_succ_cons, List.drop_zero, val_cons]
    ring
  omega

/-- The last carry is below `2^(2W-r)`, for the fold passes its check. -/
theorem lastCarryOf_lt {c : Config} (h : WfFacts c) {w : Limbs} (hc : CarryChecks c w) :
    lastCarryOf c w < 2 ^ (2 * c.W - c.r) := by
  have hrW := h.radix
  rw [lastCarryOf, b_zero h, Nat.div_lt_iff_lt_mul (by positivity), ← pow_add, Nat.sub_add_cancel (by omega)]
  exact hc.fold

/-- A vector below `2^PBITS + 2^(2W)` is below `2p`: the two geometries leave this room (00_scope.md R8). -/
theorem pbits_add_wide_le {c : Config} (h : WfFacts c) : 2 ^ c.PBITS + 2 ^ (2 * c.W) ≤ 2 * c.p := by
  rcases h.geometry with hg | hg
  · obtain ⟨-, -, hp, -⟩ := r26_geometry hg
    obtain ⟨hP, -, -, -, hW⟩ := hg
    rw [hp, hP, hW]
    norm_num
  · obtain ⟨-, -, hp, -⟩ := r44_geometry hg
    obtain ⟨hP, -, -, -, hW⟩ := hg
    rw [hp, hP, hW]
    norm_num

/-- The class of the result of CARRY (R102). -/
theorem carryResultOf_class {c : Config} (h : WfFacts c) {w : Limbs} (hc : CarryChecks c w) :
    (carryResultOf c w).getD 0 0 < 2 ^ c.b 0 ∧
      (∀ i, 2 ≤ i → i < c.N → (carryResultOf c w).getD i 0 < 2 ^ c.b i) ∧
      (carryResultOf c w).getD 1 0 < 2 ^ c.b 1 + lastCarryOf c w ∧
      lastCarryOf c w ≤ (2 ^ c.b 0 - 1 + c.DELTA * carryOf c w) / 2 ^ c.b 0 ∧
      c.val (carryResultOf c w) < 2 ^ c.PBITS + lastCarryOf c w * 2 ^ c.r ∧
      lastCarryOf c w < 2 ^ (2 * c.W - c.r) ∧ c.val (carryResultOf c w) < 2 * c.p := by
  have hN := h.twoLimbs
  have ht := restOf_tight h w
  have hlimb : ∀ i, i < c.N → (restOf c w).getD i 0 < 2 ^ c.b i := fun i hi =>
    getD_below _ _ ht i (by rwa [tight_length h ht])
  have hval := val_carryResultOf_lt h w
  refine ⟨Nat.mod_lt _ (by positivity), fun i h2 hi => ?_, Nat.add_lt_add_right (hlimb 1 hN) _, ?_, hval,
    lastCarryOf_lt h hc, ?_⟩
  · rw [carryResultOf_getD c w h2]
    exact hlimb i hi
  · exact Nat.div_le_div_right (Nat.add_le_add_right (Nat.le_sub_one_of_lt (hlimb 0 (by omega))) _)
  · have hcarry : lastCarryOf c w * 2 ^ c.r ≤ foldOf c w := by
      rw [lastCarryOf, b_zero h]
      exact Nat.div_mul_le_self _ _
    have hfold := hc.fold
    have hroom := pbits_add_wide_le h
    omega

/-- Settles O28: a CARRY without a fault passed its checks and wrote its result, of the class of R102. -/
theorem carryOutputClass : Obligations.CarryOutputClass := by
  intro s t fd wa w z hwf hr hw hl he hf hz
  have h := wfFacts hwf
  have hb := body_of_exec hr he hf
  rw [body_carry_of_holds hw] at hb
  obtain ⟨y, hy, hb⟩ := bind_eq_ok.1 hb
  cases hb
  obtain rfl := holdsF_writeF hz
  obtain ⟨hc, rfl⟩ := (carryLimbs_eq_ok h hl).1 hy
  exact carryResultOf_class h hc

end Sys2Proof.Machine
end

section
/-! PROOFS. The reducer: the conditional subtraction (40_field_arith.md R106), REDUCE (R105) and its laws as runs of
commands (R107). -/

namespace Sys2Proof.Machine

/-! ## The conditional subtraction (R106) -/

/-- The borrow of `g - p` is 1 exactly when `val(g) < p`: the difference is below `2^PBITS` in either case. -/
theorem borrow_eq_one_iff {c : Config} (h : WfFacts c) {g : Limbs} (hg : c.tight g = true) :
    (subBorrow c.widths g (primeLimbs c) 0).2 = 1 ↔ c.val g < c.p := by
  obtain ⟨hd, hbo, hval⟩ := subBorrow_spec c (c.N - 1) (c.r - c.e) g (primeLimbs c) 0 (by omega) hg (primeLimbs_tight h)
  rw [widths_bits h, (val_primeLimbs h).1] at hval
  have hlt := tight_val_lt h hd
  change (subBorrow c.widths g (primeLimbs c) 0).2 ≤ 1 at hbo
  change c.val g + (subBorrow c.widths g (primeLimbs c) 0).2 * 2 ^ c.PBITS =
    c.val (subBorrow c.widths g (primeLimbs c) 0).1 + c.p + 0 at hval
  change c.val (subBorrow c.widths g (primeLimbs c) 0).1 < 2 ^ c.PBITS at hlt
  generalize subBorrow c.widths g (primeLimbs c) 0 = out at *
  obtain ⟨d, bo⟩ := out
  simp only at *
  interval_cases bo <;> omega

/-- Settles O30: the borrow by `borrow_eq_one_iff`; the result is the split of `val(g) mod p` (`condsub_spec`). -/
theorem conditionalSubtraction : Obligations.ConditionalSubtraction := by
  intro c g hw hg
  have h := wfFacts hw
  obtain ⟨htight, hval⟩ := condsub_spec h hg
  refine ⟨borrow_eq_one_iff h hg, fun hlt => ?_, fun hle => ?_⟩
  · exact tight_unique htight hg (hval.trans (Nat.mod_eq_of_lt hlt))
  · have hg' := tight_val_lt h hg
    have hpd := p_add_delta h
    have hdp := delta_lt_p h
    have hmod : c.val g % c.p = c.val g - c.p := by
      rw [Nat.mod_eq_sub_mod hle, Nat.mod_eq_of_lt (by omega)]
    exact ⟨by rw [← hmod, ← hval, splitInt_val h htight], by omega⟩

/-! ## REDUCE (R105) -/

theorem body_reduce_of_holds {s : State} {fd fa : RegNo} {a : Limbs} (ha : HoldsF s fa a) :
    body s (.reduce fd fa) = .ok (writeF s fd (reduceLimbs s.cfg a)) := by
  rw [body, readF_holds ha]
  rfl

/-- Settles O29, from `reduceLimbs_spec`: the digits of a tight vector are those of its value. -/
theorem reduceResult : Obligations.ReduceResult := by
  refine ⟨fun _ _ => rfl, fun s fd fa hr h => unwrittenSourceFaults (.reduce fd fa) s hr h, ?_⟩
  intro s fd fa a hw hr ha hn
  have h := wfFacts hw
  obtain ⟨htight, hval⟩ := reduceLimbs_spec h hn
  refine ⟨_, exec_ok hr (body_reduce_of_holds ha), ?_, hval, fun i hi => ?_⟩
  · rw [Config.reduced, htight, Bool.true_and, decide_eq_true_eq]
    exact val_reduceLimbs_lt h hn
  · rw [tight_digits h htight hi, hval]

/-! ## The laws of the reducer (R107) -/

/-- A run that ends in a REDUCE without a fault leaves the reduction of what its source held. -/
theorem runCommands_reduce {s t : State} {f g : RegNo} {a : Limbs} (hs : s.Inv) (ha : HoldsF s g a)
    (h : runCommands [.reduce f g] s = .next t) (hf : t.FAULT = none) :
    t = writeF s f (reduceLimbs s.cfg a) ∧ HoldsF t f (reduceLimbs s.cfg a) ∧
      s.cfg.val (reduceLimbs s.cfg a) = s.cfg.val a % s.cfg.p := by
  obtain ⟨u, hr, hb, -, -, h⟩ := runCommands_step h hf
  cases h
  rw [body_reduce_of_holds ha] at hb
  cases hb
  obtain ⟨hfr, -⟩ := (wf_iff_operandsInRange _).1 hr.2
  exact ⟨rfl, writeF_holds s f _ (by rwa [hs.sizes.1]), (reduceLimbs_spec (wfFacts hs.cfgWf) (holdsF_narrow hs ha)).2⟩

/-- REDUCE of a reduced register leaves the state as it was. -/
theorem reduce_twice {s t : State} {f g : RegNo} (hs : s.Inv)
    (h : runCommands [.reduce f g, .reduce f f] s = .next t) (hf : t.FAULT = none) :
    exec (.reduce f g) s = .next t ∧ ∃ z, HoldsF t f z ∧ s.cfg.val z < s.cfg.p := by
  have hwf := wfFacts hs.cfgWf
  obtain ⟨u, hr, hb, hexec, huf, h⟩ := runCommands_step h hf
  obtain ⟨-, -, hreduce, -⟩ := body_narrow hb
  obtain ⟨a, ha, hu⟩ := hreduce _ _ rfl
  have hn := holdsF_narrow hs ha
  have hrun : runCommands [.reduce f g] s = .next u := runCommands_cons hexec
  obtain ⟨-, hz, -⟩ := runCommands_reduce hs ha hrun huf
  obtain ⟨ht, -, -⟩ := runCommands_reduce (body_inv hs hr hb) hz h hf
  have htu : t = u := by
    rw [ht, hu, writeF_cfg, reduceLimbs_idem hwf hn]
    simp [writeF]
  subst htu
  exact ⟨hexec, _, hz, val_reduceLimbs_lt hwf hn⟩

/-- CARRY then REDUCE is the reduction of the wide value. -/
theorem carry_reduce_val {s t : State} {f w : RegNo} {x : Limbs} (hs : s.Inv) (hx : HoldsW s w x)
    (h : runCommands [.carry f w, .reduce f f] s = .next t) (hf : t.FAULT = none) :
    ∃ z, HoldsF t f z ∧ s.cfg.val z = s.cfg.val x % s.cfg.p := by
  obtain ⟨u, hr, hb, -, -, h⟩ := runCommands_step h hf
  have hcfg : u.cfg = s.cfg := (body_inputs hb).1
  obtain ⟨x', y, hx', hy, hval⟩ := body_carry_val hs hr hb
  obtain rfl := register_unique hx' hx
  obtain ⟨-, hz, hred⟩ := runCommands_reduce (body_inv hs hr hb) hy h hf
  rw [hcfg] at hz hred
  exact ⟨_, hz, hred.trans hval⟩

/-- MUL, CARRY, REDUCE is the product modulo p. -/
theorem mul_carry_reduce_val {s t : State} {f g h w : RegNo} {a b : Limbs} (hs : s.Inv) (ha : HoldsF s g a)
    (hb : HoldsF s h b) (hrun : runCommands [.mul w g h, .carry f w, .reduce f f] s = .next t) (hf : t.FAULT = none) :
    ∃ z, HoldsF t f z ∧ s.cfg.val z = s.cfg.val a * s.cfg.val b % s.cfg.p := by
  obtain ⟨u, hr, hbody, -, -, hrun⟩ := runCommands_step hrun hf
  have hu := body_inv hs hr hbody
  obtain ⟨b', x, hb', rfl, hval⟩ := body_mul_val hs ha hbody
  obtain rfl := register_unique hb' hb
  obtain ⟨hw, -⟩ := (wf_iff_operandsInRange _).1 hr.2
  have hx : HoldsW (writeW s w x) w x := writeW_holds s w x (by rwa [hs.sizes.2.1])
  obtain ⟨z, hz, hred⟩ := carry_reduce_val hu hx hrun hf
  exact ⟨z, hz, hred.trans hval⟩

/-- ADD, REDUCE is the sum modulo p. -/
theorem add_reduce_val {s t : State} {f g h : RegNo} {a b : Limbs} (hs : s.Inv) (ha : HoldsF s g a)
    (hb : HoldsF s h b) (hrun : runCommands [.add f g h, .reduce f f] s = .next t) (hf : t.FAULT = none) :
    ∃ z, HoldsF t f z ∧ s.cfg.val z = (s.cfg.val a + s.cfg.val b) % s.cfg.p := by
  obtain ⟨u, hr, hbody, -, -, hrun⟩ := runCommands_step hrun hf
  have hu := body_inv hs hr hbody
  obtain rfl := body_add ha hb hbody
  obtain ⟨hfr, -⟩ := (wf_iff_operandsInRange _).1 hr.2
  have hsum := writeF_holds s f (sumLimbs a b) (by rwa [hs.sizes.1])
  obtain ⟨-, hz, hred⟩ := runCommands_reduce hu hsum hrun hf
  exact ⟨_, hz, by rw [← val_sum_of_holdsF hs ha hb]; exact hred⟩

/-- Settles O31, law by law. -/
theorem reducerLaws : Obligations.ReducerLaws := fun _ hs =>
  ⟨fun _ _ _ => reduce_twice hs, fun _ _ _ _ => carry_reduce_val hs, fun _ _ _ _ _ _ _ => mul_carry_reduce_val hs,
    fun _ _ _ _ _ _ => add_reduce_val hs⟩

end Sys2Proof.Machine
end

section
/-! PROOFS. Which registers a command can change (20_memory.md R66, 60_exceptions.md R226). -/

namespace Sys2Proof.Machine

/-- Settles O56: a single-operation command has no effect, enters a fault that touches no register, or does what its
body answers, which `body_frame` bounds. -/
theorem registerFrame : Obligations.RegisterFrame := by
  intro i s t h1 h2 he
  rcases exec_single_cases h1 h2 he with rfl | ⟨e, rfl⟩ | hb
  · simp
  · simp
  · obtain ⟨hF, hW, hP, hlF, hlW, hlP, -⟩ := body_frame h1 h2 hb
    exact ⟨hF, hW, hP, hlF, hlW, hlP⟩

end Sys2Proof.Machine
end

section
/-! PROOFS. The data-format commands: UNPACK, ENCB, ENCL, PACK and MRST, and the properties of an encoded block
(41_data_format.md R130 to R140). -/

namespace Sys2Proof.Machine

/-! ## UNPACK (R131) -/

/-- The address of a byte that makes a run unreadable (60_exceptions.md R227). -/
theorem exists_unread_of_readRun_none {m : Memory} {a n : Nat} (h : Memory.readRun m a n = none) :
    ∃ x, a ≤ x ∧ x < a + n ∧ Memory.read m x = none := by
  obtain ⟨i, hi, hread⟩ := readRun_none_exists h
  exact ⟨a + i, Nat.le_add_right a i, Nat.add_lt_add_left hi a, hread⟩

theorem exec_unpack_keylen {s : State} {fd : RegNo} {idx : Imm8} (hr : Ready (.unpack fd idx) s)
    (hk : s.KEYLEN.toNat ≠ s.cfg.KEYSIZE) :
    exec (.unpack fd idx) s = .next (faultedState s .keylen (encode (.unpack fd idx))) :=
  exec_error_single hr rfl (bind_eq_error.2 (.inl (readKeySlot_keylen hk _)))

theorem exec_unpack_of_readRun {s : State} {fd : RegNo} {idx : Imm8} {bytes : List Byte}
    (hr : Ready (.unpack fd idx) s) (hk : s.KEYLEN.toNat = s.cfg.KEYSIZE)
    (hbytes : Memory.readRun s.KEY (idx.toNat * s.cfg.SUBKEYSIZE) s.cfg.SUBKEYSIZE = some bytes) :
    exec (.unpack fd idx) s = .next (writeF s fd (splitInt s.cfg (leNat bytes))) :=
  exec_ok hr (bind_eq_ok.2 ⟨bytes, readKeySlot_ok hk hbytes, rfl⟩)

/-- A sub-key's integer is below `2^(8*SUBKEYSIZE)`, so its split is reduced (R131). -/
theorem splitInt_leNat_reduced {c : Config} (hw : WfFacts c) {bytes : List Byte} (h : bytes.length = c.SUBKEYSIZE) :
    c.reduced (splitInt c (leNat bytes)) = true :=
  splitInt_reduced hw (h ▸ leNat_lt bytes)

/-- Settles O34: the KEYLEN check, the read of the slot (`unwrittenByteFaults` when a byte is missing), the write of
the split. -/
theorem unpackResult : Obligations.UnpackResult := by
  refine ⟨fun _ _ => rfl, fun s fd idx hr => ⟨exec_unpack_keylen hr, fun hk hn => ?uninit⟩,
    fun s fd idx bytes hr hk hbytes => ⟨exec_unpack_of_readRun hr hk hbytes, fun hw => ?value⟩⟩
  case uninit =>
    obtain ⟨hslot, -⟩ := unwrittenByteFaults s fd idx
    exact (hslot hk (exists_unread_of_readRun_none hn)).1 hr
  case value =>
    exact ⟨splitInt_leNat_reduced (wfFacts hw) (readRun_length hbytes), val_splitInt (wfFacts hw) _⟩

/-! ## ENCB (R133) -/

/-- Without a full block left the range check stops ENCB (60_exceptions.md R223). -/
theorem exec_encb_range {s : State} {fd : RegNo} (hr : Ready (.encb fd) s) (h : remaining s < s.cfg.BLOCKSIZE) :
    exec (.encb fd) s = .next (faultedState s .range (encode (.encb fd))) :=
  exec_error_single hr rfl (bind_eq_error.2 (.inl (require_eq_error.2 ⟨decide_eq_false (Nat.not_le.2 h), rfl⟩)))

theorem encodeFullAt_of_readRun {s : State} {a : Nat} {data : List Byte}
    (h : Memory.readRun s.MSG a s.cfg.BLOCKSIZE = some data) :
    encodeFullAt s a = .ok (splitInt s.cfg (fullBlockInt s.cfg data)) :=
  bind_eq_ok.2 ⟨data, readBytes_eq_ok.2 h, rfl⟩

theorem exec_encb_of_readRun {s : State} {fd : RegNo} {data : List Byte} (hr : Ready (.encb fd) s)
    (hrem : s.cfg.BLOCKSIZE ≤ remaining s) (hdata : Memory.readRun s.MSG s.MPTR.toNat s.cfg.BLOCKSIZE = some data) :
    exec (.encb fd) s = .next { writeF s fd (splitInt s.cfg (fullBlockInt s.cfg data)) with
      MPTR := BitVec.ofNat 64 (s.MPTR.toNat + s.cfg.BLOCKSIZE) } :=
  exec_ok hr (bind_eq_ok.2 ⟨(), require_eq_ok.2 (decide_eq_true hrem),
    bind_eq_ok.2 ⟨_, encodeFullAt_of_readRun hdata, rfl⟩⟩)

/-- The pointer does not wrap: with a full block left it stays within INLEN (10_state.md R29). -/
theorem encb_mptr_toNat {s : State} (h : s.cfg.BLOCKSIZE ≤ remaining s) :
    (BitVec.ofNat 64 (s.MPTR.toNat + s.cfg.BLOCKSIZE)).toNat = s.MPTR.toNat + s.cfg.BLOCKSIZE := by
  have hinlen := s.INLEN.isLt
  have hmptr := s.MPTR.isLt
  rw [remaining] at h
  rw [BitVec.toNat_ofNat, Nat.mod_eq_of_lt (by omega)]

/-- Settles O35: the range check, the read of the block (`unwrittenByteFaults` when a byte is missing), the write. -/
theorem encbResult : Obligations.EncbResult := by
  refine ⟨fun _ => rfl, fun s fd hr => ⟨exec_encb_range hr, fun hrem hn => ?uninit⟩,
    fun s fd data hr hrem hdata => ⟨_, encb_mptr_toNat hrem, exec_encb_of_readRun hr hrem hdata⟩⟩
  case uninit =>
    obtain ⟨-, hfull, -⟩ := unwrittenByteFaults s fd 0
    exact hfull hrem (exists_unread_of_readRun_none hn) hr

/-! ## ENCL (R135) -/

/-- With more than one block left the range check stops ENCL (60_exceptions.md R223). -/
theorem exec_encl_range {s : State} {fd : RegNo} (hr : Ready (.encl fd) s) (h : s.cfg.BLOCKSIZE < remaining s) :
    exec (.encl fd) s = .next (faultedState s .range (encode (.encl fd))) :=
  exec_error_single hr rfl (bind_eq_error.2 (.inl (require_eq_error.2 ⟨decide_eq_false (Nat.not_le.2 h), rfl⟩)))

theorem encodeLastAt_of_readRun {s : State} {a : Nat} {data : List Byte}
    (h : Memory.readRun s.MSG a (s.INLEN.toNat - a) = some data) :
    encodeLastAt s a = .ok (splitInt s.cfg (lastBlockInt s.cfg data)) :=
  bind_eq_ok.2 ⟨data, readBytes_eq_ok.2 h, rfl⟩

theorem exec_encl_of_readRun {s : State} {fd : RegNo} {data : List Byte} (hr : Ready (.encl fd) s)
    (hrem : remaining s ≤ s.cfg.BLOCKSIZE) (hdata : Memory.readRun s.MSG s.MPTR.toNat (remaining s) = some data) :
    exec (.encl fd) s =
      .next { writeF s fd (splitInt s.cfg (lastBlockInt s.cfg data)) with MPTR := s.INLEN } :=
  exec_ok hr (bind_eq_ok.2 ⟨(), require_eq_ok.2 (decide_eq_true hrem),
    bind_eq_ok.2 ⟨_, encodeLastAt_of_readRun hdata, rfl⟩⟩)

/-- Settles O36: the range check, the read of what is left (`unwrittenByteFaults` when a byte is missing), the write. -/
theorem enclResult : Obligations.EnclResult := by
  refine ⟨fun _ => rfl, fun s fd hr => ⟨exec_encl_range hr, fun hrem hn => ?uninit⟩,
    fun s fd data hr hrem hdata =>
      ⟨exec_encl_of_readRun hr hrem hdata, fun htm => lastBlockInt_identity htm data⟩⟩
  case uninit =>
    obtain ⟨-, -, hlast⟩ := unwrittenByteFaults s fd 0
    obtain ⟨x, hle, hlt, hread⟩ := exists_unread_of_readRun_none hn
    rw [remaining] at hlt
    exact hlast hrem ⟨x, hle, by omega, hread⟩ hr

/-! ## ENCB and ENCL on a full last block (R134) -/

/-- One block before the end of the message ENCB moves the pointer to the end. -/
theorem encb_mptr_eq_inlen {s : State} (hrem : remaining s = s.cfg.BLOCKSIZE) (hle : s.MPTR.toNat ≤ s.INLEN.toNat) :
    BitVec.ofNat 64 (s.MPTR.toNat + s.cfg.BLOCKSIZE) = s.INLEN := by
  rw [← hrem, remaining, Nat.add_sub_cancel' hle, BitVec.ofNat_toNat, BitVec.setWidth_eq]

/-- Settles O37: the two integers are one (`lastBlockInt_full`), and so are the two pointers (`encb_mptr_eq_inlen`). -/
theorem encbEnclAgree : Obligations.EncbEnclAgree := by
  intro s fd data hr hrem hle hdata
  have hencb := exec_encb_of_readRun hr hrem.ge hdata
  have hencl := exec_encl_of_readRun (fd := fd) hr hrem.le (hrem ▸ hdata)
  rw [encb_mptr_eq_inlen hrem hle] at hencb
  rw [lastBlockInt_full (readRun_length hdata)] at hencl
  exact ⟨_, hencb, hencl, rfl, hr.1⟩

/-! ## Encoded blocks (R136) -/

/-- An encoded block is tight, not zero, bounded, and its value is its integer. -/
theorem lastBlockInt_spec {c : Config} (hw : WfFacts c) {data : List Byte} (h : data.length ≤ c.BLOCKSIZE) :
    c.tight (splitInt c (lastBlockInt c data)) = true ∧ lastBlockInt c data ≠ 0 ∧
      lastBlockInt c data < 2 ^ (8 * c.BLOCKSIZE + 1) ∧
      c.val (splitInt c (lastBlockInt c data)) = lastBlockInt c data :=
  ⟨lastBlockInt_tight hw h, (lastBlockInt_pos c data).ne', lastBlockInt_lt h, val_splitInt hw _⟩

/-- With the identity hook, byte strings of any length with one encoding are equal. -/
theorem lastBlockInt_injective {c : Config} (h : c.TM = .identity) {x y : List Byte}
    (he : lastBlockInt c x = lastBlockInt c y) : x = y := by
  rw [lastBlockInt_identity h, lastBlockInt_identity h] at he
  exact marker_inj he

/-- Settles O38: a full block is the last block of its length (`lastBlockInt_full`), and the marker tells the lengths
apart (`marker_inj`). -/
theorem encoderProperties : Obligations.EncoderProperties := by
  intro c hw
  refine ⟨fun _ => lastBlockInt_spec (wfFacts hw), fun data hl => ?full,
    fun htm _ _ _ _ => lastBlockInt_injective htm⟩
  case full =>
    rw [← lastBlockInt_full hl]
    exact lastBlockInt_spec (wfFacts hw) hl.le

/-! ## PACK (R137, R138) -/

/-- PACK of a written source is the check that it is tight, then a write to its slot. -/
theorem body_pack_of_holds {s : State} {fa : RegNo} {idx : Imm8} {a : Limbs} (ha : HoldsF s fa a) :
    body s (.pack fa idx) = require (s.cfg.tight a) .notTight >>= fun _ =>
      .ok (writeOutSlot s idx.toNat (s.cfg.TF.apply (packBytes s.cfg a s.cfg.SUBTAGSIZE))) := by
  rw [body, readF_holds ha, ok_bind]
  rfl

/-- A slot of OUT reads back, and no other byte changes (20_memory.md R55). -/
theorem writeOutSlot_spec {s : State} {j : Nat} {bytes : List Byte} (h : bytes.length = s.cfg.SUBTAGSIZE) :
    Memory.readRun (writeOutSlot s j bytes).OUT (j * s.cfg.SUBTAGSIZE) s.cfg.SUBTAGSIZE = some bytes ∧
      ∀ x, x < j * s.cfg.SUBTAGSIZE ∨ j * s.cfg.SUBTAGSIZE + s.cfg.SUBTAGSIZE ≤ x →
        Memory.read (writeOutSlot s j bytes).OUT x = Memory.read s.OUT x := by
  rw [writeOutSlot, ← h]
  exact ⟨readRun_writeRun _ _ _, read_writeRun_outside _ _ _⟩

/-- Settles O39: the check of the source (`body_pack_of_holds`), then the bytes of `writeOutSlot_spec`. -/
theorem packResult : Obligations.PackResult := by
  refine ⟨fun _ _ => rfl, fun s fa idx hr h => unwrittenSourceFaults (.pack fa idx) s hr h,
    fun s fa idx a hr ha => ?_⟩
  obtain ⟨hok, herror⟩ := exec_compute hr rfl (body_pack_of_holds ha)
  exact ⟨fun ht => ⟨_, hok () (require_eq_ok.2 ht), writeOutSlot_spec (hook_packBytes_length _ _ _)⟩,
    fun ht => herror _ (require_eq_error.2 ⟨ht, rfl⟩)⟩

/-! ## MRST (R140) -/

/-- Settles O40: MRST has no operand and no check. -/
theorem mrstResult : Obligations.MrstResult :=
  ⟨rfl, fun _ hf => exec_ok ⟨hf, rfl⟩ rfl⟩

end Sys2Proof.Machine
end

section
/-! PROOFS. The evaluation point: DKEY, and the bounds of the clamps (42_key.md R150 to R152). -/

namespace Sys2Proof.Machine

/-! ## DKEY (R150) -/

/-- KEYLEN is checked before the slot is read (60_exceptions.md R222). -/
theorem exec_dkey_keylen {s : State} {fd : RegNo} {idx : Imm8} (hr : Ready (.dkey fd idx) s)
    (hk : s.KEYLEN.toNat ≠ s.cfg.KEYSIZE) :
    exec (.dkey fd idx) s = .next (faultedState s .keylen (encode (.dkey fd idx))) := by
  have hkey : deriveKey s idx.toNat = .error .keylen := bind_eq_error.2 (.inl (readKeySlot_keylen hk _))
  exact exec_error_single hr rfl (bind_eq_error.2 (.inl hkey))

theorem exec_dkey_of_readRun {s : State} {fd : RegNo} {idx : Imm8} {raw : List Byte} (hr : Ready (.dkey fd idx) s)
    (hk : s.KEYLEN.toNat = s.cfg.KEYSIZE)
    (hraw : Memory.readRun s.KEY (idx.toNat * s.cfg.SUBKEYSIZE) s.cfg.SUBKEYSIZE = some raw) :
    exec (.dkey fd idx) s = .next (writeF s fd (evalPoint s.cfg raw)) := by
  have hkey : deriveKey s idx.toNat = .ok (evalPoint s.cfg raw) := bind_eq_ok.2 ⟨raw, readKeySlot_ok hk hraw, rfl⟩
  exact exec_ok hr (bind_eq_ok.2 ⟨_, hkey, rfl⟩)

/-- A sub-key is strictly below p: in both geometries p is `2^130 - 5` (00_scope.md R9(d)). -/
theorem pow_subkey_lt {c : Config} (h : WfFacts c) : 2 ^ (8 * c.SUBKEYSIZE) < c.p := by
  have hbits := h.keyBits
  obtain ⟨hP, hp⟩ : c.PBITS = 130 ∧ c.p = 2 ^ 130 - 5 := by
    rcases h.geometry with hg | hg
    · exact ⟨hg.1, (r26_geometry hg).2.2.1⟩
    · exact ⟨hg.1, (r44_geometry hg).2.2.1⟩
  calc 2 ^ (8 * c.SUBKEYSIZE) ≤ 2 ^ 129 := Nat.pow_le_pow_right (by norm_num) (by omega)
    _ < 2 ^ 130 - 5 := by norm_num
    _ = c.p := hp.symm

/-- The value of the evaluation point is the masked key integer. -/
theorem val_evalPoint {c : Config} (h : WfFacts c) (raw : List Byte) :
    c.val (evalPoint c raw) = leNat (c.TK.apply raw) &&& c.clampMask :=
  val_splitInt h _

/-- Settles O41: the KEYLEN check, the read of the slot (`unwrittenByteFaults` when a byte is missing), the write of
the point. -/
theorem dkeyResult : Obligations.DkeyResult := by
  refine ⟨fun _ _ => rfl, fun s fd idx hr => ⟨exec_dkey_keylen hr, fun hk hn => ?uninit⟩,
    fun s fd idx raw hr hk hraw => ⟨_, exec_dkey_of_readRun hr hk hraw, rfl, fun hw => ?value⟩⟩
  case uninit =>
    obtain ⟨hslot, -⟩ := unwrittenByteFaults s fd idx
    exact (hslot hk (exists_unread_of_readRun_none hn)).2 hr
  case value =>
    have h := wfFacts hw
    have hlt := masked_lt h (leNat (s.cfg.TK.apply raw))
    exact ⟨splitInt_reduced h hlt, (val_evalPoint h raw).trans_lt hlt, pow_subkey_lt h⟩

/-! ## The clamps (R151, R152) -/

theorem clampMask_classic {c : Config} (h : c.CLAMP = .classic) :
    c.clampMask = 0x0ffffffc0ffffffc0ffffffc0fffffff := by
  rw [Config.clampMask, h]

theorem clampMask_unclamped {c : Config} (h : c.CLAMP = .unclamped) : c.clampMask = 2 ^ (8 * c.SUBKEYSIZE) - 1 := by
  rw [Config.clampMask, h]

theorem clampMask_other {c : Config} {mask : Nat} (h : c.CLAMP = .other mask) : c.clampMask = mask := by
  rw [Config.clampMask, h]

/-- The point is bounded limb by limb by the split of the mask (R152). -/
theorem evalPoint_getD_le {c : Config} {mask : Nat} (hm : c.clampMask = mask) (raw : List Byte) (i : Nat) :
    (evalPoint c raw).getD i 0 ≤ (splitInt c mask).getD i 0 := by
  rw [← hm]
  exact splitInt_mask_le

/-- The split of the CLASSIC mask for `R26` and `R44`, and of `2^128 - 1` for `R26`: the lists of R152. -/
theorem splitInt_classic_r26 : splitInt Config.r26 0x0ffffffc0ffffffc0ffffffc0fffffff =
    [0x3ffffff, 0x3ffff03, 0x3ffc0ff, 0x3f03fff, 0x00fffff] := by decide
theorem splitInt_classic_r44 : splitInt Config.r44 0x0ffffffc0ffffffc0ffffffc0fffffff =
    [0xffc0fffffff, 0xfffffc0ffff, 0xffffffc0f] := by decide
theorem splitInt_ones_r26 : splitInt Config.r26 (2 ^ 128 - 1) =
    [0x3ffffff, 0x3ffffff, 0x3ffffff, 0x3ffffff, 0x0ffffff] := by decide

/-- Settles O42: each list is the split of the mask in its geometry (`evalPoint_getD_le`). -/
theorem clampBounds : Obligations.ClampBounds := by
  intro c raw hw hsize _
  have h := wfFacts hw
  have hnone : c.CLAMP = .unclamped → c.clampMask = 2 ^ 128 - 1 := fun hc => by rw [clampMask_unclamped hc, hsize]
  refine ⟨fun hc => ?value, fun hc hr i => ?classic26, fun hc hr i => ?classic44, fun hc hr i => ?none26,
    fun hc => evalPoint_getD_le (hnone hc) raw⟩
  case value =>
    rw [val_evalPoint h, clampMask_classic hc]
    exact Nat.and_le_right.trans_lt (by norm_num)
  case classic26 =>
    have hle := evalPoint_getD_le (clampMask_classic hc) raw i
    rwa [splitInt_r26 h hr, splitInt_classic_r26] at hle
  case classic44 =>
    have hle := evalPoint_getD_le (clampMask_classic hc) raw i
    rwa [splitInt_r44 h hr, splitInt_classic_r44] at hle
  case none26 =>
    have hle := evalPoint_getD_le (hnone hc) raw i
    rwa [splitInt_r26 h hr, splitInt_ones_r26] at hle

end Sys2Proof.Machine
end

section
/-! PROOFS. The power commands DPOW and DPOW2: the powers, when they overflow, and the registers they write (42_key.md
R153, R154). Both write the base, and after it what a repeated multiply and reduce answers. -/

namespace Sys2Proof.Machine

/-! ## What the two commands share -/

/-- A command whose only fault is `E_OVERFLOW` enters it exactly when its computation fails. -/
theorem exec_overflow_iff {α : Type} {i : Instr} {s : State} {x : Except FaultCode α} {f : α → State}
    (hr : Ready i s) (hk : commandKind i = .single) (hb : body s i = x >>= fun v => .ok (f v))
    (hfault : ∀ v, (f v).FAULT = s.FAULT) (herr : ∀ e, x = .error e → e = .overflow) :
    exec i s = .next (faultedState s .overflow (encode i)) ↔ ∃ e, x = .error e := by
  obtain ⟨hok, herror⟩ := exec_compute hr hk hb
  constructor
  · intro h
    cases hx : x with
    | error e => exact ⟨e, rfl⟩
    | ok v =>
      have hv : f v = faultedState s .overflow (encode i) := Host.Outcome.next.inj ((hok v hx).symm.trans h)
      have hnone : (f v).FAULT = none := (hfault v).trans hr.1
      rw [hv] at hnone
      cases hnone
  · rintro ⟨e, he⟩
    obtain rfl := herr e he
    exact herror _ he

/-- The base and the vectors after it stand in consecutive registers, the vectors reduced with the values `v`, and no
other register changes. -/
def PowersWritten (c : Config) (F G : List LimbReg) (first m : Nat) (k : Limbs) (v : Nat → Nat) : Prop :=
  G.length = F.length ∧ G[first]? = some ⟨k, true⟩ ∧
    (∀ i, i < m → ∃ z, G[first + (i + 1)]? = some ⟨z, true⟩ ∧ c.reduced z = true ∧ c.val z = v i) ∧
    ∀ j, j < first ∨ first + (m + 1) ≤ j → G[j]? = F[j]?

theorem setConsecutive_powersWritten {c : Config} {F : List LimbReg} {first m : Nat} {k : Limbs} {ks : List Limbs}
    {v : Nat → Nat} (hb : first + (m + 1) ≤ F.length)
    (hks : ks.length = m ∧ ∀ i z, ks[i]? = some z → c.reduced z = true ∧ c.val z = v i) :
    PowersWritten c F (setConsecutive F first (k :: ks)) first m k v := by
  obtain ⟨rfl, hval⟩ := hks
  obtain ⟨hlen, hfirst, hrest, houtside⟩ := setConsecutive_cons (k := k) hb
  refine ⟨hlen, hfirst, fun i hi => ?_, houtside⟩
  have hz : ks[i]? = some ks[i] := List.getElem?_eq_getElem hi
  exact ⟨ks[i], hrest i _ hz, hval i _ hz⟩

/-- A power command on a stored base `k`, whose body is the repeated step `x`: it completes where the step does, it
overflows exactly where the step does not, and it writes the base and the answers. -/
theorem exec_powers {i : Instr} {s : State} {fd : RegNo} {m : Nat} {k : Limbs} {x : Except FaultCode (List Limbs)}
    {v : Nat → Nat} (hr : Ready i s) (hk : commandKind i = .single)
    (hb : body s i = x >>= fun ks => .ok (writeFs s fd (k :: ks))) (hfile : fd.toNat + (m + 1) ≤ s.F.length)
    (herr : ∀ e, x = .error e → e = .overflow)
    (hval : ∀ ks, x = .ok ks → ks.length = m ∧
      ∀ j z, ks[j]? = some z → s.cfg.reduced z = true ∧ s.cfg.val z = v j) :
    ((∃ ks, x = .ok ks) → ∃ G, exec i s = .next { s with F := G }) ∧
    (exec i s = .next (faultedState s .overflow (encode i)) ↔ ∃ e, x = .error e) ∧
    (exec i s = .next (faultedState s .overflow (encode i)) ∨
      ∃ G, exec i s = .next { s with F := G } ∧ PowersWritten s.cfg s.F G fd.toNat m k v) := by
  obtain ⟨hok, -⟩ := exec_compute hr hk hb
  have hover := exec_overflow_iff hr hk hb (fun _ => rfl) herr
  refine ⟨fun ⟨ks, hx⟩ => ⟨_, hok ks hx⟩, hover, ?_⟩
  cases hx : x with
  | error e => exact .inl (hover.2 ⟨e, hx⟩)
  | ok ks => exact .inr ⟨_, hok ks hx, setConsecutive_powersWritten hfile (hval ks hx)⟩

/-- A step counted from 0 or from `a`. -/
theorem exists_iff_exists_ge (a : Nat) {P Q : Nat → Prop} (h : ∀ i, P i ↔ Q (i + a)) :
    (∃ i, P i) ↔ ∃ i, a ≤ i ∧ Q i := by
  constructor
  · rintro ⟨i, hi⟩
    exact ⟨i + a, Nat.le_add_left a i, (h i).1 hi⟩
  · rintro ⟨i, hai, hi⟩
    obtain ⟨j, rfl⟩ := Nat.exists_eq_add_of_le' hai
    exact ⟨j, (h j).2 hi⟩

/-! ## DPOW (R153) -/

theorem body_dpow_of_holds {s : State} {fd fa : RegNo} {n : Imm8} {m : Nat} {k : Limbs} (ha : HoldsF s fa k)
    (hn : n.toNat = m + 1) :
    body s (.dpow fd fa n) = powersAfter s.cfg k k m >>= fun ks => .ok (writeFs s fd (k :: ks)) := by
  rw [body, readF_holds ha, ok_bind, hn, powers, bind_assoc_except]
  rfl

/-- Settles O43: the body is `powersAfter` (`body_dpow_of_holds`), with the values of `powersAfter_value` and the
overflows of `powersAfter_iff`. -/
theorem dpowResult : Obligations.DpowResult := by
  refine ⟨fun _ _ _ => rfl, fun s fd fa n hr h => unwrittenSourceFaults (.dpow fd fa n) s hr h, ?_⟩
  intro s fd fa n k hw hr ha hk hF
  have h := wfFacts hw
  obtain ⟨-, -, hn, hlast⟩ := (wf_iff_operandsInRange _).1 hr.2
  obtain ⟨m, hm⟩ := Nat.exists_eq_add_of_le' hn
  obtain ⟨hbase, hover, hresult⟩ := exec_powers (m := m) hr rfl (body_dpow_of_holds ha hm) (by omega)
    (fun _ => powersAfter_error) fun _ => powersAfter_value h hk m hk
  refine ⟨fun hb => hbase (powersAfter_base h hb m hk hb), ?_, hresult.imp_right ?_⟩
  · rw [hover, powersAfter_iff h hk m hk]
    exact exists_iff_exists_ge 2 fun i => and_congr (by omega) (by simp [pow_succ'])
  · rintro ⟨G, hG, hlen, hfirst, hpow, houtside⟩
    refine ⟨G, hG, hlen, hfirst, fun i h2 hi => ?_, fun j hj => houtside j (by omega)⟩
    obtain ⟨j, rfl⟩ := Nat.exists_eq_add_of_le' h2
    obtain ⟨z, hz, hred, hval⟩ := hpow j (by omega)
    exact ⟨z, hz, hred, by simpa only [← pow_succ'] using hval⟩

/-! ## DPOW2 (R154) -/

theorem body_dpow2_of_holds {s : State} {fd fa : RegNo} {n : Imm8} {m : Nat} {k : Limbs} (ha : HoldsF s fa k)
    (hn : n.toNat = m + 1) :
    body s (.dpow2 fd fa n) = squaresAfter s.cfg k m >>= fun qs => .ok (writeFs s fd (k :: qs)) := by
  rw [body, readF_holds ha, ok_bind, hn, squares, bind_assoc_except]
  rfl

/-- Settles O44: the body is `squaresAfter` (`body_dpow2_of_holds`), with the values of `squaresAfter_value` and the
overflows of `squaresAfter_iff`. -/
theorem dpow2Result : Obligations.Dpow2Result := by
  refine ⟨fun _ _ _ => rfl, fun s fd fa n hr h => unwrittenSourceFaults (.dpow2 fd fa n) s hr h, ?_⟩
  intro s fd fa n k hw hr ha hk hF
  have h := wfFacts hw
  obtain ⟨-, -, hn, hlast⟩ := (wf_iff_operandsInRange _).1 hr.2
  obtain ⟨m, hm⟩ := Nat.exists_eq_add_of_le' hn
  obtain ⟨hbase, hover, hresult⟩ := exec_powers (m := m) hr rfl (body_dpow2_of_holds ha hm) (by omega)
    (fun _ => squaresAfter_error) fun _ => squaresAfter_value h m hk
  refine ⟨fun hb => hbase (squaresAfter_base h m hk hb), ?_, hresult.imp_right ?_⟩
  · rw [hover, squaresAfter_iff h m hk]
    exact exists_iff_exists_ge 1 fun i => and_congr (by omega) (by simp)
  · rintro ⟨G, hG, hlen, hfirst, hpow, houtside⟩
    refine ⟨G, hG, hlen, hfirst, fun j h1 hj => ?_, fun j hj => houtside j (by omega)⟩
    obtain ⟨i, rfl⟩ := Nat.exists_eq_add_of_le' h1
    exact hpow i (by omega)

end Sys2Proof.Machine
end

section
/-! PROOFS. The raw key bits the clamp clears (42_key.md R151, R158). -/

namespace Sys2Proof.Machine

/-! ## The point and the tag -/

/-- With the identity hook, keys that agree on the bits the clamp keeps have the same points (R158). -/
theorem evalPoint_of_sameClampedKey {c : Config} (hk : c.TK = .identity) {key key' : List Byte}
    (h : SameClampedKey c key key') {j : Nat} (hj : j < c.NTAGS) :
    evalPoint c (subKey c key j) = evalPoint c (subKey c key' j) := by
  rw [evalPoint, evalPoint, hk, Hook.apply, Hook.apply, masked_eq (h j hj)]

/-- So they have the same tag of every message (43_hash_engine.md R175). -/
theorem tagOf_of_sameClampedKey {c : Config} (hk : c.TK = .identity) {key key' : List Byte}
    (h : SameClampedKey c key key') (msg : List Byte) : tagOf c key msg = tagOf c key' msg := by
  have hslot : ∀ j ∈ List.range c.NTAGS, subTagOf c key msg j = subTagOf c key' msg j := by
    intro j hj
    rw [subTagOf, subTagOf, pointInt, pointInt, hk, Hook.apply, Hook.apply, masked_eq (h j (List.mem_range.1 hj))]
  rw [tagOf, tagOf, List.flatMap_congr hslot]

/-- HASH computes the same bytes, or finds the same byte of the message missing. -/
theorem tagBytes_of_sameClampedKey {s : State} {K : Memory} {key key' : List Byte} (hw : s.cfg.wf = true)
    (htk : s.cfg.TK = .identity) (hk : KeyGiven s key) (hk' : KeyGiven (swapInputs K s.MSG s) key')
    (h : SameClampedKey s.cfg key key') : tagBytes (swapInputs K s.MSG s) = tagBytes s := by
  cases hm : Memory.readRun s.MSG 0 s.INLEN.toNat with
  | some msg =>
    have htag : tagBytes (swapInputs K s.MSG s) = .ok (tagOf s.cfg key' msg) :=
      tagBytes_ok (s := swapInputs K s.MSG s) hw hk' hm
    rw [htag, tagBytes_ok hw hk hm, tagOf_of_sameClampedKey htk h]
  | none =>
    obtain ⟨x, -, hx, hread⟩ := exists_unread_of_readRun_none hm
    rw [Nat.zero_add] at hx
    have hmiss : Missing s := .inr ⟨x, hx, hread⟩
    rw [tagBytes_missing hw hk.1 hmiss]
    exact tagBytes_missing (s := swapInputs K s.MSG s) hw hk'.1 (.inr ⟨x, hx, hread⟩)

/-- HASH over another KEY with the same tag: the same result, answered or faulted. -/
theorem hash_sameResult {s : State} {K : Memory} (hf : s.FAULT = none)
    (h : tagBytes (swapInputs K s.MSG s) = tagBytes s) :
    SameResult (exec .hash s) (exec .hash (swapInputs K s.MSG s)) := by
  cases ht : tagBytes s with
  | ok tag =>
    rw [hash_ok hf ht, hash_ok (s := swapInputs K s.MSG s) hf (h.trans ht)]
    exact sameResult_swap K s.MSG _
  | error e =>
    rw [hash_error hf ht, hash_error (s := swapInputs K s.MSG s) hf (h.trans ht), raiseFault_swap]
    exact sameResult_swap K s.MSG _

/-! ## The masks (R151) -/

/-- The bits the CLASSIC mask clears, and how many they are. -/
theorem classicMask_cleared :
    (∀ b, b < 128 → (Nat.testBit 0x0ffffffc0ffffffc0ffffffc0fffffff b = false ↔
      (b / 8 ∈ [3, 7, 11, 15] ∧ 4 ≤ b % 8) ∨ (b / 8 ∈ [4, 8, 12] ∧ b % 8 < 2))) ∧
    ((List.range 128).filter (fun b => !Nat.testBit 0x0ffffffc0ffffffc0ffffffc0fffffff b)).length = 22 := by
  decide

/-- Settles O45: the tag depends on the key through the masked integers alone (`tagBytes_of_sameClampedKey`). -/
theorem clampedBitsIgnored : Obligations.ClampedBitsIgnored := by
  refine ⟨?key, fun c hc => ?classic, fun c hc b => ?unclamped, fun c mask hc => clampMask_other hc⟩
  case key =>
    intro s K key key' hw hf htk hk hk' h
    exact ⟨fun j hj => evalPoint_of_sameClampedKey htk h hj,
      hash_sameResult hf (tagBytes_of_sameClampedKey hw htk hk hk' h)⟩
  case classic =>
    rw [clampMask_classic hc]
    exact ⟨rfl, classicMask_cleared⟩
  case unclamped =>
    rw [clampMask_unclamped hc, Nat.testBit_two_pow_sub_one]

end Sys2Proof.Machine
end

section
/-! PROOFS. HASH and VERIFY by what they are given (43_hash_engine.md R175, R205): the tag of the formula, `E_KEYLEN`,
or `E_UNINIT` for a byte that nothing has written; never `E_OVERFLOW` (R200). -/

namespace Sys2Proof.Machine

/-! ## The faults (60_exceptions.md R222, R226, R227) -/

/-- The fault entry of VERIFY: as that of HASH, with OUT kept or unspecified (60_exceptions.md R226, log entry 22). -/
theorem raiseFault_verify {s : State} (hf : s.FAULT = none) (e : FaultCode) (w : Word) :
    raiseFault .verify e w s =
      faultedState { clearMarks s with OUT := verifyFaultOut s.OUT, MPTR := 0, VOK := false } e w := by
  rw [raiseFault, hf]
  rfl

theorem hashFaulted_hash {s : State} (hf : s.FAULT = none) (e : FaultCode) (w : Word) :
    HashFaulted s e (.next (raiseFault .hash e w s)) :=
  ⟨_, congrArg _ (raiseFault_hash hf e w), rfl, rfl, rfl, rfl, clearMarks_noneWritten s, rfl, rfl, rfl, rfl⟩

theorem hashFaulted_verify {s : State} (hf : s.FAULT = none) (e : FaultCode) (w : Word) :
    HashFaulted s e (.next (raiseFault .verify e w s)) :=
  ⟨_, congrArg _ (raiseFault_verify hf e w), rfl, rfl, rfl, rfl, clearMarks_noneWritten s, rfl, rfl, rfl, rfl⟩

theorem HashFaulted.code {s : State} {e : FaultCode} {out : Out} (h : HashFaulted s e out) :
    ∃ t, out = .next t ∧ t.FAULT = some e := by
  obtain ⟨t, hout, hcode, -⟩ := h
  exact ⟨t, hout, hcode⟩

/-- A step that ended in a fault has its code and no other. -/
theorem HashFaulted.code_eq {s t : State} {e : FaultCode} (h : HashFaulted s e (.next t)) : t.FAULT = some e := by
  obtain ⟨u, hout, hcode, -⟩ := h
  cases hout
  exact hcode

theorem exec_hash_keylen {s : State} (hf : s.FAULT = none) (hk : s.KEYLEN.toNat ≠ s.cfg.KEYSIZE) :
    HashFaulted s .keylen (exec .hash s) := by
  rw [hash_error hf (tagBytes_keylen hk)]
  exact hashFaulted_hash hf _ _

theorem exec_hash_missing {s : State} (hw : s.cfg.wf = true) (hf : s.FAULT = none)
    (hk : s.KEYLEN.toNat = s.cfg.KEYSIZE) (h : Missing s) : HashFaulted s .uninit (exec .hash s) := by
  rw [hash_error hf (tagBytes_missing hw hk h)]
  exact hashFaulted_hash hf _ _

theorem exec_verify_keylen {s : State} (hf : s.FAULT = none) (hv : s.cfg.HAS_VERIFY = true)
    (hk : s.KEYLEN.toNat ≠ s.cfg.KEYSIZE) : HashFaulted s .keylen (exec .verify s) := by
  have hkey : requireKeylen s = .error .keylen := require_eq_error.2 ⟨decide_eq_false hk, rfl⟩
  rw [exec_error (verify_ready hf hv) (bind_eq_error.2 (.inl hkey))]
  exact hashFaulted_verify hf _ _

/-- The candidate is read before the tag is computed; a byte missing in either is `E_UNINIT` (R205). -/
theorem exec_verify_missing {s : State} (hw : s.cfg.wf = true) (hf : s.FAULT = none) (hv : s.cfg.HAS_VERIFY = true)
    (hk : s.KEYLEN.toNat = s.cfg.KEYSIZE)
    (h : Missing s ∨ ∃ x, x < s.cfg.OUTPUTSIZE ∧ Memory.read s.OUT x = none) :
    HashFaulted s .uninit (exec .verify s) := by
  rcases readBytes_cases s.OUT 0 s.cfg.OUTPUTSIZE with ⟨cand, hcand⟩ | hcand
  · rcases h with hmiss | ⟨x, hx, hread⟩
    · rw [verify_tag hf hv hk hcand (tagBytes_missing hw hk hmiss)]
      exact hashFaulted_verify hf _ _
    · rw [readBytes_none (Nat.zero_le x) (by rwa [Nat.zero_add]) hread] at hcand
      cases hcand
  · rw [verify_out hf hv hk hcand]
    exact hashFaulted_verify hf _ _

/-! ## The result (R175) -/

/-- Slot `j` of a written tag holds sub-tag `j` (R180). -/
theorem readRun_tag_slot (c : Config) (m : Memory) (key msg : List Byte) {j : Nat}
    (hj : j < c.NTAGS) :
    Memory.readRun (Memory.writeRun m 0 (tagOf c key msg)) (j * c.SUBTAGSIZE) c.SUBTAGSIZE =
      some (subTagOf c key msg j) := by
  have hlen : (tagOf c key msg).length = c.NTAGS * c.SUBTAGSIZE := by
    simp [tagOf, List.length_flatMap, subTagOf_length]
  have hslot : (j + 1) * c.SUBTAGSIZE ≤ c.NTAGS * c.SUBTAGSIZE := Nat.mul_le_mul_right _ hj
  rw [Nat.succ_mul] at hslot
  have hrun := readRun_sub (readRun_writeRun m 0 (tagOf c key msg)) (j * c.SUBTAGSIZE) c.SUBTAGSIZE (by omega)
  rwa [Nat.zero_add, tagOf, flatMap_slot (subTagOf_length c key msg) hj] at hrun

/-- Settles O46, from `exec_hash_keylen`, `exec_hash_missing` and the tag of the formula (`tagBytes_ok`). -/
theorem hashWritesTheTag : Obligations.HashWritesTheTag := by
  refine ⟨rfl, fun s hw hf => ⟨exec_hash_keylen hf, exec_hash_missing hw hf⟩, ?_⟩
  intro s key msg hw hf hk hm
  have htag := tagBytes_ok hw hk hm
  refine ⟨_, hash_ok hf htag, fun j hj => readRun_tag_slot _ _ key msg hj, fun x hx => ?_⟩
  exact read_writeRun_outside _ _ _ _ (.inr (by rwa [Nat.zero_add, tagBytes_length hw htag]))

/-! ## No other fault (R200, R205) -/

theorem exec_hash_code {s t : State} (hw : s.cfg.wf = true) (hf : s.FAULT = none)
    (hk : s.KEYLEN.toNat = s.cfg.KEYSIZE) (h : exec .hash s = .next t) :
    t.FAULT = none ∨ t.FAULT = some .uninit := by
  rcases given_or_missing s hk with ⟨key, msg, hkey, hmsg⟩ | hmiss
  · rw [hash_ok hf (tagBytes_ok hw hkey hmsg)] at h
    cases h
    exact .inl hf
  · have hfault := exec_hash_missing hw hf hk hmiss
    rw [h] at hfault
    exact .inr hfault.code_eq

theorem exec_verify_code {s t : State} (hw : s.cfg.wf = true) (hf : s.FAULT = none) (hv : s.cfg.HAS_VERIFY = true)
    (hk : s.KEYLEN.toNat = s.cfg.KEYSIZE) (h : exec .verify s = .next t) :
    t.FAULT = none ∨ t.FAULT = some .uninit := by
  rcases given_or_missing s hk with ⟨key, msg, hkey, hmsg⟩ | hmiss
  · have htag := tagBytes_ok hw hkey hmsg
    rcases readBytes_cases s.OUT 0 s.cfg.OUTPUTSIZE with ⟨cand, hcand⟩ | hcand
    · rw [verify_ok hf hv hk hcand htag] at h
      cases h
      exact .inl hf
    · rw [verify_out hf hv hk hcand] at h
      cases h
      exact .inr (raiseFault_code hf)
  · have hfault := exec_verify_missing hw hf hv hk (.inl hmiss)
    rw [h] at hfault
    exact .inr hfault.code_eq

/-- Settles O47, from `exec_hash_missing` and `exec_verify_missing`, `exec_hash_code` and `exec_verify_code`. -/
theorem hashFaults : Obligations.HashFaults := fun _ hw hf hk =>
  ⟨fun h => ⟨(exec_hash_missing hw hf hk h).code, fun hv => (exec_verify_missing hw hf hv hk (.inl h)).code⟩,
    fun hv h => (exec_verify_missing hw hf hv hk (.inr h)).code,
    fun _ => exec_hash_code hw hf hk, fun _ hv => exec_verify_code hw hf hv hk⟩

/-- Whether a well-formed configuration stays so with another strategy and mask: exactly for the strategies of R200. -/
theorem wf_withStrategyAndMask {c : Config} (hw : c.wf = true) (st : Strategy) {mask : Nat}
    (hm : mask < 2 ^ (8 * c.SUBKEYSIZE)) :
    ({ c with STRATEGY := st, CLAMP := .other mask } : Config).wf = true ↔ st.supported = true := by
  refine ⟨fun h => (wfFacts h).strategy, fun hst => ?_⟩
  simp only [Config.wf, Config.wfEngine, Bool.and_eq_true] at hw ⊢
  obtain ⟨⟨⟨hfield, hstorage⟩, hsizes⟩, ⟨⟨⟨hgeom, -⟩, hnf⟩, hnw⟩, hnp⟩ := hw
  refine ⟨⟨⟨hfield, hstorage⟩, ?_⟩, ⟨⟨⟨hgeom, hst⟩, hnf⟩, hnw⟩, hnp⟩
  obtain ⟨hb1, hb2, hb3, hsub, hkey, hout, htags, -⟩ := of_decide_eq_true hsizes
  exact decide_eq_true ⟨hb1, hb2, hb3, hsub, hkey, hout, htags, hm⟩

/-- The ranges of R200, strategy by strategy. -/
theorem supported_iff (st : Strategy) : st.supported = true ↔
    st = .chain ∨ (∃ B, st = .branch B ∧ 2 ≤ B ∧ B ≤ 16) ∨ (∃ D, st = .delay D ∧ 2 ≤ D ∧ D ≤ 16) ∨
      (∃ H, st = .tree H ∧ 1 ≤ H ∧ H ≤ 4) ∨ (∃ L, st = .nested L ∧ 2 ≤ L ∧ L ≤ 16) := by
  cases st <;> simp [Strategy.supported]

theorem ne_overflow_of_code {o : Option FaultCode} (h : o = none ∨ o = some .uninit) : o ≠ some .overflow := by
  rcases h with rfl | rfl
  · nofun
  · decide

theorem exec_hash_ne_overflow {s t : State} (hw : s.cfg.wf = true) (hf : s.FAULT = none)
    (h : exec .hash s = .next t) : t.FAULT ≠ some .overflow := by
  by_cases hk : s.KEYLEN.toNat = s.cfg.KEYSIZE
  · exact ne_overflow_of_code (exec_hash_code hw hf hk h)
  · have hfault := exec_hash_keylen hf hk
    rw [h] at hfault
    simp [hfault.code_eq]

/-- Without HAS_VERIFY the command is illegal (30_encoding.md R76). -/
theorem exec_verify_absent {s : State} (hf : s.FAULT = none) (hv : s.cfg.HAS_VERIFY = false) :
    exec .verify s = .next (faultedState s .illegal (encode .verify)) :=
  exec_illegal _ _ hf (by simp [Instr.wf, Instr.check, hv])

theorem exec_verify_ne_overflow {s t : State} (hw : s.cfg.wf = true) (hf : s.FAULT = none)
    (h : exec .verify s = .next t) : t.FAULT ≠ some .overflow := by
  cases hv : s.cfg.HAS_VERIFY with
  | false =>
    rw [exec_verify_absent hf hv] at h
    cases h
    simp
  | true =>
    by_cases hk : s.KEYLEN.toNat = s.cfg.KEYSIZE
    · exact ne_overflow_of_code (exec_verify_code hw hf hv hk h)
    · have hfault := exec_verify_keylen hf hv hk
      rw [h] at hfault
      simp [hfault.code_eq]

/-- Settles O48: the ranges by `wf_withStrategyAndMask`, a faulted core by `exec_faulted`, the rest by
`exec_hash_ne_overflow` and `exec_verify_ne_overflow`. -/
theorem hashNeverOverflows : Obligations.HashNeverOverflows := by
  refine ⟨fun st mask c hc hm => ?ranges, fun i s t hi hw h hover => ?never⟩
  case ranges =>
    rw [← supported_iff]
    rcases hc with rfl | rfl
    · exact wf_withStrategyAndMask r26_wf st hm
    · exact wf_withStrategyAndMask r44_wf st hm
  case never =>
    by_cases hf : s.FAULT = none
    · rcases hi with rfl | rfl
      · exact absurd hover (exec_hash_ne_overflow hw hf h)
      · exact absurd hover (exec_verify_ne_overflow hw hf h)
    · rw [exec_faulted i s hf] at h
      cases h
      exact hover

/-! ## VERIFY (R205) -/

theorem sameBytes_eq {cand tag : List Byte} (h : cand.length = tag.length) :
    sameBytes cand tag = decide (cand = tag) := by
  rw [sameBytes, Bool.eq_iff_iff, beq_iff_eq, byteDiff_zero h, decide_eq_true_eq]

/-- Settles O55: illegal by `exec_verify_absent`, the faults by `exec_verify_keylen` and `exec_verify_missing`, the
comparison by `sameBytes_eq`. -/
theorem verifyResult : Obligations.VerifyResult := by
  refine ⟨rfl, fun _ => exec_verify_absent, fun s hw hv hf => ⟨exec_verify_keylen hf hv, fun hk h =>
    exec_verify_missing hw hf hv hk (or_assoc.2 h)⟩, ?_⟩
  intro s key msg cand hw hv hf hk hm hcand
  have htag := tagBytes_ok hw hk hm
  have hlen : cand.length = (tagOf s.cfg key msg).length := by
    rw [readRun_length hcand, tagBytes_length hw htag]
  rw [verify_ok hf hv hk.1 (readBytes_eq_ok.2 hcand) htag, sameBytes_eq hlen]
  rfl

end Sys2Proof.Machine
end

section
/-! PROOFS. The schedules and the phases of HASH: every strategy reaches the target (43_hash_engine.md R170, R196), so
two strategies give the same state, and the internal steps of R176 agree with the one-step HASH. -/

namespace Sys2Proof.Machine

/-! ## The target (R170, R172) -/

/-- The target is the polynomial of the blocks modulo p (R170). -/
theorem target_eq (p k : Nat) (ms : List Nat) : target p k ms = blockPolynomial k ms % p := rfl

/-- A vector with the residue of the recurrence over the blocks has the value of the polynomial modulo p. -/
theorem val_mod_of_residue {c : Config} {acc k : Limbs} {ms : List Limbs}
    (h : residue c acc = hornerZ (residue c k) 0 (residues c ms)) :
    c.val acc % c.p = blockPolynomial (c.val k) (ms.map c.val) % c.p := by
  have htarget : residue c acc = (target c.p (c.val k) (ms.map c.val) : Nat) := by
    rw [h, target_cast, List.map_map]
    rfl
  rw [(ZMod.natCast_eq_natCast_iff' _ _ _).1 htarget, target_eq, Nat.mod_mod]

/-- Settles O50, from `schedule_spec`. -/
theorem scheduleReachesTarget : Obligations.ScheduleReachesTarget := by
  intro c k ms hw hk hms
  obtain ⟨pw, acc, hpw, hacc, hnarrow, hres⟩ := schedule_spec hw hk ms hms
  exact ⟨pw, acc, hpw, hacc, hnarrow, val_mod_of_residue hres⟩

/-! ## Two strategies (R196) -/

/-- The state with another strategy in its configuration. -/
def withStrategy (st : Strategy) (s : State) : State := { s with cfg := { s.cfg with STRATEGY := st } }

/-- The tag of the formula does not name the strategy, and the faults do not either. -/
theorem tagBytes_withStrategy {s : State} {st : Strategy} (hw : s.cfg.wf = true)
    (hw' : (withStrategy st s).cfg.wf = true) : tagBytes (withStrategy st s) = tagBytes s := by
  by_cases hk : s.KEYLEN.toNat = s.cfg.KEYSIZE
  · rcases given_or_missing s hk with ⟨key, msg, hkey, hmsg⟩ | hmiss
    · rw [tagBytes_ok hw hkey hmsg, tagBytes_ok (s := withStrategy st s) hw' hkey hmsg]
      exact congrArg _ (tagOf_strategy s.cfg st key msg)
    · rw [tagBytes_missing hw hk hmiss]
      exact tagBytes_missing (s := withStrategy st s) hw' hk hmiss
  · rw [tagBytes_keylen hk]
    exact tagBytes_keylen (s := withStrategy st s) hk

/-- Settles O49: the tags agree (`tagBytes_withStrategy`), so both HASHes write the same bytes or enter the
same fault. -/
theorem strategiesAgree : Obligations.StrategiesAgree := by
  intro s st hw hw'
  by_cases hf : s.FAULT = none
  · have htag := tagBytes_withStrategy hw hw'
    cases hs : tagBytes s with
    | ok tag => exact ⟨_, hash_ok hf hs, hash_ok (s := withStrategy st s) hf (htag.trans hs)⟩
    | error e =>
      refine ⟨_, hash_error hf hs, (hash_error (s := withStrategy st s) hf (htag.trans hs)).trans ?_⟩
      rw [raiseFault_hash hf, raiseFault_hash (s := withStrategy st s) hf]
      rfl
  · exact ⟨s, exec_faulted .hash s hf, exec_faulted .hash (withStrategy st s) hf⟩

/-! ## The internal steps (R176, 20_memory.md R67) -/

/-- The first evaluation makes the check of KEYLEN again (60_exceptions.md R222, 42_key.md R150). -/
theorem tagBytes_eq_evaluateFrom {s : State} (hw : s.cfg.wf = true) :
    tagBytes s = evaluateFrom s 0 s.cfg.NTAGS := by
  by_cases hk : s.KEYLEN.toNat = s.cfg.KEYSIZE
  · rw [tagBytes, requireKeylen_ok hk]
    rfl
  · obtain ⟨n, hn⟩ := Nat.exists_eq_add_of_le' (wfFacts hw).tagsPos
    have hkey : deriveKey s 0 = .error .keylen := bind_eq_error.2 (.inl (readKeySlot_keylen hk _))
    have heval : evaluate s 0 = .error .keylen := bind_eq_error.2 (.inl hkey)
    rw [tagBytes_keylen hk, hn, evaluateFrom, heval]
    rfl

/-- Before the first step no block is in flight. -/
theorem hashStart_within {s : State} (hw : s.cfg.wf = true) : (hashStart s).Within where
  flight := limit_pos (wfFacts hw).strategy
  last := nofun
  combine := nofun

/-- Settles O54: the steps by `tag_steps`, the blocks in flight by `phaseSteps_within`. -/
theorem smallStepsAgree : Obligations.SmallStepsAgree := by
  intro s hw hf
  refine ⟨?agree, fun n run hrun => ?flight⟩
  case agree =>
    obtain ⟨d, hd⟩ := Nat.exists_eq_add_of_le' (wfFacts hw).tagsPos
    have htag : tagBytes s = evaluateFrom s 0 (d + 1) := by rw [tagBytes_eq_evaluateFrom hw, hd]
    rcases tag_steps hw d 0 (by omega) 0 [] [] (Evaluation.start s.cfg) [] with
      ⟨e, n, hfrom, hsteps⟩ | ⟨tag, n, j, k, pw, ev, hfrom, hsteps⟩
    · exact .inr ⟨n, e, hsteps, hash_error hf (htag.trans hfrom)⟩
    · have hok := htag.trans hfrom
      exact .inl ⟨n, _, hsteps, rfl, rfl, tagBytes_length hw hok, hash_ok hf hok⟩
  case flight =>
    obtain ⟨hcfg, hflight, -, hcombine⟩ := phaseSteps_within hw (hashStart_within hw) hrun
    rw [hcfg] at hflight
    exact ⟨hcombine, hflight⟩

end Sys2Proof.Machine
end

section
/-! PROOFS. Consequences of the target formula (43_hash_engine.md R173, R178) and the testable properties of HASH as
laws (R206). -/

namespace Sys2Proof.Machine

/-! ## Targets in closed form (R173) -/

theorem target_one (p : Nat) (ms : List Nat) : target p 1 ms = ms.sum % p := by
  rw [← sum_getD, target]
  simp only [one_pow, Nat.mul_one]

theorem target_singleton (p k m : Nat) : target p k [m] = m * k % p := by
  simp [target]

/-- The empty message has no block (R171). -/
theorem messageInts_nil {c : Config} (hw : c.wf = true) : messageInts c [] = [] := by
  have hpos := (wfFacts hw).blockPos
  rw [messageInts, List.length_nil, Nat.zero_add, Nat.div_eq_of_lt (by omega)]

/-! ## Sub-tags (R175) -/

/-- Sub-tag `j` is the low SUBTAGSIZE bytes of the target, through the hook (41_data_format.md R137). -/
theorem subTagOf_eq {c : Config} (hw : c.wf = true) (key msg : List Byte) (j : Nat) :
    subTagOf c key msg j = c.TF.apply (leBytes
      (blockPolynomial (pointInt c key j) (messageInts c msg) % c.p % 2 ^ (8 * c.SUBTAGSIZE)) c.SUBTAGSIZE) := by
  rw [subTagOf, subTagBytes, packBytes, val_splitInt (wfFacts hw), target_eq]

/-- A target of 0 packs to the zero element (R178). -/
theorem subTagOf_of_target_zero {c : Config} (hw : c.wf = true) {key msg : List Byte} {j : Nat}
    (h : target c.p (pointInt c key j) (messageInts c msg) = 0) :
    subTagOf c key msg j = c.TF.apply (leBytes 0 c.SUBTAGSIZE) := by
  rw [subTagOf_eq hw, ← target_eq, h, Nat.zero_mod]

/-- The empty message has the zero element packed in every slot, whatever the key (R178). -/
theorem subTagOf_nil {c : Config} (hw : c.wf = true) (key : List Byte) (j : Nat) :
    subTagOf c key [] j = c.TF.apply (leBytes 0 c.SUBTAGSIZE) :=
  subTagOf_of_target_zero hw (by rw [messageInts_nil hw]; exact Nat.zero_mod _)

theorem leBytes_inj {x y n : Nat} (hx : x < 2 ^ (8 * n)) (hy : y < 2 ^ (8 * n)) :
    leBytes x n = leBytes y n ↔ x = y := by
  refine ⟨fun h => ?_, fun h => by rw [h]⟩
  have hle := congrArg leNat h
  rwa [leNat_leBytes, leNat_leBytes, Nat.mod_eq_of_lt hx, Nat.mod_eq_of_lt hy] at hle

/-- Settles O52: the faults as for any message; the result is the tag of the empty message, whatever MSG holds. -/
theorem emptyMessageTag : Obligations.EmptyMessageTag := by
  refine ⟨fun s hw hf _ => ⟨exec_hash_keylen hf, fun hk hx => exec_hash_missing hw hf hk (.inl hx)⟩, ?_⟩
  intro s key hw hf hk hlen
  have htag := tagBytes_ok hw hk (message_empty hlen)
  refine ⟨_, hash_ok hf htag, hf, rfl, fun j hj => ?slot, fun M => ?unread⟩
  case slot => exact (readRun_tag_slot _ _ key [] hj).trans (congrArg _ (subTagOf_nil hw key j))
  case unread => exact hash_ok (s := { s with MSG := M }) hf (tagBytes_ok hw hk (message_empty hlen))

/-! ## Different messages, different polynomials (R173(d)) -/

theorem blockPolynomial_ne {c : Config} (hw : c.wf = true) {xs ys : List Byte}
    (h : messageInts c xs ≠ messageInts c ys) :
    ∃ k, blockPolynomial k (messageInts c xs) ≠ blockPolynomial k (messageInts c ys) :=
  ⟨2 ^ (8 * c.BLOCKSIZE + 1), fun heq => h (blockPolynomial_injective (Nat.one_lt_two_pow (by omega))
    (messageInts_lt hw xs) (messageInts_lt hw ys) heq)⟩

/-- A zero point in every slot gives the all-zero tag (R173(a)). -/
theorem tagOf_of_points_zero {c : Config} (hw : c.wf = true) (hTF : c.TF = .identity) {key : List Byte}
    (msg : List Byte) (h : ∀ j, j < c.NTAGS → pointInt c key j = 0) :
    tagOf c key msg = List.replicate c.OUTPUTSIZE 0 := by
  have hslot : ∀ j ∈ List.range c.NTAGS, subTagOf c key msg j = List.replicate c.SUBTAGSIZE 0 := by
    intro j hj
    have hzero : target c.p (pointInt c key j) (messageInts c msg) = 0 := by
      rw [h j (List.mem_range.1 hj), target_zero]
    rw [subTagOf_of_target_zero hw hzero, hTF, Hook.apply, leBytes_zero]
  rw [tagOf, List.flatMap_congr hslot, (wfFacts hw).outSize]
  refine List.eq_replicate_iff.2 ⟨by simp, fun b hb => ?_⟩
  obtain ⟨_, -, hb⟩ := List.mem_flatMap.1 hb
  exact List.eq_of_mem_replicate hb

/-! ## The laws (R206) -/

/-- Without a hook two sub-tags are equal when the bytes that `packbytes` keeps of the two targets are. -/
theorem subTagOf_eq_iff {c : Config} (hw : c.wf = true) (hTF : c.TF = .identity) (key msg msg' : List Byte) (j : Nat) :
    subTagOf c key msg j = subTagOf c key msg' j ↔
      blockPolynomial (pointInt c key j) (messageInts c msg) % c.p % 2 ^ (8 * c.SUBTAGSIZE) =
        blockPolynomial (pointInt c key j) (messageInts c msg') % c.p % 2 ^ (8 * c.SUBTAGSIZE) := by
  have hpos : 0 < 2 ^ (8 * c.SUBTAGSIZE) := by positivity
  rw [subTagOf_eq hw, subTagOf_eq hw, hTF, Hook.apply, Hook.apply, leBytes_inj (Nat.mod_lt _ hpos) (Nat.mod_lt _ hpos)]

/-- REDUCE after CARRY has the wide value modulo p (40_field_arith.md R107). -/
theorem val_reduce_carry {c : Config} (hw : c.wf = true) {w y : Limbs} (hl : w.length = c.N)
    (h : carryLimbs c w = .ok y) : c.val (reduceLimbs c y) = c.val w % c.p := by
  have W := wfFacts hw
  obtain ⟨hnarrow, -⟩ := carryLimbs_ok W hl h
  rw [(reduceLimbs_spec W hnarrow).2, val_carryLimbs W hl h]

/-- The laws (a) to (e), each from the tag of the formula (`hash_gives`) or from the laws of the reducer. -/
theorem hashLaws {c : Config} (hw : c.wf = true) : HashLaws c where
  determinism := fun _ _ _ _ hs ht => ⟨_, hash_gives hw hs, hash_gives hw ht⟩
  crossStrategy := fun st _ _ key msg hw' hs ht =>
    ⟨_, hash_gives hw hs, tagOf_strategy c st key msg ▸ hash_gives hw' ht⟩
  lengthSensitivity := fun hTM key msg =>
    ⟨blockPolynomial_ne hw fun h => by simpa using messageInts_injective hw hTM h,
      fun hTF => subTagOf_eq_iff hw hTF key msg (msg ++ [0])⟩
  keySensitivity := fun hTK _ _ _ _ msg hkeys hs ht =>
    ⟨_, hash_gives hw hs, tagOf_of_sameClampedKey hTK hkeys msg ▸ hash_gives hw ht⟩
  reductionIdempotence := fun _ ha => ⟨reduceLimbs_idem (wfFacts hw) ha, val_reduceLimbs_lt (wfFacts hw) ha⟩
  carryCorrectness := fun _ _ hl h => val_reduce_carry hw hl h

/-- Settles O51, consequence by consequence; the laws are `hashLaws`. -/
theorem targetConsequences : Obligations.TargetConsequences := by
  refine ⟨fun p ms => ⟨target_zero p ms, target_one p ms⟩, target_singleton,
    fun c key msg hw hTF h => tagOf_of_points_zero hw hTF msg h, fun c x y hw hTM hne => ?messages, fun _ => hashLaws⟩
  case messages =>
    have hints : messageInts c x ≠ messageInts c y := fun h => hne (messageInts_injective hw hTM h)
    exact ⟨hints, blockPolynomial_ne hw hints⟩

end Sys2Proof.Machine
end

section
/-! PROOFS. Exceptions (60_exceptions.md): what fault entry writes and leaves (R226), when E_KEYLEN and E_RANGE are
raised (R222, R223), and the host's write of INLEN that is refused without a fault (R224). -/

namespace Sys2Proof.Machine

/-! ## Fault entry (R226) -/

/-- A command that raises a fault goes through the one fault entry: that of its own kind, or that of a single-operation
command when the command is illegal (log entry 12). -/
theorem exec_raiseFault {i : Instr} {s t : State} {code : FaultCode} (hf : s.FAULT = none)
    (he : exec i s = .next t) (hc : t.FAULT = some code) :
    ∃ kind, t = raiseFault kind code (encode i) s ∧
      (kind = commandKind i ∨ kind = .single ∧ i.wf s.cfg = false) := by
  rcases exec_cases i s with ⟨hn, -⟩ | ⟨-, hw, h⟩ | ⟨-, u, hb, h⟩ | ⟨-, e, -, h⟩
  · exact absurd hf hn
  · rw [h] at he
    cases he
    cases hc
    exact ⟨.single, (raiseFault_single _ _ _ hf).symm, .inr ⟨rfl, hw⟩⟩
  · rw [h] at he
    cases he
    obtain ⟨-, -, -, -, -, -, hfault, -⟩ := body_inputs hb
    rw [hfault, hf] at hc
    cases hc
  · rw [h] at he
    cases he
    obtain rfl : e = code := Option.some.inj ((raiseFault_code hf).symm.trans hc)
    exact ⟨commandKind i, rfl, .inl rfl⟩

/-- A legal command enters the fault of its own kind. -/
theorem exec_raiseFault_of_wf {i : Instr} {s t : State} {code : FaultCode} (hf : s.FAULT = none)
    (hw : i.wf s.cfg = true) (he : exec i s = .next t) (hc : t.FAULT = some code) :
    t = raiseFault (commandKind i) code (encode i) s := by
  obtain ⟨kind, ht, rfl | ⟨-, hill⟩⟩ := exec_raiseFault hf he hc
  · exact ht
  · rw [hw] at hill
    cases hill

/-- A single-operation command that raises a fault changes the fault state alone, whether it is legal or not. -/
theorem exec_faultedState {i : Instr} {s t : State} {code : FaultCode} (hf : s.FAULT = none) (h1 : i ≠ .hash)
    (h2 : i ≠ .verify) (he : exec i s = .next t) (hc : t.FAULT = some code) :
    t = faultedState s code (encode i) := by
  obtain ⟨kind, ht, hkind⟩ := exec_raiseFault hf he hc
  rw [commandKind_single h1 h2] at hkind
  obtain rfl : kind = .single := hkind.elim id And.left
  rw [ht, raiseFault_single _ _ _ hf]

/-- Settles O14: the fault registers are the same for every kind of command, the rest is `exec_raiseFault_of_wf` for
HASH and VERIFY (OUT by `byteFrame`) and `exec_faultedState` for the others; refusal is `present_faulted` and
`exec_faulted`. -/
theorem faultEntry : Obligations.FaultEntry := by
  refine ⟨fun i s t code hf he hc => ?entry, fun s w hf ⟨e, hd⟩ => present_illegal hf hd,
    fun s w hf => present_faulted hf w, exec_faulted⟩
  case entry =>
    obtain ⟨kind, ht, -⟩ := exec_raiseFault hf he hc
    obtain ⟨-, hinfo, hphase, hvalid⟩ := raiseFault_registers kind s code (encode i) hf
    rw [← ht] at hinfo hphase hvalid
    obtain ⟨-, hkey, hkeylen, hmsg, hinlen, -⟩ := exec_inputs he
    refine ⟨hinfo, hphase, hvalid, ?hash, ?verify, fun h1 h2 => exec_faultedState hf h1 h2 he hc,
      hkey, hkeylen, hmsg, hinlen⟩
    case hash =>
      rintro rfl
      rw [exec_raiseFault_of_wf hf rfl he hc, commandKind, raiseFault_hash hf]
      exact ⟨clearMarks_noneWritten s, rfl⟩
    case verify =>
      rintro rfl hv
      obtain ⟨-, -, -, hout, -⟩ := byteFrame .verify s t he
      refine and_assoc.1 ⟨?_, hout rfl⟩
      rw [exec_raiseFault_of_wf hf (verify_ready hf hv).2 he hc, commandKind, raiseFault_verify hf]
      exact ⟨clearMarks_noneWritten s, rfl⟩

/-! ## E_KEYLEN (R222) -/

/-- Settles O15, command by command; after reset KEYLEN is 0 by definition. -/
theorem keylenFault : Obligations.KeylenFault := by
  refine ⟨fun s fd idx hk => ⟨fun hr => exec_unpack_keylen hr hk, fun hr => exec_dkey_keylen hr hk⟩,
    fun s hk hf => ⟨?hash, fun hv => ?verify⟩, fun _ => rfl⟩
  case hash =>
    obtain ⟨t, he, hcode, hphase, hvalid, -⟩ := exec_hash_keylen hf hk
    exact ⟨t, he, hcode, hphase, hvalid⟩
  case verify =>
    obtain ⟨t, he, hcode, hphase, -⟩ := exec_verify_keylen hf hv hk
    exact ⟨t, he, hcode, hphase⟩

/-! ## E_RANGE (R223) -/

/-- With no byte left the last block is empty, and ENCL reads no byte of MSG. -/
theorem exec_encl_empty {s : State} {fd : RegNo} (hr : Ready (.encl fd) s) (h : remaining s = 0) :
    exec (.encl fd) s =
      .next { writeF s fd (splitInt s.cfg (lastBlockInt s.cfg [])) with MPTR := s.INLEN } :=
  exec_encl_of_readRun hr (h ▸ Nat.zero_le _) (by rw [h]; rfl)

/-- The fault that public values require of HASH and VERIFY is `E_KEYLEN`, so never `E_RANGE`. -/
theorem requiredOf_engine_ne_range {i : Instr} (hi : i = .hash ∨ i = .verify) (s : State) :
    requiredOf s i ≠ some .range := by
  have hreq : requiredOf s i = if s.KEYLEN.toNat = s.cfg.KEYSIZE then none else some .keylen := by
    rcases hi with rfl | rfl <;> rfl
  rw [hreq]
  split <;> simp

/-- `E_RANGE` is a required fault, and HASH and VERIFY have no way to it. -/
theorem exec_engine_ne_range {i : Instr} {s t : State} (hi : i = .hash ∨ i = .verify) (hf : s.FAULT = none)
    (he : exec i s = .next t) : t.FAULT ≠ some .range := by
  rw [Ne, required_iff hf he rfl]
  rintro (⟨-, hill⟩ | ⟨-, hreq⟩)
  · cases hill
  · exact requiredOf_engine_ne_range hi s hreq

/-- Settles O16: the range checks of ENCB and ENCL, the empty last block, and `exec_engine_ne_range`. -/
theorem rangeFault : Obligations.RangeFault := fun _ _ =>
  ⟨exec_encb_range, exec_encl_range, exec_encl_empty, fun _ _ hi _ => exec_engine_ne_range hi⟩

/-! ## INLEN and MSGMAX (R224) -/

/-- In a bounded message space exactly the values up to MSGMAX are accepted. -/
theorem inlenAccepted_iff_le {c : Config} {m : Nat} (hm : c.MSGMAX = some m) (v : BitVec 64) :
    inlenAccepted c v = true ↔ v.toNat ≤ m := by
  simp [inlenAccepted, hm]

/-- No command word changes INLEN. -/
theorem present_inlen {s t : State} {w : Word} (he : present exec w s = .next t) : t.INLEN = s.INLEN := by
  unfold present at he
  split at he
  · obtain ⟨-, -, -, -, hinlen, -⟩ := exec_inputs he
    exact hinlen
  · cases he
    obtain ⟨-, -, -, -, hinlen, -⟩ := raiseFault_inputs .single s .illegal w
    exact hinlen

/-- A host action keeps INLEN, or leaves a value that the message space accepts. -/
theorem hostStep_inlen {s t : State} {act : HostAction} (he : hostStep (present exec) act s = .next t) :
    t.INLEN = s.INLEN ∨ inlenAccepted s.cfg t.INLEN = true := by
  cases act with
  | writeKey a b =>
    simp only [hostStep, hostWriteKey] at he
    split at he <;> cases he
    exact .inl rfl
  | writeKeylen v =>
    cases he
    exact .inl rfl
  | writeMsg a b =>
    simp only [hostStep, hostWriteMsg] at he
    split at he <;> cases he
    exact .inl rfl
  | writeInlen v =>
    simp only [hostStep, hostWriteInlen] at he
    split at he <;> cases he
    next hv => exact .inr hv
    next => exact .inl rfl
  | writeOut a b =>
    simp only [hostStep, hostWriteOut] at he
    split at he
    · split at he <;> cases he
      exact .inl rfl
    · cases he
  | read r =>
    obtain rfl := hostReadStep_eq he
    exact .inl rfl
  | command w => exact .inl (present_inlen he)
  | reset =>
    cases he
    exact .inr (inlenAccepted_zero s.cfg)

/-- A step keeps INLEN, or leaves a value that the message space accepts. -/
theorem step_inlen {s t : State} (he : step s = .next t) :
    t.INLEN = s.INLEN ∨ inlenAccepted s.cfg t.INLEN = true := by
  cases hw : s.cfg.wf with
  | false =>
    rw [step_of_not_wf hw] at he
    cases he
  | true =>
    cases hp : s.port with
    | nil =>
      simp only [step, hw, if_true, takeAction, hp] at he
      cases he
      exact .inl rfl
    | cons act rest =>
      rw [step_action hw hp] at he
      exact hostStep_inlen (s := { s with port := rest }) he

/-- Settles O10: a value above MSGMAX is not accepted; the invariant is `step_inlen`. -/
theorem inlenAboveMsgmaxRefused : Obligations.InlenAboveMsgmaxRefused := by
  refine ⟨fun s v rest m hw hp hm hv => ?refused, fun s t m hm hle he => ?invariant⟩
  case refused =>
    rw [step_action hw hp]
    exact if_neg fun hacc => Nat.not_le.2 hv ((inlenAccepted_iff_le hm v).1 hacc)
  case invariant =>
    rcases step_inlen he with hkept | hacc
    · rwa [hkept]
    · exact (inlenAccepted_iff_le hm _).1 hacc

end Sys2Proof.Machine
end

section
/-! PROOFS. Reset and public faults (70_reset_and_hazards.md): reset is the only way out of `Faulted` (R250), and the
faults that hardware must report depend on public values only (R258). -/

namespace Sys2Proof.Machine

/-! ## Reset (R250) -/

/-- While `FAULT` is not 0, an action of the host other than reset leaves `PHASE`, `FAULT` and `FINFO`: the host writes
none of them, and a command word is refused (60_exceptions.md R226). -/
theorem hostStep_faulted {s t : State} {act : HostAction} (hf : s.FAULT ≠ none) (ha : act ≠ .reset)
    (he : hostStep (present exec) act s = .next t) :
    t.PHASE = s.PHASE ∧ t.FAULT = s.FAULT ∧ t.FINFO = s.FINFO := by
  cases act with
  | writeKey x b =>
    simp only [hostStep, hostWriteKey] at he
    split at he <;> cases he
    exact ⟨rfl, rfl, rfl⟩
  | writeKeylen v =>
    cases he
    exact ⟨rfl, rfl, rfl⟩
  | writeMsg x b =>
    simp only [hostStep, hostWriteMsg] at he
    split at he <;> cases he
    exact ⟨rfl, rfl, rfl⟩
  | writeInlen v =>
    simp only [hostStep, hostWriteInlen] at he
    split at he <;> cases he <;> exact ⟨rfl, rfl, rfl⟩
  | writeOut x b =>
    simp only [hostStep, hostWriteOut] at he
    split at he
    · split at he <;> cases he
      exact ⟨rfl, rfl, rfl⟩
    · cases he
  | read r =>
    obtain rfl := hostReadStep_eq he
    exact ⟨rfl, rfl, rfl⟩
  | command w =>
    cases (present_faulted hf w).symm.trans he
    exact ⟨rfl, rfl, rfl⟩
  | reset => exact absurd rfl ha

/-- A step that answers a next state waits for the host, or takes the first of its actions (20_memory.md R59). -/
theorem step_next_cases {s t : State} (he : step s = .next t) :
    t = s ∨ ∃ act rest, s.port = act :: rest ∧ hostStep (present exec) act { s with port := rest } = .next t := by
  cases hw : s.cfg.wf with
  | false =>
    rw [step_of_not_wf hw] at he
    cases he
  | true =>
    cases hp : s.port with
    | nil =>
      simp only [step, hw, if_true, takeAction, hp] at he
      cases he
      exact .inl rfl
    | cons act rest =>
      rw [step_action hw hp] at he
      exact .inr ⟨act, rest, rfl, he⟩

/-- A step of a faulted core that does not take a reset leaves `PHASE`, `FAULT` and `FINFO`. -/
theorem step_faulted {s t : State} (hf : s.FAULT ≠ none) (hr : s.port.head? ≠ some .reset) (he : step s = .next t) :
    t.PHASE = s.PHASE ∧ t.FAULT = s.FAULT ∧ t.FINFO = s.FINFO := by
  rcases step_next_cases he with rfl | ⟨act, rest, hp, hact⟩
  · exact ⟨rfl, rfl, rfl⟩
  · have ha : act ≠ .reset := by
      rintro rfl
      exact hr (by rw [hp, List.head?_cons])
    exact hostStep_faulted (s := { s with port := rest }) hf ha hact

/-- Settles O8: reset leaves the table by `resetValues`, and `step_faulted` says that nothing else leaves `Faulted`. -/
theorem resetIsTheOnlyWayOut : Obligations.ResetIsTheOnlyWayOut :=
  ⟨fun s _ hw hp => ⟨_, step_action hw hp, resetValues s.cfg, rfl, rfl⟩, fun _ _ => step_faulted⟩

/-! ## Required faults are public (R258) -/

/-- Settles O60: a faulted core keeps its `FAULT`, which is public; otherwise `required_iff` says which required fault
is raised, by the configuration and `requiredOf` alone. -/
theorem requiredFaultsArePublic : Obligations.RequiredFaultsArePublic := by
  intro i s t s' t' hpub hs ht code hc
  have hreq : requiredOf s i = requiredOf t i := requiredOf_public hpub i
  obtain ⟨hcfg, -, -, -, -, hfault, -⟩ := hpub
  by_cases hf : s.FAULT = none
  · rw [required_iff hf hs hc, required_iff (hfault ▸ hf) ht hc, hcfg, hreq]
  · cases (exec_faulted i s hf).symm.trans hs
    cases (exec_faulted i t (hfault ▸ hf)).symm.trans ht
    rw [hfault]

end Sys2Proof.Machine
end
